-- ==== Sys2Proof/Word.lean ====
section
/-!
DEFINITION. The word types of the Yallazer and the plainest arithmetic on them (R1 to R7).
-/
namespace Sys2Proof

/-- A byte of memory (R5). -/
abbrev Byte := BitVec 8

/-- A lane register, 32 bits (R258). -/
abbrev V32 := BitVec 32

/-- A uniform register, an instruction word, a virtual address: 64 bits (R26, R258). -/
abbrev Word := BitVec 64

/-- A lane mask: bit l is lane l (R7). Gangs are at most 64 lanes wide. -/
abbrev Mask := BitVec 64

/-- A finite map from numbers to data, kept as pairs in strictly rising key order with no pair
that holds the map's default, so that equal maps are equal data. -/
abbrev Map (α : Type) := List (Nat × α)

end Sys2Proof
end

