-- ==== Sys2Proof/Config.lean ====
section
/-!
DEFINITION. What the spec leaves open: free values. Each is a constant without a body, so nothing can be proved of
its values; a statement that mentions one holds for every value it may have. Functions of a counter are applied to
`State.free`, which each use advances.
-/
namespace Sys2Proof

/-- A choice that the hardware makes and the spec leaves open: which cached or current copy an access meets, which
line is evicted, which entry of a group is used. Applied to a counter, so that every choice is independent. -/
opaque Config.pick : Nat → Nat

/-- The set of its home slice's registry in which a unit's entry stands; the spec gives the number of sets, not the index
(R121, assumption 18). -/
opaque Config.registrySet : Nat → Nat

/-- PLANE, SEG and REP of a running record (R341), bits 11 to 0: the rules give no order of the planes, segments and repeats
within a row. A function of the moment in ps, the gang and the sequencer (assumption 59). -/
opaque Config.rowPlace : Nat → Nat → Nat → BitVec 12

/-- The result FRCP would return, before the bound of R280 is enforced (assumption 10). -/
opaque Config.frcp : V32 → V32
/-- The result FRSQ would return, before the bound of R280 is enforced (assumption 10). -/
opaque Config.frsq : V32 → V32
/-- The result FEXP2 would return, before the bound of R280 is enforced (assumption 10). -/
opaque Config.fexp2 : V32 → V32
/-- The result FLOG2 would return, before the bound of R280 is enforced (assumption 10). -/
opaque Config.flog2 : V32 → V32
/-- The result FSIN would return, before the bound of R280 is enforced (assumption 10). -/
opaque Config.fsin : V32 → V32
/-- The result FCOS would return, before the bound of R280 is enforced (assumption 10). -/
opaque Config.fcos : V32 → V32
/-- The result FTANH would return, before the bound of R280 is enforced (assumption 10). -/
opaque Config.ftanh : V32 → V32

/-- The voltage that the HKC sets for a ceiling in MHz, in mV above 420 (R483, assumption 129). -/
opaque Config.nominalMv : Nat → BitVec 9

/-- The image of the firmware the package was made with (assumption 70). -/
opaque Config.factory : List Byte
/-- The stages of a firmware image, the first-stage firmware first (assumption 70). -/
opaque Config.stages : List Byte → List (List Byte)
/-- The device configuration that the HKC holds at start-up, as the bytes that are measured: its host list, DST address,
package number and member mask (assumption 70). -/
opaque Config.deviceConfig : List (BitVec 128) → Nat → Nat → Nat → List Byte
/-- The private part of the identity key, derived from the fused seed (R479; assumption 71). -/
opaque Config.identityKey : Nat
/-- The vendor's public point held in ROM (R481; assumption 71). -/
opaque Config.vendorKey : Nat × Nat

end Sys2Proof
end

