-- ==== Sys2Proof/Machine/Maps.lean ====
section
/-!
DEFINITION. Tables and maps by number, kept in one canonical form: keys strictly rising, and in a map with a default
no entry equal to the default. Every update keeps the form (Laws/Maps.lean).
-/
namespace Sys2Proof.Machine

/-- The record of a number. -/
def tget {α : Type} : List (Nat × α) → Nat → Option α
  | [], _ => none
  | (j, x) :: m, k => if j = k then some x else tget m k

/-- Put a record under a number. -/
def tput {α : Type} : List (Nat × α) → Nat → α → List (Nat × α)
  | [], k, x => [(k, x)]
  | (j, y) :: m, k, x =>
    if k < j then (k, x) :: (j, y) :: m
    else if k = j then (k, x) :: m
    else (j, y) :: tput m k x

/-- Remove the record of a number. -/
def tdel {α : Type} : List (Nat × α) → Nat → List (Nat × α)
  | [], _ => []
  | (j, y) :: m, k => if j = k then m else (j, y) :: tdel m k

/-- The value of a key of a map with default `d`. -/
def mget {α : Type} (d : α) (m : Map α) (k : Nat) : α := (tget m k).getD d

/-- Write a key of a map with default `d`. -/
def mset {α : Type} [DecidableEq α] (d : α) (m : Map α) (k : Nat) (x : α) : Map α :=
  if x = d then tdel m k else tput m k x

/-- Change a record if it is there. -/
def tmod {α : Type} (m : List (Nat × α)) (k : Nat) (f : α → α) : List (Nat × α) :=
  match tget m k with
  | none => m
  | some x => tput m k (f x)

/-- Keys strictly rising from a bound. -/
def risingFrom {α : Type} : Nat → List (Nat × α) → Bool
  | _, [] => true
  | b, (j, _) :: m => decide (b ≤ j) && risingFrom (j + 1) m

/-- The canonical form of a map with default `d`. -/
def mapWf {α : Type} [DecidableEq α] (d : α) (m : Map α) : Bool :=
  risingFrom 0 m && m.all fun e => decide (e.2 ≠ d)

/-- The numbers 0 to n - 1 as a list. -/
def upto : Nat → List Nat
  | 0 => []
  | n + 1 => upto n ++ [n]

end Sys2Proof.Machine
end

