-- ==== Sys2Proof/Machine/Bits.lean ====
section
/-!
DEFINITION. Bit fields, byte order and lane masks (R2, R5, R7).
-/
namespace Sys2Proof.Machine

/-- Bit l of a lane mask (R7). -/
def hasLane (m : Mask) (l : Nat) : Bool := m.getLsbD l

/-- The mask of lane l alone. -/
def laneBit (l : Nat) : Mask := (1#64 : Mask) <<< l

/-- The lanes concerned by what meets one lane's part of an access: that lane; for the uniform pipe, whose part has the number
64, none is named. -/
def laneMask (l : Nat) : Option Mask := if l < 64 then some (laneBit l) else none

/-- The lanes of a mask below 64, in ascending order. -/
def lanesOf (m : Mask) : List Nat := (List.range 64).filter fun l => m.getLsbD l

/-- Population count. -/
def popcount {n : Nat} (x : BitVec n) : Nat := ((List.range n).filter fun i => x.getLsbD i).length

/-- The lowest lane of a mask, if any. -/
def lowest (m : Mask) : Option Nat := (List.range 64).find? fun l => m.getLsbD l

/-- The lanes 0 to w - 1. -/
def fullMask (w : Nat) : Mask := BitVec.ofNat 64 (2 ^ w - 1)

/-- The n bytes of a value, lowest first (R5). -/
def bytesOf : Nat → Nat → List Byte
  | 0, _ => []
  | n + 1, x => BitVec.ofNat 8 x :: bytesOf n (x / 256)

/-- The value of bytes, lowest first (R5). -/
def valOf : List Byte → Nat
  | [] => 0
  | b :: bs => b.toNat + 256 * valOf bs

/-- A bit as a number. -/
def bnat (b : Bool) : Nat := if b then 1 else 0

/-- A bit as a word. -/
def bword (b : Bool) : Word := if b then 1 else 0

/-- Bits [lo+n-1:lo] of a number. -/
def nbits (x lo n : Nat) : Nat := x / 2 ^ lo % 2 ^ n

/-- The signed value of the low n bits of a number. -/
def snat (x n : Nat) : Int :=
  let y := x % 2 ^ n
  if 2 * y < 2 ^ n then (y : Int) else (y : Int) - (2 ^ n : Nat)

/-- The low n bits of an integer, as a number. -/
def wrapNat (x : Int) (n : Nat) : Nat := (x % ((2 ^ n : Nat) : Int)).toNat

/-- SAT (R8): a value clamped to a closed range. -/
def clampInt (x lo hi : Int) : Int := if x < lo then lo else if hi < x then hi else x

/-- Sign extension of a bit vector to a word. -/
def sx64 {n : Nat} (x : BitVec n) : Word := x.signExtend 64

/-- Zero extension of a bit vector to a word. -/
def zx64 {n : Nat} (x : BitVec n) : Word := x.setWidth 64

/-- Round x up to a multiple of m. -/
def alignUp (x m : Nat) : Nat := (x + m - 1) / m * m

end Sys2Proof.Machine
end

