-- ==== Sys2Proof/Syntax.lean ====
section
/-!
DEFINITION. The syntax of the Yallazer's steps: the 146 instruction forms of the opcode map (R79) with
their operands (R35 to R60), and the 78 device events and host commands of the opcode table.
-/
namespace Sys2Proof

/-- Special operands and small special registers of R48. -/
inductive Special where
  | lane | width | gangid | teamid | vallot
  | f0 | f1 | fm1 | fhalf | f2 | finf | fninf | fnan | fln2 | flog2e | fpi
  | ones
  deriving DecidableEq, Repr

/-- A 9-bit operand field (R47); `ix` says that the field's index bit is set (R51). -/
inductive Opd where
  | v (n : BitVec 8) (ix : Bool)
  | s (n : BitVec 6)
  | k (n : BitVec 3)
  | p (sp : Special)
  | c (n : BitVec 6)
  deriving DecidableEq, Repr

/-- The common prefix but for the opcode (R35). -/
structure Pre where
  stall : BitVec 4
  pn : Bool
  pk : BitVec 3
  deriving DecidableEq, Repr

/-- Format R with destination and one source. -/
structure R2 where
  p : Pre
  ixs : BitVec 2
  d : Opd
  a : Opd
  deriving DecidableEq, Repr

/-- Format R with destination and two sources. -/
structure R3 where
  p : Pre
  ixs : BitVec 2
  d : Opd
  a : Opd
  b : Opd
  deriving DecidableEq, Repr

/-- Format R with destination and three sources. -/
structure R4 where
  p : Pre
  ixs : BitVec 2
  d : Opd
  a : Opd
  b : Opd
  c : Opd
  deriving DecidableEq, Repr

/-- Format I with destination, source and immediate (R40). -/
structure I2 where
  p : Pre
  ixs : BitVec 2
  d : Opd
  a : Opd
  imm : BitVec 24
  deriving DecidableEq, Repr

/-- Format I with one operand and an immediate (R40). -/
structure I1 where
  p : Pre
  ixs : BitVec 2
  d : Opd
  imm : BitVec 24
  deriving DecidableEq, Repr

/-- Format X: prefix and first register of the parameter run (R46). -/
structure X1 where
  p : Pre
  sb : BitVec 6
  deriving DecidableEq, Repr

/-- Integer types (R269). -/
inductive ITy where | i32 | n32 | i64 | n64
  deriving DecidableEq, Repr

/-- Integer comparisons (R269). -/
inductive ICond where | eq | ne | lt | le | gt | ge
  deriving DecidableEq, Repr

/-- Rounding modes (R275). -/
inductive RMode where | rn | rz | rp | rm
  deriving DecidableEq, Repr

/-- FN of the F32 instructions (R275). -/
structure FFn where
  sat : Bool
  ftz : Bool
  rm : RMode
  deriving DecidableEq, Repr

/-- FCMP conditions (R278). -/
inductive FCond where | eq | ne | lt | le | gt | ge | un | or
  deriving DecidableEq, Repr

/-- FN of the packed half instructions (R281). -/
structure HFn where
  sat : Bool
  bf : Bool
  rm : RMode
  deriving DecidableEq, Repr

/-- Conversions of CVT (R283), in the order of FN[5:2]. -/
inductive CvtOp where
  | f32I32 | f32N32 | f32I64 | f32N64
  | i32F32 | n32F32 | i64F32 | n64F32
  | f16F32 | bf16F32 | f32F16 | f32Bf16
  | i8I32 | i16I32 | n8I32 | n16I32
  deriving DecidableEq, Repr

/-- Codes of CVTP (R284). -/
inductive CvtpOp where | f16x2 | bf16x2 | e4m3x2 | e5m2x2
  deriving DecidableEq, Repr

/-- MOVK parts (R272). -/
inductive MovkPart where | h0 | h1 | h2
  deriving DecidableEq, Repr

/-- LOGI operations (R274). -/
inductive LogiOp where | and | or | xor | andn
  deriving DecidableEq, Repr

/-- SHFL modes (R287). -/
inductive ShflMode where | idx | up | down | xor
  deriving DecidableEq, Repr

/-- VOTE functions (R288). -/
inductive VoteFn where | any | all | uni
  deriving DecidableEq, Repr

/-- Operations of GRED and GSCAN (R289). -/
inductive GOp where | add | min | max | and | or | xor | fadd | fmin | fmax
  deriving DecidableEq, Repr

/-- Special registers of R262. -/
inductive SpReg where
  | lane | width | gangid | teamid | vallot | teamdim | griddim | sib | gdesc | evt | spw
  | clk | time | fpflags | bkconf | modez | polmis
  | satc (n : BitVec 3)
  | emuop | emupc | emufn | emud | emua | emub | emuc
  | rprog (q : BitVec 2)
  | ctx | fmask | fva | fcause | hcause | hpc | hmask | haddr
  deriving DecidableEq, Repr

/-- Access sizes of Formats M and A (R42). -/
inductive Sz where | b8 | b16 | b32 | b64 | b128 | pw
  deriving DecidableEq, Repr

/-- Cache policies of Format M (R42). -/
inductive Pol where | page | stream | keep | l2only | nol2
  deriving DecidableEq, Repr

/-- Orders of Format A (R43, R44). -/
inductive Ord where | pln | acq | rel | ar | sc | cmt
  deriving DecidableEq, Repr

/-- Atomic operations (R183). -/
inductive AOp where
  | add | imin | imax | nmin | nmax | and | or | xor | xchg | fadd | fmin | fmax | fmul
  deriving DecidableEq, Repr

/-- Format M with a data operand (R42). -/
structure MF where
  p : Pre
  ixs : BitVec 2
  v : Opd
  xr : BitVec 3
  o : Opd
  sz : Sz
  pol : Pol
  chk : Bool
  disp : BitVec 16
  deriving DecidableEq, Repr

/-- Format M without data operand: PFCH, CWB and ICINV (R171). -/
structure MLineF where
  p : Pre
  ixs : BitVec 2
  xr : BitVec 3
  o : Opd
  pol : Pol
  disp : BitVec 16
  deriving DecidableEq, Repr

/-- Format A (R43). -/
structure AF where
  p : Pre
  ixs : BitVec 2
  v : Opd
  xr : BitVec 3
  o : Opd
  sz : Sz
  ord : Ord
  chk : Bool
  disp : BitVec 12
  deriving DecidableEq, Repr

/-- In-flight paths of WAITC and ICNT (R60). -/
inductive Path where | g | s | c | m | a
  deriving DecidableEq, Repr

/-- Conversion of BCOPY (R212). -/
inductive CopyConv where | raw | qnt | dqt
  deriving DecidableEq, Repr

/-- BFILL sizes (R230). -/
inductive FillSz where | b8 | b16 | b32 | b64
  deriving DecidableEq, Repr

/-- Reckoning precision modes PM (R60). -/
inductive PMode where | exact | avg1 | avg2 | avg4 | avg8 | avg16
  deriving DecidableEq, Repr

/-- Step shapes SHP0 to SHP6 (R60, R329). -/
inductive Shp where | shp0 | shp1 | shp2 | shp3 | shp4 | shp5 | shp6
  deriving DecidableEq, Repr

/-- Fields of AMODE and MCAL (R253, R255). -/
structure ArrSel where
  first : BitVec 8
  count : BitVec 8
  kf : BitVec 3
  deriving DecidableEq, Repr

/-- Fields of MLOOP (R349). -/
structure MLoopF where
  p : Pre
  sb : BitVec 6
  xr : BitVec 3
  slot1 : BitVec 3
  slot2 : BitVec 3
  shp : Shp
  q : BitVec 2
  first : BitVec 5
  pm : PMode
  deriving DecidableEq, Repr

/-- A running thread of instructions: a gang, or a lane held in a carry-pool context (R18, R364). -/
inductive Actor where
  | gang (uid : Nat)
  | lane (ctx : Nat)
  deriving DecidableEq, Repr

/-- A host command as it arrives (R468): the sender's endpoint, the message, four words of header and then the operand
bytes as words, lowest byte first, and the port if it arrives in order, over ROD (R469). -/
structure HostCmd where
  ep : BitVec 128
  words : List Word
  rod : Option (BitVec 4) := none
  deriving DecidableEq, Repr

/-- Where a soft error strikes (R146). -/
inductive SoftSite where
  | memory (pa : Nat)
  | l1 (agent : Nat) (pa : Nat)
  | vreg (a : Actor) (r : Nat) (lane : Nat)
  | array (key : Nat) (offset : Nat)
  deriving DecidableEq, Repr

/-- One constructor for each row of the opcode table. -/
inductive Instr where
  -- control (R382 to R390, R443 to R445)
  | nop (p : Pre)
  | bra (stall : BitVec 4) (off : BitVec 32)
  | brcDiv (stall : BitVec 4) (bn : Bool) (bk : BitVec 3) (off : BitVec 32)
  | brcAny (stall : BitVec 4) (bn : Bool) (bk : BitVec 3) (off : BitVec 32)
  | brcAll (stall : BitVec 4) (bn : Bool) (bk : BitVec 3) (off : BitVec 32)
  | brx (stall : BitVec 4) (a : BitVec 6) (off : BitVec 32)
  | call (stall : BitVec 4) (a : BitVec 6) (off : BitVec 32)
  | ret (stall : BitVec 4) (a : BitVec 6)
  | exit (stall : BitVec 4)
  | gjoin (stall : BitVec 4) (off : BitVec 32)
  | yield (stall : BitVec 4)
  | bkpt (p : Pre) (code : BitVec 24)
  | trapu (p : Pre) (code : BitVec 24)
  | retu (stall : BitVec 4)
  -- integer (R269 to R272)
  | iadd (sat : Bool) (ty : ITy) (o : R3)
  | isub (sat : Bool) (ty : ITy) (o : R3)
  | imul (ty : ITy) (o : R3)
  | imulh (ty : ITy) (o : R3)
  | imad (sat : Bool) (ty : ITy) (o : R4)
  | imin (ty : ITy) (o : R3)
  | imax (ty : ITy) (o : R3)
  | iabs (sat : Bool) (ty : ITy) (o : R2)
  | icmp (cond : ICond) (ty : ITy) (o : R3)
  | idiv (rem : Bool) (ty : ITy) (o : R3)
  | lea (ty : ITy) (o : R4)
  | iaddi (ty : ITy) (o : I2)
  | imuli (ty : ITy) (o : I2)
  | icmpi (cond : ICond) (ty : ITy) (p : Pre) (ixs : BitVec 2) (d a : Opd) (imm : BitVec 21)
  | movi (zx : Bool) (o : I1)
  | movk (part : MovkPart) (o : I1)
  -- bits (R273, R274)
  | and (w64 : Bool) (o : R3)
  | or (w64 : Bool) (o : R3)
  | xor (w64 : Bool) (o : R3)
  | andn (w64 : Bool) (o : R3)
  | shl (w64 : Bool) (o : R3)
  | shr (w64 : Bool) (o : R3)
  | sra (w64 : Bool) (o : R3)
  | rot (w64 : Bool) (o : R3)
  | bfe (signed : Bool) (w64 : Bool) (o : R4)
  | bfi (w64 : Bool) (o : R4)
  | popc (w64 : Bool) (o : R2)
  | clz (w64 : Bool) (o : R2)
  | brev (w64 : Bool) (o : R2)
  | sel (w64 : Bool) (o : R4)
  | mov (w64 : Bool) (o : R2)
  | logi (op : LogiOp) (o : I2)
  -- F32 (R275 to R280)
  | fadd (f : FFn) (o : R3)
  | fsub (f : FFn) (o : R3)
  | fmul (f : FFn) (o : R3)
  | ffma (f : FFn) (o : R4)
  | fmin (ftz : Bool) (o : R3)
  | fmax (ftz : Bool) (o : R3)
  | fcmp (cond : FCond) (o : R3)
  | fclass (o : R3)
  | frcp (sat ftz : Bool) (o : R2)
  | frsq (sat ftz : Bool) (o : R2)
  | fsqrt (f : FFn) (o : R2)
  | fdiv (f : FFn) (o : R3)
  | fexp2 (sat ftz : Bool) (o : R2)
  | flog2 (sat ftz : Bool) (o : R2)
  | fsin (sat ftz : Bool) (o : R2)
  | fcos (sat ftz : Bool) (o : R2)
  -- packed halves, conversions (R281 to R284)
  | hadd2 (h : HFn) (o : R3)
  | hmul2 (h : HFn) (o : R3)
  | hfma2 (h : HFn) (o : R4)
  | hmin2 (sat bf : Bool) (o : R3)
  | hmax2 (sat bf : Bool) (o : R3)
  | dot4 (sat bs as : Bool) (o : R4)
  | ftanh (sat ftz : Bool) (o : R2)
  | fldx (f : FFn) (o : R3)
  | cvt (op : CvtOp) (rm : RMode) (o : R2)
  | cvtp (op : CvtpOp) (hi : Bool) (rm : RMode) (o : R3)
  | frnd (f : FFn) (o : R2)
  -- predicates and lanes (R285 to R292)
  | kand (o : R3)
  | kor (o : R3)
  | kxor (o : R3)
  | knot (o : R2)
  | kbal (o : R2)
  | kset (o : R2)
  | shfl (w64 : Bool) (mode : ShflMode) (o : R4)
  | vote (fn : VoteFn) (o : R2)
  | gred (op : GOp) (ty : ITy) (o : R2)
  | gscan (op : GOp) (ty : ITy) (o : R2)
  | rdlane (o : R3)
  | wrlane (o : R3)
  | ixw (p : Pre) (i : BitVec 2) (a : Opd) (imm : BitVec 24)
  | srd (p : Pre) (ixs : BitVec 2) (d : Opd) (r : SpReg)
  | swr (p : Pre) (ixs : BitVec 2) (a : Opd) (r : SpReg)
  -- memory (R171 to R204, R105)
  | ld (m : MF)
  | st (m : MF)
  | bpk (m : MF)
  | bpx (m : MF)
  | pfch (m : MLineF)
  | xlat (x : X1) (xr : BitVec 3)
  | cwb (m : MLineF)
  | icinv (m : MLineF)
  | fbar (p : Pre)
  | fence (p : Pre) (ord : Ord)
  -- atomics (R181 to R198)
  | atom (op : AOp) (a : AF)
  | acas (a : AF)
  | red (op : AOp) (a : AF)
  | mcas (n : BitVec 4) (a : AF)
  | lda (a : AF)
  | sta (a : AF)
  | waitu (eq : Bool) (a : AF)
  -- copies and counters (R205 to R233)
  | bcopy (x : X1) (xr slot1 slot2 : BitVec 3) (conv : CopyConv) (mask : BitVec 8)
  | bfill (x : X1) (xr : BitVec 3) (sz : FillSz)
  | waitc (x : X1) (path : Path)
  | icnt (x : X1) (path : Path)
  | slbq (x : X1) (xr : BitVec 3)
  -- arrays, sequencers, quantisation
  | amodeSto (p : Pre) (sel : ArrSel)
  | amodeRck (p : Pre) (sel : ArrSel)
  | macq (p : Pre) (q : BitVec 2)
  | mrel (p : Pre) (q : BitVec 2)
  | mloop (f : MLoopF)
  | mloopRes (f : MLoopF)
  | mstat (x : X1) (q : BitVec 2)
  | mcal (p : Pre) (sel : ArrSel)
  | mxscl (x : X1) (xr slot : BitVec 3)
  | qcvt (x : X1) (xr slot : BitVec 3)
  | dqcvt (x : X1) (xr slot : BitVec 3)
  -- tasks, queues, groups
  | barSync (p : Pre) (b : BitVec 4)
  | barArrive (p : Pre) (b : BitVec 4)
  | barinit (x : X1) (b : BitVec 4)
  | spawn (x : X1)
  | qpush (x : X1)
  | qpop (x : X1)
  | qfree (x : X1)
  | jdec (x : X1)
  | commit (p : Pre)
  | forkg (x : X1)
  | grwd (x : X1)
  | gbar (x : X1)
  | gcan (x : X1)
  | evpost (x : X1)
  | phintMem (p : Pre)
  | phintCmp (p : Pre)
  -- supervisor
  | pgmap (x : X1)
  | pgunmap (x : X1)
  | tlbinv (x : X1)
  | pgtake (x : X1)
  | rets (p : Pre)
  | pclr (x : X1)
  | orclm (x : X1)
  | haltg (x : X1)
  -- events of the cores and the carry pool
  | headerArrive (a : Actor)
  | laneMerge (ctx : Nat)
  | rjtDetach (gang : Nat)
  | rendezvousTimeout (gang : Nat)
  | earlyReturn (ctx : Nat)
  | rejoinDeadlock (gang : Nat)
  | groupTimeout (group : Nat)
  | groupParentPushRetry (n : Nat)
  | joinPushRetry (n : Nat)
  | dispatchPlace (die : Nat)
  | launchPush (grid : Nat)
  | gangEnd (gang : Nat)
  | forwardProgressSwap (core : Nat)
  | teamSaved (team : Nat)
  | priorityRestore (gang : Nat)
  -- events of the copy engines and the sequencers
  | copyStart (core : Nat)
  | copyBeat (core : Nat)
  | copyComplete (core : Nat)
  | copyPageFault (core : Nat)
  | seqRunStart (core q : Nat)
  | seqStepStart (core q : Nat)
  | seqRow (core q : Nat)
  | seqRunEnd (core q : Nat)
  -- events of the memory system; m is the number of a message in flight
  | pageWalk (agent : Nat) (ctx : BitVec 12) (va : Word)
  | loadDataLand (a : Actor) (flight : Nat)
  | registrationRequest (m : Nat)
  | registrationGrant (m : Nat)
  | homeFill (m : Nat)
  | forwardedLoad (m : Nat)
  | revocation (m : Nat)
  | writeBack (m : Nat)
  | farStore (m : Nat)
  | farAtomic (m : Nat)
  | storeAck (m : Nat)
  | mcasLock (m : Nat)
  | waituWake (m : Nat)
  | waituPoll (a : Actor)
  | waituTimeout (a : Actor)
  | ownerLost (unit : Nat)
  | ownerLostNotice (m : Nat)
  | remoteTimeout (m : Nat)
  | lateAnswer (m : Nat)
  | linkDown (port : Nat)
  -- host RMA and commands
  | rmaWrite (ep : BitVec 128) (key : Word) (off : Nat) (bytes : List Byte)
  | rmaRead (ep : BitVec 128) (key : Word) (off : Nat) (len : Nat)
  | winopen (c : HostCmd)
  | winclose (c : HostCmd)
  | launch (c : HostCmd)
  | halt (c : HostCmd)
  | resume (c : HostCmd)
  | kill (c : HostCmd)
  | strd (c : HostCmd)
  | stwr (c : HostCmd)
  | evdrain (c : HostCmd)
  | power (c : HostCmd)
  | dieGating (die : Nat)
  | setdst (c : HostCmd)
  | domain (c : HostCmd)
  | l1partSet (c : HostCmd)
  | l1partRead (c : HostCmd)
  | endpoints (c : HostCmd)
  | identity (c : HostCmd)
  | attest (c : HostCmd)
  | fwstage (c : HostCmd)
  | fwcommit (c : HostCmd)
  | logrd (c : HostCmd)
  | gridend (c : HostCmd)
  -- package, power and error events
  | reset
  | islandEnterNear (island : Nat)
  | islandLeaveNear (island : Nat)
  | islandTransitionDone (island : Nat)
  | droop (cluster : Nat)
  | sag (cluster : Nat) (up : Bool)
  | softError (site : SoftSite)
  | unsupportedFeaturePacket (ep : BitVec 128) (tag : Word)
  | unknownOpc (c : HostCmd)
  | instructionCacheFill (a : Actor) (line : Word)
  | icinvRemovalAck (a : Actor) (flight : Nat)
  | droopEnd (cluster : Nat)
  deriving DecidableEq, Repr

end Sys2Proof
end

