-- ==== Sys2Proof/Machine/Float.lean ====
section
/-!
DEFINITION. Floating-point arithmetic on exact numbers, rounded once at the end (R9, R264, R275 to R284): binary32,
binary16, bfloat16 and the FP8 codes.
-/
namespace Sys2Proof.Machine

/-- A binary interchange format: exponent and fraction widths. -/
structure FFmt where
  ebits : Nat
  mbits : Nat
  deriving DecidableEq, Repr

/-- binary32. -/
def f32 : FFmt := ⟨8, 23⟩
/-- binary16. -/
def f16 : FFmt := ⟨5, 10⟩
/-- bfloat16. -/
def bf16 : FFmt := ⟨8, 7⟩

/-- Exponent bias. -/
def FFmt.bias (f : FFmt) : Nat := 2 ^ (f.ebits - 1) - 1
/-- Total width. -/
def FFmt.width (f : FFmt) : Nat := 1 + f.ebits + f.mbits
/-- The exponent of the smallest normal number. -/
def FFmt.emin (f : FFmt) : Int := 1 - (f.bias : Int)
/-- The quiet NaN every NaN result is (R276, R281). -/
def FFmt.qnan (f : FFmt) : Nat := (2 ^ f.ebits - 1) * 2 ^ f.mbits + 2 ^ (f.mbits - 1)
/-- Signed infinity. -/
def FFmt.inf (f : FFmt) (neg : Bool) : Nat := bnat neg * 2 ^ (f.ebits + f.mbits) + (2 ^ f.ebits - 1) * 2 ^ f.mbits
/-- The largest finite magnitude, signed. -/
def FFmt.maxFin (f : FFmt) (neg : Bool) : Nat := f.inf neg - 1
/-- Signed zero. -/
def FFmt.zero (f : FFmt) (neg : Bool) : Nat := bnat neg * 2 ^ (f.ebits + f.mbits)

/-- The five flags (R264). -/
abbrev FFlags := BitVec 5
/-- Inexact. -/
def flNX : FFlags := 1
/-- Underflow. -/
def flUF : FFlags := 2
/-- Overflow. -/
def flOF : FFlags := 4
/-- Division by zero. -/
def flDZ : FFlags := 8
/-- Invalid. -/
def flNV : FFlags := 16

/-- A result with the flags it raises. -/
structure FRes where
  bits : Nat
  flags : FFlags
  deriving DecidableEq, Repr

/-- A decoded number: a NaN, an infinity, or the finite value ± m × 2^e. -/
inductive FVal where
  | nan (signalling : Bool)
  | inf (neg : Bool)
  | fin (neg : Bool) (m : Nat) (e : Int)
  deriving DecidableEq, Repr

/-- Decode bits of a format. -/
def FFmt.decode (f : FFmt) (b : Nat) : FVal :=
  let neg := b / 2 ^ (f.ebits + f.mbits) % 2 == 1
  let ex := b / 2 ^ f.mbits % 2 ^ f.ebits
  let fr := b % 2 ^ f.mbits
  if ex = 2 ^ f.ebits - 1 then
    if fr = 0 then .inf neg else .nan (decide (fr < 2 ^ (f.mbits - 1)))
  else if ex = 0 then .fin neg fr (f.emin - f.mbits)
  else .fin neg (2 ^ f.mbits + fr) ((ex : Int) - f.bias - f.mbits)

/-- Number of bits of a natural number. -/
def bitLen (n : Nat) : Nat := if n = 0 then 0 else Nat.log2 n + 1

/-- Whether rounding a magnitude m / 2^k goes up, by mode and sign (R275). -/
def roundUp (rm : RMode) (neg : Bool) (m k : Nat) : Bool :=
  let q := m / 2 ^ k
  let r := m % 2 ^ k
  match rm with
  | .rn => decide (2 ^ k < 2 * r) || (decide (2 * r = 2 ^ k) && decide (0 < r) && q % 2 == 1)
  | .rz => false
  | .rp => !neg && decide (0 < r)
  | .rm => neg && decide (0 < r)

/-- m × 2^e rounded to a multiple of 2^q: the multiple and whether it is inexact. -/
def roundAt (rm : RMode) (neg : Bool) (m : Nat) (e q : Int) : Nat × Bool :=
  if q ≤ e then (m * 2 ^ (e - q).toNat, false)
  else
    let k := (q - e).toNat
    (m / 2 ^ k + bnat (roundUp rm neg m k), decide (0 < m % 2 ^ k))

/-- What overflow gives (R276). -/
def FFmt.overflow (f : FFmt) (rm : RMode) (neg : Bool) : FRes :=
  let big := match rm with
    | .rn => true
    | .rz => false
    | .rp => !neg
    | .rm => neg
  ⟨if big then f.inf neg else f.maxFin neg, flOF ||| flNX⟩

/-- ± m × 2^e rounded once into a format, tininess detected after rounding (R264, R276). -/
def FFmt.round (f : FFmt) (rm : RMode) (neg : Bool) (m : Nat) (e : Int) : FRes :=
  if m = 0 then ⟨f.zero neg, 0⟩
  else
    let top : Int := (bitLen m : Int) - 1 + e
    let q : Int := (if top < f.emin then f.emin else top) - f.mbits
    let (n, nx) := roundAt rm neg m e q
    let n' := if n = 2 ^ (f.mbits + 1) then n / 2 else n
    let q' := if n = 2 ^ (f.mbits + 1) then q + 1 else q
    let fl := if nx then flNX else 0
    if n' < 2 ^ f.mbits then
      let fl := if nx then flNX ||| flUF else 0
      ⟨f.zero neg + n', fl⟩
    else
      let ex : Int := q' + f.mbits + f.bias
      if ex ≥ (2 ^ f.ebits - 1 : Nat) then f.overflow rm neg
      else
        let (u, _) := roundAt rm neg m e (top - f.mbits)
        let tiny := decide (top + 1 < f.emin) || (decide (top < f.emin) && decide (u < 2 ^ (f.mbits + 1)))
        let fl := if tiny && nx then fl ||| flUF else fl
        ⟨f.zero neg + ex.toNat * 2 ^ f.mbits + (n' - 2 ^ f.mbits), fl⟩

/-- Subnormal inputs read as zero of the same sign (R275). -/
def FFmt.flushIn (f : FFmt) (ftz : Bool) (v : FVal) : FVal :=
  match v with
  | .fin neg m e => if ftz && decide (m < 2 ^ f.mbits) then .fin neg 0 e else v
  | _ => v

/-- Whether bits are a nonzero subnormal. -/
def FFmt.isSub (f : FFmt) (b : Nat) : Bool :=
  b / 2 ^ f.mbits % 2 ^ f.ebits == 0 && b % 2 ^ f.mbits != 0

/-- Subnormal results written as zero of the same sign, raising UF and NX (R275). -/
def FFmt.flushOut (f : FFmt) (ftz : Bool) (r : FRes) : FRes :=
  if ftz && f.isSub r.bits then ⟨f.zero (r.bits / 2 ^ (f.ebits + f.mbits) % 2 == 1), r.flags ||| flUF ||| flNX⟩ else r

/-- SAT: clamped to [+0.0, +1.0], a NaN giving +0.0 (R275). -/
def FFmt.sat (f : FFmt) (on : Bool) (r : FRes) : FRes :=
  if !on then r
  else
    let one := f.bias * 2 ^ f.mbits
    match f.decode r.bits with
    | .nan _ => ⟨0, r.flags⟩
    | .inf neg => ⟨if neg then 0 else one, r.flags⟩
    | .fin neg _ _ => if neg then ⟨0, r.flags⟩ else if one < r.bits then ⟨one, r.flags⟩ else r

/-- NV for signalling NaN inputs. -/
def nvOf (vs : List FVal) : FFlags := if vs.any fun v => v == .nan true then flNV else 0

/-- Whether a value is a NaN. -/
def FVal.isNan : FVal → Bool
  | .nan _ => true
  | _ => false

/-- The signed integer mantissa at exponent `e0`, for e0 not above the value's exponent. -/
def scaled (neg : Bool) (m : Nat) (e e0 : Int) : Int :=
  let x : Int := m * 2 ^ (e - e0).toNat
  if neg then -x else x

/-- The exact sum of two finite values, rounded once; exact zeros by the sign rule of R277. -/
def FFmt.sum (f : FFmt) (rm : RMode) (n1 : Bool) (m1 : Nat) (e1 : Int) (n2 : Bool) (m2 : Nat) (e2 : Int) : FRes :=
  if m1 = 0 ∧ m2 = 0 ∧ n1 = n2 then ⟨f.zero n1, 0⟩
  else
    let e := if m1 = 0 then e2 else if m2 = 0 then e1 else min e1 e2
    let x := (if m1 = 0 then 0 else scaled n1 m1 e1 e) + (if m2 = 0 then 0 else scaled n2 m2 e2 e)
    if x = 0 then ⟨f.zero (rm == .rm), 0⟩
    else f.round rm (decide (x < 0)) x.natAbs e

/-- A + B (R277). -/
def FFmt.add (f : FFmt) (rm : RMode) (a b : FVal) : FRes :=
  let nv := nvOf [a, b]
  match a, b with
  | .nan _, _ | _, .nan _ => ⟨f.qnan, nv⟩
  | .inf n1, .inf n2 => if n1 = n2 then ⟨f.inf n1, 0⟩ else ⟨f.qnan, flNV⟩
  | .inf n, .fin _ _ _ | .fin _ _ _, .inf n => ⟨f.inf n, 0⟩
  | .fin n1 m1 e1, .fin n2 m2 e2 => f.sum rm n1 m1 e1 n2 m2 e2

/-- −A. -/
def FVal.negate : FVal → FVal
  | .nan s => .nan s
  | .inf n => .inf (!n)
  | .fin n m e => .fin (!n) m e

/-- Whether a value is a zero. -/
def FVal.isZero : FVal → Bool
  | .fin _ 0 _ => true
  | _ => false

/-- The sign of a value; NaNs count as positive. -/
def FVal.neg : FVal → Bool
  | .nan _ => false
  | .inf n => n
  | .fin n _ _ => n

/-- A × B (R277). -/
def FFmt.mul (f : FFmt) (rm : RMode) (a b : FVal) : FRes :=
  let nv := nvOf [a, b]
  match a, b with
  | .nan _, _ | _, .nan _ => ⟨f.qnan, nv⟩
  | .inf n, x | x, .inf n => if x.isZero then ⟨f.qnan, flNV⟩ else ⟨f.inf (n != x.neg), 0⟩
  | .fin n1 m1 e1, .fin n2 m2 e2 => f.round rm (n1 != n2) (m1 * m2) (e1 + e2)

/-- A × B + C, rounded once (R277). -/
def FFmt.fma (f : FFmt) (rm : RMode) (a b c : FVal) : FRes :=
  let nv := nvOf [a, b, c]
  let bad := match a, b with
    | .inf _, x | x, .inf _ => x.isZero
    | _, _ => false
  if bad then ⟨f.qnan, nv ||| flNV⟩
  else
    match a, b, c with
    | .nan _, _, _ | _, .nan _, _ | _, _, .nan _ => ⟨f.qnan, nv⟩
    | .fin n1 m1 e1, .fin n2 m2 e2, .fin n3 m3 e3 => f.sum rm (n1 != n2) (m1 * m2) (e1 + e2) n3 m3 e3
    | .fin _ _ _, .fin _ _ _, .inf n => ⟨f.inf n, 0⟩
    | x, y, .inf n => if (x.neg != y.neg) = n then ⟨f.inf n, 0⟩ else ⟨f.qnan, flNV⟩
    | x, y, .fin _ _ _ => ⟨f.inf (x.neg != y.neg), 0⟩

/-- A / B, correctly rounded (R277). -/
def FFmt.div (f : FFmt) (rm : RMode) (a b : FVal) : FRes :=
  let nv := nvOf [a, b]
  match a, b with
  | .nan _, _ | _, .nan _ => ⟨f.qnan, nv⟩
  | .inf _, .inf _ => ⟨f.qnan, flNV⟩
  | .inf n, x => ⟨f.inf (n != x.neg), 0⟩
  | x, .inf n => ⟨f.zero (x.neg != n), 0⟩
  | .fin n1 m1 e1, .fin n2 m2 e2 =>
    if m2 = 0 then
      if m1 = 0 then ⟨f.qnan, flNV⟩ else ⟨f.inf (n1 != n2), flDZ⟩
    else
      let k := bitLen m2 + f.mbits + 4
      let q := m1 * 2 ^ k / m2
      let r := m1 * 2 ^ k % m2
      f.round rm (n1 != n2) (2 * q + bnat (r != 0)) (e1 - e2 - k - 1)

/-- The integer square root, one bit of the root per unit of fuel. -/
def isqrt (n : Nat) : Nat → Nat → Nat
  | 0, r => r
  | k + 1, r =>
    let r' := r + 2 ^ k
    if r' * r' ≤ n then isqrt n k r' else isqrt n k r

/-- √A, correctly rounded (R277). -/
def FFmt.sqrt (f : FFmt) (rm : RMode) (a : FVal) : FRes :=
  match a with
  | .nan s => ⟨f.qnan, if s then flNV else 0⟩
  | .inf false => ⟨f.inf false, 0⟩
  | .inf true => ⟨f.qnan, flNV⟩
  | .fin n m e =>
    if m = 0 then ⟨f.zero n, 0⟩
    else if n then ⟨f.qnan, flNV⟩
    else
      let sh : Nat := 2 * (f.mbits + 4) + (e % 2).toNat
      let x := m * 2 ^ sh
      let r := isqrt x (bitLen x / 2 + 1) 0
      f.round rm false (2 * r + bnat (r * r != x)) ((e - sh) / 2 - 1)

/-- A × 2^B (R277). -/
def FFmt.ldx (f : FFmt) (rm : RMode) (a : FVal) (b : Int) : FRes :=
  match a with
  | .nan s => ⟨f.qnan, if s then flNV else 0⟩
  | .inf n => ⟨f.inf n, 0⟩
  | .fin n m e => f.round rm n m (e + clampInt b (-2000) 2000)

/-- A rounded to an integral value; NX is not raised (R277). -/
def FFmt.rint (f : FFmt) (rm : RMode) (a : FVal) : FRes :=
  match a with
  | .nan s => ⟨f.qnan, if s then flNV else 0⟩
  | .inf n => ⟨f.inf n, 0⟩
  | .fin n m e =>
    let (q, _) := roundAt rm n m e 0
    if 0 ≤ e then ⟨(f.round rm n m e).bits, 0⟩ else ⟨(f.round rm n q 0).bits, 0⟩

/-- Bits of a decoded finite or infinite value of the format. -/
def FFmt.bitsOf (f : FFmt) (v : FVal) : Nat :=
  match v with
  | .nan _ => f.qnan
  | .inf n => f.inf n
  | .fin n m e => (f.round .rn n m e).bits

/-- Whether a < b, for values that are no NaN; −0.0 and +0.0 compare equal. -/
def FVal.lt (a b : FVal) : Bool :=
  match a, b with
  | .nan _, _ | _, .nan _ => false
  | .inf n1, .inf n2 => n1 && !n2
  | .inf n, .fin _ _ _ => n
  | .fin _ _ _, .inf n => !n
  | .fin n1 m1 e1, .fin n2 m2 e2 =>
    let e := min e1 e2
    decide (scaled n1 m1 e1 e < scaled n2 m2 e2 e)

/-- Whether a = b as numbers. -/
def FVal.eq (a b : FVal) : Bool := !a.isNan && !b.isNan && !a.lt b && !b.lt a

/-- minimumNumber and maximumNumber (R277): −0.0 below +0.0, one NaN gives the other operand. -/
def FFmt.minMax (f : FFmt) (isMax : Bool) (a b : FVal) : FRes :=
  let nv := nvOf [a, b]
  if a.isNan && b.isNan then ⟨f.qnan, nv⟩
  else if a.isNan then ⟨f.bitsOf b, nv⟩
  else if b.isNan then ⟨f.bitsOf a, nv⟩
  else
    let aLess := a.lt b || (a.eq b && a.neg && !b.neg)
    ⟨f.bitsOf (if aLess != isMax then a else b), nv⟩

/-- FCMP (R278): the outcome and the flags. -/
def fcmpVal (c : FCond) (a b : FVal) : Bool × FFlags :=
  let un := a.isNan || b.isNan
  let nvAny := if un then flNV else 0
  let nvSig := nvOf [a, b]
  match c with
  | .eq => (!un && a.eq b, nvSig)
  | .ne => (un || !a.eq b, nvSig)
  | .lt => (!un && a.lt b, nvAny)
  | .le => (!un && (a.lt b || a.eq b), nvAny)
  | .gt => (!un && b.lt a, nvAny)
  | .ge => (!un && (b.lt a || a.eq b), nvAny)
  | .un => (un, nvSig)
  | .or => (!un, nvSig)

/-- The class number of FCLASS (R279). -/
def FFmt.classOf (f : FFmt) (b : Nat) : Nat :=
  match f.decode b with
  | .nan true => 0
  | .nan false => 1
  | .inf true => 2
  | .inf false => 9
  | .fin n m _ =>
    if m = 0 then (if n then 5 else 6)
    else if f.isSub b then (if n then 4 else 7)
    else if n then 3 else 8

/-- An integer in a format (R283). -/
def FFmt.ofInt (f : FFmt) (rm : RMode) (x : Int) : FRes := f.round rm (decide (x < 0)) x.natAbs 0

/-- A number rounded to an integer and clamped (R283): NaN gives 0, clamping or NaN raises NV, otherwise NX. -/
def toIntClamp (rm : RMode) (a : FVal) (lo hi : Int) : Int × FFlags :=
  match a with
  | .nan _ => (0, flNV)
  | .inf n => (if n then lo else hi, flNV)
  | .fin n m e =>
    let (q, nx) := roundAt rm n m e 0
    let x : Int := if n then -(q : Int) else q
    if x < lo then (lo, flNV) else if hi < x then (hi, flNV) else (x, if nx then flNX else 0)

/-- Conversion between formats (R283). -/
def FFmt.convert (g : FFmt) (rm : RMode) (a : FVal) : FRes :=
  match a with
  | .nan s => ⟨g.qnan, if s then flNV else 0⟩
  | .inf n => ⟨g.inf n, 0⟩
  | .fin n m e => g.round rm n m e

/-! ## FP8 codes (R284) -/

/-- The FP8 formats: E4M3 has no infinities and one NaN magnitude, E5M2 follows the IEEE pattern. -/
def e4m3 : FFmt := ⟨4, 3⟩
/-- E5M2. -/
def e5m2 : FFmt := ⟨5, 2⟩
/-- The code of the largest magnitude. -/
def fp8Max (e4 : Bool) : Nat := if e4 then 0x7E else 0x7B

/-- A value as an FP8 code without block scale (R284): beyond the largest code it gives that code and raises OF and
NX; a NaN gives 0x7F. -/
def fp8 (e4 : Bool) (rm : RMode) (a : FVal) : FRes :=
  let f := if e4 then e4m3 else e5m2
  let big (n : Bool) : FRes := ⟨bnat n * 0x80 + fp8Max e4, flOF ||| flNX⟩
  match a with
  | .nan s => ⟨0x7F, if s then flNV else 0⟩
  | .inf n => big n
  | .fin n m e =>
    let mx : FVal := if e4 then .fin false 14 5 else .fin false 7 13
    if mx.lt (.fin false m e) then big n
    else
      let g : FFmt := if e4 then ⟨5, 3⟩ else f
      if e4 then
        -- binade by binade with E4M3's bias: exponent range −6 to 8
        let top : Int := (bitLen m : Int) - 1 + e
        let q : Int := (if top < -6 then -6 else top) - 3
        let (k, nx) := roundAt rm n m e q
        let code := if m = 0 then 0 else if k < 8 then k else
          let (k, q) := if k = 16 then (8, q + 1) else (k, q)
          ((q + 3 + 7).toNat) * 8 + (k - 8)
        let (u, _) := roundAt rm n m e (top - 3)
        let tiny := m != 0 && (decide (top + 1 < -6) || (decide (top < -6) && decide (u < 16)))
        let fl := if nx then (if tiny then flNX ||| flUF else flNX) else 0
        ⟨bnat n * 0x80 + code, fl⟩
      else g.round rm n m e

end Sys2Proof.Machine
end

