-- ==== Sys2Proof/Decode.lean ====
section
/-!
DEFINITION. Decoding an instruction word (R26 to R60, R70, R79) into an instruction or the cause with
which it enters the emulation handler, and the encoder written from the same tables.
-/
namespace Sys2Proof

/-! ## The raw fields of the six formats -/

/-- Format R (R39). -/
structure FR where
  op : BitVec 8
  stall : BitVec 4
  pn : BitVec 1
  pk : BitVec 3
  ixs : BitVec 2
  ixd : BitVec 1
  ixa : BitVec 1
  ixb : BitVec 1
  ixc : BitVec 1
  fn : BitVec 6
  d : BitVec 9
  a : BitVec 9
  b : BitVec 9
  c : BitVec 9
  deriving DecidableEq, Repr

/-- Format I (R40). -/
structure FI where
  op : BitVec 8
  stall : BitVec 4
  pn : BitVec 1
  pk : BitVec 3
  ixs : BitVec 2
  ixd : BitVec 1
  ixa : BitVec 1
  d : BitVec 9
  a : BitVec 9
  fn2 : BitVec 2
  imm : BitVec 24
  deriving DecidableEq, Repr

/-- Format B (R41). -/
structure FB where
  op : BitVec 8
  stall : BitVec 4
  pn : BitVec 1
  pk : BitVec 3
  bn : BitVec 1
  bk : BitVec 3
  bf : BitVec 3
  a : BitVec 9
  off : BitVec 32
  deriving DecidableEq, Repr

/-- Format M (R42). -/
structure FM where
  op : BitVec 8
  stall : BitVec 4
  pn : BitVec 1
  pk : BitVec 3
  ixs : BitVec 2
  ixv : BitVec 1
  ixo : BitVec 1
  v : BitVec 9
  xr : BitVec 3
  o : BitVec 9
  sz : BitVec 3
  pol : BitVec 3
  chk : BitVec 1
  disp : BitVec 16
  deriving DecidableEq, Repr

/-- Format A (R43). -/
structure FA where
  op : BitVec 8
  stall : BitVec 4
  pn : BitVec 1
  pk : BitVec 3
  ixs : BitVec 2
  ixv : BitVec 1
  ixo : BitVec 1
  v : BitVec 9
  xr : BitVec 3
  o : BitVec 9
  sz : BitVec 3
  ord : BitVec 3
  chk : BitVec 1
  aop : BitVec 4
  disp : BitVec 12
  deriving DecidableEq, Repr

/-- Format X (R46). -/
structure FX where
  op : BitVec 8
  stall : BitVec 4
  pn : BitVec 1
  pk : BitVec 3
  xfn : BitVec 6
  sb : BitVec 6
  xr : BitVec 3
  slot1 : BitVec 3
  slot2 : BitVec 3
  mode3 : BitVec 3
  immA : BitVec 8
  immB : BitVec 8
  immC : BitVec 8
  deriving DecidableEq, Repr

/-- Bits [lo+n-1:lo] of a word. -/
abbrev bits (w : Word) (lo n : Nat) : BitVec n := w.extractLsb' lo n

/-- The fields of a word of Format R. -/
def unpackR (w : Word) : FR :=
  { op := bits w 56 8, stall := bits w 52 4, pn := bits w 51 1, pk := bits w 48 3, ixs := bits w 46 2,
    ixd := bits w 45 1, ixa := bits w 44 1, ixb := bits w 43 1, ixc := bits w 42 1, fn := bits w 36 6,
    d := bits w 27 9, a := bits w 18 9, b := bits w 9 9, c := bits w 0 9 }

/-- The fields of a word of Format I. -/
def unpackI (w : Word) : FI :=
  { op := bits w 56 8, stall := bits w 52 4, pn := bits w 51 1, pk := bits w 48 3, ixs := bits w 46 2,
    ixd := bits w 45 1, ixa := bits w 44 1, d := bits w 35 9, a := bits w 26 9, fn2 := bits w 24 2,
    imm := bits w 0 24 }

/-- The fields of a word of Format B. -/
def unpackB (w : Word) : FB :=
  { op := bits w 56 8, stall := bits w 52 4, pn := bits w 51 1, pk := bits w 48 3, bn := bits w 47 1,
    bk := bits w 44 3, bf := bits w 41 3, a := bits w 32 9, off := bits w 0 32 }

/-- The fields of a word of Format M. -/
def unpackM (w : Word) : FM :=
  { op := bits w 56 8, stall := bits w 52 4, pn := bits w 51 1, pk := bits w 48 3, ixs := bits w 46 2,
    ixv := bits w 45 1, ixo := bits w 44 1, v := bits w 35 9, xr := bits w 32 3, o := bits w 23 9,
    sz := bits w 20 3, pol := bits w 17 3, chk := bits w 16 1, disp := bits w 0 16 }

/-- The fields of a word of Format A. -/
def unpackA (w : Word) : FA :=
  { op := bits w 56 8, stall := bits w 52 4, pn := bits w 51 1, pk := bits w 48 3, ixs := bits w 46 2,
    ixv := bits w 45 1, ixo := bits w 44 1, v := bits w 35 9, xr := bits w 32 3, o := bits w 23 9,
    sz := bits w 20 3, ord := bits w 17 3, chk := bits w 16 1, aop := bits w 12 4, disp := bits w 0 12 }

/-- The fields of a word of Format X. -/
def unpackX (w : Word) : FX :=
  { op := bits w 56 8, stall := bits w 52 4, pn := bits w 51 1, pk := bits w 48 3, xfn := bits w 42 6,
    sb := bits w 36 6, xr := bits w 33 3, slot1 := bits w 30 3, slot2 := bits w 27 3, mode3 := bits w 24 3,
    immA := bits w 16 8, immB := bits w 8 8, immC := bits w 0 8 }

/-- The word of Format R fields. -/
def packR (f : FR) : Word :=
  f.op ++ f.stall ++ f.pn ++ f.pk ++ f.ixs ++ f.ixd ++ f.ixa ++ f.ixb ++ f.ixc ++ f.fn ++ f.d ++ f.a ++ f.b ++ f.c

/-- The word of Format I fields. -/
def packI (f : FI) : Word :=
  f.op ++ f.stall ++ f.pn ++ f.pk ++ f.ixs ++ f.ixd ++ f.ixa ++ f.d ++ f.a ++ f.fn2 ++ f.imm

/-- The word of Format B fields. -/
def packB (f : FB) : Word := f.op ++ f.stall ++ f.pn ++ f.pk ++ f.bn ++ f.bk ++ f.bf ++ f.a ++ f.off

/-- The word of Format M fields. -/
def packM (f : FM) : Word :=
  f.op ++ f.stall ++ f.pn ++ f.pk ++ f.ixs ++ f.ixv ++ f.ixo ++ f.v ++ f.xr ++ f.o ++ f.sz ++ f.pol ++ f.chk ++ f.disp

/-- The word of Format A fields. -/
def packA (f : FA) : Word :=
  f.op ++ f.stall ++ f.pn ++ f.pk ++ f.ixs ++ f.ixv ++ f.ixo ++ f.v ++ f.xr ++ f.o ++ f.sz ++ f.ord ++ f.chk ++
    f.aop ++ f.disp

/-- The word of Format X fields. -/
def packX (f : FX) : Word :=
  f.op ++ f.stall ++ f.pn ++ f.pk ++ f.xfn ++ f.sb ++ f.xr ++ f.slot1 ++ f.slot2 ++ f.mode3 ++ f.immA ++ f.immB ++ f.immC

/-! ## Causes and checks -/

/-- The causes of EMUFN.CAUSE (R73) that a word can have. -/
inductive Cause where
  | opcode | value | bits | cls | operand | header | group | guard
  deriving DecidableEq, Repr

/-- The number of a cause (R73). -/
def Cause.num : Cause → Nat
  | .opcode => 1
  | .value => 2
  | .bits => 3
  | .cls => 4
  | .operand => 5
  | .header => 6
  | .group => 7
  | .guard => 8

/-- Operand classes (R47). -/
inductive Cls where | v | s | k | p | c
  deriving DecidableEq, Repr

/-- The class of an operand field (R47). -/
def clsOf (f : BitVec 9) : Cls :=
  if f.msb = false then .v
  else match (f.extractLsb' 6 2 : BitVec 2) with
    | 0#2 => .s
    | 1#2 => .k
    | 2#2 => .p
    | _ => .c

/-- The special operand of a number (R48). -/
def Special.ofNum : BitVec 6 → Option Special
  | 0x00#6 => some .lane
  | 0x01#6 => some .width
  | 0x02#6 => some .gangid
  | 0x03#6 => some .teamid
  | 0x04#6 => some .vallot
  | 0x10#6 => some .f0
  | 0x11#6 => some .f1
  | 0x12#6 => some .fm1
  | 0x13#6 => some .fhalf
  | 0x14#6 => some .f2
  | 0x15#6 => some .finf
  | 0x16#6 => some .fninf
  | 0x17#6 => some .fnan
  | 0x18#6 => some .fln2
  | 0x19#6 => some .flog2e
  | 0x1A#6 => some .fpi
  | 0x20#6 => some .ones
  | _ => none

/-- The number of a special operand (R48). -/
def Special.num : Special → BitVec 6
  | .lane => 0x00#6
  | .width => 0x01#6
  | .gangid => 0x02#6
  | .teamid => 0x03#6
  | .vallot => 0x04#6
  | .f0 => 0x10#6
  | .f1 => 0x11#6
  | .fm1 => 0x12#6
  | .fhalf => 0x13#6
  | .f2 => 0x14#6
  | .finf => 0x15#6
  | .fninf => 0x16#6
  | .fnan => 0x17#6
  | .fln2 => 0x18#6
  | .flog2e => 0x19#6
  | .fpi => 0x1A#6
  | .ones => 0x20#6

/-- The operand a field and its index bit select (R47, R51). -/
def opdOf (f : BitVec 9) (ix : BitVec 1) : Opd :=
  match clsOf f with
  | .v => .v (f.extractLsb' 0 8) (ix == 1#1)
  | .s => .s (f.extractLsb' 0 6)
  | .k => .k (f.extractLsb' 0 3)
  | .p => .p ((Special.ofNum (f.extractLsb' 0 6)).getD .lane)
  | .c => .c (f.extractLsb' 0 6)

/-- The field of an operand (R47). -/
def Opd.field : Opd → BitVec 9
  | .v n _ => 0#1 ++ n
  | .s n => 4#3 ++ n
  | .k n => 5#3 ++ (0#3 ++ n)
  | .p sp => 6#3 ++ sp.num
  | .c n => 7#3 ++ n

/-- The index bit of an operand (R51). -/
def Opd.ixBit : Opd → BitVec 1
  | .v _ true => 1#1
  | _ => 0#1

/-- One operand field under check: its index bit, the classes admitted (none: the field is marked —)
and the number of registers a v operand takes. -/
structure Slot where
  f : BitVec 9
  ix : BitVec 1
  adm : Option (List Cls)
  grp : Nat

/-- A field marked — is zero and not indexed (R55, R70). -/
def Slot.dashOk (t : Slot) : Bool := t.adm.isSome || (t.f == 0#9 && t.ix == 0#1)

/-- The class is admitted, and only a v operand is indexed (R51, R55); the index bit of another one is a class that is not
admitted, cause 4 (DESIGN CHOICE, assumption 126). -/
def Slot.clsOk (t : Slot) : Bool :=
  match t.adm with
  | none => true
  | some l => l.contains (clsOf t.f) && (t.ix == 0#1 || clsOf t.f == .v)

/-- The number is no reserved operand (R47, R48). -/
def Slot.opdOk (t : Slot) : Bool :=
  t.adm.isNone ||
  match clsOf t.f with
  | .k => (t.f.extractLsb' 3 3 : BitVec 3) == 0#3
  | .p => (Special.ofNum (t.f.extractLsb' 0 6)).isSome
  | _ => true

/-- A register group is aligned by its field number (R50, R260; assumption 20). -/
def Slot.grpOk (t : Slot) : Bool :=
  clsOf t.f != .v || (t.f.extractLsb' 0 8 : BitVec 8).toNat % t.grp == 0

/-- R55: an s destination has no v or k source. -/
def noGather (d : BitVec 9) (srcs : List (BitVec 9)) : Bool :=
  clsOf d != .s || srcs.all fun f => clsOf f != .v && clsOf f != .k

/-- The checks of R70 on one word, in their order. -/
structure Checks where
  value : Bool := true
  bits : Bool := true
  slots : List Slot := []
  cls : Bool := true
  group : Bool := true
  pn : BitVec 1
  pk : BitVec 3

/-- The first failing check of R70 decides; otherwise the instruction stands. -/
def Checks.judge (c : Checks) (i : Instr) : Except Cause Instr :=
  if !c.value then .error .value
  else if !(c.bits && c.slots.all Slot.dashOk) then .error .bits
  else if !(c.cls && c.slots.all Slot.clsOk) then .error .cls
  else if !(c.slots.all Slot.opdOk) then .error .operand
  else if !(c.group && c.slots.all Slot.grpOk) then .error .group
  else if c.pn == 1#1 && c.pk == 0#3 then .error .guard
  else .ok i

/-- The prefix of a word. -/
def mkPre (stall : BitVec 4) (pn : BitVec 1) (pk : BitVec 3) : Pre := ⟨stall, pn == 1#1, pk⟩

/-- One bit as a field. -/
def bit1 (b : Bool) : BitVec 1 := if b then 1#1 else 0#1

/-! ## Named field values -/

/-- TYPE of the integer instructions (R269). -/
def ITy.ofBits : BitVec 2 → ITy
  | 0#2 => .i32
  | 1#2 => .n32
  | 2#2 => .i64
  | _ => .n64

/-- The code of TYPE. -/
def ITy.bits : ITy → BitVec 2
  | .i32 => 0#2
  | .n32 => 1#2
  | .i64 => 2#2
  | .n64 => 3#2

/-- Whether a type is 64 bits wide. -/
def ITy.wide : ITy → Bool
  | .i32 | .n32 => false
  | .i64 | .n64 => true

/-- Whether a type is signed. -/
def ITy.signed : ITy → Bool
  | .i32 | .i64 => true
  | .n32 | .n64 => false

/-- Registers a v operand of the type takes (R260). -/
def ITy.grp (t : ITy) : Nat := if t.wide then 2 else 1

/-- SUB of ICMP (R269). -/
def ICond.ofBits : BitVec 3 → Option ICond
  | 0#3 => some .eq
  | 1#3 => some .ne
  | 2#3 => some .lt
  | 3#3 => some .le
  | 4#3 => some .gt
  | 5#3 => some .ge
  | _ => none

/-- The code of a condition. -/
def ICond.bits : ICond → BitVec 3
  | .eq => 0#3
  | .ne => 1#3
  | .lt => 2#3
  | .le => 3#3
  | .gt => 4#3
  | .ge => 5#3

/-- RM (R275). -/
def RMode.ofBits : BitVec 2 → RMode
  | 0#2 => .rn
  | 1#2 => .rz
  | 2#2 => .rp
  | _ => .rm

/-- The code of RM. -/
def RMode.bits : RMode → BitVec 2
  | .rn => 0#2
  | .rz => 1#2
  | .rp => 2#2
  | .rm => 3#2

/-- CMP of FCMP (R278). -/
def FCond.ofBits : BitVec 4 → Option FCond
  | 0#4 => some .eq
  | 1#4 => some .ne
  | 2#4 => some .lt
  | 3#4 => some .le
  | 4#4 => some .gt
  | 5#4 => some .ge
  | 6#4 => some .un
  | 7#4 => some .or
  | _ => none

/-- The code of CMP. -/
def FCond.bits : FCond → BitVec 4
  | .eq => 0#4
  | .ne => 1#4
  | .lt => 2#4
  | .le => 3#4
  | .gt => 4#4
  | .ge => 5#4
  | .un => 6#4
  | .or => 7#4

/-- FN[5:2] of CVT (R283). -/
def CvtOp.ofBits : BitVec 4 → CvtOp
  | 0#4 => .f32I32
  | 1#4 => .f32N32
  | 2#4 => .f32I64
  | 3#4 => .f32N64
  | 4#4 => .i32F32
  | 5#4 => .n32F32
  | 6#4 => .i64F32
  | 7#4 => .n64F32
  | 8#4 => .f16F32
  | 9#4 => .bf16F32
  | 10#4 => .f32F16
  | 11#4 => .f32Bf16
  | 12#4 => .i8I32
  | 13#4 => .i16I32
  | 14#4 => .n8I32
  | _ => .n16I32

/-- The code of a conversion. -/
def CvtOp.bits : CvtOp → BitVec 4
  | .f32I32 => 0#4
  | .f32N32 => 1#4
  | .f32I64 => 2#4
  | .f32N64 => 3#4
  | .i32F32 => 4#4
  | .n32F32 => 5#4
  | .i64F32 => 6#4
  | .n64F32 => 7#4
  | .f16F32 => 8#4
  | .bf16F32 => 9#4
  | .f32F16 => 10#4
  | .f32Bf16 => 11#4
  | .i8I32 => 12#4
  | .i16I32 => 13#4
  | .n8I32 => 14#4
  | .n16I32 => 15#4

/-- CVTP codes (R284). -/
def CvtpOp.ofBits : BitVec 3 → Option CvtpOp
  | 0#3 => some .f16x2
  | 1#3 => some .bf16x2
  | 2#3 => some .e4m3x2
  | 3#3 => some .e5m2x2
  | _ => none

/-- The code of a CVTP operation. -/
def CvtpOp.bits : CvtpOp → BitVec 3
  | .f16x2 => 0#3
  | .bf16x2 => 1#3
  | .e4m3x2 => 2#3
  | .e5m2x2 => 3#3

/-- HI is admitted for the FP8 codes only (R284). -/
def CvtpOp.narrow : CvtpOp → Bool
  | .e4m3x2 | .e5m2x2 => true
  | _ => false

/-- MOVK parts (R272). -/
def MovkPart.ofBits : BitVec 2 → Option MovkPart
  | 0#2 => some .h0
  | 1#2 => some .h1
  | 2#2 => some .h2
  | _ => none

/-- The code of a MOVK part. -/
def MovkPart.bits : MovkPart → BitVec 2
  | .h0 => 0#2
  | .h1 => 1#2
  | .h2 => 2#2

/-- LOGI operations (R274). -/
def LogiOp.ofBits : BitVec 2 → LogiOp
  | 0#2 => .and
  | 1#2 => .or
  | 2#2 => .xor
  | _ => .andn

/-- The code of a LOGI operation. -/
def LogiOp.bits : LogiOp → BitVec 2
  | .and => 0#2
  | .or => 1#2
  | .xor => 2#2
  | .andn => 3#2

/-- SHFL modes (R287). -/
def ShflMode.ofBits : BitVec 2 → ShflMode
  | 0#2 => .idx
  | 1#2 => .up
  | 2#2 => .down
  | _ => .xor

/-- The code of a SHFL mode. -/
def ShflMode.bits : ShflMode → BitVec 2
  | .idx => 0#2
  | .up => 1#2
  | .down => 2#2
  | .xor => 3#2

/-- VOTE functions (R288). -/
def VoteFn.ofBits : BitVec 2 → Option VoteFn
  | 0#2 => some .any
  | 1#2 => some .all
  | 2#2 => some .uni
  | _ => none

/-- The code of a VOTE function. -/
def VoteFn.bits : VoteFn → BitVec 2
  | .any => 0#2
  | .all => 1#2
  | .uni => 2#2

/-- Operations of GRED and GSCAN (R289). -/
def GOp.ofBits : BitVec 4 → Option GOp
  | 0#4 => some .add
  | 1#4 => some .min
  | 2#4 => some .max
  | 3#4 => some .and
  | 4#4 => some .or
  | 5#4 => some .xor
  | 6#4 => some .fadd
  | 7#4 => some .fmin
  | 8#4 => some .fmax
  | _ => none

/-- The code of a GRED operation. -/
def GOp.bits : GOp → BitVec 4
  | .add => 0#4
  | .min => 1#4
  | .max => 2#4
  | .and => 3#4
  | .or => 4#4
  | .xor => 5#4
  | .fadd => 6#4
  | .fmin => 7#4
  | .fmax => 8#4

/-- Whether a GRED operation is a float operation, which requires TYPE 00 (R289). -/
def GOp.float : GOp → Bool
  | .fadd | .fmin | .fmax => true
  | _ => false

/-- SZ (R42). -/
def Sz.ofBits : BitVec 3 → Option Sz
  | 0#3 => some .b8
  | 1#3 => some .b16
  | 2#3 => some .b32
  | 3#3 => some .b64
  | 4#3 => some .b128
  | 5#3 => some .pw
  | _ => none

/-- The code of SZ. -/
def Sz.bits : Sz → BitVec 3
  | .b8 => 0#3
  | .b16 => 1#3
  | .b32 => 2#3
  | .b64 => 3#3
  | .b128 => 4#3
  | .pw => 5#3

/-- POL (R42). -/
def Pol.ofBits : BitVec 3 → Option Pol
  | 0#3 => some .page
  | 1#3 => some .stream
  | 2#3 => some .keep
  | 3#3 => some .l2only
  | 4#3 => some .nol2
  | _ => none

/-- The code of POL. -/
def Pol.bits : Pol → BitVec 3
  | .page => 0#3
  | .stream => 1#3
  | .keep => 2#3
  | .l2only => 3#3
  | .nol2 => 4#3

/-- ORD (R43). -/
def Ord.ofBits : BitVec 3 → Option Ord
  | 0#3 => some .pln
  | 1#3 => some .acq
  | 2#3 => some .rel
  | 3#3 => some .ar
  | 4#3 => some .sc
  | 5#3 => some .cmt
  | _ => none

/-- The code of ORD. -/
def Ord.bits : Ord → BitVec 3
  | .pln => 0#3
  | .acq => 1#3
  | .rel => 2#3
  | .ar => 3#3
  | .sc => 4#3
  | .cmt => 5#3

/-- Atomic operations (R183). -/
def AOp.ofBits : BitVec 4 → Option AOp
  | 0#4 => some .add
  | 1#4 => some .imin
  | 2#4 => some .imax
  | 3#4 => some .nmin
  | 4#4 => some .nmax
  | 5#4 => some .and
  | 6#4 => some .or
  | 7#4 => some .xor
  | 8#4 => some .xchg
  | 9#4 => some .fadd
  | 10#4 => some .fmin
  | 11#4 => some .fmax
  | 12#4 => some .fmul
  | _ => none

/-- The code of an atomic operation. -/
def AOp.bits : AOp → BitVec 4
  | .add => 0#4
  | .imin => 1#4
  | .imax => 2#4
  | .nmin => 3#4
  | .nmax => 4#4
  | .and => 5#4
  | .or => 6#4
  | .xor => 7#4
  | .xchg => 8#4
  | .fadd => 9#4
  | .fmin => 10#4
  | .fmax => 11#4
  | .fmul => 12#4

/-- Whether an atomic operation is a float operation, which admits B32 only (R183). -/
def AOp.float : AOp → Bool
  | .fadd | .fmin | .fmax | .fmul => true
  | _ => false

/-- WAITC and ICNT paths (R60). -/
def Path.ofBits : BitVec 3 → Option Path
  | 0#3 => some .g
  | 1#3 => some .s
  | 2#3 => some .c
  | 3#3 => some .m
  | 4#3 => some .a
  | _ => none

/-- The code of a path. -/
def Path.bits : Path → BitVec 3
  | .g => 0#3
  | .s => 1#3
  | .c => 2#3
  | .m => 3#3
  | .a => 4#3

/-- BCOPY conversions (R212). -/
def CopyConv.ofBits : BitVec 3 → Option CopyConv
  | 0#3 => some .raw
  | 1#3 => some .qnt
  | 2#3 => some .dqt
  | _ => none

/-- The code of a conversion. -/
def CopyConv.bits : CopyConv → BitVec 3
  | .raw => 0#3
  | .qnt => 1#3
  | .dqt => 2#3

/-- BFILL sizes (R230). -/
def FillSz.ofBits : BitVec 3 → Option FillSz
  | 0#3 => some .b8
  | 1#3 => some .b16
  | 2#3 => some .b32
  | 3#3 => some .b64
  | _ => none

/-- The code of a fill size. -/
def FillSz.bits : FillSz → BitVec 3
  | .b8 => 0#3
  | .b16 => 1#3
  | .b32 => 2#3
  | .b64 => 3#3

/-- PM of MLOOP (R60). -/
def PMode.ofBits : BitVec 3 → Option PMode
  | 0#3 => some .exact
  | 1#3 => some .avg1
  | 2#3 => some .avg2
  | 3#3 => some .avg4
  | 4#3 => some .avg8
  | 5#3 => some .avg16
  | _ => none

/-- The code of PM. -/
def PMode.bits : PMode → BitVec 3
  | .exact => 0#3
  | .avg1 => 1#3
  | .avg2 => 2#3
  | .avg4 => 3#3
  | .avg8 => 4#3
  | .avg16 => 5#3

/-- SHP of MLOOP (R60). -/
def Shp.ofBits : BitVec 3 → Option Shp
  | 0#3 => some .shp0
  | 1#3 => some .shp1
  | 2#3 => some .shp2
  | 3#3 => some .shp3
  | 4#3 => some .shp4
  | 5#3 => some .shp5
  | 6#3 => some .shp6
  | _ => none

/-- The code of SHP. -/
def Shp.bits : Shp → BitVec 3
  | .shp0 => 0#3
  | .shp1 => 1#3
  | .shp2 => 2#3
  | .shp3 => 3#3
  | .shp4 => 4#3
  | .shp5 => 5#3
  | .shp6 => 6#3

/-- The special register of a number (R262). -/
def SpReg.ofNum (n : BitVec 10) : Option SpReg :=
  match n with
  | 0x000#10 => some .lane
  | 0x001#10 => some .width
  | 0x002#10 => some .gangid
  | 0x003#10 => some .teamid
  | 0x004#10 => some .vallot
  | 0x005#10 => some .teamdim
  | 0x006#10 => some .griddim
  | 0x007#10 => some .sib
  | 0x008#10 => some .gdesc
  | 0x009#10 => some .evt
  | 0x00A#10 => some .spw
  | 0x010#10 => some .clk
  | 0x011#10 => some .time
  | 0x020#10 => some .fpflags
  | 0x021#10 => some .bkconf
  | 0x022#10 => some .modez
  | 0x023#10 => some .polmis
  | 0x030#10 => some .emuop
  | 0x031#10 => some .emupc
  | 0x032#10 => some .emufn
  | 0x033#10 => some .emud
  | 0x034#10 => some .emua
  | 0x035#10 => some .emub
  | 0x036#10 => some .emuc
  | 0x100#10 => some .ctx
  | 0x101#10 => some .fmask
  | 0x102#10 => some .fva
  | 0x103#10 => some .fcause
  | 0x110#10 => some .hcause
  | 0x111#10 => some .hpc
  | 0x112#10 => some .hmask
  | 0x113#10 => some .haddr
  | _ =>
    if n.extractLsb' 3 7 == 0x05#7 then some (.satc (n.extractLsb' 0 3))
    else if n.extractLsb' 2 8 == 0x10#8 then some (.rprog (n.extractLsb' 0 2))
    else none

/-- The number of a special register (R262). -/
def SpReg.num : SpReg → BitVec 10
  | .lane => 0x000#10
  | .width => 0x001#10
  | .gangid => 0x002#10
  | .teamid => 0x003#10
  | .vallot => 0x004#10
  | .teamdim => 0x005#10
  | .griddim => 0x006#10
  | .sib => 0x007#10
  | .gdesc => 0x008#10
  | .evt => 0x009#10
  | .spw => 0x00A#10
  | .clk => 0x010#10
  | .time => 0x011#10
  | .fpflags => 0x020#10
  | .bkconf => 0x021#10
  | .modez => 0x022#10
  | .polmis => 0x023#10
  | .satc n => 0x05#7 ++ n
  | .emuop => 0x030#10
  | .emupc => 0x031#10
  | .emufn => 0x032#10
  | .emud => 0x033#10
  | .emua => 0x034#10
  | .emub => 0x035#10
  | .emuc => 0x036#10
  | .rprog q => 0x10#8 ++ q
  | .ctx => 0x100#10
  | .fmask => 0x101#10
  | .fva => 0x102#10
  | .fcause => 0x103#10
  | .hcause => 0x110#10
  | .hpc => 0x111#10
  | .hmask => 0x112#10
  | .haddr => 0x113#10

/-- Whether a special register is 64 bits wide (R262). -/
def SpReg.wide : SpReg → Bool
  | .teamid | .griddim | .gdesc | .evt | .spw | .clk | .time | .fpflags
  | .emuop | .emupc | .emufn | .emud | .emua | .emub | .emuc | .rprog _
  | .fmask | .fva | .fcause | .hcause | .hpc | .hmask | .haddr => true
  | _ => false

/-- Whether SWR may write a special register (R262). -/
def SpReg.writable : SpReg → Bool
  | .fpflags | .bkconf | .modez | .polmis | .satc _ | .rprog _ | .ctx => true
  | _ => false

/-- Whether a special register is supervisor-only (R262). -/
def SpReg.supervisor : SpReg → Bool
  | .ctx | .fmask | .fva | .fcause | .hcause | .hpc | .hmask | .haddr => true
  | _ => false

/-- Whether a special register has lane scope (R262, R267). -/
def SpReg.laneScope : SpReg → Bool
  | .lane | .fva => true
  | _ => false

/-! ## Format R -/

/-- Classes v s. -/
abbrev clsD : Option (List Cls) := some [.v, .s]
/-- Classes v s c p. -/
abbrev clsS : Option (List Cls) := some [.v, .s, .c, .p]
/-- Class k. -/
abbrev clsK : Option (List Cls) := some [.k]

/-- The operand slots of a Format R word. -/
def slotsR (r : FR) (d a b c : Option (List Cls) × Nat) : List Slot :=
  [⟨r.d, r.ixd, d.1, d.2⟩, ⟨r.a, r.ixa, a.1, a.2⟩, ⟨r.b, r.ixb, b.1, b.2⟩, ⟨r.c, r.ixc, c.1, c.2⟩]

/-- R51: IXS is nonzero only under an index bit. -/
def ixsOk (ixs : BitVec 2) (ix : List (BitVec 1)) : Bool := ixs == 0#2 || ix.any (· == 1#1)

/-- The checks of a Format R word with these admitted classes and group sizes. -/
def checksR (r : FR) (value : Bool) (gather : Bool) (d a b c : Option (List Cls) × Nat) : Checks :=
  { value := value
    bits := ixsOk r.ixs [r.ixd, r.ixa, r.ixb, r.ixc]
    slots := slotsR r d a b c
    cls := gather || noGather r.d ((if a.1.isSome then [r.a] else []) ++
      (if b.1.isSome then [r.b] else []) ++ (if c.1.isSome then [r.c] else []))
    pn := r.pn, pk := r.pk }

/-- The R2 operands of a word. -/
def FR.r2 (r : FR) : R2 := ⟨mkPre r.stall r.pn r.pk, r.ixs, opdOf r.d r.ixd, opdOf r.a r.ixa⟩
/-- The R3 operands of a word. -/
def FR.r3 (r : FR) : R3 :=
  ⟨mkPre r.stall r.pn r.pk, r.ixs, opdOf r.d r.ixd, opdOf r.a r.ixa, opdOf r.b r.ixb⟩
/-- The R4 operands of a word. -/
def FR.r4 (r : FR) : R4 :=
  ⟨mkPre r.stall r.pn r.pk, r.ixs, opdOf r.d r.ixd, opdOf r.a r.ixa, opdOf r.b r.ixb, opdOf r.c r.ixc⟩

/-- No operand: the field is marked —. -/
abbrev dash : Option (List Cls) × Nat := (none, 1)

/-- A two-source instruction with groups. -/
def dec3 (r : FR) (value : Bool) (gd ga gb : Nat) (i : Instr) : Except Cause Instr :=
  (checksR r value false (clsD, gd) (clsS, ga) (clsS, gb) dash).judge i
/-- A three-source instruction with groups. -/
def dec4 (r : FR) (value : Bool) (gd ga gb gc : Nat) (i : Instr) : Except Cause Instr :=
  (checksR r value false (clsD, gd) (clsS, ga) (clsS, gb) (clsS, gc)).judge i
/-- A one-source instruction with groups. -/
def dec2 (r : FR) (value : Bool) (gd ga : Nat) (i : Instr) : Except Cause Instr :=
  (checksR r value false (clsD, gd) (clsS, ga) dash dash).judge i

/-- TYPE of an integer FN. -/
def FR.ity (r : FR) : ITy := ITy.ofBits (r.fn.extractLsb' 0 2)
/-- SAT of an integer FN. -/
def FR.isat (r : FR) : Bool := r.fn.getLsbD 2
/-- SUB of an integer FN. -/
def FR.isub (r : FR) : BitVec 3 := r.fn.extractLsb' 3 3

/-- Integer opcodes (R269, R270). -/
def decInt (r : FR) : Except Cause Instr :=
  let t := r.ity
  let g := t.grp
  let sub0 := r.isub == 0#3
  let plain := sub0 && !r.isat
  match r.op with
  | 0x10#8 => dec3 r sub0 g g g (.iadd r.isat t r.r3)
  | 0x11#8 => dec3 r sub0 g g g (.isub r.isat t r.r3)
  | 0x12#8 => dec3 r plain g g g (.imul t r.r3)
  | 0x13#8 => dec3 r plain g g g (.imulh t r.r3)
  | 0x14#8 => dec4 r sub0 g g g g (.imad r.isat t r.r4)
  | 0x15#8 => dec3 r plain g g g (.imin t r.r3)
  | 0x16#8 => dec3 r plain g g g (.imax t r.r3)
  | 0x17#8 => dec2 r (sub0 && t.signed) g g (.iabs r.isat t r.r2)
  | 0x18#8 =>
    (checksR r ((ICond.ofBits r.isub).isSome && !r.isat) false (clsK, 1) (clsS, g) (clsS, g) dash).judge
      (.icmp ((ICond.ofBits r.isub).getD .eq) t r.r3)
  | 0x19#8 => dec3 r ((r.isub == 0#3 || r.isub == 1#3) && !r.isat) g g g (.idiv (r.isub == 1#3) t r.r3)
  | 0x1A#8 => dec4 r plain g g g 1 (.lea t r.r4)
  | _ => .error .opcode

/-- Bit opcodes (R273). -/
def decBit (r : FR) : Except Cause Instr :=
  let w := r.fn.getLsbD 0
  let g := if w then 2 else 1
  let z := (r.fn.extractLsb' 1 5 : BitVec 5) == 0#5
  match r.op with
  | 0x20#8 => dec3 r z g g g (.and w r.r3)
  | 0x21#8 => dec3 r z g g g (.or w r.r3)
  | 0x22#8 => dec3 r z g g g (.xor w r.r3)
  | 0x23#8 => dec3 r z g g g (.andn w r.r3)
  | 0x24#8 => dec3 r z g g 1 (.shl w r.r3)
  | 0x25#8 => dec3 r z g g 1 (.shr w r.r3)
  | 0x26#8 => dec3 r z g g 1 (.sra w r.r3)
  | 0x27#8 => dec3 r z g g 1 (.rot w r.r3)
  | 0x28#8 => dec4 r ((r.fn.extractLsb' 2 4 : BitVec 4) == 0#4) g g 1 1 (.bfe (r.fn.getLsbD 1) w r.r4)
  | 0x29#8 => dec4 r z g g g 1 (.bfi w r.r4)
  | 0x2A#8 => dec2 r z 1 g (.popc w r.r2)
  | 0x2B#8 => dec2 r z 1 g (.clz w r.r2)
  | 0x2C#8 => dec2 r z g g (.brev w r.r2)
  | 0x2D#8 => (checksR r z false (clsD, g) (clsS, g) (clsS, g) (clsK, 1)).judge (.sel w r.r4)
  | 0x2E#8 => dec2 r z g g (.mov w r.r2)
  | _ => .error .opcode

/-- FN of the F32 opcodes (R275). -/
def FR.ffn (r : FR) : FFn := ⟨r.fn.getLsbD 3, r.fn.getLsbD 2, RMode.ofBits (r.fn.extractLsb' 0 2)⟩

/-- F32 opcodes (R275 to R280). -/
def decF32 (r : FR) : Except Cause Instr :=
  let f := r.ffn
  let t := (r.fn.extractLsb' 4 2 : BitVec 2) == 0#2
  let noRm := (r.fn.extractLsb' 0 2 : BitVec 2) == 0#2
  match r.op with
  | 0x30#8 => dec3 r t 1 1 1 (.fadd f r.r3)
  | 0x31#8 => dec3 r t 1 1 1 (.fsub f r.r3)
  | 0x32#8 => dec3 r t 1 1 1 (.fmul f r.r3)
  | 0x33#8 => dec4 r t 1 1 1 1 (.ffma f r.r4)
  | 0x34#8 => dec3 r (t && noRm && !f.sat) 1 1 1 (.fmin f.ftz r.r3)
  | 0x35#8 => dec3 r (t && noRm && !f.sat) 1 1 1 (.fmax f.ftz r.r3)
  | 0x36#8 =>
    (checksR r (t && (FCond.ofBits (r.fn.extractLsb' 0 4)).isSome) false (clsK, 1) (clsS, 1) (clsS, 1) dash).judge
      (.fcmp ((FCond.ofBits (r.fn.extractLsb' 0 4)).getD .eq) r.r3)
  | 0x37#8 => (checksR r (r.fn == 0#6) false (clsK, 1) (clsS, 1) (clsS, 1) dash).judge (.fclass r.r3)
  | 0x38#8 => dec2 r (t && noRm) 1 1 (.frcp f.sat f.ftz r.r2)
  | 0x39#8 => dec2 r (t && noRm) 1 1 (.frsq f.sat f.ftz r.r2)
  | 0x3A#8 => dec2 r t 1 1 (.fsqrt f r.r2)
  | 0x3B#8 => dec3 r t 1 1 1 (.fdiv f r.r3)
  | 0x3C#8 => dec2 r (t && noRm) 1 1 (.fexp2 f.sat f.ftz r.r2)
  | 0x3D#8 => dec2 r (t && noRm) 1 1 (.flog2 f.sat f.ftz r.r2)
  | 0x3E#8 => dec2 r (t && noRm) 1 1 (.fsin f.sat f.ftz r.r2)
  | 0x3F#8 => dec2 r (t && noRm) 1 1 (.fcos f.sat f.ftz r.r2)
  | _ => .error .opcode

/-- FN of the packed half opcodes (R281). -/
def FR.hfn (r : FR) : HFn := ⟨r.fn.getLsbD 3, r.fn.getLsbD 2, RMode.ofBits (r.fn.extractLsb' 0 2)⟩

/-- Registers of a CVT destination (R283). -/
def CvtOp.grpD : CvtOp → Nat
  | .i64F32 | .n64F32 => 2
  | _ => 1
/-- Registers of a CVT source (R283). -/
def CvtOp.grpA : CvtOp → Nat
  | .f32I64 | .f32N64 => 2
  | _ => 1
/-- Whether a CVT code is one of 1010 to 1111, with RM 00 only (R283). -/
def CvtOp.fixed : CvtOp → Bool
  | .f32F16 | .f32Bf16 | .i8I32 | .i16I32 | .n8I32 | .n16I32 => true
  | _ => false

/-- Packed halves, DOT4, FTANH, FLDX and conversions (R281 to R284). -/
def decPack (r : FR) : Except Cause Instr :=
  let h := r.hfn
  let f := r.ffn
  let t := (r.fn.extractLsb' 4 2 : BitVec 2) == 0#2
  let noRm := (r.fn.extractLsb' 0 2 : BitVec 2) == 0#2
  let cv := CvtOp.ofBits (r.fn.extractLsb' 2 4)
  let cp := CvtpOp.ofBits (r.fn.extractLsb' 3 3)
  match r.op with
  | 0x40#8 => dec3 r t 1 1 1 (.hadd2 h r.r3)
  | 0x41#8 => dec3 r t 1 1 1 (.hmul2 h r.r3)
  | 0x42#8 => dec4 r t 1 1 1 1 (.hfma2 h r.r4)
  | 0x43#8 => dec3 r (t && noRm) 1 1 1 (.hmin2 h.sat h.bf r.r3)
  | 0x44#8 => dec3 r (t && noRm) 1 1 1 (.hmax2 h.sat h.bf r.r3)
  | 0x45#8 =>
    dec4 r ((r.fn.extractLsb' 3 3 : BitVec 3) == 0#3) 1 1 1 1
      (.dot4 (r.fn.getLsbD 2) (r.fn.getLsbD 1) (r.fn.getLsbD 0) r.r4)
  | 0x46#8 => dec2 r (t && noRm) 1 1 (.ftanh f.sat f.ftz r.r2)
  | 0x47#8 => dec3 r t 1 1 1 (.fldx f r.r3)
  | 0x48#8 => dec2 r (!cv.fixed || noRm) cv.grpD cv.grpA (.cvt cv f.rm r.r2)
  | 0x49#8 =>
    dec3 r (cp.isSome && (!r.fn.getLsbD 2 || (cp.getD .f16x2).narrow)) 1 1 1
      (.cvtp (cp.getD .f16x2) (r.fn.getLsbD 2) f.rm r.r3)
  | 0x4A#8 => dec2 r t 1 1 (.frnd f r.r2)
  | _ => .error .opcode

/-- Predicate and lane opcodes of Format R (R285 to R290). -/
def decLane (r : FR) : Except Cause Instr :=
  let z := r.fn == 0#6
  let go := GOp.ofBits (r.fn.extractLsb' 2 4)
  let ty := ITy.ofBits (r.fn.extractLsb' 0 2)
  let gok := go.isSome && (!(go.getD .add).float || ty == .i32)
  let sw := r.fn.getLsbD 2
  let sg := if sw then 2 else 1
  let vf := VoteFn.ofBits (r.fn.extractLsb' 0 2)
  match r.op with
  | 0x60#8 => (checksR r z true (clsK, 1) (clsK, 1) (clsK, 1) dash).judge (.kand r.r3)
  | 0x61#8 => (checksR r z true (clsK, 1) (clsK, 1) (clsK, 1) dash).judge (.kor r.r3)
  | 0x62#8 => (checksR r z true (clsK, 1) (clsK, 1) (clsK, 1) dash).judge (.kxor r.r3)
  | 0x63#8 => (checksR r z true (clsK, 1) (clsK, 1) dash dash).judge (.knot r.r2)
  | 0x64#8 => (checksR r z true (clsD, 1) (clsK, 1) dash dash).judge (.kbal r.r2)
  | 0x65#8 => (checksR r z true (clsK, 1) (clsS, 1) dash dash).judge (.kset r.r2)
  | 0x66#8 =>
    (checksR r ((r.fn.extractLsb' 3 3 : BitVec 3) == 0#3) true (some [.v], sg) (some [.v], sg)
      (some [.v, .s, .c], 1) (some [.v, .s, .c], 1)).judge
      (.shfl sw (ShflMode.ofBits (r.fn.extractLsb' 0 2)) r.r4)
  | 0x67#8 =>
    (checksR r (vf.isSome && (r.fn.extractLsb' 2 4 : BitVec 4) == 0#4) true (clsD, 1) (clsK, 1) dash dash).judge
      (.vote (vf.getD .any) r.r2)
  | 0x68#8 =>
    (checksR r gok true (clsD, ty.grp) (some [.v], ty.grp) dash dash).judge (.gred (go.getD .add) ty r.r2)
  | 0x69#8 =>
    (checksR r gok true (some [.v], ty.grp) (some [.v], ty.grp) dash dash).judge (.gscan (go.getD .add) ty r.r2)
  | 0x6A#8 => (checksR r z true (some [.s], 1) (some [.v], 1) (some [.s, .c], 1) dash).judge (.rdlane r.r3)
  | 0x6B#8 => (checksR r z true (some [.v], 1) (some [.s, .c], 1) (some [.s, .c], 1) dash).judge (.wrlane r.r3)
  | _ => .error .opcode

/-- NOP (R56). -/
def decNop (r : FR) : Except Cause Instr :=
  (checksR r (r.fn == 0#6) true dash dash dash dash).judge (.nop (mkPre r.stall r.pn r.pk))

/-! ## Format I -/

/-- The checks of a Format I word. -/
def checksI (r : FI) (value bits : Bool) (d a : Option (List Cls) × Nat) : Checks :=
  { value := value
    bits := bits && ixsOk r.ixs [r.ixd, r.ixa]
    slots := [⟨r.d, r.ixd, d.1, d.2⟩, ⟨r.a, r.ixa, a.1, a.2⟩]
    cls := d.1.isNone || a.1.isNone || noGather r.d [r.a]
    pn := r.pn, pk := r.pk }

/-- The I2 operands of a word. -/
def FI.i2 (r : FI) : I2 := ⟨mkPre r.stall r.pn r.pk, r.ixs, opdOf r.d r.ixd, opdOf r.a r.ixa, r.imm⟩
/-- The I1 operands of a word. -/
def FI.i1 (r : FI) : I1 := ⟨mkPre r.stall r.pn r.pk, r.ixs, opdOf r.d r.ixd, r.imm⟩

/-- MOVK's reserved immediates (R272). -/
def movkBits (part : MovkPart) (v : Bool) (imm : BitVec 24) : Bool :=
  match part with
  | .h0 => true
  | .h1 => !v || (imm.extractLsb' 8 16 : BitVec 16) == 0#16
  | .h2 => (imm.extractLsb' 16 8 : BitVec 8) == 0#8

/-- Format I opcodes. -/
def decI (r : FI) : Except Cause Instr :=
  let t := ITy.ofBits r.fn2
  let g := t.grp
  let p := mkPre r.stall r.pn r.pk
  let z2 := r.fn2 == 0#2
  let isV := clsOf r.d == .v
  let sp := SpReg.ofNum (r.imm.extractLsb' 0 10)
  let spz := (r.imm.extractLsb' 10 14 : BitVec 14) == 0#14
  let sr := sp.getD .lane
  let sg := if sr.wide then 2 else 1
  match r.op with
  | 0x09#8 => (checksI r true z2 dash dash).judge (.bkpt p r.imm)
  | 0x0A#8 => (checksI r true z2 dash dash).judge (.trapu p r.imm)
  | 0x1B#8 => (checksI r true true (clsD, g) (clsD, g)).judge (.iaddi t r.i2)
  | 0x1C#8 => (checksI r true true (clsD, g) (clsD, g)).judge (.imuli t r.i2)
  | 0x1D#8 =>
    let cc := ICond.ofBits (r.imm.extractLsb' 21 3)
    (checksI r cc.isSome true (clsK, 1) (clsD, g)).judge
      (.icmpi (cc.getD .eq) t p r.ixs (opdOf r.d r.ixd) (opdOf r.a r.ixa) (r.imm.extractLsb' 0 21))
  | 0x1E#8 => (checksI r (r.fn2 == 0#2 || r.fn2 == 1#2) true (clsD, 1) dash).judge (.movi (r.fn2 == 1#2) r.i1)
  | 0x1F#8 =>
    let mp := MovkPart.ofBits r.fn2
    (checksI r (mp.isSome && !(mp == some .h2 && isV)) (movkBits (mp.getD .h0) isV r.imm) (clsD, 1) dash).judge
      (.movk (mp.getD .h0) r.i1)
  | 0x2F#8 => (checksI r true true (clsD, 1) (clsD, 1)).judge (.logi (LogiOp.ofBits r.fn2) r.i2)
  | 0x6C#8 =>
    (checksI r true true dash (some [.s, .c], 1)).judge (.ixw p r.fn2 (opdOf r.a r.ixa) r.imm)
  | 0x6D#8 =>
    let c := checksI r (z2 && sp.isSome) spz (clsD, sg) dash
    Checks.judge { c with cls := !(sr.laneScope && clsOf r.d == Cls.s) } (.srd p r.ixs (opdOf r.d r.ixd) sr)
  | 0x6E#8 =>
    (checksI r (z2 && sp.isSome && sr.writable) spz dash (clsD, sg)).judge (.swr p r.ixs (opdOf r.a r.ixa) sr)
  | _ => .error .opcode

/-! ## Format B -/

/-- The checks of a Format B word (R38, R383). -/
def checksB (r : FB) (value brc offz : Bool) (a : Option (List Cls)) : Checks :=
  { value := value
    bits := r.pn == 0#1 && r.pk == 0#3 && (brc || (r.bn == 0#1 && r.bk == 0#3 && r.bf == 0#3)) && (!offz || r.off == 0#32)
    slots := [⟨r.a, 0#1, a, 1⟩]
    pn := 0#1, pk := 0#3 }

/-- Format B opcodes (R383). -/
def decB (r : FB) : Except Cause Instr :=
  let sn : BitVec 6 := r.a.extractLsb' 0 6
  match r.op with
  | 0x01#8 => (checksB r true false false none).judge (.bra r.stall r.off)
  | 0x02#8 =>
    match r.bf with
    | 0#3 => (checksB r true true false none).judge (.brcDiv r.stall (r.bn == 1#1) r.bk r.off)
    | 1#3 => (checksB r true true false none).judge (.brcAny r.stall (r.bn == 1#1) r.bk r.off)
    | 2#3 => (checksB r true true false none).judge (.brcAll r.stall (r.bn == 1#1) r.bk r.off)
    | _ => .error .value
  | 0x03#8 => (checksB r true false false (some [.s])).judge (.brx r.stall sn r.off)
  | 0x04#8 => (checksB r true false false (some [.s])).judge (.call r.stall sn r.off)
  | 0x05#8 => (checksB r true false true (some [.s])).judge (.ret r.stall sn)
  | 0x06#8 => (checksB r true false true none).judge (.exit r.stall)
  | 0x07#8 => (checksB r true false false none).judge (.gjoin r.stall r.off)
  | 0x08#8 => (checksB r true false true none).judge (.yield r.stall)
  | 0x0B#8 => (checksB r true false true none).judge (.retu r.stall)
  | _ => .error .opcode

/-! ## Formats M and A -/

/-- The checks of a Format M word. -/
def checksM (r : FM) (value bits cls : Bool) (v o : Option (List Cls) × Nat) : Checks :=
  { value := value
    bits := bits && ixsOk r.ixs [r.ixv, r.ixo]
    slots := [⟨r.v, r.ixv, v.1, v.2⟩, ⟨r.o, r.ixo, o.1, o.2⟩]
    cls := cls
    pn := r.pn, pk := r.pk }

/-- The operands of a Format M word. -/
def FM.mf (r : FM) (sz : Sz) (pol : Pol) : MF :=
  ⟨mkPre r.stall r.pn r.pk, r.ixs, opdOf r.v r.ixv, r.xr, opdOf r.o r.ixo, sz, pol, r.chk == 1#1, r.disp⟩

/-- The operands of a Format M word without data operand. -/
def FM.line (r : FM) (pol : Pol) : MLineF :=
  ⟨mkPre r.stall r.pn r.pk, r.ixs, r.xr, opdOf r.o r.ixo, pol, r.disp⟩

/-- Classes v s c. -/
abbrev clsO : Option (List Cls) := some [.v, .s, .c]

/-- Registers of LD and ST data (R50, R176). -/
def Sz.grp : Sz → Nat
  | .b8 | .b16 | .b32 => 1
  | .b64 | .pw => 2
  | .b128 => 4

/-- The sizes of BPK and BPX (R171). -/
def Sz.plane : Sz → Bool
  | .b8 | .b16 | .b32 | .pw => true
  | _ => false

/-- The sizes of Format A (R171). -/
def Sz.ordered : Sz → Bool
  | .b32 | .b64 => true
  | _ => false

/-- An s destination needs an O of class s or c (R58). -/
def sDestOk (v o : BitVec 9) : Bool := clsOf v != .s || clsOf o != .v

/-- Format M opcodes (R58, R171). -/
def decM (r : FM) : Except Cause Instr :=
  let sz := Sz.ofBits r.sz
  let pol := Pol.ofBits r.pol
  let s := sz.getD .b8
  let p := pol.getD .page
  let chk0 := r.chk == 0#1
  let sz0 := r.sz == 0#3
  let pol0 := r.pol == 0#3
  let m := r.mf s p
  let sB128 := !(clsOf r.v == Cls.s && s == Sz.b128)
  match r.op with
  | 0x70#8 =>
    (checksM r (sz.isSome && pol.isSome) true (sB128 && sDestOk r.v r.o) (clsD, s.grp) (clsO, 1)).judge (.ld m)
  | 0x71#8 => (checksM r (sz.isSome && pol.isSome && chk0) true sB128 (clsD, s.grp) (clsO, 1)).judge (.st m)
  | 0x72#8 =>
    (checksM r (sz.isSome && s.plane && pol.isSome && chk0) true true (clsD, 1) (clsO, 1)).judge (.bpk m)
  | 0x73#8 =>
    (checksM r (sz.isSome && s.plane && pol.isSome) true (sDestOk r.v r.o) (clsD, 1) (clsO, 1)).judge (.bpx m)
  | 0x74#8 => (checksM r (pol.isSome && chk0) sz0 true dash (clsO, 1)).judge (.pfch (r.line p))
  | 0x76#8 => (checksM r chk0 (sz0 && pol0) true dash (clsO, 1)).judge (.cwb (r.line .page))
  | 0x77#8 => (checksM r chk0 (sz0 && pol0) true dash (clsO, 1)).judge (.icinv (r.line .page))
  | 0x78#8 =>
    (checksM r chk0 (sz0 && pol0 && r.xr == 0#3 && r.disp == 0#16) true dash dash).judge
      (.fbar (mkPre r.stall r.pn r.pk))
  | _ => .error .opcode

/-- The checks of a Format A word. -/
def checksA (r : FA) (value bits cls : Bool) (v o : Option (List Cls) × Nat) : Checks :=
  { value := value
    bits := bits && ixsOk r.ixs [r.ixv, r.ixo]
    slots := [⟨r.v, r.ixv, v.1, v.2⟩, ⟨r.o, r.ixo, o.1, o.2⟩]
    cls := cls
    pn := r.pn, pk := r.pk }

/-- The operands of a Format A word. -/
def FA.af (r : FA) (sz : Sz) (ord : Ord) : AF :=
  ⟨mkPre r.stall r.pn r.pk, r.ixs, opdOf r.v r.ixv, r.xr, opdOf r.o r.ixo, sz, ord, r.chk == 1#1, r.disp⟩

/-- Format A opcodes (R58, R171). -/
def decA (r : FA) : Except Cause Instr :=
  let sz := Sz.ofBits r.sz
  let s := sz.getD .b32
  let szOk := sz.isSome && s.ordered
  let ord := Ord.ofBits r.ord
  let o := ord.getD .pln
  let ordOk := ord.isSome && o != .cmt
  let chk0 := r.chk == 0#1
  let aop := AOp.ofBits r.aop
  let op := aop.getD .add
  let aop0 := r.aop == 0#4
  let aopOk := aop.isSome && !(op.float && s == .b64)
  let a := r.af s o
  let g := s.grp
  match r.op with
  | 0x79#8 =>
    (checksA r (chk0 && ordOk && o != .pln) (r.sz == 0#3 && aop0 && r.xr == 0#3 && r.disp == 0#12) true dash dash).judge
      (.fence (mkPre r.stall r.pn r.pk) o)
  | 0x80#8 => (checksA r (szOk && ordOk && aopOk) true (sDestOk r.v r.o) (clsD, g) (clsO, 1)).judge (.atom op a)
  | 0x81#8 => (checksA r (szOk && ordOk) aop0 true (some [.v], 2 * g) (clsO, 1)).judge (.acas a)
  | 0x82#8 =>
    (checksA r (szOk && ord.isSome && chk0 && aopOk && op != .xchg) true true (clsD, g) (clsO, 1)).judge (.red op a)
  | 0x83#8 =>
    (checksA r (sz == some .b64 && o == .sc && chk0 && decide (1 ≤ r.aop.toNat ∧ r.aop.toNat ≤ 8)) true true
      (some [.s], 1) (some [.s, .c], 1)).judge (.mcas r.aop a)
  | 0x84#8 => (checksA r (szOk && ordOk) aop0 (sDestOk r.v r.o) (clsD, g) (clsO, 1)).judge (.lda a)
  | 0x85#8 => (checksA r (szOk && ordOk && chk0) aop0 true (clsD, g) (clsO, 1)).judge (.sta a)
  | 0x86#8 =>
    (checksA r (szOk && ordOk && (aop0 || r.aop == 1#4)) true (sDestOk r.v r.o) (clsD, g) (clsO, 1)).judge
      (.waitu (r.aop == 1#4) a)
  | _ => .error .opcode

/-! ## Format X -/

/-- Which fields of a Format X word the opcode uses: the run length (0: SB unused), XR, SLOT1, SLOT2, MODE3,
and the unused-bit masks of the three IMM8 fields. -/
structure UseX where
  run : Nat := 0
  xr : Bool := false
  slot1 : Bool := false
  slot2 : Bool := false
  mode3 : Bool := false
  zA : BitVec 8 := 0xFF#8
  zB : BitVec 8 := 0xFF#8
  zC : BitVec 8 := 0xFF#8

/-- The checks of a Format X word (R46, R59). -/
def checksX (r : FX) (value : Bool) (u : UseX) : Checks :=
  { value := r.xfn == 0#6 && value
    bits := (u.run != 0 || r.sb == 0#6) && (u.xr || r.xr == 0#3) && (u.slot1 || r.slot1 == 0#3) &&
      (u.slot2 || r.slot2 == 0#3) && (u.mode3 || r.mode3 == 0#3) &&
      r.immA &&& u.zA == 0#8 && r.immB &&& u.zB == 0#8 && r.immC &&& u.zC == 0#8
    group := decide (r.sb.toNat + u.run ≤ 64)
    pn := r.pn, pk := r.pk }

/-- The prefix and run of a Format X word. -/
def FX.x1 (r : FX) : X1 := ⟨mkPre r.stall r.pn r.pk, r.sb⟩

/-- The MLOOP fields of a word. -/
def FX.mloop (r : FX) : MLoopF :=
  ⟨mkPre r.stall r.pn r.pk, r.sb, r.xr, r.slot1, r.slot2, (Shp.ofBits r.mode3).getD .shp0,
    r.immA.extractLsb' 0 2, r.immB.extractLsb' 0 5, (PMode.ofBits (r.immC.extractLsb' 0 3)).getD .exact⟩

/-- Engine, array and sequencer opcodes of Format X (R105, R212 to R233, R253, R309, R347 to R349). -/
def decX1 (r : FX) : Except Cause Instr :=
  let p := mkPre r.stall r.pn r.pk
  let path := Path.ofBits r.mode3
  let conv := CopyConv.ofBits r.mode3
  let q : BitVec 2 := r.immA.extractLsb' 0 2
  let sel : ArrSel := ⟨r.immA, r.immB, r.immC.extractLsb' 0 3⟩
  match r.op with
  | 0x75#8 => (checksX r (decide (r.xr.toNat < 6)) { run := 3, xr := true }).judge (.xlat r.x1 r.xr)
  | 0x90#8 =>
    let raw := conv == some .raw
    (checksX r conv.isSome
      { run := 4, xr := true, slot1 := !raw, slot2 := !raw, mode3 := true, zA := 0#8 }).judge
      (.bcopy r.x1 r.xr r.slot1 r.slot2 (conv.getD .raw) r.immA)
  | 0x91#8 =>
    (checksX r (FillSz.ofBits r.mode3).isSome { run := 3, xr := true, mode3 := true }).judge
      (.bfill r.x1 r.xr ((FillSz.ofBits r.mode3).getD .b8))
  | 0x92#8 => (checksX r path.isSome { run := 1, mode3 := true }).judge (.waitc r.x1 (path.getD .g))
  | 0x93#8 => (checksX r path.isSome { run := 1, mode3 := true }).judge (.icnt r.x1 (path.getD .g))
  | 0x94#8 => (checksX r true { run := 2, xr := true }).judge (.slbq r.x1 r.xr)
  | 0xA0#8 =>
    let c := checksX r (r.mode3 == 0#3 || r.mode3 == 1#3) { mode3 := true, zA := 0#8, zB := 0#8, zC := 0xF8#8 }
    if r.mode3 == 1#3 then c.judge (.amodeRck p sel) else c.judge (.amodeSto p sel)
  | 0xA1#8 => (checksX r true { zA := 0xFC#8 }).judge (.macq p q)
  | 0xA2#8 => (checksX r true { zA := 0xFC#8 }).judge (.mrel p q)
  | 0xA3#8 =>
    let c := checksX r ((Shp.ofBits r.mode3).isSome && (PMode.ofBits (r.immC.extractLsb' 0 3)).isSome)
      { run := 6, xr := true, slot1 := true, slot2 := true, mode3 := true, zA := 0xFC#8, zB := 0xE0#8, zC := 0xF0#8 }
    if r.immC.getLsbD 3 then c.judge (.mloopRes r.mloop) else c.judge (.mloop r.mloop)
  | 0xA4#8 => (checksX r true { run := 1, zA := 0xFC#8 }).judge (.mstat r.x1 q)
  | 0xA5#8 => (checksX r true { zA := 0#8, zB := 0#8, zC := 0xF8#8 }).judge (.mcal p sel)
  | 0xA8#8 => (checksX r true { run := 4, xr := true, slot1 := true }).judge (.mxscl r.x1 r.xr r.slot1)
  | 0xA9#8 => (checksX r true { run := 4, xr := true, slot1 := true }).judge (.qcvt r.x1 r.xr r.slot1)
  | 0xAA#8 => (checksX r true { run := 4, xr := true, slot1 := true }).judge (.dqcvt r.x1 r.xr r.slot1)
  | _ => .error .opcode

/-- Task, group and supervisor opcodes of Format X (R405 to R435, R115, R448 to R464). -/
def decX2 (r : FX) : Except Cause Instr :=
  let p := mkPre r.stall r.pn r.pk
  let b : BitVec 4 := r.immA.extractLsb' 0 4
  match r.op with
  | 0xB0#8 =>
    let c := checksX r (r.mode3 == 0#3 || r.mode3 == 1#3) { mode3 := true, zA := 0xF0#8 }
    if r.mode3 == 1#3 then c.judge (.barArrive p b) else c.judge (.barSync p b)
  | 0xB1#8 => (checksX r true { run := 1, zA := 0xF0#8 }).judge (.barinit r.x1 b)
  | 0xB2#8 => (checksX r true { run := 3 }).judge (.spawn r.x1)
  | 0xB3#8 => (checksX r true { run := 3 }).judge (.qpush r.x1)
  | 0xB4#8 => (checksX r true { run := 2 }).judge (.qpop r.x1)
  | 0xB5#8 => (checksX r true { run := 2 }).judge (.qfree r.x1)
  | 0xB6#8 => (checksX r true { run := 2 }).judge (.jdec r.x1)
  | 0xB7#8 => (checksX r true {}).judge (.commit p)
  | 0xB8#8 => (checksX r true { run := 5 }).judge (.forkg r.x1)
  | 0xB9#8 => (checksX r true { run := 1 }).judge (.grwd r.x1)
  | 0xBA#8 => (checksX r true { run := 2 }).judge (.gbar r.x1)
  | 0xBB#8 => (checksX r true { run := 3 }).judge (.gcan r.x1)
  | 0xBC#8 => (checksX r true { run := 3 }).judge (.evpost r.x1)
  | 0xBD#8 =>
    let c := checksX r (r.mode3 == 0#3 || r.mode3 == 1#3) { mode3 := true }
    if r.mode3 == 1#3 then c.judge (.phintCmp p) else c.judge (.phintMem p)
  | 0xC0#8 => (checksX r true { run := 4 }).judge (.pgmap r.x1)
  | 0xC1#8 => (checksX r true { run := 2 }).judge (.pgunmap r.x1)
  | 0xC2#8 => (checksX r true { run := 3 }).judge (.tlbinv r.x1)
  | 0xC3#8 => (checksX r true { run := 2 }).judge (.pgtake r.x1)
  | 0xC4#8 => (checksX r true {}).judge (.rets p)
  | 0xC5#8 => (checksX r true { run := 3 }).judge (.pclr r.x1)
  | 0xC6#8 => (checksX r true { run := 2 }).judge (.orclm r.x1)
  | 0xC7#8 => (checksX r true { run := 1 }).judge (.haltg r.x1)
  | _ => .error .opcode

/-! ## The opcode map -/

/-- The formats, in the coding of EMUFN.FMT (R73). -/
inductive Fmt where | r | i | b | m | a | x | none | header
  deriving DecidableEq, Repr

/-- The code of a format (R73). -/
def Fmt.code : Fmt → Nat
  | .r => 0
  | .i => 1
  | .b => 2
  | .m => 3
  | .a => 4
  | .x => 5
  | .none => 6
  | .header => 7

/-- The decoding group of an opcode (R79). -/
inductive Grp where
  | nop | int | bit | f32 | pack | lane | imm | br | mem | atm | eng | tsk | res | hdr
  deriving DecidableEq, Repr

/-- The opcode map (R79): which group decodes an opcode. -/
def grpOf (op : BitVec 8) : Grp :=
  let n := op.toNat
  if n = 0x00 then .nop
  else if n ≤ 0x08 then .br
  else if n ≤ 0x0A then .imm
  else if n = 0x0B then .br
  else if n < 0x10 then .res
  else if n ≤ 0x1A then .int
  else if n ≤ 0x1F then .imm
  else if n ≤ 0x2E then .bit
  else if n = 0x2F then .imm
  else if n ≤ 0x3F then .f32
  else if n ≤ 0x4A then .pack
  else if n < 0x60 then .res
  else if n ≤ 0x6B then .lane
  else if n ≤ 0x6E then .imm
  else if n = 0x6F then .res
  else if n = 0x75 then .eng
  else if n ≤ 0x78 then .mem
  else if n = 0x79 then .atm
  else if n < 0x80 then .res
  else if n ≤ 0x86 then .atm
  else if n < 0x90 then .res
  else if n ≤ 0x94 then .eng
  else if n < 0xA0 then .res
  else if n ≤ 0xA5 then .eng
  else if n < 0xA8 then .res
  else if n ≤ 0xAA then .eng
  else if n < 0xB0 then .res
  else if n ≤ 0xBD then .tsk
  else if n < 0xC0 then .res
  else if n ≤ 0xC7 then .tsk
  else if n = 0xFF then .hdr
  else .res

/-- The format of a decoding group. -/
def Grp.fmt : Grp → Fmt
  | .nop | .int | .bit | .f32 | .pack | .lane => .r
  | .imm => .i
  | .br => .b
  | .mem => .m
  | .atm => .a
  | .eng | .tsk => .x
  | .res => .none
  | .hdr => .header

/-- The opcode byte of a word (R26). -/
def opByte (w : Word) : BitVec 8 := w.extractLsb' 56 8

/-- Decode one word standing inside a block (R32, R70), but for the checks that need the gang's mode,
width or allotment. -/
def decode (w : Word) : Except Cause Instr :=
  match grpOf (opByte w) with
  | .nop => decNop (unpackR w)
  | .int => decInt (unpackR w)
  | .bit => decBit (unpackR w)
  | .f32 => decF32 (unpackR w)
  | .pack => decPack (unpackR w)
  | .lane => decLane (unpackR w)
  | .imm => decI (unpackI w)
  | .br => decB (unpackB w)
  | .mem => decM (unpackM w)
  | .atm => decA (unpackA w)
  | .eng => decX1 (unpackX w)
  | .tsk => decX2 (unpackX w)
  | .res => .error .opcode
  | .hdr => .error .header

/-- The supervisor opcodes (R79, R80). -/
def supervisorOp (op : BitVec 8) : Bool := decide (0xC0 ≤ op.toNat ∧ op.toNat ≤ 0xC7)

/-- The privilege checks of R70, which come before every other check but the header's. -/
def privileged (w : Word) : Bool :=
  supervisorOp (opByte w) ||
  ((opByte w == 0x6D#8 || opByte w == 0x6E#8) &&
    match SpReg.ofNum (w.extractLsb' 0 10) with
    | some r => r.supervisor
    | none => false)

/-- What the decoder reads from a word whose bits are `w` (the first word's bit 0 is bit 0). -/
def decodeTableWord (nbits w : Nat) : Option Instr :=
  match decode (BitVec.ofNat 64 (w % 2 ^ nbits)) with
  | .ok i => some i
  | .error _ => none

/-! ## The encoder -/

/-- Zero field marked —. -/
abbrev nof : BitVec 9 := 0#9

/-- A Format R word of two operands. -/
def R2.enc (o : R2) (op : BitVec 8) (fn : BitVec 6) : Word :=
  packR { op := op, stall := o.p.stall, pn := bit1 o.p.pn, pk := o.p.pk, ixs := o.ixs, ixd := o.d.ixBit,
          ixa := o.a.ixBit, ixb := 0#1, ixc := 0#1, fn := fn, d := o.d.field, a := o.a.field, b := nof, c := nof }
/-- A Format R word of three operands. -/
def R3.enc (o : R3) (op : BitVec 8) (fn : BitVec 6) : Word :=
  packR { op := op, stall := o.p.stall, pn := bit1 o.p.pn, pk := o.p.pk, ixs := o.ixs, ixd := o.d.ixBit,
          ixa := o.a.ixBit, ixb := o.b.ixBit, ixc := 0#1, fn := fn, d := o.d.field, a := o.a.field,
          b := o.b.field, c := nof }
/-- A Format R word of four operands. -/
def R4.enc (o : R4) (op : BitVec 8) (fn : BitVec 6) : Word :=
  packR { op := op, stall := o.p.stall, pn := bit1 o.p.pn, pk := o.p.pk, ixs := o.ixs, ixd := o.d.ixBit,
          ixa := o.a.ixBit, ixb := o.b.ixBit, ixc := o.c.ixBit, fn := fn, d := o.d.field, a := o.a.field,
          b := o.b.field, c := o.c.field }
/-- A Format I word. -/
def encI (p : Pre) (ixs : BitVec 2) (op : BitVec 8) (d a : Option Opd) (fn2 : BitVec 2) (imm : BitVec 24) : Word :=
  packI { op := op, stall := p.stall, pn := bit1 p.pn, pk := p.pk, ixs := ixs,
          ixd := (d.map Opd.ixBit).getD 0#1, ixa := (a.map Opd.ixBit).getD 0#1,
          d := (d.map Opd.field).getD nof, a := (a.map Opd.field).getD nof, fn2 := fn2, imm := imm }
/-- A Format B word. -/
def encB (stall : BitVec 4) (op : BitVec 8) (bn : Bool) (bk bf : BitVec 3) (a : BitVec 9) (off : BitVec 32) : Word :=
  packB { op := op, stall := stall, pn := 0#1, pk := 0#3, bn := bit1 bn, bk := bk, bf := bf, a := a, off := off }
/-- The field of s[n]. -/
def sField (n : BitVec 6) : BitVec 9 := (Opd.s n).field
/-- A Format M word. -/
def MF.enc (m : MF) (op : BitVec 8) : Word :=
  packM { op := op, stall := m.p.stall, pn := bit1 m.p.pn, pk := m.p.pk, ixs := m.ixs, ixv := m.v.ixBit,
          ixo := m.o.ixBit, v := m.v.field, xr := m.xr, o := m.o.field, sz := m.sz.bits, pol := m.pol.bits,
          chk := bit1 m.chk, disp := m.disp }
/-- A Format M word without data operand. -/
def MLineF.enc (m : MLineF) (op : BitVec 8) : Word :=
  packM { op := op, stall := m.p.stall, pn := bit1 m.p.pn, pk := m.p.pk, ixs := m.ixs, ixv := 0#1,
          ixo := m.o.ixBit, v := nof, xr := m.xr, o := m.o.field, sz := 0#3, pol := m.pol.bits,
          chk := 0#1, disp := m.disp }
/-- A Format A word. -/
def AF.enc (m : AF) (op : BitVec 8) (aop : BitVec 4) : Word :=
  packA { op := op, stall := m.p.stall, pn := bit1 m.p.pn, pk := m.p.pk, ixs := m.ixs, ixv := m.v.ixBit,
          ixo := m.o.ixBit, v := m.v.field, xr := m.xr, o := m.o.field, sz := m.sz.bits, ord := m.ord.bits,
          chk := bit1 m.chk, aop := aop, disp := m.disp }
/-- A Format X word. -/
def encX (p : Pre) (op : BitVec 8) (sb : BitVec 6) (xr slot1 slot2 mode3 : BitVec 3) (a b c : BitVec 8) : Word :=
  packX { op := op, stall := p.stall, pn := bit1 p.pn, pk := p.pk, xfn := 0#6, sb := sb, xr := xr, slot1 := slot1,
          slot2 := slot2, mode3 := mode3, immA := a, immB := b, immC := c }
/-- A Format X word of a run alone. -/
def X1.enc (x : X1) (op : BitVec 8) (xr mode3 : BitVec 3) : Word := encX x.p op x.sb xr 0#3 0#3 mode3 0#8 0#8 0#8
/-- A Format X word of prefix and immediates alone. -/
def encX0 (p : Pre) (op : BitVec 8) (mode3 : BitVec 3) (a b c : BitVec 8) : Word :=
  encX p op 0#6 0#3 0#3 0#3 mode3 a b c
/-- FN of an integer instruction (R269). -/
def intFn (sub : BitVec 3) (sat : Bool) (ty : ITy) : BitVec 6 := sub ++ bit1 sat ++ ty.bits
/-- FN of an F32 instruction (R275). -/
def FFn.bits (f : FFn) : BitVec 6 := 0#2 ++ bit1 f.sat ++ bit1 f.ftz ++ f.rm.bits
/-- FN of an F32 instruction without RM (R275). -/
def ffn0 (sat ftz : Bool) : BitVec 6 := 0#2 ++ bit1 sat ++ bit1 ftz ++ 0#2
/-- FN of a packed half instruction (R281). -/
def HFn.bits (h : HFn) : BitVec 6 := 0#2 ++ bit1 h.sat ++ bit1 h.bf ++ h.rm.bits
/-- FN of a bit instruction (R273). -/
def bitFn (signed w64 : Bool) : BitVec 6 := 0#4 ++ bit1 signed ++ bit1 w64
/-- An MLOOP word (R349). -/
def MLoopF.enc (f : MLoopF) (res : Bool) : Word :=
  encX f.p 0xA3#8 f.sb f.xr f.slot1 f.slot2 f.shp.bits (0#6 ++ f.q) (0#3 ++ f.first) (0#4 ++ bit1 res ++ f.pm.bits)

/-- The word of NOP. -/
def encNop (p : Pre) : Word :=
  packR { op := 0x00#8, stall := p.stall, pn := bit1 p.pn, pk := p.pk, ixs := 0#2, ixd := 0#1,
          ixa := 0#1, ixb := 0#1, ixc := 0#1, fn := 0#6, d := nof, a := nof, b := nof, c := nof }
/-- The word of FBAR. -/
def encFbar (p : Pre) : Word :=
  packM { op := 0x78#8, stall := p.stall, pn := bit1 p.pn, pk := p.pk, ixs := 0#2, ixv := 0#1,
          ixo := 0#1, v := nof, xr := 0#3, o := nof, sz := 0#3, pol := 0#3, chk := 0#1, disp := 0#16 }
/-- The word of FENCE. -/
def encFence (p : Pre) (ord : Ord) : Word :=
  packA { op := 0x79#8, stall := p.stall, pn := bit1 p.pn, pk := p.pk, ixs := 0#2, ixv := 0#1, ixo := 0#1,
          v := nof, xr := 0#3, o := nof, sz := 0#3, ord := ord.bits, chk := 0#1, aop := 0#4, disp := 0#12 }

/-- The word of an instruction (R79 and the encodings of the instruction chapters); device events and host
commands have none. -/
def encode : Instr → Option Word
  | .nop p => some (encNop p)
  | .bra st off => some (encB st 0x01#8 false 0#3 0#3 nof off)
  | .brcDiv st bn bk off => some (encB st 0x02#8 bn bk 0#3 nof off)
  | .brcAny st bn bk off => some (encB st 0x02#8 bn bk 1#3 nof off)
  | .brcAll st bn bk off => some (encB st 0x02#8 bn bk 2#3 nof off)
  | .brx st a off => some (encB st 0x03#8 false 0#3 0#3 (sField a) off)
  | .call st a off => some (encB st 0x04#8 false 0#3 0#3 (sField a) off)
  | .ret st a => some (encB st 0x05#8 false 0#3 0#3 (sField a) 0#32)
  | .exit st => some (encB st 0x06#8 false 0#3 0#3 nof 0#32)
  | .gjoin st off => some (encB st 0x07#8 false 0#3 0#3 nof off)
  | .yield st => some (encB st 0x08#8 false 0#3 0#3 nof 0#32)
  | .bkpt p code => some (encI p 0#2 0x09#8 none none 0#2 code)
  | .trapu p code => some (encI p 0#2 0x0A#8 none none 0#2 code)
  | .retu st => some (encB st 0x0B#8 false 0#3 0#3 nof 0#32)
  | .iadd sat ty o => some (o.enc 0x10#8 (intFn 0#3 sat ty))
  | .isub sat ty o => some (o.enc 0x11#8 (intFn 0#3 sat ty))
  | .imul ty o => some (o.enc 0x12#8 (intFn 0#3 false ty))
  | .imulh ty o => some (o.enc 0x13#8 (intFn 0#3 false ty))
  | .imad sat ty o => some (o.enc 0x14#8 (intFn 0#3 sat ty))
  | .imin ty o => some (o.enc 0x15#8 (intFn 0#3 false ty))
  | .imax ty o => some (o.enc 0x16#8 (intFn 0#3 false ty))
  | .iabs sat ty o => some (o.enc 0x17#8 (intFn 0#3 sat ty))
  | .icmp c ty o => some (o.enc 0x18#8 (intFn c.bits false ty))
  | .idiv rem ty o => some (o.enc 0x19#8 (intFn (0#2 ++ bit1 rem) false ty))
  | .lea ty o => some (o.enc 0x1A#8 (intFn 0#3 false ty))
  | .iaddi ty o => some (encI o.p o.ixs 0x1B#8 (some o.d) (some o.a) ty.bits o.imm)
  | .imuli ty o => some (encI o.p o.ixs 0x1C#8 (some o.d) (some o.a) ty.bits o.imm)
  | .icmpi c ty p ixs d a imm => some (encI p ixs 0x1D#8 (some d) (some a) ty.bits (c.bits ++ imm))
  | .movi zx o => some (encI o.p o.ixs 0x1E#8 (some o.d) none (0#1 ++ bit1 zx) o.imm)
  | .movk part o => some (encI o.p o.ixs 0x1F#8 (some o.d) none part.bits o.imm)
  | .and w o => some (o.enc 0x20#8 (bitFn false w))
  | .or w o => some (o.enc 0x21#8 (bitFn false w))
  | .xor w o => some (o.enc 0x22#8 (bitFn false w))
  | .andn w o => some (o.enc 0x23#8 (bitFn false w))
  | .shl w o => some (o.enc 0x24#8 (bitFn false w))
  | .shr w o => some (o.enc 0x25#8 (bitFn false w))
  | .sra w o => some (o.enc 0x26#8 (bitFn false w))
  | .rot w o => some (o.enc 0x27#8 (bitFn false w))
  | .bfe sg w o => some (o.enc 0x28#8 (bitFn sg w))
  | .bfi w o => some (o.enc 0x29#8 (bitFn false w))
  | .popc w o => some (o.enc 0x2A#8 (bitFn false w))
  | .clz w o => some (o.enc 0x2B#8 (bitFn false w))
  | .brev w o => some (o.enc 0x2C#8 (bitFn false w))
  | .sel w o => some (o.enc 0x2D#8 (bitFn false w))
  | .mov w o => some (o.enc 0x2E#8 (bitFn false w))
  | .logi op o => some (encI o.p o.ixs 0x2F#8 (some o.d) (some o.a) op.bits o.imm)
  | .fadd f o => some (o.enc 0x30#8 f.bits)
  | .fsub f o => some (o.enc 0x31#8 f.bits)
  | .fmul f o => some (o.enc 0x32#8 f.bits)
  | .ffma f o => some (o.enc 0x33#8 f.bits)
  | .fmin ftz o => some (o.enc 0x34#8 (ffn0 false ftz))
  | .fmax ftz o => some (o.enc 0x35#8 (ffn0 false ftz))
  | .fcmp c o => some (o.enc 0x36#8 (0#2 ++ c.bits))
  | .fclass o => some (o.enc 0x37#8 0#6)
  | .frcp sat ftz o => some (o.enc 0x38#8 (ffn0 sat ftz))
  | .frsq sat ftz o => some (o.enc 0x39#8 (ffn0 sat ftz))
  | .fsqrt f o => some (o.enc 0x3A#8 f.bits)
  | .fdiv f o => some (o.enc 0x3B#8 f.bits)
  | .fexp2 sat ftz o => some (o.enc 0x3C#8 (ffn0 sat ftz))
  | .flog2 sat ftz o => some (o.enc 0x3D#8 (ffn0 sat ftz))
  | .fsin sat ftz o => some (o.enc 0x3E#8 (ffn0 sat ftz))
  | .fcos sat ftz o => some (o.enc 0x3F#8 (ffn0 sat ftz))
  | .hadd2 h o => some (o.enc 0x40#8 h.bits)
  | .hmul2 h o => some (o.enc 0x41#8 h.bits)
  | .hfma2 h o => some (o.enc 0x42#8 h.bits)
  | .hmin2 sat bf o => some (o.enc 0x43#8 (ffn0 sat bf))
  | .hmax2 sat bf o => some (o.enc 0x44#8 (ffn0 sat bf))
  | .dot4 sat bs as o => some (o.enc 0x45#8 (0#3 ++ bit1 sat ++ bit1 bs ++ bit1 as))
  | .ftanh sat ftz o => some (o.enc 0x46#8 (ffn0 sat ftz))
  | .fldx f o => some (o.enc 0x47#8 f.bits)
  | .cvt op rm o => some (o.enc 0x48#8 (op.bits ++ rm.bits))
  | .cvtp op hi rm o => some (o.enc 0x49#8 (op.bits ++ bit1 hi ++ rm.bits))
  | .frnd f o => some (o.enc 0x4A#8 f.bits)
  | .kand o => some (o.enc 0x60#8 0#6)
  | .kor o => some (o.enc 0x61#8 0#6)
  | .kxor o => some (o.enc 0x62#8 0#6)
  | .knot o => some (o.enc 0x63#8 0#6)
  | .kbal o => some (o.enc 0x64#8 0#6)
  | .kset o => some (o.enc 0x65#8 0#6)
  | .shfl w m o => some (o.enc 0x66#8 (0#3 ++ bit1 w ++ m.bits))
  | .vote f o => some (o.enc 0x67#8 (0#4 ++ f.bits))
  | .gred op ty o => some (o.enc 0x68#8 (op.bits ++ ty.bits))
  | .gscan op ty o => some (o.enc 0x69#8 (op.bits ++ ty.bits))
  | .rdlane o => some (o.enc 0x6A#8 0#6)
  | .wrlane o => some (o.enc 0x6B#8 0#6)
  | .ixw p i a imm => some (encI p 0#2 0x6C#8 none (some a) i imm)
  | .srd p ixs d r => some (encI p ixs 0x6D#8 (some d) none 0#2 (0#14 ++ r.num))
  | .swr p ixs a r => some (encI p ixs 0x6E#8 none (some a) 0#2 (0#14 ++ r.num))
  | .ld m => some (m.enc 0x70#8)
  | .st m => some (m.enc 0x71#8)
  | .bpk m => some (m.enc 0x72#8)
  | .bpx m => some (m.enc 0x73#8)
  | .pfch m => some (m.enc 0x74#8)
  | .xlat x xr => some (x.enc 0x75#8 xr 0#3)
  | .cwb m => some (m.enc 0x76#8)
  | .icinv m => some (m.enc 0x77#8)
  | .fbar p => some (encFbar p)
  | .fence p ord => some (encFence p ord)
  | .atom op a => some (a.enc 0x80#8 op.bits)
  | .acas a => some (a.enc 0x81#8 0#4)
  | .red op a => some (a.enc 0x82#8 op.bits)
  | .mcas n a => some (a.enc 0x83#8 n)
  | .lda a => some (a.enc 0x84#8 0#4)
  | .sta a => some (a.enc 0x85#8 0#4)
  | .waitu eq a => some (a.enc 0x86#8 (0#3 ++ bit1 eq))
  | .bcopy x xr s1 s2 conv mask => some (encX x.p 0x90#8 x.sb xr s1 s2 conv.bits mask 0#8 0#8)
  | .bfill x xr sz => some (x.enc 0x91#8 xr sz.bits)
  | .waitc x path => some (x.enc 0x92#8 0#3 path.bits)
  | .icnt x path => some (x.enc 0x93#8 0#3 path.bits)
  | .slbq x xr => some (x.enc 0x94#8 xr 0#3)
  | .amodeSto p s => some (encX0 p 0xA0#8 0#3 s.first s.count (0#5 ++ s.kf))
  | .amodeRck p s => some (encX0 p 0xA0#8 1#3 s.first s.count (0#5 ++ s.kf))
  | .macq p q => some (encX0 p 0xA1#8 0#3 (0#6 ++ q) 0#8 0#8)
  | .mrel p q => some (encX0 p 0xA2#8 0#3 (0#6 ++ q) 0#8 0#8)
  | .mloop f => some (f.enc false)
  | .mloopRes f => some (f.enc true)
  | .mstat x q => some (encX x.p 0xA4#8 x.sb 0#3 0#3 0#3 0#3 (0#6 ++ q) 0#8 0#8)
  | .mcal p s => some (encX0 p 0xA5#8 0#3 s.first s.count (0#5 ++ s.kf))
  | .mxscl x xr sl => some (encX x.p 0xA8#8 x.sb xr sl 0#3 0#3 0#8 0#8 0#8)
  | .qcvt x xr sl => some (encX x.p 0xA9#8 x.sb xr sl 0#3 0#3 0#8 0#8 0#8)
  | .dqcvt x xr sl => some (encX x.p 0xAA#8 x.sb xr sl 0#3 0#3 0#8 0#8 0#8)
  | .barSync p b => some (encX0 p 0xB0#8 0#3 (0#4 ++ b) 0#8 0#8)
  | .barArrive p b => some (encX0 p 0xB0#8 1#3 (0#4 ++ b) 0#8 0#8)
  | .barinit x b => some (encX x.p 0xB1#8 x.sb 0#3 0#3 0#3 0#3 (0#4 ++ b) 0#8 0#8)
  | .spawn x => some (x.enc 0xB2#8 0#3 0#3)
  | .qpush x => some (x.enc 0xB3#8 0#3 0#3)
  | .qpop x => some (x.enc 0xB4#8 0#3 0#3)
  | .qfree x => some (x.enc 0xB5#8 0#3 0#3)
  | .jdec x => some (x.enc 0xB6#8 0#3 0#3)
  | .commit p => some (encX0 p 0xB7#8 0#3 0#8 0#8 0#8)
  | .forkg x => some (x.enc 0xB8#8 0#3 0#3)
  | .grwd x => some (x.enc 0xB9#8 0#3 0#3)
  | .gbar x => some (x.enc 0xBA#8 0#3 0#3)
  | .gcan x => some (x.enc 0xBB#8 0#3 0#3)
  | .evpost x => some (x.enc 0xBC#8 0#3 0#3)
  | .phintMem p => some (encX0 p 0xBD#8 0#3 0#8 0#8 0#8)
  | .phintCmp p => some (encX0 p 0xBD#8 1#3 0#8 0#8 0#8)
  | .pgmap x => some (x.enc 0xC0#8 0#3 0#3)
  | .pgunmap x => some (x.enc 0xC1#8 0#3 0#3)
  | .tlbinv x => some (x.enc 0xC2#8 0#3 0#3)
  | .pgtake x => some (x.enc 0xC3#8 0#3 0#3)
  | .rets p => some (encX0 p 0xC4#8 0#3 0#8 0#8 0#8)
  | .pclr x => some (x.enc 0xC5#8 0#3 0#3)
  | .orclm x => some (x.enc 0xC6#8 0#3 0#3)
  | .haltg x => some (x.enc 0xC7#8 0#3 0#3)
  | .headerArrive _ | .laneMerge _ | .rjtDetach _ | .rendezvousTimeout _ | .earlyReturn _ | .rejoinDeadlock _
  | .groupTimeout _ | .groupParentPushRetry _ | .joinPushRetry _ | .dispatchPlace _ | .launchPush _ | .gangEnd _
  | .forwardProgressSwap _ | .teamSaved _ | .priorityRestore _ | .copyStart _ | .copyBeat _ | .copyComplete _
  | .copyPageFault _ | .seqRunStart _ _ | .seqStepStart _ _ | .seqRow _ _ | .seqRunEnd _ _ | .pageWalk _ _ _
  | .loadDataLand _ _ | .registrationRequest _ | .registrationGrant _ | .homeFill _ | .forwardedLoad _
  | .revocation _ | .writeBack _ | .farStore _ | .farAtomic _ | .storeAck _ | .mcasLock _ | .waituWake _
  | .waituPoll _ | .waituTimeout _ | .ownerLost _ | .ownerLostNotice _ | .remoteTimeout _ | .lateAnswer _
  | .linkDown _ | .rmaWrite _ _ _ _ | .rmaRead _ _ _ _ | .winopen _ | .winclose _ | .launch _ | .halt _
  | .resume _ | .kill _ | .strd _ | .stwr _ | .evdrain _ | .power _ | .dieGating _ | .setdst _ | .domain _
  | .l1partSet _ | .l1partRead _ | .endpoints _ | .identity _ | .attest _ | .fwstage _ | .fwcommit _ | .logrd _
  | .gridend _ | .reset | .islandEnterNear _ | .islandLeaveNear _ | .islandTransitionDone _ | .droop _ | .sag _ _
  | .softError _ | .unsupportedFeaturePacket _ _ | .unknownOpc _ | .instructionCacheFill _ _
  | .icinvRemovalAck _ _ | .droopEnd _ => none

end Sys2Proof
end

