-- ==== Sys2Proof/Machine/State.lean ====
section
/-!
DEFINITION. The state of the machine as plain data: everything the spec gives the package, and the model's own
schedule of inputs. Rule numbers name where the spec gives a piece of state; INVENTORY.md lists them all.
-/
namespace Sys2Proof.Machine

/-- A table of records by number, in strictly rising number order. -/
abbrev Tab (α : Type) := List (Nat × α)

/-! ## Registers and threads -/

/-- KIND of a translation register (R100). -/
inductive XKind where | none | virt | frame | spad
  deriving DecidableEq, Repr

/-- A translation register (R100). `va` is the virtual base a FRAME register was loaded from, `ctx` the context it was
loaded under (R104), `prpt` the PRPT attribute of its page (R94). -/
structure XReg where
  kind : XKind := .none
  base : Word := 0
  limit : Word := 0
  w64 : Bool := false
  ro : Bool := false
  fb : Bool := false
  pca : Bool := false
  cohg : BitVec 2 := 0
  pw : Bool := false
  pgs : BitVec 2 := 0
  va : Word := 0
  ctx : BitVec 12 := 0
  prpt : Bool := false
  deriving DecidableEq, Repr

/-- The registers of a gang, or of one lane on the carry pool (R258, R364). Lane l's v register r stands at
64 r + l of `v`; `vp` marks the poisoned ones (R461); `k` holds k1 to k7 as lane masks. -/
structure Regs where
  v : Map V32 := []
  vp : Map Bool := []
  k : Map Mask := []
  s : Map Word := []
  i : Map (BitVec 16) := []
  x : Map XReg := []
  fpflags : BitVec 5 := 0
  bkconf : BitVec 32 := 0
  modez : BitVec 32 := 0
  polmis : BitVec 32 := 0
  deriving DecidableEq, Repr

/-- One register write not yet readable (R61 to R65), or carried by an instruction in flight (R66). -/
inductive RegW where
  | v (r lane : Nat) (val : V32)
  | k (n : Nat) (lanes vals : Mask)
  | s (n : Nat) (val : Word)
  | i (n : Nat) (val : BitVec 16)
  deriving DecidableEq, Repr

/-- A fixed-latency result that can be read from cycle `at` on (R63). -/
structure Pend where
  cycle : Nat
  w : List RegW
  deriving DecidableEq, Repr

/-- The error a memory answer can carry (R144), or that its die has been gated meanwhile (R491). -/
inductive MemErr where | poison | ownerLost | remote | gated
  deriving DecidableEq, Repr

/-- One byte a load waits for: the lane (64 and above: the uniform pipe), its place in the loaded value, the
address, the value once known, and the error met. -/
structure LByte where
  lane : Nat
  idx : Nat
  pa : Nat
  va : Word
  val : Option Byte
  err : Option MemErr
  deriving DecidableEq, Repr

/-- A sector on its way to a load: address, words (marked where they are not installed: poisoned, or gone from the agent
since), whether it installs (R134), policy, and the moment home served it, counted in messages. -/
structure Fill where
  pa : Nat
  words : List (Word × Bool)
  stamp : Nat
  install : Bool
  pol : Pol
  deriving DecidableEq, Repr

/-- How the bytes of a returned load make its result. -/
inductive LandKind where
  | load (bytes : Nat)
  | planes (p : Nat)
  | atom (bytes : Nat)
  | write
  | regs (w : List RegW)
  | line
  deriving DecidableEq, Repr

/-- Which lanes and registers a landing writes: the destination operand's register (v number or s number). -/
inductive LandDst where
  | none
  | v (r : Nat)
  | s (n : Nat)
  deriving DecidableEq, Repr

/-- An MCAS in progress (R190): the entries (offset, expected, new, physical address, lock unit), the block's address,
the units still to lock in order, the units held, the start, the outcome once it is fixed, the block bytes still to
be written before it is delivered; `told` lists the units for which a lost owner is told to the grid, `blkTold` the grid that is
told for the block (R142). -/
structure McasSt where
  entries : List (Word × Word × Word × Nat × Nat)
  blk : List (Nat × Nat)
  todo : List Nat
  held : List Nat
  t0 : Nat
  status : Option Word
  writes : List (Nat × Byte)
  told : List Nat := []
  blkTold : Option Nat := none
  deriving DecidableEq, Repr

/-- An instruction in flight (R66, R172, R205): its path, what it returns and what it still waits for. `wait`
counts the grants, acknowledgements and answers outstanding; `elems` holds the element number of each lane of a BPX;
`zeros` marks the lanes with data from parts that no thread owned, `zparts` counts those parts; `noInst` lists words that its later answers do not install; `aside` marks a deferred write kept over a swap, which no counter counts (R209, R247); `ctx` is the context in which it was issued (R118), `due` the cycle of its core before which scratchpad data does not land (R238, R239); `spad` marks an access to the scratchpad. -/
structure Flight where
  id : Nat
  path : Path
  kind : LandKind
  dst : LandDst := .none
  lanes : Mask := 0
  bytes : List LByte := []
  fills : List Fill := []
  elems : List (Nat × Nat) := []
  zeros : Mask := 0
  zparts : Nat := 0
  chk : Bool := false
  acq : Bool := false
  wait : Nat := 0
  landed : Bool := false
  pc : Word := 0
  err : Option MemErr := none
  sent : Nat := 0
  spad : Bool := false
  hold : Bool := false
  epoch : Nat := 0
  noInst : List Nat := []
  mcas : Option McasSt := none
  aside : Bool := false
  ctx : BitVec 12 := 0
  due : Nat := 0
  deriving DecidableEq, Repr

/-- A posted store error waiting for the next release (R144): of the earliest flight that met one, its lowest lane's;
`gated` where its home's die was gated meanwhile (R491). -/
structure PostErr where
  remote : Bool
  addr : Word
  flight : Nat := 0
  lane : Nat := 0
  gated : Bool := false
  deriving DecidableEq, Repr

/-- One word a WAITU watches (R196): `asked` while a read of it is on its way, `seen` once one has returned, `prpt` the grid
that is told of a lost owner (R142). -/
structure Watch where
  lane : Nat
  pa : Nat
  va : Word
  old : Word
  val : Word
  cur : Word
  met : Bool
  zero : Bool
  err : Option MemErr
  monitored : Bool
  cohg : Nat := 0
  asked : Bool := false
  seen : Bool := true
  prpt : Option Nat := none
  deriving DecidableEq, Repr

/-- A WAITU in progress (R196, R197): start and last poll in core cycles, and its STALL. -/
structure WaitU where
  eq : Bool
  spad : Bool
  bytes : Nat
  dst : LandDst
  lanes : Mask
  chk : Bool
  acq : Bool
  started : Nat
  polled : Nat
  watches : List Watch
  fault : List (Nat × Word)
  level : Nat
  stall : BitVec 4 := 0
  deriving DecidableEq, Repr

/-- What a thread waits in (R418); a WAITC keeps its place and the threshold that it read at issue
(R64); `acting` says that the checks of a device operation are over and it waits for its action (R401). -/
inductive Wait where
  | none
  | bar (b : Nat)
  | amode
  | commit
  | grwd
  | waitu (w : WaitU)
  | waitc (pc threshold : Word)
  | acting
  | waitMerge (since : Nat)
  | rendezvous (since : Nat)
  deriving DecidableEq, Repr

/-- A thread of instructions: a gang, or a lane on the carry pool. `hdr` is the header in force (R29), `atHdr`
says that `pc` is a header still to be arrived at, `next` is the earliest next issue (R62): a cycle of a gang's core, a
moment in picoseconds of a lane, `fbuf` the words
fetched (R203), `tried` the cycle of its core at which the thread last stood waiting in its present instruction or for its word (R416,
R435). -/
structure Thr where
  regs : Regs := {}
  pc : Word := 0
  hdra : Word := 0
  hdr : Word := 0
  atHdr : Bool := true
  flights : List Flight := []
  pend : List Pend := []
  postErr : Option PostErr := none
  next : Nat := 0
  fbuf : Map Word := []
  wait : Wait := .none
  tried : Option Nat := none
  deriving DecidableEq, Repr

/-- A rejoin-stack entry (R355, R377); `hdr` is the header word that travels with a PC inside a block (R29), 0 where it is
still to be read. -/
structure Entry where
  pc : Word
  rpc : Option Word
  mask : Mask
  emask : Mask
  hdra : Word
  hdr : Word := 0
  deriving DecidableEq, Repr

/-- Power hints of PHINT (R419). -/
inductive Hint where | none | mem | cmp
  deriving DecidableEq, Repr

/-- The halt registers (R451). -/
structure HaltRegs where
  cause : Word := 0
  pc : Word := 0
  mask : Word := 0
  addr : Word := 0
  deriving DecidableEq, Repr

/-- The EMU registers (R73). -/
structure EmuRegs where
  op : Word := 0
  pc : Word := 0
  fn : Word := 0
  d : Word := 0
  a : Word := 0
  b : Word := 0
  c : Word := 0
  deriving DecidableEq, Repr

/-- A stretch of an access within one page: its place in the access, its physical address, and the page's attributes. -/
structure Piece where
  off : Nat
  n : Nat
  pa : Nat
  uc : Bool
  cohg : Nat
  prpt : Bool
  deriving DecidableEq, Repr

/-- A held committed reduction, one lane entry (R170, R458): `instr` tells the instructions of a gang's log apart, `va` is
what HADDR gives for it, `virt` its virtual address and `ctx` the context of its translation (R118), `prpt` the grid that is told of its loss (R188). -/
structure CmtEntry where
  pa : Nat
  cohg : Nat
  spad : Bool
  op : AOp
  b64 : Bool
  val : Word
  instr : Nat := 0
  lane : Nat := 0
  va : Word := 0
  virt : Word := 0
  ctx : BitVec 12 := 0
  prpt : Option Nat := none
  deriving DecidableEq, Repr

/-- A page fault that an engine has raised for a gang and the gang has still to take (R226, R343). -/
structure EngFault where
  seq : Bool
  lane : Nat
  va : Word
  kind : Nat
  level : Nat
  deriving DecidableEq, Repr

/-- A gang (R18, R355, R439, R460). `stack` is bottom first; `spilled` counts its lowest entries that stand in the
spill area instead. `only` is the lane set of an instruction re-executed after RETS and the mask to return to (R448);
`ehdr` and `pfHdr` are the header words that travel with a handler's return (R29), `pfX0` the saved x0 with what the
fault frame does not hold of it, `pfHdra` the HDRA written into the frame, `pfVp` the poisoned registers that it was written with (R461), `pfSup` the mode outside the page-fault handler, `pfFresh` the number of the first flight issued in the page-fault handler, `pfWait` the wait that an engine
fault interrupted (R343), `pfHalted` says that the gang had halted before it took the fault of a copy that its team's halt waits
for (R454), `gplace` is where its group's header and slot stand, as it found them at its arrival at a COMMIT or GRWD (R429), `lowUntil` and `yieldUntil` the ends of a demotion and of a YIELD's low rank (R390, R417). -/
structure Gang where
  thr : Thr := {}
  team : Nat := 0
  gangid : Nat := 0
  core : Nat := 0
  slot : Nat := 0
  width : Nat := 16
  vallot : Nat := 8
  stack : List Entry := []
  spilled : Nat := 0
  exited : Mask := 0
  dmask : Mask := 0
  jw : Mask := 0
  jpc : Map Word := []
  sup : Bool := false
  inEmu : Bool := false
  inPf : Bool := false
  emu : EmuRegs := {}
  ehdra : Word := 0
  emuMask : Mask := 0
  emuDepth : Nat := 0
  pfDepth : Nat := 0
  pfFresh : Nat := 0
  ehdr : Word := 0
  pfHdr : Word := 0
  pfHdra : Word := 0
  pfX0 : XReg := {}
  pfSup : Bool := false
  pfVp : List Nat := []
  pfFrame : Nat := 0
  pfWait : Wait := .none
  engFaults : List EngFault := []
  ctx : BitVec 12 := 0
  halt : HaltRegs := {}
  halted : Bool := false
  fmask : Mask := 0
  fva : Map Word := []
  fcause : Word := 0
  rprog : Map Word := []
  hint : Hint := .none
  cmtLog : List CmtEntry := []
  spwBase : Word := 0
  spwSize : Nat := 0
  spinPc : Word := 0
  spinCnt : Nat := 0
  lowUntil : Option Nat := none
  yieldUntil : Option Nat := none
  age : Nat := 0
  only : Option (Mask × Mask) := none
  ended : Bool := false
  deadSince : Option Nat := none
  sib : BitVec 32 := 0xFFFFFFFF
  gdesc : Word := 0
  gplace : List Piece := []
  pfHalted : Bool := false
  deriving DecidableEq, Repr

/-- The state of a lane on the carry pool (R375). -/
inductive LaneSt where | ejected | waiting | detached | parked
  deriving DecidableEq, Repr

/-- A carry-pool lane context (R364, R460). `rejoin` is the rejoin header, `got` the v registers received at ejection
or written since (R369); `held` the earlier writes of the gang its first access waits for, `acqDue` the acquire that access performs (R367). -/
structure LaneCtx where
  thr : Thr := {}
  gang : Nat := 0
  lane : Nat := 0
  st : LaneSt := .ejected
  rejoin : Word := 0
  got : List Nat := []
  held : List Nat := []
  acqDue : Bool := true
  deriving DecidableEq, Repr

/-! ## Teams, grids, queues -/

/-- A continuation record (R394). -/
structure Rec where
  hdr : Word := 0
  frame : Word := 0
  jcnt : Word := 0
  flen : Nat := 0
  gangs : Nat := 1
  pair : Bool := false
  arrays : Nat := 0
  idem : Bool := false
  sys : Bool := false
  join : Bool := false
  ganged : Bool := false
  grp : Bool := false
  sibx : Nat := 0
  args : List Word := []
  deriving DecidableEq, Repr

/-- A named barrier (R403, R404): `set` is the count BARINIT set. -/
structure Bar where
  set : Option Nat := none
  arrivals : Nat := 0
  phase : Nat := 0
  deriving DecidableEq, Repr

/-- An AMODE in progress (R253, R459): the first arrival's operands, the GANGIDs that have arrived, whether one
differed, and, once all have arrived, whether the checks have passed, the arrays switched so far, the failure flag, the arrays that entered reckoning mode
and the arrays that left it. -/
structure AmodeSt where
  rck : Bool := false
  sel : ArrSel := ⟨0, 0, 0⟩
  arrived : List Nat := []
  bad : Bool := false
  checked : Bool := false
  pos : Nat := 0
  fail : Bool := false
  entered : Nat := 0
  left : Nat := 0
  deriving DecidableEq, Repr

/-- Where a team stands (R449, R453). -/
inductive TeamSt where
  | running
  | swapping
  | discarding
  | halting
  | halted
  | swapped
  deriving DecidableEq, Repr

/-- The halt record of a team block (R459). -/
structure HaltRec where
  regs : HaltRegs := {}
  gangid : Nat := 0
  halts : Nat := 0
  core : Nat := 0
  time : Nat := 0
  deriving DecidableEq, Repr

/-- A thread write deferred at an array (R245, R460): per lane its place in the array (rows, then the scale RAM from
32768 on) and its data: the bytes of a store, the operands of an atomic, or value, planes and element of a BPK. -/
structure DefEntry where
  word : Word
  team : Nat
  gang : Nat
  instr : Instr
  lanes : List (Nat × Nat × List Byte)
  flight : Option (Actor × Nat)
  deriving DecidableEq, Repr

/-- A team (R18, R20, R459). `cores` is one core or the two of a pair, `gangs` the gang numbers by GANGID, `window` the
physical arrays of the window in order, `grwd` the rewards brought by the GANGIDs that have arrived, `seqDue` the gangs that
still wait for sequencers they owned before a swap (R345), `savedLanes` the lane contexts saved with a swapped team (R379),
`savedDefer` the deferral queue of each saved window array (R248). -/
structure Team where
  grid : Nat := 0
  teamid : Word := 0
  reca : Word := 0
  restart : Rec := {}
  shape : Rec := {}
  cores : List Nat := []
  gangs : List Nat := []
  window : List Nat := []
  area : Nat := 0
  bars : Map Bar := []
  amode : AmodeSt := {}
  commit : List Nat := []
  grwd : List (Nat × BitVec 32) := []
  st : TeamSt := .running
  haltRec : HaltRec := {}
  lastIssue : Nat := 0
  cancelled : Bool := false
  seqDue : List (Nat × Nat) := []
  savedLanes : List (Nat × LaneCtx) := []
  savedDefer : List (List DefEntry) := []
  deriving DecidableEq, Repr

/-- A format slot as 16 raw bytes (R299). -/
abbrev SlotRaw := BitVec 128

/-- A grid of the grid table (R391 to R393). `pushed` counts the initial records pushed, `nextTeam` is the team counter,
`dqPa` the physical address of the descriptor that the launch bound. -/
structure Grid where
  launch : Word := 0
  hdr : Word := 0
  recb : Word := 0
  frameb : Word := 0
  flen : Nat := 0
  teams : Nat := 0
  shape : Rec := {}
  width : Nat := 16
  vallot : Nat := 8
  sbchk : Bool := false
  share : Bool := false
  ejdef : Nat := 0
  dmask : BitVec 8 := 0
  emuh : Word := 0
  evq : Word := 0
  dq : Word := 0
  spillb : Word := 0
  spillsz : Nat := 0
  rjt : Nat := 0
  ctx : BitVec 12 := 0
  args : List Word := []
  slots : Map SlotRaw := []
  satc : Map (BitVec 32) := []
  nextTeam : Nat := 0
  pushed : Nat := 0
  dqPa : Nat := 0
  deriving DecidableEq, Repr

/-- The values carried beside an item of a DISP queue (R542), by descriptor address and item number. -/
structure Side where
  desc : Nat
  item : Nat
  reca : Word
  teamNo : Option Nat
  deriving DecidableEq, Repr

/-- A record on a die list (R398): a discarded team's Restart record or a swapped team's area. -/
structure DieRec where
  grid : Nat := 0
  record : Rec := {}
  reca : Word := 0
  teamid : Word := 0
  area : Option Nat := none
  team : Nat := 0
  deriving DecidableEq, Repr

/-- A join or group continuation still to be pushed (R402, R431); `teamid` and `pc` are those of an event about it (R412). -/
structure RetryPush where
  ctx : BitVec 12
  grid : Nat
  counter : Word
  cont : Word
  queue : Word
  due : Nat
  group : Bool
  sup : Bool
  teamid : Word := 0
  pc : Word := 0
  deriving DecidableEq, Repr

/-- The timer of an open sample group (R426, R431): its descriptor's virtual address and header's physical address, the
stretches that FORKG translated, the context and mode in which it was opened, the time
counted before `since`, and whether it is paused (R437). -/
structure GroupTimer where
  desc : Word := 0
  pa : Nat := 0
  pieces : List Piece := []
  ctx : BitVec 12 := 0
  sup : Bool := false
  grid : Nat := 0
  used : Nat := 0
  since : Nat := 0
  paused : Bool := false
  deriving DecidableEq, Repr

/-! ## Scratchpad, copy engines and sequencers -/

/-- Owners of a slab (R240). -/
inductive Owner where
  | t
  | c (job : Nat)
  | m (run : Nat)
  deriving DecidableEq, Repr

/-- A scratchpad array (R234 to R251): cells by byte offset (32 KiB), weight-scale RAM (512 bytes), poisoned words,
owners of the 32 slabs and of the RAM (slab 32), mode, DEG, mode owner, deferred writes, and for each slab the moment until
which a conversion holds it (R315). -/
structure Arr where
  cells : Map Byte := []
  ram : Map Byte := []
  poison : Map Bool := []
  owner : Map Owner := []
  rck : Bool := false
  deg : Bool := false
  modeTeam : Option Nat := none
  defer : List DefEntry := []
  conv : Map Nat := []
  deriving DecidableEq, Repr

/-- A queued or running bulk copy or fill (R213, R220, R230): its gang, operands, its slabs (array, slab, offset) and
how many of them are taken, the elements moved, whether it is paused at a page and its handler runs (R226), and what it has read of
a block still to be finished: the floats of a QNT so far, or the stream entry of a DQT, each with whether it was bad (R224). -/
structure Job where
  id : Nat
  gang : Nat
  team : Nat
  grid : Nat
  fill : Bool
  conv : CopyConv
  toGlobal : Bool
  ctx : BitVec 12
  sup : Bool
  gx : XReg
  goff : Int
  poff : Int
  esz : Nat
  ext : List Nat
  gstr : List Int
  pstr : List Int
  tag0 : Nat
  soff : Int
  slot1 : Nat
  slot2 : Nat
  val : Word
  dests : List Nat
  pc : Word
  lane : Nat
  earlier : List Nat
  slabs : List (Nat × Nat × Nat)
  taken : Nat
  started : Bool
  pos : Nat
  paused : Bool
  inHandler : Bool
  buf : List (Nat × Bool) := []
  deriving DecidableEq, Repr

/-- A reckoning run of a sequencer (R337 to R352): its gang and operands, its slabs and how many are taken, the arrays the step holds and the
request for the next one, the row reached and the moment it began; `planes`, `segs` and `reps` bound the place within a row (R341). `stop` is the cause of a stop once it is decided. -/
structure Run where
  id : Nat
  gang : Nat
  team : Nat
  grid : Nat
  shp : Shp
  pm : PMode
  slot1 : Nat
  slot2 : Nat
  first : Nat
  ctx : BitVec 12
  sup : Bool
  ax : XReg
  aoff : Int
  astr : Int
  ainc : Int
  coff : Nat
  ascl : Int
  cnt : Nat
  pc : Word
  lane : Nat
  earlier : List Nat
  slabs : List (Nat × Nat × Nat)
  taken : Nat
  started : Bool
  held : List Nat
  want : Option (Nat × Nat)
  stepOn : Bool
  step : Nat
  row : Nat
  due : Nat := 0
  rowFrom : Nat := 0
  planes : List Nat := []
  segs : Nat := 1
  reps : Nat := 1
  stop : Option Nat
  deriving DecidableEq, Repr

/-- A matrix sequencer (R336): owner gang, gangs queued for it, its run. -/
structure Seq where
  owner : Option Nat := none
  queue : List Nat := []
  run : Option Run := none
  deriving DecidableEq, Repr

/-- A core (R17): copy queue, sequencers by number, last issue, the arrays a SHARE grid holds here, the cycle until which its
scratchpad port is held (R238). -/
structure Core where
  copyQ : List Job := []
  seqs : Map Seq := []
  lastIssue : Nat := 0
  share : Tab (List Nat) := []
  port : Nat := 0
  deriving DecidableEq, Repr

/-! ## The memory system -/

/-- A home registry entry (R122): agents are numbered 4096 × package + OAGT; `granted` orders the grants (R124). -/
structure HomeEntry where
  ol : Bool := false
  mon : Bool := false
  cst : BitVec 8 := 0
  owner : Option Nat := none
  granted : Nat := 0
  deriving DecidableEq, Repr

/-- A monitor of a WAITU at home (R141, R197). -/
structure Monitor where
  actor : Actor
  agent : Nat
  lane : Nat
  pa : Nat
  bytes : Nat
  deriving DecidableEq, Repr

/-- A monitor that an agent of another package holds at home (R197, R473). -/
structure PeerMon where
  agent : Nat
  lane : Nat
  pa : Nat
  bytes : Nat
  deriving DecidableEq, Repr

/-- What an agent of another package asks of home beside loads, stores, registrations and atomics (R473): a read of a watched
word with a claim of its monitor, the end of its monitors of a unit, an MCAS lock and its unlock, ORCLM, PCLR. -/
inductive PeerReq where
  | watch (lane pa bytes : Nat)
  | unwatch
  | lock
  | unlock
  | orclm
  | pclr (pa : Nat) (val : Word)
  deriving DecidableEq, Repr

/-- What a request asks of home: a load's sector, a registration, a store or atomic performed there, a merged plane word of
a BPK (R180), a reduction into a die's partial buffer (R138), a read of a watched word with or without a monitor (R141),
an MCAS lock; `peer` is what only agents of other packages ask by message (R473). -/
inductive Req where
  | fill (actor : Option Actor) (flight : Nat) (pa : Nat) (install : Bool) (pol : Pol)
  | reg (actor : Option Actor)
  | farStore (actor : Option Actor) (flight lane : Nat) (pa : Nat) (bytes : List Byte) (va : Word)
  | plane (actor : Actor) (flight lane : Nat) (pa n : Nat) (mask bits : Word) (va : Word)
  | red (actor : Actor) (flight lane : Nat) (pa : Nat) (op : AOp) (b64 : Bool) (val : Word) (die : Nat) (va : Word)
  | watch (actor : Actor) (lane : Nat) (pa bytes : Nat) (monitor : Bool)
  | farAtomic (actor : Option Actor) (flight : Nat) (lane : Nat) (pa : Nat) (bytes : Nat) (op : Option AOp)
      (cmp val : Word) (va : Word)
  | lock (actor : Actor) (flight : Nat)
  | peer (q : PeerReq)
  deriving DecidableEq, Repr

/-- A request on its way to home or waiting there. -/
structure HomeReq where
  id : Nat
  agent : Nat
  ukey : Nat
  sent : Nat
  timedOut : Bool := false
  prpt : Option Nat := none
  req : Req
  deriving DecidableEq, Repr

/-- What home is doing for the first request of a unit's queue (R125, R131, R132): waiting for a write-back of a
revoked owner, or for a forwarded load's answer, with the moment it was sent. -/
inductive Stage where
  | idle
  | revoking (owner : Nat) (sent : Nat)
  | forwarding (owner : Nat) (sent : Nat)
  deriving DecidableEq, Repr

/-- Whether an owner on another package has answered a read that the device itself makes (R132): the answer stands until the step
that uses it ends. -/
inductive Answered where | no | given | used
  deriving DecidableEq, Repr

/-- Home's transient state of one unit. `lock` is the actor whose MCAS holds it, `plock` the agent of another package whose
MCAS does, `pmons` the monitors of such agents, `prpt` the grid that is told if the device's own access loses an owner
(R142); `got` says whether an owner has answered a read of the device's own (R132). -/
structure HomeUnit where
  queue : List HomeReq := []
  stage : Stage := .idle
  lock : Option Actor := none
  monitors : List Monitor := []
  prpt : Option Nat := none
  plock : Option Nat := none
  pmons : List PeerMon := []
  got : Answered := .no
  deriving DecidableEq, Repr

/-- One line's partials of a die (R138): operation, size, and value per element address; `prpt` lists the elements whose
loss a grid is told of, since a contributor's leaf asks for it (R188). -/
structure Partial where
  die : Nat
  line : Nat
  prpt : List (Nat × Nat)
  op : AOp
  b64 : Bool
  vals : Tab Word
  deriving DecidableEq, Repr

/-- A message from home or between agents. -/
inductive Body where
  | req (r : HomeReq)
  | grant (agent ukey : Nat) (words : List (Nat × Word × Bool)) (err : Option MemErr)
  | denied (agent ukey : Nat)
  | revoke (agent ukey : Nat)
  | forward (agent ukey : Nat)
  | writeBack (agent ukey : Nat) (words : List (Nat × Word × Bool))
  | ack (actor : Option Actor) (flight lane : Nat) (err : Option MemErr) (va : Word)
  | wake (actor : Actor)
  | lost (agent ukey : Nat)
  | late
  deriving DecidableEq, Repr

/-- A message in flight. -/
structure Msg where
  id : Nat
  body : Body
  deriving DecidableEq, Repr

/-- L1 word states (R126); an Invalid word has no entry. `stamp` is the moment its data was current at home, counted in
messages. -/
structure L1Word where
  owned : Bool
  dirty : Bool
  data : Word
  poison : Bool
  stamp : Nat := 0
  deriving DecidableEq, Repr

/-- What L1 keeps per line (R149, R150). -/
structure L1Line where
  ctx : BitVec 12
  keep : Bool
  way : Nat
  age : Nat
  deriving DecidableEq, Repr

/-- Store data pending in L1 (R129): byte address, value, the actor, flight and lane it belongs to, its policy (R149), and the
grid that is told of a lost owner (R142). -/
structure PStore where
  pa : Nat
  val : Byte
  ukey : Nat
  actor : Actor
  flight : Nat
  va : Word
  lane : Nat := 0
  pol : Pol := .page
  prpt : Option Nat := none
  deriving DecidableEq, Repr

/-- The line counters of a context (R150). -/
structure LineCnt where
  fills : Nat := 0
  xhits : Nat := 0
  wbchg : Nat := 0
  displ : Nat := 0
  deriving DecidableEq, Repr

/-- The L1 of an agent (R126 to R132, R143, R150, R151). `cnt` holds the counters by place, `cntOrder` the contexts that
hold the places, `cntLast` the place that was last taken from a context. -/
structure L1 where
  words : Tab L1Word := []
  lines : Tab L1Line := []
  pend : List PStore := []
  asked : List Nat := []
  owned : List Nat := []
  heldRev : List Nat := []
  heldFwd : List Nat := []
  storers : Tab (List Nat) := []
  lostGangs : List (Nat × Nat) := []
  ways : Map (BitVec 24) := []
  cnt : Map LineCnt := []
  cntOrder : List Nat := []
  cntLast : Nat := 7
  epoch : Nat := 0
  deriving DecidableEq, Repr

/-- A cached leaf (R98): context, page base and size, and the leaf entry. -/
structure TlbEntry where
  ctx : BitVec 12
  base : Nat
  size : Nat
  pte : Word
  deriving DecidableEq, Repr

/-- Caches of an agent that translation and fetch use (R98, R199): TLB and instruction lines. -/
structure Front where
  tlb : List TlbEntry := []
  icache : Map Word := []
  deriving DecidableEq, Repr

/-! ## Host, power, package -/

/-- An open RMA window (R470, R471): its domain physical base and length. -/
structure Win where
  base : Nat := 0
  len : Nat := 0
  deriving DecidableEq, Repr

/-- Errors of the transport that answer an RMA operation (R467, R471). -/
inductive RmaErr where | access | invalidKey | transport
  deriving DecidableEq, Repr

/-- What the package answers (R466, R468, R471): the reply to a command with the fields of its header and its result
bytes, an RMA operation's data or error, or the unsupported-operation error of the transport. -/
inductive ReplyBody where
  | command (opc status : Nat) (cid reason : Word) (data : List Byte)
  | rma (data : List Byte)
  | rmaError (e : RmaErr)
  | unsupported (tag : Word)
  deriving DecidableEq, Repr

/-- A reply the package sent to an endpoint. -/
structure Reply where
  ep : BitVec 128
  body : ReplyBody
  deriving DecidableEq, Repr

/-- What the HKC sends the host unasked: a team has halted (R449). -/
structure Notice where
  area : Nat
  cause : Word
  deriving DecidableEq, Repr

/-- An entry of the HKC's error log (R465). -/
structure LogEntry where
  kind : Nat
  a : Word
  b : Word
  time : Nat
  deriving DecidableEq, Repr

/-- An event record that the device has still to append to a grid's event queue (R412). -/
structure Post where
  grid : Nat
  kind : Nat
  teamid : Word := 0
  pc : Word := 0
  data0 : Word := 0
  data1 : Word := 0
  calib : Option (List Byte) := none
  deriving DecidableEq, Repr

/-- A die (R12, R398, R487 to R490): whether it is gated or being gated, its list, the grid its dispatch unit served last,
and the ceiling and policy code of POWER. -/
structure Die where
  gated : Bool := false
  gating : Bool := false
  list : List DieRec := []
  rr : Nat := 0
  ceiling : Nat := 1100
  policy : Nat := 0
  deriving DecidableEq, Repr

/-- A cluster's droop and sag state (R488): whether a droop lasts, the cycle it began at, how far its clocks are stretched,
the spans (cycle, length) of charge injection that the duty counter still counts, and the 25 MHz steps of a sag. -/
structure Cluster where
  droop : Bool := false
  onset : Nat := 0
  stretch : Nat := 0
  injected : List (Nat × Nat) := []
  sag : Nat := 0
  deriving DecidableEq, Repr

/-- Island states (R483 to R486). -/
inductive IslandSt where | nominal | near | gated
  deriving DecidableEq, Repr

/-- The supply point of an island (R483): what the HKC sets for a ceiling in MHz, near-threshold, or off. -/
inductive Supply where
  | forCeiling (mhz : Nat)
  | near
  | off
  deriving DecidableEq, Repr

/-- A voltage and frequency island (R483 to R486): state, supply point, target of a running transition and its end, clock, CLK
at `since`, and the window of its activity: the moment and the CLK at which it began, and the cycles of issue counted since. -/
structure Island where
  st : IslandSt := .nominal
  toward : Option IslandSt := none
  until_ : Nat := 0
  mhz : Nat := 1100
  clk : Nat := 0
  since : Nat := 0
  busyFrom : Nat := 0
  busyClk : Nat := 0
  issued : Nat := 0
  point : Supply := .forCeiling 1100
  deriving DecidableEq, Repr

/-- A measurement-log entry (R478): component kind, security version, digest. -/
structure Measured where
  comp : Nat
  svn : Nat
  digest : BitVec 512
  deriving DecidableEq, Repr

/-- The HKC (R465, R466, R476 to R482): whether start-up has ended, measurement register and log, staging store, the image
that runs and one installed for the next reset, the fused minimum, the error log, and the counters of late answers,
transient errors, unsupported packets and quotes. No image means the one the package was made with. -/
structure Hkc where
  started : Bool := false
  m : BitVec 512 := 0
  mlog : List Measured := []
  stage : Map Byte := []
  image : Option (List Byte) := none
  installed : Option (List Byte) := none
  fusedMin : Nat := 0
  log : List LogEntry := []
  late : Nat := 0
  transient : Nat := 0
  unsupported : Nat := 0
  quotes : Nat := 0
  deriving DecidableEq, Repr

/-- What the outside world and the free choices of the package do next (assumption 3); `again` takes up an outstanding command or
RMA operation. -/
inductive Happening where
  | event (i : Instr)
  | issue (a : Actor)
  | elapse (ps : Nat)
  | again (k : Nat)
  | msg (b : Body)
  deriving DecidableEq, Repr

/-- The machine. `down` marks the Jalrun ports that are down (R475). `waiting` holds the host's commands and RMA operations that have still to
complete, in the order of their arrival, each that has begun with a number to go on with (the grid of a LAUNCH); `op` is the number of
the one that the step takes up again, none for one that arrives; `inputs` is the model's own schedule of what the outside world and the hardware's free order do
(assumption 3), `areas` lists the swap areas still to be returned to their pool, each with a context (R442), `units` and `slcs` say until when each issue unit (a cycle) and each SLC (a moment) is taken, `fresh` numbers
messages, flights, jobs, gangs and teams, `free` counts the free values used (assumption 6), and `unread` is the stretch of memory that
a step has read while its home could not answer yet, for which the step is put off (assumption 114). -/
structure State where
  mem : List Host.Cell
  poison : Map Bool
  registry : Tab HomeEntry
  home : Tab HomeUnit
  partials : List Partial
  net : List Msg
  l1 : Tab L1
  front : Tab Front
  dst : Nat
  pkg : BitVec 5
  members : BitVec 32
  down : BitVec 18
  ps : Nat
  gangs : Tab Gang
  lanes : Tab LaneCtx
  teams : Tab Team
  grids : Tab Grid
  cores : Tab Core
  arrays : Tab Arr
  dies : Tab Die
  clusters : Tab Cluster
  islands : Tab Island
  units : Map Nat
  slcs : Map Nat
  sides : List Side
  retries : Tab RetryPush
  groups : Tab GroupTimer
  hosts : List (BitVec 128)
  windows : Tab Win
  posts : List Post
  areas : List (BitVec 12 × Nat)
  replies : List Reply
  notices : List Notice
  waiting : Tab (Instr × Option Nat)
  op : Option Nat
  hkc : Hkc
  cur : Option Actor
  inputs : List Happening
  fresh : Nat
  free : Nat
  unread : Option (Nat × Nat)
  deriving DecidableEq, Repr

/-- Why a step stops. -/
inductive Fault where
  /-- Raised by an instruction form when the schedule names no gang or lane that could execute it: there is no
  machine in which the step happens. Safe. -/
  | noAgent
  deriving DecidableEq, Repr

/-- Why a step has no meaning. -/
inductive Refusal where
  /-- Raised by the dispatcher for an instruction the model gives no meaning yet. Safe. -/
  | notModelled (mnemonic : String)
  deriving DecidableEq, Repr

/-- The machine right after reset: start-up has not run (R476), nothing is placed, and every value the spec does
not give for reset is zero or empty (assumptions 1 and 2). -/
def State.reset : State where
  mem := []
  poison := []
  registry := []
  home := []
  partials := []
  net := []
  l1 := []
  front := []
  dst := 0
  pkg := 0
  members := 1
  down := 0
  ps := 0
  gangs := []
  lanes := []
  teams := []
  grids := []
  cores := []
  arrays := []
  dies := []
  clusters := []
  islands := []
  units := []
  slcs := []
  sides := []
  retries := []
  groups := []
  hosts := []
  windows := []
  posts := []
  areas := []
  replies := []
  notices := []
  waiting := []
  op := none
  hkc := {}
  cur := none
  inputs := []
  fresh := 0
  free := 0
  unread := none

end Sys2Proof.Machine
end

