-- ==== Sys2Proof/Machine/Memory.lean ====
section
/-!
DEFINITION. The bytes of package memory: a canonical list of (address, byte) pairs over the 52-bit domain physical
space (R5, R86, R90), the Poisoned flags of its words (R146), and the fields of records in memory.
-/
namespace Sys2Proof.Machine

/-- What an address reads as before anything has written it (assumption 2). -/
def unwritten : Byte := 0#8

/-- The byte at an address. -/
def memByte (m : List Host.Cell) (a : Nat) : Byte := mget unwritten m a

/-- Write one byte. -/
def memSetByte (m : List Host.Cell) (a : Nat) (b : Byte) : List Host.Cell := mset unwritten m a b

/-- The canonical form of memory. -/
def memWf (m : List Host.Cell) : Bool := mapWf unwritten m

/-- The n bytes from an address, lowest first. -/
def memRead (m : List Host.Cell) (a : Nat) : Nat → List Byte
  | 0 => []
  | n + 1 => memByte m a :: memRead m (a + 1) n

/-- Write bytes from an address up. -/
def memWrite (m : List Host.Cell) (a : Nat) : List Byte → List Host.Cell
  | [] => m
  | b :: bs => memWrite (memSetByte m a b) (a + 1) bs

/-- The n-byte little-endian value at an address. -/
def memNat (m : List Host.Cell) (a n : Nat) : Nat := valOf (memRead m a n)

/-- Write an n-byte little-endian value. -/
def memSetNat (m : List Host.Cell) (a n x : Nat) : List Host.Cell := memWrite m a (bytesOf n x)

/-- The word number of an address: words are aligned 8-byte quantities. -/
def wordNo (a : Nat) : Nat := a / 8

/-- Whether the word holding an address is Poisoned in memory (R146). -/
def isPoisoned (s : State) (a : Nat) : Bool := mget false s.poison (wordNo a)

/-- Set or clear the Poisoned flag of the word holding an address. -/
def setPoison (s : State) (a : Nat) (b : Bool) : State := { s with poison := mset false s.poison (wordNo a) b }

/-- Read a 64-bit field of a record held as bytes. -/
def fieldW (bs : List Byte) (off : Nat) : Word := BitVec.ofNat 64 (valOf ((bs.drop off).take 8))

/-- Read an n-byte field of a record held as bytes. -/
def fieldN (bs : List Byte) (off n : Nat) : Nat := valOf ((bs.drop off).take n)

/-- Replace bytes of a record from an offset. -/
def putBytes (bs : List Byte) (off : Nat) (x : List Byte) : List Byte :=
  bs.take off ++ x ++ bs.drop (off + x.length)

/-- The package-local part of a domain physical address (R90). -/
def localPa (pa : Nat) : Nat := pa % 2 ^ 47

/-- The package of a domain physical address (R90). -/
def pkgOf (pa : Nat) : Nat := pa / 2 ^ 47 % 32

/-- The die of an address (R86). -/
def dieOfPa (pa : Nat) : Nat := pa / 2 ^ 37 % 8

/-- The die channel of an address (R87). -/
def channelOf (pa : Nat) : Nat := (nbits pa 8 6) ^^^ (nbits pa 14 6) ^^^ (nbits pa 20 6)

/-- The stack of an address on its die, c[5] (R87). -/
def stackOnDie (pa : Nat) : Nat := channelOf pa / 32

/-- The number in the package of an address's stack (R87). -/
def stackOf (pa : Nat) : Nat := 2 * dieOfPa pa + stackOnDie pa

/-- The channel of an address in its stack, c[4:0] (R87). -/
def channelInStack (pa : Nat) : Nat := channelOf pa % 32

/-- The home L2 slice of an address, in package numbering (R87, R88). -/
def sliceOf (pa : Nat) : Nat := 64 * dieOfPa pa + channelOf pa

/-- The byte offset within the channel (R87). -/
def channelOffset (pa : Nat) : Nat := nbits pa 14 23 * 256 + pa % 256

end Sys2Proof.Machine
end

