-- ==== Sys2Proof/Machine/Ops.lean ====
section
/-!
DEFINITION. The named operations over threads: time and clocks, registers and pending results, issue distance,
halts, entry to the emulation handler, return from it, and early return of carry-pool lanes.
-/
namespace Sys2Proof.Machine

/-- The outcome of one step. -/
abbrev Out := Host.Outcome State Fault Refusal

/-! ## Time and clocks (R4, R262, R263, R483) -/

/-- The island of a core: one per core pair (R15). -/
def islandOf (core : Nat) : Nat := core / 2

/-- The island's record. -/
def State.island (s : State) (i : Nat) : Island := (tget s.islands i).getD {}

/-- Cycles of an island's clock at a moment (assumption 4). -/
def Island.cycles (i : Island) (ps : Nat) : Nat := i.clk + (ps - i.since) * i.mhz / 1000000

/-- CLK of a core (R262). -/
def State.clk (s : State) (core : Nat) : Nat := (s.island (islandOf core)).cycles s.ps

/-- TIME: nanoseconds since the package left reset (R262). -/
def State.time (s : State) : Nat := s.ps / 1000

/-- The first moment at which a core's clock shows cycle n. -/
def Island.psOf (i : Island) (n : Nat) : Nat :=
  if i.mhz = 0 then i.since else i.since + ((n - i.clk) * 1000000 + i.mhz - 1) / i.mhz

/-- Let time pass until a core's clock shows cycle n, if it does not yet. -/
def State.atCycle (s : State) (core n : Nat) : State :=
  if n ≤ s.clk core then s else { s with ps := Nat.max s.ps ((s.island (islandOf core)).psOf n) }

/-- Let time pass to a moment, if it has not come yet. -/
def State.atPs (s : State) (n : Nat) : State := if n ≤ s.ps then s else { s with ps := n }

/-- The first cycle of a core's clock that begins now or later. -/
def State.clkUp (s : State) (core : Nat) : Nat :=
  if (s.island (islandOf core)).psOf (s.clk core) < s.ps then s.clk core + 1 else s.clk core

/-- The island of a core's cluster with the fastest clock, at whose double the cluster's SLCs run (R16). -/
def State.slcIsland (s : State) (core : Nat) : Island :=
  (List.range 4).foldl (init := s.island (4 * (core / 8))) fun best j =>
    let x := s.island (4 * (core / 8) + j)
    if best.mhz < x.mhz then x else best

/-- The moment at which the next cycle of the SLCs of a core's cluster begins (R16). -/
def State.slcTick (s : State) (core : Nat) : Nat :=
  let x := s.slcIsland core
  if x.mhz = 0 then s.ps
  else
    let h := (s.ps - x.since) * (2 * x.mhz) / 1000000 + 1
    x.since + (h * 1000000 + 2 * x.mhz - 1) / (2 * x.mhz)

/-- The time a core needs for n cycles. -/
def State.cyclesPs (s : State) (core n : Nat) : Nat :=
  let m := (s.island (islandOf core)).mhz
  if m = 0 then 0 else (n * 1000000 + m - 1) / m

/-- The core's record. -/
def State.core (s : State) (c : Nat) : Core := (tget s.cores c).getD {}

/-- Change a core. -/
def State.modCore (s : State) (c : Nat) (f : Core → Core) : State := { s with cores := tput s.cores c (f (s.core c)) }

/-- The next number of the counter that names messages, flights and jobs. -/
def State.bump (s : State) : State := { s with fresh := s.fresh + 1 }

/-- Use one free value. -/
def State.useFree (s : State) : State := { s with free := s.free + 1 }

/-! ## Registers (R47 to R53, R258) -/

/-- The key of register r of lane l. -/
def vkey (r l : Nat) : Nat := 64 * r + l

/-- v[r] of lane l. -/
def Regs.getV (r : Regs) (n l : Nat) : V32 := mget 0 r.v (vkey n l)

/-- Write v[n] of lane l; a write clears poison (R461). -/
def Regs.setV (r : Regs) (n l : Nat) (x : V32) : Regs :=
  { r with v := mset 0 r.v (vkey n l) x, vp := mset false r.vp (vkey n l) false }

/-- k[n] as a lane mask; k0 reads as 1 in every lane (R258). -/
def Regs.getK (r : Regs) (n : Nat) : Mask := if n = 0 then BitVec.allOnes 64 else mget 0 r.k n

/-- Write k[n] in the lanes of a mask; k0 ignores writes (R258). -/
def Regs.setK (r : Regs) (n : Nat) (lanes vals : Mask) : Regs :=
  if n = 0 then r else { r with k := mset 0 r.k n ((mget 0 r.k n &&& ~~~lanes) ||| (vals &&& lanes)) }

/-- s[n]. -/
def Regs.getS (r : Regs) (n : Nat) : Word := mget 0 r.s n

/-- Write s[n]. -/
def Regs.setS (r : Regs) (n : Nat) (x : Word) : Regs := { r with s := mset 0 r.s n x }

/-- i[n]; i0 reads zero (R258). -/
def Regs.getI (r : Regs) (n : Nat) : BitVec 16 := if n = 0 then 0 else mget 0 r.i n

/-- Write i[n]; i0 ignores writes (R258). -/
def Regs.setI (r : Regs) (n : Nat) (x : BitVec 16) : Regs :=
  if n = 0 then r else { r with i := mset 0 r.i n x }

/-- x[n] (R100). -/
def Regs.getX (r : Regs) (n : Nat) : XReg := mget {} r.x n

/-- Write x[n]. -/
def Regs.setX (r : Regs) (n : Nat) (x : XReg) : Regs := { r with x := mset {} r.x n x }

/-- Raise sticky flags (R264). -/
def Regs.raise (r : Regs) (f : BitVec 5) : Regs := { r with fpflags := r.fpflags ||| f }

/-- Perform one register write. -/
def Regs.apply (r : Regs) : RegW → Regs
  | .v n l x => r.setV n l x
  | .k n lanes vals => r.setK n lanes vals
  | .s n x => r.setS n x
  | .i n x => r.setI n x

/-- Perform register writes in order. -/
def Regs.applyAll (r : Regs) (ws : List RegW) : Regs := ws.foldl Regs.apply r

/-- What is left of an older pending write once a later-issued write of the register has landed (R65). -/
def RegW.after (later old : RegW) : Option RegW :=
  match later, old with
  | .v n l _, .v n' l' _ => if n = n' ∧ l = l' then none else some old
  | .s n _, .s n' _ => if n = n' then none else some old
  | .i n _, .i n' _ => if n = n' then none else some old
  | .k n ls _, .k n' ls' vs' =>
    if n = n' then (if ls' &&& ~~~ls = 0 then none else some (.k n' (ls' &&& ~~~ls) vs')) else some old
  | _, _ => some old

/-- Drop from pending results what later landed writes supersede (R65). -/
def Pend.supersede (ws : List RegW) (p : Pend) : Pend :=
  { p with w := ws.foldl (fun acc w => acc.filterMap (RegW.after w)) p.w }

/-- Land, in issue order, every pending result that can be read at a cycle (R63, R65). -/
def Thr.landDue (t : Thr) (now : Nat) : Thr :=
  t.pend.foldl (init := { t with pend := [] }) fun acc p =>
    if p.cycle ≤ now then
      { acc with regs := acc.regs.applyAll p.w, pend := acc.pend.map (Pend.supersede p.w) }
    else { acc with pend := acc.pend ++ [p] }

/-- Land every pending result, at any cycle. -/
def Thr.landAll (t : Thr) : Thr :=
  t.pend.foldl (init := { t with pend := [] }) fun acc p => { acc with regs := acc.regs.applyAll p.w }

/-- A register an instruction names, for the checks of R52, R64 and R67. -/
inductive RegId where
  | v (n : Nat)
  | s (n : Nat)
  | k (n : Nat)
  | i (n : Nat)
  deriving DecidableEq, Repr

/-- The register a write goes to. -/
def RegW.reg : RegW → RegId
  | .v n _ _ => .v n
  | .k n _ _ => .k n
  | .s n _ => .s n
  | .i n _ => .i n

/-- The effective number of a v operand (R51). -/
def Thr.eff (t : Thr) (ixs : BitVec 2) (n : BitVec 8) (ix : Bool) : Nat :=
  n.toNat + if ix then (t.regs.getI ixs.toNat).toNat else 0

/-- The registers of an operand that takes `grp` registers when it is a v operand. -/
def Thr.regsOf (t : Thr) (ixs : BitVec 2) (o : Opd) (grp : Nat) : List RegId :=
  match o with
  | .v n ix => (List.range grp).map fun j => .v (t.eff ixs n ix + j)
  | .s n => [.s n.toNat]
  | .k n => [.k n.toNat]
  | .p _ | .c _ => []

/-- The index register that an operand list reads (R53). -/
def ixRegs (ixs : BitVec 2) (ops : List (Opd × Nat)) : List RegId :=
  if ops.any fun o => match o.1 with | .v _ ix => ix | _ => false then [.i ixs.toNat] else []

/-- The highest v register of an operand list, plus one; 0 where there is none (R52). -/
def Thr.vTop (t : Thr) (ixs : BitVec 2) (ops : List (Opd × Nat)) : Nat :=
  ops.foldl (init := 0) fun m o =>
    match o.1 with
    | .v n ix => Nat.max m (t.eff ixs n ix + o.2)
    | _ => m

/-! ## The current thread -/

/-- A thread as an instruction sees it: `act` is the active mask, `now` the cycle of issue. -/
structure View where
  a : Actor
  t : Thr
  act : Mask
  g : Gang
  uid : Nat
  lane : Option Nat
  ctxNo : Nat
  now : Nat
  deriving DecidableEq, Repr

/-- The rejoin stack's top entry (R356). -/
def Gang.top (g : Gang) : Option Entry := g.stack.getLast?

/-- The active mask of a gang (R356, R448). -/
def Gang.active (g : Gang) : Mask :=
  match g.only with
  | some (m, _) => m
  | none => (g.top.map Entry.mask).getD 0

/-- The view of an actor. -/
def State.viewOf (s : State) (a : Actor) : Option View :=
  match a with
  | .gang u => (tget s.gangs u).map fun g =>
      { a := a, t := g.thr, act := g.active, g := g, uid := u, lane := none, ctxNo := 0, now := s.clk g.core }
  | .lane c =>
    match tget s.lanes c with
    | none => none
    | some lc => (tget s.gangs lc.gang).map fun g =>
        { a := a, t := lc.thr, act := laneBit lc.lane, g := g, uid := lc.gang, lane := some lc.lane, ctxNo := c,
          now := s.clk g.core }

/-- The view of the thread that executes. -/
def State.view (s : State) : Option View := s.cur.bind s.viewOf

/-- Put back an actor's thread. -/
def State.setThr (s : State) (a : Actor) (t : Thr) : State :=
  match a with
  | .gang u => { s with gangs := tmod s.gangs u fun g => { g with thr := t } }
  | .lane c => { s with lanes := tmod s.lanes c fun l => { l with thr := t } }

/-- An actor's thread. -/
def State.thr? (s : State) (a : Actor) : Option Thr := (s.viewOf a).map View.t

/-- Change an actor's thread. -/
def State.modThr (s : State) (a : Actor) (f : Thr → Thr) : State :=
  match s.thr? a with
  | none => s
  | some t => s.setThr a (f t)

/-- Change a gang. -/
def State.modGang (s : State) (u : Nat) (f : Gang → Gang) : State := { s with gangs := tmod s.gangs u f }

/-- Change a team. -/
def State.modTeam (s : State) (n : Nat) (f : Team → Team) : State := { s with teams := tmod s.teams n f }

/-- The team of a gang. -/
def State.teamOf (s : State) (g : Gang) : Team := (tget s.teams g.team).getD {}

/-- The grid of a gang. -/
def State.gridOf (s : State) (g : Gang) : Grid := (tget s.grids (s.teamOf g).grid).getD {}

/-- The agent number of a core (R122). -/
def State.coreAgent (s : State) (core : Nat) : Nat := 4096 * s.pkg.toNat + core

/-- The agent number of the SLC of a carry-pool context of a core's cluster (R122). -/
def State.slcAgent (s : State) (core ctx : Nat) : Nat := 4096 * s.pkg.toNat + 1024 + 8 * (core / 8) + ctx % 64 / 8

/-- The agent number of a thread: its core, or its SLC (R122). -/
def View.agent (s : State) (v : View) : Nat :=
  match v.lane with
  | none => s.coreAgent v.g.core
  | some _ => s.slcAgent v.g.core v.ctxNo

/-- Change every thread of an agent. -/
def State.modAgent (s : State) (agent : Nat) (f : Thr → Thr) : State :=
  { s with
    gangs := s.gangs.map fun e => if s.coreAgent e.2.core == agent then (e.1, { e.2 with thr := f e.2.thr }) else e
    lanes := s.lanes.map fun e =>
      if (tget s.gangs e.2.gang).any fun g => s.slcAgent g.core e.1 == agent then (e.1, { e.2 with thr := f e.2.thr }) else e }

/-- Whether a thread runs in supervisor mode (R439): a lane on the carry pool keeps the mode its gang has outside the
page-fault handler (R365). -/
def View.sup (v : View) : Bool := if v.lane.isSome && v.g.inPf then v.g.pfSup else v.g.sup

/-! ## Halts (R449 to R451) -/

/-- Halt causes (R451). -/
inductive Cause2 where
  | framing | privilege | illegal | emuNest | vregBound | sbchk | notInHandler | bkpt | haltg | host
  | paUnbacked | dieGated | noncanon | pteMalformed | pfProt | pfNest | pfPool | xlatAttr | xrNone | xrBound
  | xrPerm | xrPair | align | poison | ownerLost | remoteError | storeError | remoteStoreError | poisonReg
  | cmtOverflow | copyLayout | copyXr | mcastTarget | mxskew | modeFault | modeOverflow | amodeMismatch
  | arrayRange | slotFormat | seqOwner | mloopParam | divKind | rejoinDeadlock | stackSpill | stackOverflow
  | queueDesc | queueBind | queueFree | taskRecord | joinUnderflow | barCount | groupDesc | groupNone | groupOrder
  deriving DecidableEq, Repr

/-- The codes of the halt causes (R451). -/
def Cause2.code : Cause2 → Word
  | .framing => 0x01 | .privilege => 0x02 | .illegal => 0x03 | .emuNest => 0x04 | .vregBound => 0x05
  | .sbchk => 0x06 | .notInHandler => 0x07 | .bkpt => 0x08 | .haltg => 0x09 | .host => 0x0A
  | .paUnbacked => 0x10 | .dieGated => 0x11 | .noncanon => 0x12 | .pteMalformed => 0x13 | .pfProt => 0x14
  | .pfNest => 0x15 | .pfPool => 0x16 | .xlatAttr => 0x17 | .xrNone => 0x18 | .xrBound => 0x19
  | .xrPerm => 0x1A | .xrPair => 0x1B | .align => 0x1C | .poison => 0x20 | .ownerLost => 0x21
  | .remoteError => 0x22 | .storeError => 0x23 | .remoteStoreError => 0x24 | .poisonReg => 0x25
  | .cmtOverflow => 0x26 | .copyLayout => 0x30 | .copyXr => 0x31 | .mcastTarget => 0x32 | .mxskew => 0x33
  | .modeFault => 0x34 | .modeOverflow => 0x35 | .amodeMismatch => 0x36 | .arrayRange => 0x37
  | .slotFormat => 0x38 | .seqOwner => 0x39 | .mloopParam => 0x3A | .divKind => 0x40 | .rejoinDeadlock => 0x41
  | .stackSpill => 0x42 | .stackOverflow => 0x43 | .queueDesc => 0x50 | .queueBind => 0x51 | .queueFree => 0x52
  | .taskRecord => 0x53 | .joinUnderflow => 0x54 | .barCount => 0x55 | .groupDesc => 0x56 | .groupNone => 0x57
  | .groupOrder => 0x58

/-- A reason to halt: cause, lanes concerned (none: the active mask) and HADDR (R451). -/
structure HaltWhy where
  cause : Cause2
  mask : Option Mask := none
  addr : Word := 0
  deriving DecidableEq, Repr

/-- Halt a gang and start the halt of its team (R449, R450, R457). -/
def State.haltGang (s : State) (u : Nat) (cause : Cause2) (pc : Word) (mask : Mask) (addr : Word) : State :=
  match tget s.gangs u with
  | none => s
  | some g =>
    let tm := s.teamOf g
    let second := tm.st == .halting || tm.st == .halted
    let code := cause.code ||| (if second then 0x100 else 0)
    let regs : HaltRegs := { cause := code, pc := pc, mask := mask, addr := addr }
    let s := s.modGang u fun g => { g with halt := regs, halted := true }
    s.modTeam g.team fun tm =>
      if second then { tm with haltRec := { tm.haltRec with halts := tm.haltRec.halts + 1 } }
      else { tm with st := .halting,
                     haltRec := { regs := regs, gangid := g.gangid, halts := 1, core := g.core, time := s.time } }

/-- The stores that a halt of a release reports are reported by it alone: the next release does not halt for them
(R143, R144). -/
def State.clearPosted (s : State) (a : Actor) (u : Nat) : State :=
  let s := s.modThr a fun t => { t with postErr := none }
  { s with l1 := s.l1.map fun e => (e.1, { e.2 with lostGangs := e.2.lostGangs.filter fun x => x.1 != u }) }

/-- Halt the gang of a thread at the thread's instruction; a lane halts its whole gang (R370). -/
def State.haltV (s : State) (v : View) (h : HaltWhy) : State :=
  let s := if h.cause = .storeError ∨ h.cause = .remoteStoreError then s.clearPosted v.a v.uid else s
  s.haltGang v.uid h.cause v.t.pc (h.mask.getD v.act) h.addr

/-! ## Progress through a block (R27, R29, R62) -/

/-- LEN of a header word (R33). -/
def hdrLen (h : Word) : Nat := nbits h.toNat 48 8
/-- LIVE of a header word. -/
def hdrLive (h : Word) : Nat := nbits h.toNat 42 6
/-- KIND of a header word. -/
def hdrKind (h : Word) : Nat := nbits h.toNat 40 2
/-- RJOFF of a header word, as a byte offset. -/
def hdrRj (h : Word) : Word := (h.extractLsb' 20 20 : BitVec 20).signExtend 64 * 8
/-- PFN of a header word. -/
def hdrPfn (h : Word) : Nat := nbits h.toNat 16 4
/-- PFK of a header word. -/
def hdrPfk (h : Word) : Nat := nbits h.toNat 12 4
/-- EJ of a header word. -/
def hdrEj (h : Word) : Nat := nbits h.toNat 8 4
/-- Whether a word is a block header (R26). -/
def isHdr (h : Word) : Bool := opByte h == 0xFF#8

/-- A header's own checks (R31). -/
def hdrOk (h : Word) (vallot : Nat) : Bool :=
  isHdr h && hdrLen h != 0 && decide (hdrLive h ≤ vallot) && (decide (hdrEj h ≤ 8) || hdrEj h == 15) &&
    nbits h.toNat 0 8 == 0 && (hdrKind h == 1 || hdrRj h == 0)

/-- The address just past the block in force (R29). -/
def Thr.blockEnd (t : Thr) : Word := t.hdra + BitVec.ofNat 64 (8 * (hdrLen t.hdr + 1))

/-- Continue at a word of the block in force, or at the word past it, which is met as fall-through. -/
def Thr.goto (t : Thr) (pc : Word) : Thr := { t with pc := pc, atHdr := pc == t.blockEnd }

/-- Continue at a header, which is then the HDRA of the position (R29, R377). -/
def Thr.toHdr (t : Thr) (pc : Word) : Thr := { t with pc := pc, hdra := pc, atHdr := true }

/-- Whether a resumption PC lies in a header's block or is the word just past it (R29). -/
def inBlock (pc hdra hdr : Word) : Bool :=
  isHdr hdr && hdra.toNat % 8 == 0 && pc.toNat % 8 == 0 && decide (hdra.toNat < pc.toNat) &&
    decide (pc.toNat ≤ hdra.toNat + 8 * (hdrLen hdr + 1))

/-- Continue at a resumption point (R29): at its header, or inside the block whose header word `hdr` has travelled with it.
Where the word has not, it is 0, and the thread reads it before it goes on (`State.loadHeader`). -/
def Thr.resume (t : Thr) (pc hdra hdr : Word) : Thr :=
  if pc = hdra then t.toHdr pc
  else if inBlock pc hdra hdr then ({ t with hdra := hdra, hdr := hdr } : Thr).goto pc
  else { t with pc := pc, hdra := hdra, hdr := 0, atHdr := false }

/-- Cycles between issues of a gang (R62). -/
def issueGap (g : Gang) (stall : Nat) : Nat := (if g.width = 64 then 2 else 1) + stall

/-- The issue unit of a gang: slot mod 4 of its core (R395). -/
def unitOf (g : Gang) : Nat := 4 * g.core + g.slot % 4

/-- The SLC of a carry-pool context: contexts 8 j to 8 j + 7 of a cluster are those of its SLC j (R15). -/
def slcOf (ctx : Nat) : Nat := ctx / 8

/-- Note that a thread has issued: its unit is taken for the cycles of the issue (R19), the core and team have been
active (R418), a YIELD's low rank ends (R390), and a re-executed instruction is done (R448). An SLC is taken for one of its
cycles (R16, R381, assumption 80). -/
def State.issued (s : State) (v : View) : State :=
  match v.lane with
  | some _ => { s with slcs := mset 0 s.slcs (slcOf v.ctxNo) (s.slcTick v.g.core) }
  | none =>
    let c := (tget s.cores v.g.core).getD {}
    let s := { s with
      units := mset 0 s.units (unitOf v.g) (v.now + if v.g.width = 64 then 2 else 1)
      cores := tput s.cores v.g.core { c with lastIssue := v.now }
      teams := tmod s.teams v.g.team fun t => { t with lastIssue := s.ps } }
    s.modGang v.uid fun g => { g with yieldUntil := none, deadSince := none }

/-- The earliest next issue of a thread that issues now, `gap` cycles on where it is a gang; a lane of the carry pool issues
one instruction per SLC cycle and ignores STALL (R69, R381). -/
def State.nextIssue (s : State) (v : View) (gap : Nat) : Nat :=
  if v.lane.isSome then s.slcTick v.g.core else v.now + gap

/-- Retire the instruction of a thread with thread contents `t`: on to the next word, the issue distance counted
from this issue. -/
def State.retire (s : State) (v : View) (t : Thr) (stall : BitVec 4) : State :=
  let t := (t.goto (t.pc + 8))
  let t := { t with next := s.nextIssue v (issueGap v.g stall.toNat) }
  let s := (s.setThr v.a t).issued v
  s.modGang v.uid fun g => if v.lane.isSome then g else { g with only := none }

/-- A store or atomic clears the spin count (R417). -/
def State.noSpin (s : State) (v : View) : State :=
  if v.lane.isSome then s else s.modGang v.uid fun g => { g with spinCnt := 0 }

/-! ## Acquire at the cache (R134) and completion of flights (R172) -/

/-- Set every Valid word of an agent's L1 to Invalid; fills in flight are not installed (R134). -/
def State.acquire (s : State) (agent : Nat) : State :=
  match tget s.l1 agent with
  | none => s
  | some c => { s with l1 := tput s.l1 agent { c with
      words := c.words.filter fun e => e.2.owned, epoch := c.epoch + 1 } }

/-- Whether an instruction in flight is complete (R172). -/
def Flight.complete (f : Flight) : Bool :=
  match f.kind with
  | .write => f.wait == 0
  | _ => f.landed

/-- Whether memory has answered an instruction wholly: its reads have their values and its writes are performed (R135). -/
def Flight.bound (f : Flight) : Bool := f.landed || (f.wait == 0 && f.mcas.isNone && f.kind != .line)

/-- Whether an instruction in flight reads global memory into registers. -/
def Flight.reads (f : Flight) : Bool :=
  !f.spad && match f.kind with
  | .load _ | .planes _ | .atom _ => true
  | _ => false

/-- Whether a flight belongs to an engine: its events are none of the thread (R182, R340). -/
def Flight.engine (f : Flight) : Bool := f.path == .c || f.path == .m

/-- The in-flight counter of a path: it falls in issue order, so it counts from the first incomplete one (R172); a deferred write of before a swap is not counted (R209). -/
def Thr.count (t : Thr) (p : Path) : Nat :=
  ((t.flights.filter fun f => f.path == p && !f.aside).dropWhile Flight.complete).length

/-- Drop the flights that no counter counts any more; a write in S stays until the acquire that follows it (R160). -/
def Thr.reap (t : Thr) : Thr :=
  [Path.g, .s, .c, .m, .a].foldl (init := t) fun t p =>
    let gone := (((t.flights.filter fun f => f.path == p).takeWhile Flight.complete).filter fun f =>
      !(f.kind == .write && f.acq)).map Flight.id
    { t with flights := t.flights.filter fun f => !gone.contains f.id }

/-- Change one flight of a thread. -/
def Thr.modFlight (t : Thr) (id : Nat) (g : Flight → Flight) : Thr :=
  { t with flights := t.flights.map fun f => if f.id == id then g f else f }

/-- Of two posted errors the one a halt reports: the earlier instruction's, then the lower lane's (R144). -/
def PostErr.join : Option PostErr → Option PostErr → Option PostErr
  | none, e => e
  | some e, none => some e
  | some e, some x => some (if x.flight < e.flight || (x.flight == e.flight && x.lane < e.lane) then x else e)

/-- The halt that a posted error makes at the next release (R144, R491). -/
def PostErr.cause (e : PostErr) : Cause2 := if e.gated then .dieGated else if e.remote then .remoteStoreError else .storeError

/-- Post an error at a thread (R144). -/
def Thr.post (t : Thr) (e : Option PostErr) : Thr := { t with postErr := PostErr.join t.postErr e }

/-! ## Early return (R369) and the merge of a lane's counters (R266) -/

/-- Copy v registers of a lane from its context to the gang. -/
def copyLane (from_ onto : Regs) (lane : Nat) (rs : List Nat) : Regs :=
  rs.foldl (init := onto) fun r n =>
    let r := r.setV n lane (from_.getV n lane)
    { r with vp := mset false r.vp (vkey n lane) (mget false from_.vp (vkey n lane)) }

/-- Copy k1 to k7 of a lane. -/
def copyK (from_ onto : Regs) (lane : Nat) : Regs :=
  (List.range 8).foldl (init := onto) fun r n => r.setK n (laneBit lane) (from_.getK n)

/-- R266: flags are ORed and counters added at rejoin, early return and exit. -/
def mergeCounters (from_ onto : Regs) : Regs :=
  { onto with
    fpflags := onto.fpflags ||| from_.fpflags
    bkconf := onto.bkconf + from_.bkconf
    modez := onto.modez + from_.modez
    polmis := onto.polmis + from_.polmis }

/-- Cycles of a merge or an early return of n registers (R381). -/
def mergeCost (n : Nat) : Nat := 8 + (n + 3) / 4

/-- One cycle more for a gang of width 64 (R381). -/
def Gang.extra (g : Gang) : Nat := if g.width = 64 then 1 else 0

/-- Add n cycles to the distance to a gang's next issue: a pop or a path switch (R381). -/
def State.delay (s : State) (u n : Nat) : State :=
  s.modGang u fun g => { g with thr := { g.thr with next := Nat.max g.thr.next (s.clk g.core) + n + g.extra } }

/-- Hold a gang's next issue until n cycles after this moment. -/
def State.hold (s : State) (u n : Nat) : State :=
  s.modGang u fun g => { g with thr := { g.thr with next := Nat.max g.thr.next (s.clkUp g.core + n) } }

/-- Save the running position in the top entry. -/
def Gang.sync (g : Gang) : Gang :=
  match g.stack.reverse with
  | [] => g
  | e :: rest =>
    { g with stack := (({ e with pc := g.thr.pc, hdra := g.thr.hdra, hdr := g.thr.hdr } : Entry) :: rest).reverse }

/-- Run at the top entry's place (R29, R369). -/
def Gang.resumeTop (g : Gang) : Gang :=
  match g.top with
  | none => g
  | some e => { g with thr := { g.thr.resume e.pc e.hdra e.hdr with wait := .none } }

/-- The address of the nth entry of a gang's spill area (R377). -/
def Gang.spillVa (g : Gang) (n : Nat) : Word := g.spwBase + BitVec.ofNat 64 (64 * n)

/-- An action that must read or write entries that still stand in the spill area, where their page does not permit it
(R378): the gang halts, and only then is `f` left out. -/
def State.whole (s : State) (u : Nat) (f : State → State) : State :=
  match tget s.gangs u with
  | none => s
  | some g =>
    if g.spilled = 0 then f s else s.haltGang u .stackSpill g.thr.pc g.active (g.spillVa (g.spilled - 1))

/-- Insert a new entry directly above the entry at an index. -/
def insertAbove (st : List Entry) (i : Nat) (e : Entry) : List Entry := st.take (i + 1) ++ [e] ++ st.drop (i + 1)

/-- Copy a lane's registers back to its gang, as an early return or an exit does (R369, R388), with the errors posted for
its stores (R144). -/
def LaneCtx.giveBack (lc : LaneCtx) (t : Thr) : Thr :=
  let rs := lc.thr.landAll.regs
  ({ t with regs := mergeCounters rs (copyK rs (copyLane rs t.regs lc.lane lc.got) lc.lane) } : Thr).post lc.thr.postErr

/-- The entry of a gang that owns an ejected lane (R369). -/
def Gang.owner (g : Gang) (lane : Nat) : Option (Nat × Entry) :=
  (List.range g.stack.length).findSome? fun i =>
    (g.stack[i]?).bind fun e => if hasLane e.emask lane then some (i, e) else none

/-- A lane's place in its gang's stack after an early return (R369), and whether the gang switches to it. -/
def Gang.takeBack (g : Gang) (lc : LaneCtx) : Option (Gang × Bool) :=
  let g := g.sync
  let bit := laneBit lc.lane
  let ne (rpc : Option Word) : Entry := ⟨lc.thr.pc, rpc, bit, 0, lc.thr.hdra, lc.thr.hdr⟩
  match lc.st with
  | .ejected | .waiting =>
    (g.owner lc.lane).map fun o =>
      let st := g.stack.set o.1 { o.2 with mask := o.2.mask ||| bit, emask := o.2.emask &&& ~~~bit }
      ({ g with stack := insertAbove st o.1 (ne (some o.2.pc)) }, o.1 + 1 == g.stack.length)
  | .detached | .parked =>
    some ({ g with dmask := g.dmask &&& ~~~bit, stack := ne none :: g.stack }, g.stack.isEmpty)

/-- Early return of a carry-pool lane at the instruction it stands at (R369). Its writes have been performed by the
time it re-enters (R367). While the gang is in a handler the lane waits (assumption 22). -/
def State.earlyReturn (s : State) (c : Nat) : State :=
  match tget s.lanes c with
  | none => s
  | some lc =>
    match tget s.gangs lc.gang with
    | none => s
    | some g =>
      if g.inEmu || g.inPf || lc.thr.flights.any (fun f => !f.complete) then s
      else
        let below := lc.st == .detached || lc.st == .parked
        match (if below && g.spilled != 0 then none else g.takeBack lc) with
        | none => s.whole lc.gang fun s => s
        | some (g', top) =>
          let g' := { g' with thr := lc.giveBack g'.thr, deadSince := none }
          let g' := if top then g'.resumeTop else g'
          let s := ({ s with gangs := tput s.gangs lc.gang g', lanes := tdel s.lanes c }).acquire (s.coreAgent g.core)
          let s := s.hold lc.gang (mergeCost lc.got.length + g.extra)
          if top then s.delay lc.gang 2 else s

/-! ## Emulation (R71 to R78, R440, R443, R445) -/

/-- CLS and NUM of an operand field (R73). NUM of an s, k or p operand is bits 5 to 0 of its field, also where a k or p field has
bits above those its file needs; the number of a v register beyond 16 bits is given modulo 65536 (DESIGN CHOICE, assumption
103). -/
def emuOpd (t : Thr) (ixs : BitVec 2) (vallot : Nat) (f : BitVec 9) (ix : BitVec 1) (grp : Nat) : Word :=
  let num := (f.extractLsb' 0 6 : BitVec 6)
  let idx := if ix == 1#1 then (0x80000 : Nat) else 0
  BitVec.ofNat 64 <| idx +
  match clsOf f with
  | .v =>
    let e := t.eff ixs (f.extractLsb' 0 8) (ix == 1#1)
    (if vallot ≤ e + grp - 1 then 0x100000 else 0) + e % 65536
  | .s => 0x10000 + num.toNat
  | .k => 0x20000 + num.toNat
  | .p => 0x30000 + num.toNat
  | .c => 0x40000 + (num.signExtend 16).toNat

/-- An immediate in an operand register (R73; its NUM as R443 gives it, assumption 21). -/
def emuImm (x : BitVec 32) : Word :=
  BitVec.ofNat 64 (x.toNat * 2 ^ 32 + 0x50000 + x.toNat % 65536)

/-- No operand (R73). -/
def emuNone : Word := 0x70000#64

/-- How many registers each operand of a word takes, for OOB (R50, R73); where the field that gives it is itself reserved, 1
(DESIGN CHOICE, assumption 103). -/
def emuGrp (w : Word) (width : Nat) (w64 : Bool) : Nat × Nat × Nat × Nat :=
  let o := if w64 then 2 else 1
  match grpOf (opByte w) with
  | .int =>
    let g := (unpackR w).ity.grp
    (if opByte w == 0x18#8 then 1 else g, g, g, if opByte w == 0x1A#8 then 1 else g)
  | .bit =>
    let g := if (unpackR w).fn.getLsbD 0 then 2 else 1
    let n := (opByte w).toNat
    (if n = 0x2A ∨ n = 0x2B then 1 else g, g, if 0x24 ≤ n ∧ n ≤ 0x28 then 1 else g, 1)
  | .pack =>
    if opByte w == 0x48#8 then
      let c := CvtOp.ofBits ((unpackR w).fn.extractLsb' 2 4)
      (c.grpD, c.grpA, 1, 1)
    else (1, 1, 1, 1)
  | .lane =>
    let n := (opByte w).toNat
    let fn := (unpackR w).fn
    if n = 0x64 then (if width = 64 then 2 else 1, 1, 1, 1)
    else if n = 0x66 then (let g := if fn.getLsbD 2 then 2 else 1; (g, g, 1, 1))
    else if n = 0x68 ∨ n = 0x69 then (let g := if fn.getLsbD 1 then 2 else 1; (g, g, 1, 1))
    else (1, 1, 1, 1)
  | .imm =>
    let n := (opByte w).toNat
    let g := (ITy.ofBits (unpackI w).fn2).grp
    if n = 0x1B ∨ n = 0x1C then (g, g, 1, 1)
    else if n = 0x1D then (1, g, 1, 1)
    else if n = 0x6D ∨ n = 0x6E then
      let g := match SpReg.ofNum ((unpackI w).imm.extractLsb' 0 10) with
        | some r => if r.wide then 2 else 1
        | none => 1
      (g, g, 1, 1)
    else (1, 1, 1, 1)
  | .mem =>
    let n := (opByte w).toNat
    let g := match Sz.ofBits (unpackM w).sz with | some z => z.grp | none => 1
    (if n = 0x70 ∨ n = 0x71 then g else 1, o, 1, 1)
  | .atm =>
    let g := match Sz.ofBits (unpackA w).sz with | some z => z.grp | none => 1
    (if opByte w == 0x81#8 then 2 * g else g, o, 1, 1)
  | _ => (1, 1, 1, 1)

/-- The EMU registers for a word that enters emulation (R73, R74, R443). -/
def emuRegs (t : Thr) (vallot width : Nat) (word : Word) (cause : Nat) : EmuRegs :=
  let op := opByte word
  let fmt := if cause = 1 then Fmt.none else (grpOf op).fmt
  let m := unpackM word
  let w64 := (t.regs.getX m.xr.toNat).w64
  let gs := emuGrp word width w64
  let func := match fmt with
    | .r => (unpackR word).fn.toNat
    | .i => (unpackI word).fn2.toNat
    | .x => (unpackX word).xfn.toNat
    | .a => (unpackA word).aop.toNat
    | _ => 0
  let xr := match fmt with | .m | .a => m.xr.toNat | _ => 0
  let fn := xr * 2 ^ 32 + cause * 2 ^ 24 + func * 2 ^ 12 + fmt.code * 2 ^ 8 + op.toNat
  let base : EmuRegs :=
    { op := word, pc := t.pc, fn := BitVec.ofNat 64 fn, d := emuNone, a := emuNone, b := emuNone, c := emuNone }
  match fmt with
  | .r =>
    let r := unpackR word
    { base with
      d := emuOpd t r.ixs vallot r.d r.ixd gs.1
      a := emuOpd t r.ixs vallot r.a r.ixa gs.2.1
      b := emuOpd t r.ixs vallot r.b r.ixb gs.2.2.1
      c := emuOpd t r.ixs vallot r.c r.ixc gs.2.2.2 }
  | .i =>
    let r := unpackI word
    if cause = 9 then { base with fn := BitVec.ofNat 64 (fn - func * 2 ^ 12), b := emuImm (r.imm.signExtend 32) }
    else { base with
      d := emuOpd t r.ixs vallot r.d r.ixd gs.1
      a := emuOpd t r.ixs vallot r.a r.ixa gs.2.1
      b := emuImm (r.imm.signExtend 32) }
  | .m =>
    { base with
      d := emuOpd t m.ixs vallot m.v m.ixv gs.1
      a := emuOpd t m.ixs vallot m.o m.ixo gs.2.1
      b := emuImm (m.disp.signExtend 32) }
  | .a =>
    let r := unpackA word
    { base with
      d := emuOpd t r.ixs vallot r.v r.ixv gs.1
      a := emuOpd t r.ixs vallot r.o r.ixo gs.2.1
      b := emuImm (r.disp.signExtend 32) }
  | _ => base

/-- The carry-pool contexts of a gang that stand at a word and run (R71). -/
def State.lanesAt (s : State) (u : Nat) (pc : Word) : List Nat :=
  (s.lanes.filter fun e => e.2.gang == u && e.2.thr.pc == pc && !e.2.thr.atHdr &&
    (e.2.st == .ejected || e.2.st == .detached)).map Prod.fst

/-- Entry to the emulation handler for a word and cause (R71 to R78): lanes at the word return first, for which the gang waits
where their accesses are still in flight (R367); then the EMU registers and EHDRA are written and the gang goes to EMUH with
its active mask. A lane first returns early (R370). -/
def State.emulate (s : State) (v : View) (word : Word) (cause : Nat) (stall : BitVec 4) : State :=
  match v.lane with
  | some _ => s.earlyReturn v.ctxNo
  | none =>
    let here := s.lanesAt v.uid v.t.pc
    if v.g.inEmu || v.g.inPf then s.haltV v { cause := .emuNest }
    else if here.any fun c => (tget s.lanes c).any fun lc => lc.thr.flights.any fun f => !f.complete then s
    else
      let s := here.foldl State.earlyReturn s
      match tget s.gangs v.uid with
      | none => s
      | some g =>
        let emuh := (s.gridOf g).emuh
        if g.halted then s
        else if emuh = 0 then s.haltV v { cause := .illegal }
        else
          let r := emuRegs v.t v.g.vallot v.g.width word cause
          let thr := { v.t.toHdr emuh with
            regs := g.thr.regs, postErr := g.thr.postErr, next := Nat.max g.thr.next (v.now + issueGap v.g stall.toNat) }
          let g := { g with
            thr := thr, emu := r, ehdra := v.t.hdra, ehdr := v.t.hdr, inEmu := true, emuMask := v.act
            emuDepth := g.spilled + g.stack.length, only := none }
          ({ s with gangs := tput s.gangs v.uid g }).issued v

/-- Drop the entries pushed in a handler and give the remaining top a mask, less the lanes that have gone. -/
def Gang.backTo (g : Gang) (depth : Nat) (mask : Mask) : Gang :=
  match (g.stack.take (depth - g.spilled)).reverse with
  | [] => { g with stack := [] }
  | e :: rest => { g with stack := ({ e with mask := mask &&& ~~~(g.exited ||| g.jw ||| g.dmask) } :: rest).reverse }

end Sys2Proof.Machine
end

