-- ==== Sys2Proof/Machine/Coherence.lean ====
section
/-!
DEFINITION. L1 caches, home registry, reduction partials and the messages between them (R120 to R148): what an agent
holds, what home does for the first request of a unit, and the coherent reads and writes the device itself makes.
-/
namespace Sys2Proof.Machine

/-! ## Units and words -/

/-- The bytes of a coherence grain (R94, R136). -/
def grainOf (cohg : Nat) : Nat := 32 * 4 ^ cohg

/-- The key of the unit of a grain that holds an address. -/
def ukeyOf (pa cohg : Nat) : Nat := pa / grainOf cohg * grainOf cohg * 4 + cohg

/-- The base address of a unit. -/
def unitBase (k : Nat) : Nat := k / 4

/-- The size of a unit. -/
def unitSize (k : Nat) : Nat := grainOf (k % 4)

/-- The word numbers of a unit. -/
def unitWords (k : Nat) : List Nat := (List.range (unitSize k / 8)).map fun j => unitBase k / 8 + j

/-- The word of memory with a word number. -/
def memWord (s : State) (w : Nat) : Word := BitVec.ofNat 64 (memNat s.mem (8 * w) 8)

/-- Write a word of memory and its Poisoned flag. -/
def setMemWord (s : State) (w : Nat) (x : Word) (p : Bool) : State :=
  { s with mem := memSetNat s.mem (8 * w) 8 x.toNat, poison := mset false s.poison w p }

/-- The L1 of an agent. -/
def State.l1Of (s : State) (a : Nat) : L1 := (tget s.l1 a).getD {}

/-- Put back the L1 of an agent. -/
def State.setL1 (s : State) (a : Nat) (c : L1) : State := { s with l1 := tput s.l1 a c }

/-- Whether an agent is of this package. -/
def State.localAgent (s : State) (a : Nat) : Bool := a / 4096 == s.pkg.toNat

/-- The registry entry of a unit; a unit without one is unowned (R121). -/
def State.entry (s : State) (k : Nat) : HomeEntry := (tget s.registry k).getD {}

/-- Whether an entry marks nothing: it stays in use, V = 1 with no owner (R122), until a new entry needs its room
(assumption 113). -/
def HomeEntry.idle (e : HomeEntry) : Bool := e.owner.isNone && !e.mon && !e.ol && e.cst == 0

/-- The entries that stand in the registry set of a unit: in its slice, which holds 2048 sets (R121). A unit's home slice is
that of its base address, also where the unit spans two granules of different channels (DESIGN CHOICE, assumption 104). -/
def State.setOf (s : State) (k : Nat) : List (Nat × HomeEntry) :=
  s.registry.filter fun e => pkgOf (unitBase e.1) == pkgOf (unitBase k) && sliceOf (unitBase e.1) == sliceOf (unitBase k) &&
    Config.registrySet e.1 % 2048 == Config.registrySet k % 2048

/-- The registry with room for a unit's entry: in a full set an entry that marks nothing gives way to a new one (R124). -/
def State.roomFor (s : State) (k : Nat) : Tab HomeEntry :=
  if s.registry.length < 16 || (tget s.registry k).isSome || (s.setOf k).length < 16 then s.registry
  else match (s.setOf k).find? fun e => e.2.idle with
    | some e => tdel s.registry e.1
    | none => s.registry

/-- Put a registry entry; one without an owner keeps no order of grants, and a unit that has had no entry gets none that
marks nothing (R121). -/
def State.setEntry (s : State) (k : Nat) (e : HomeEntry) : State :=
  { s with registry :=
      if e.idle && (tget s.registry k).isNone then s.registry
      else tput (s.roomFor k) k (if e.owner.isNone then { e with granted := 0 } else e) }

/-- Home's transient state of a unit. -/
def State.unit (s : State) (k : Nat) : HomeUnit := (tget s.home k).getD {}

/-- Whether home has nothing under way for a unit: no request waits there, no owner is asked, no MCAS holds it. -/
def HomeUnit.still (u : HomeUnit) : Bool := u.queue.isEmpty && u.stage == .idle && u.lock.isNone && u.plock.isNone

/-- Whether a unit is watched (R141), on this package or another. -/
def HomeUnit.watched (u : HomeUnit) : Bool := !(u.monitors.isEmpty && u.pmons.isEmpty)

/-- Put home's transient state of a unit. -/
def State.setUnit (s : State) (k : Nat) (u : HomeUnit) : State :=
  { s with home :=
      if u.still && !u.watched && u.got == .no then tdel s.home k
      else tput s.home k u }

/-- Put a message in flight. -/
def State.send (s : State) (b : Body) : State :=
  { s with net := s.net ++ [{ id := s.fresh, body := b }], fresh := s.fresh + 1 }

/-- Send a request of an agent to the home of a unit; `prpt` is the grid that is told of a lost owner (R142). -/
def State.request (s : State) (agent k : Nat) (r : Req) (prpt : Option Nat := none) : State :=
  s.send (.req { id := s.fresh, agent := agent, ukey := k, sent := s.ps, prpt := prpt, req := r })

/-- Take a message out of flight. -/
def State.unsend (s : State) (m : Nat) : State := { s with net := s.net.filter fun x => x.id != m }

/-- The 32-bit registry entry as ORCLM returns it (R122). -/
def HomeEntry.word (e : HomeEntry) : Word :=
  let ag := match e.owner with | some a => a | none => 0xFFF
  BitVec.ofNat 64 (2 ^ 31 + bnat e.ol * 2 ^ 30 + bnat e.mon * 2 ^ 29 + e.cst.toNat * 2 ^ 20 +
    (if e.owner.isSome then ag / 4096 % 32 * 4096 else 0) + ag % 4096)

/-! ## Reduction partials (R138 to R140, R183, R184) -/

/-- The new value of an atomic operation (R183, R184). -/
def aopVal (op : AOp) (b64 : Bool) (m x : Word) : Word :=
  let n := if b64 then 64 else 32
  let sm := snat m.toNat n
  let sx := snat x.toNat n
  let um := m.toNat % 2 ^ n
  let ux := x.toNat % 2 ^ n
  let fm := f32.decode (m.toNat % 2 ^ 32)
  let fx := f32.decode (x.toNat % 2 ^ 32)
  match op with
  | .add => BitVec.ofNat 64 ((um + ux) % 2 ^ n)
  | .imin => if sm ≤ sx then BitVec.ofNat 64 um else BitVec.ofNat 64 ux
  | .imax => if sm ≤ sx then BitVec.ofNat 64 ux else BitVec.ofNat 64 um
  | .nmin => if um ≤ ux then BitVec.ofNat 64 um else BitVec.ofNat 64 ux
  | .nmax => if um ≤ ux then BitVec.ofNat 64 ux else BitVec.ofNat 64 um
  | .and => BitVec.ofNat 64 um &&& BitVec.ofNat 64 ux
  | .or => BitVec.ofNat 64 um ||| BitVec.ofNat 64 ux
  | .xor => BitVec.ofNat 64 um ^^^ BitVec.ofNat 64 ux
  | .xchg => BitVec.ofNat 64 ux
  | .fadd => BitVec.ofNat 64 (f32.add .rn fm fx).bits
  | .fmin => BitVec.ofNat 64 (f32.minMax false fm fx).bits
  | .fmax => BitVec.ofNat 64 (f32.minMax true fm fx).bits
  | .fmul => BitVec.ofNat 64 (f32.mul .rn fm fx).bits

/-- The identity a partial starts from (R183). -/
def redIdentity (op : AOp) (b64 : Bool) : Word :=
  match op with
  | .add | .or | .xor | .nmax | .xchg => 0
  | .imin => if b64 then 0x7FFFFFFFFFFFFFFF else 0x7FFFFFFF
  | .imax => if b64 then 0x8000000000000000 else 0x80000000
  | .nmin | .and => if b64 then 0xFFFFFFFFFFFFFFFF else 0xFFFFFFFF
  | .fadd => 0x80000000
  | .fmin => 0x7F800000
  | .fmax => 0xFF800000
  | .fmul => 0x3F800000

/-- Note an error in the HKC's log (R465, R188). -/
def State.logErr (s : State) (kind : Nat) (a b : Word) : State :=
  { s with hkc := { s.hkc with log := s.hkc.log ++ [{ kind := kind, a := a, b := b, time := s.time }] } }

/-- Apply one element of a partial to memory, with the operation's own rounding (R139); a Poisoned word drops it, which
is logged and told to the grids of the contributors whose leaf asks for it (R188). -/
def applyElem (p : Partial) (s : State) (e : Nat × Word) : State :=
  if isPoisoned s e.1 then
    (((p.prpt.filter fun q => q.1 == e.1).map Prod.snd).eraseDups).foldl
      (init := s.logErr 5 (BitVec.ofNat 64 e.1) 0) fun s g =>
        { s with posts := s.posts ++ [{ grid := g, kind := 5, data0 := BitVec.ofNat 64 e.1 }] }
  else
    let n := if p.b64 then 8 else 4
    { s with mem := memSetNat s.mem e.1 n (aopVal p.op p.b64 (BitVec.ofNat 64 (memNat s.mem e.1 n)) e.2).toNat }

/-- Whether an address lies in a unit. -/
def inUnit (k a : Nat) : Bool := unitBase k ≤ a && a < unitBase k + unitSize k

/-- The partials with elements in a unit, in ascending die order, then in order of creation. -/
def unitPartials (s : State) (k : Nat) : List Partial :=
  (List.range 8).flatMap fun d => s.partials.filter fun p => p.die == d && p.vals.any fun e => inUnit k e.1

/-- Send a WAITU its wake, unless one is on its way. -/
def State.wakeOne (s : State) (a : Actor) : State :=
  if s.net.any fun x => x.body == .wake a then s else s.send (.wake a)

/-- Wake every monitor whose word a test picks by address and length (R141): a word may be watched through units of any
grain, and a wake for another package leaves on the link (R473). -/
def State.wakeIf (s : State) (p : Nat → Nat → Bool) : State :=
  let s' := ((s.home.flatMap fun e => e.2.monitors).filter fun m => p m.pa m.bytes).foldl (init := s) fun s m =>
    s.wakeOne m.actor
  ((s.home.flatMap fun e => e.2.pmons).filter fun m => p m.pa m.bytes).foldl (init := s') fun s m =>
    s.send (.ack none m.agent m.lane none 0)

/-- Wake the monitors whose watched word changed since an earlier memory (R141). -/
def State.wake (s : State) (before : List Host.Cell) : State :=
  s.wakeIf fun pa n => memNat before pa n != memNat s.mem pa n

/-- Wake the monitors of the words in a stretch that has been written (R141). -/
def State.wakeOver (s : State) (pa n : Nat) : State :=
  s.wakeIf fun a m => decide (a < pa + n) && decide (pa < a + m)

/-- Clear CST bits of dies that hold no partial any more, in every entry that overlaps a unit (R122, R139). -/
def State.sweepCst (s : State) (k : Nat) : State :=
  s.registry.foldl (init := s) fun s e =>
    if e.2.cst == 0 || !(inUnit k (unitBase e.1) || inUnit e.1 (unitBase k)) then s
    else
      let on (d : Nat) : Bool := s.partials.any fun p => p.die == d && p.vals.any fun x => inUnit e.1 x.1
      s.setEntry e.1 { e.2 with cst := BitVec.ofNat 8 (((List.range 8).map fun d => bnat (on d) * 2 ^ d).foldl (· + ·) 0) }

/-- Merge the partials of a unit at home and clear CST (R139). -/
def State.merge (s : State) (k : Nat) : State :=
  let ps := unitPartials s k
  if ps.isEmpty then s
  else
    let before := s.mem
    let s := ps.foldl (init := s) fun s p => (p.vals.filter fun e => inUnit k e.1).foldl (applyElem p) s
    let rest := (s.partials.map fun p => { p with
      vals := p.vals.filter fun e => !inUnit k e.1
      prpt := p.prpt.filter fun e => !inUnit k e.1 }).filter fun p => !p.vals.isEmpty
    ({ s with partials := rest }.sweepCst k).wake before

/-- Add one contribution to a die's partial of a line (R138): created at the identity; a full buffer first merges its least
recently created line at home (R140). `prpt` is the grid that is told if the contribution is lost (R188). -/
def State.addPartial (s : State) (die k pa : Nat) (op : AOp) (b64 : Bool) (x : Word) (prpt : Option Nat) : State :=
  let line := pa / 64
  let same (p : Partial) : Bool := p.die == die && p.line == line && p.op == op && p.b64 == b64
  let mine := s.partials.filter fun p => p.die == die
  let s := match mine with
    | old :: _ =>
      if 32768 ≤ mine.length && !(s.partials.any same) then
        (List.range 2).foldl (init := s) fun (s : State) j => s.merge (ukeyOf (64 * old.line + 32 * j) 0)
      else s
    | [] => s
  let put (p : Partial) : Partial :=
    { p with
      vals := tput p.vals pa (aopVal op b64 ((tget p.vals pa).getD (redIdentity op b64)) x)
      prpt := p.prpt ++ prpt.toList.map fun g => (pa, g) }
  let ps := if s.partials.any same then s.partials.map fun p => if same p then put p else p
    else s.partials ++ [put { die := die, line := line, prpt := [], op := op, b64 := b64, vals := [] }]
  let e := s.entry k
  { s with partials := ps }.setEntry k { e with cst := e.cst ||| (1#8 <<< die) }

/-! ## L1 words -/

/-- The word of an L1, if not Invalid. -/
def L1.word (c : L1) (w : Nat) : Option L1Word := tget c.words w

/-- The newest pending store byte of an agent for an address (R129). -/
def L1.pending (c : L1) (pa : Nat) : Option PStore := c.pend.reverse.find? fun p => p.pa == pa

/-- Byte j of a word. -/
def wordByte (x : Word) (j : Nat) : Byte := BitVec.ofNat 8 (x.toNat / 256 ^ j)

/-- Replace byte j of a word. -/
def setWordByte (x : Word) (j : Nat) (b : Byte) : Word :=
  BitVec.ofNat 64 (x.toNat - (x.toNat / 256 ^ j % 256) * 256 ^ j + b.toNat * 256 ^ j)

/-- The words an agent owns in a unit with their data, for a write-back (R131): dirty ones only. -/
def L1.dirtyOf (c : L1) (k : Nat) : List (Nat × Word × Bool) :=
  (unitWords k).filterMap fun w =>
    match c.word w with
    | some x => if x.owned && x.dirty then some (w, x.data, x.poison) else none
    | none => none

/-- Words whose data is home's too are no longer dirty (R132). -/
def L1.clean (c : L1) (ws : List (Nat × Word × Bool)) : L1 :=
  { c with words := ws.foldl (init := c.words) fun m w =>
      match tget m w.1 with
      | some x => tput m w.1 { x with dirty := false }
      | none => m }

/-- Surrender a unit: its words stay Valid (R131), as new as the moment says; poisoned words are dropped, for a Valid word
is never poisoned (R146). For a home on another package the L1 keeps which gangs stored there, for its answer may come too late
(R143). -/
def L1.surrender (c : L1) (k stamp : Nat) (away : Bool) : L1 :=
  { c with
    owned := c.owned.filter (· != k)
    storers := if away then c.storers else tdel c.storers k
    words := (unitWords k).foldl (init := c.words) fun ws w =>
      match tget ws w with
      | some x =>
        if !x.owned then ws
        else if x.poison then tdel ws w
        else tput ws w { x with owned := false, dirty := false, stamp := stamp }
      | none => ws }

/-- Sectors that have been served and not yet landed no longer install the words a test picks. -/
def Thr.cancelFills (t : Thr) (p : Fill → Nat → Bool) : Thr :=
  { t with flights := t.flights.map fun f => { f with fills := f.fills.map fun x =>
      { x with words := ((List.range x.words.length).zip x.words).map fun w =>
          (w.2.1, w.2.2 || p x (x.pa / 32 * 4 + w.1)) } } }

/-- A word that leaves an agent's L1 is not brought back by an older sector still on its way (R148, R164). -/
def State.cancelFills (s : State) (agent : Nat) (ws : List Nat) : State :=
  s.modAgent agent fun t => t.cancelFills fun _ w => ws.contains w

/-- An agent gives up a unit (R131). -/
def State.surrender (s : State) (a k : Nat) : State :=
  let c := s.l1Of a
  let gone := (unitWords k).filter fun w => (c.word w).any fun x => x.owned && x.poison
  let s := (s.setL1 a (c.surrender k s.fresh (pkgOf (unitBase k) != s.pkg.toNat))).bump
  if gone.isEmpty then s else s.cancelFills a gone

/-- Write words at home. -/
def State.putWords (s : State) (ws : List (Nat × Word × Bool)) : State :=
  ws.foldl (init := s) fun s w => setMemWord s w.1 w.2.1 w.2.2

/-- Words written back at home: monitors of the words that changed, and of those written, wake (R131, R141). -/
def State.writeWords (s : State) (ws : List (Nat × Word × Bool)) : State :=
  ws.foldl (init := s.putWords ws) fun s w => s.wakeOver (8 * w.1) 8

/-- Pending stores of a unit group by group: one group is what one lane of one instruction stores (R147). -/
def storeGroups (ps : List PStore) : List (List PStore) :=
  let same (p q : PStore) : Bool := p.actor == q.actor && p.flight == q.flight && p.lane == q.lane
  (ps.foldl (init := ([] : List PStore)) fun l p => if l.any (same p) then l else l ++ [p]).map fun p => ps.filter (same p)

/-- Perform one lane's store in granted words (R129, R147): a partial store to a poisoned word writes nothing and is an
error. -/
def performGroup (m : Tab L1Word) (g : List PStore) : Tab L1Word × Bool :=
  let full (w : Nat) : Bool := (List.range 8).all fun j => g.any fun q => q.pa == 8 * w + j
  let bad (p : PStore) : Bool := (tget m (p.pa / 8)).any fun x => x.poison && !full (p.pa / 8)
  (g.foldl (init := m) fun ws p =>
      match tget ws (p.pa / 8) with
      | some x =>
        if bad p then ws
        else tput ws (p.pa / 8) { x with dirty := true, poison := false, data := setWordByte x.data (p.pa % 8) p.val }
      | none => ws,
    g.any bad)

/-- The gang on whose behalf an actor stores. -/
def State.gangUid (s : State) (a : Actor) : Nat :=
  match a with
  | .gang u => u
  | .lane c => ((tget s.lanes c).map LaneCtx.gang).getD 0

/-- The posted error of a lane's store to a unit (R144). -/
def State.postOf (s : State) (k : Nat) (p : PStore) : PostErr :=
  { remote := pkgOf (unitBase k) != s.pkg.toNat, addr := p.va, flight := p.flight, lane := p.lane }

/-- The pending stores of a unit are answered: each flight waits for one unit less, and lanes post their errors (R144). -/
def State.storesDone (s : State) (mine : List PStore) (errs : List (Actor × PostErr)) : State :=
  let fl := (mine.map fun p => (p.actor, p.flight)).eraseDups
  let s := fl.foldl (init := s) fun s f => s.modThr f.1 fun t => t.modFlight f.2 fun x => { x with wait := x.wait - 1 }
  errs.foldl (init := s) fun s e => s.modThr e.1 fun t => t.post (some e.2)

/-- A grant reaches its agent (R129, R130): words without pending data are filled from it, every word becomes Owned,
the pending stores of the unit are performed in order. -/
def State.takeGrant (s : State) (a k : Nat) (ws : List (Nat × Word × Bool)) : State :=
  let c := s.l1Of a
  let words := ws.foldl (init := c.words) fun m w => tput m w.1 { owned := true, dirty := false, data := w.2.1, poison := w.2.2 }
  let mine := c.pend.filter fun p => p.ukey == k
  let r := (storeGroups mine).foldl (init := (words, ([] : List (Actor × PostErr)))) fun acc g =>
    let x := performGroup acc.1 g
    (x.1, acc.2 ++ (if x.2 then g.head?.toList.map fun p => (p.actor, s.postOf k p) else []))
  let gangs := (mine.map fun p => s.gangUid p.actor).foldl
      (init := if c.owned.contains k then (tget c.storers k).getD [] else []) fun l u =>
    if l.contains u then l else l ++ [u]
  let c := { c with
    words := r.1
    pend := c.pend.filter fun p => p.ukey != k
    asked := c.asked.filter (· != k)
    owned := if c.owned.contains k then c.owned else c.owned ++ [k]
    storers := tput c.storers k gangs }
  (s.setL1 a c).storesDone mine r.2

/-! ## Answers -/

/-- The error a home answers for a unit with OL set or a poisoned word (R144). -/
def homeErr (s : State) (k pa n : Nat) : Option MemErr :=
  if (s.entry k).ol then some .ownerLost
  else if (List.range n).any fun j => isPoisoned s (pa + j) then some .poison else none

/-- Note an answer to one part of a flight. -/
def State.answer (s : State) (actor : Option Actor) (flight : Nat) (g : Flight → Flight) : State :=
  match actor with
  | none => s
  | some a => s.modThr a fun t => t.modFlight flight g

/-- The posted error that an error answer to a write makes (R144, R491). -/
def MemErr.posted (e : MemErr) (va : Word) (flight lane : Nat) : PostErr :=
  { remote := e == .remote, addr := va, flight := flight, lane := lane, gated := e == .gated }

/-- A write of a lane is acknowledged, perhaps with an error that is posted (R144). -/
def State.ackWrite (s : State) (a : Actor) (e : Option PostErr) (flight : Nat) : State :=
  s.modThr a fun t => ((t.modFlight flight fun f => { f with wait := f.wait - 1 }).post e).reap

/-- An error answers an atomic or a reduction: the lane's bytes, or a posted error (R144, R187). -/
def State.answerErr (s : State) (actor : Option Actor) (flight lane : Nat) (er : MemErr) (va : Word) (remote : Bool) : State :=
  match actor with
  | none => s
  | some a => s.modThr a fun t =>
      let posted := t.flights.any fun f => f.id == flight && f.kind == .write
      (t.modFlight flight fun f => { f with
          wait := f.wait - 1
          bytes := f.bytes.map fun b => if b.lane == lane then { b with err := some er, va := va } else b }).post
        (if posted then some { er.posted va flight lane with remote := remote } else none)

/-- Give returned bytes to a load (R132): the sector's words with poison or an error for all; `stamp` is the moment home
served it. -/
def Flight.give (f : Flight) (pa stamp : Nat) (ws : List (Word × Bool)) (err : Option MemErr) (install : Bool) (pol : Pol) :
    Flight :=
  let kept := ((List.range ws.length).zip ws).map fun w => (w.2.1, w.2.2 || f.noInst.contains (pa / 32 * 4 + w.1))
  { f with
    wait := f.wait - 1
    bytes := f.bytes.map fun b =>
      if b.val.isNone && b.err.isNone && b.pa / 32 == pa / 32 then
        match err, ws[b.pa % 32 / 8]? with
        | some e, _ => { b with err := some e }
        | none, some w => if w.2 then { b with err := some .poison } else { b with val := some (wordByte w.1 (b.pa % 8)) }
        | none, none => b
      else b
    fills := if err.isNone then f.fills ++ [⟨pa, kept, stamp, install, pol⟩] else f.fills }

/-- A read of a watched word returns (R196). -/
def Watch.got (x : Watch) (eq : Bool) (r : Except MemErr Word) (zero mon : Bool) : Watch :=
  let x := { x with asked := false, seen := true, monitored := x.monitored || mon }
  if x.met || x.err.isSome then x
  else
    match r with
    | .error e => { x with err := some e, zero := false }
    | .ok m => { x with cur := m, val := m, zero := zero, met := if eq then m == x.old else m != x.old }

/-- Whether an actor waits for a read of a lane's watched word. -/
def State.asks (s : State) (a : Actor) (lane pa : Nat) : Bool :=
  match (s.thr? a).map Thr.wait with
  | some (.waitu w) => w.watches.any fun x => x.lane == lane && x.pa == pa && x.asked
  | _ => false

/-- Give a WAITU the read of a lane's word. -/
def State.answerWatch (s : State) (a : Actor) (lane pa : Nat) (r : Except MemErr Word) (mon : Bool) : State :=
  s.modThr a fun t =>
    match t.wait with
    | .waitu w =>
      { t with wait := .waitu { w with watches := w.watches.map fun x =>
          if x.lane == lane && x.pa == pa && x.asked then x.got w.eq r false mon else x } }
    | _ => t

/-! ## Home (R125, R129 to R133, R186, R191) -/

/-- Whether a byte lies in a unit, of any grain, whose owner is lost (R142). -/
def State.ownerGone (s : State) (pa : Nat) : Bool := s.registry.any fun e => e.2.ol && inUnit e.1 pa

/-- Store bytes at their addresses at home (R133, R147): partial stores to a poisoned word write nothing and answer an
error. -/
def State.storeIx (s : State) (ix : List (Nat × Byte)) : State × Bool :=
  let bad (a : Nat) : Bool :=
    isPoisoned s a && !((List.range 8).all fun j => ix.any fun e => e.1 == a / 8 * 8 + j)
  let err := ix.any fun e => bad e.1
  let s' := ix.foldl (init := s) fun s e =>
    if bad e.1 then s else { s with mem := memSetByte s.mem e.1 e.2, poison := mset false s.poison (e.1 / 8) false }
  (s', err)

/-- A far store at home (R133, R147). -/
def State.storeHome (s : State) (pa : Nat) (bs : List Byte) : State × Bool :=
  s.storeIx ((List.range bs.length).map fun j => (pa + j, (bs[j]?).getD 0))

/-- The error an acknowledgement carries: `remote` where home is on another package than the storer (R144). -/
def ackErr (r : HomeReq) (e : MemErr) : MemErr := if pkgOf (unitBase r.ukey) = r.agent / 4096 then e else .remote

/-- Units of a slice that have monitors. -/
def State.monitored (s : State) (pa : Nat) : Nat :=
  (s.home.filter fun e => e.2.watched && sliceOf (unitBase e.1) == sliceOf pa &&
    pkgOf (unitBase e.1) == pkgOf pa).length

/-- Whether a unit may have one more monitor (R141, R197). -/
def State.monFree (s : State) (k : Nat) : Bool := (s.unit k).watched || decide (s.monitored (unitBase k) < 64)

/-- Whether a request sets MON: it asks for a monitor and its slice has one for it (R141, R197). -/
def State.monitors (s : State) (r : HomeReq) : Bool :=
  match r.req with
  | .watch _ _ _ _ m => m && s.monFree r.ukey
  | .peer (.watch _ _ _) => s.monFree r.ukey
  | _ => false

/-- Whether a request meets a poisoned word (R465). -/
def State.poisonMet (s : State) (r : HomeReq) : Bool :=
  match r.req with
  | .fill _ _ pa _ _ => (List.range 4).any fun j => mget false s.poison (pa / 32 * 4 + j)
  | .reg _ => (unitWords r.ukey).any fun w => mget false s.poison w
  | .farStore _ _ _ pa bs _ => (s.storeHome pa bs).2
  | .plane _ _ _ pa n _ _ _ | .watch _ _ pa n _ | .farAtomic _ _ _ pa n _ _ _ _ =>
    (List.range n).any fun j => isPoisoned s (pa + j)
  | .peer (.watch _ pa n) => (List.range n).any fun j => isPoisoned s (pa + j)
  | .red _ _ _ pa _ _ _ _ _ => isPoisoned s pa
  | .lock _ _ | .peer _ => false

/-- Whether a request comes to this package from another one (R465). -/
def State.inbound (s : State) (r : HomeReq) : Bool := !s.localAgent r.agent && pkgOf (unitBase r.ukey) == s.pkg.toNat

/-- The HKC of home logs an inbound request that it answers with an error (R465). -/
def State.noteInbound (s : State) (r : HomeReq) : State :=
  s.logErr 11 (BitVec.ofNat 64 (unitBase r.ukey)) (BitVec.ofNat 64 r.agent)

/-- The second unit that a merged plane word of a BPK reaches into, if any: its update is one access (R107, R180). -/
def HomeReq.second (r : HomeReq) : Option Nat :=
  match r.req with
  | .plane _ _ _ pa n _ _ _ =>
    let k := ukeyOf (pa + n - 1) (r.ukey % 4)
    if k = r.ukey then none else some k
  | _ => none

/-- The units that a request acts on. -/
def HomeReq.units (r : HomeReq) : List Nat := r.ukey :: r.second.toList

/-- The last monitor of a unit ended: MON is cleared (R141). -/
def State.endMon (s : State) (k : Nat) : State :=
  if (s.unit k).watched then s else s.setEntry k { s.entry k with mon := false }

/-- Serve what only agents of other packages ask by message (R473): the answer leaves on the link with a value, or an error.
PCLR and ORCLM act as R463 and R464 say. -/
def State.servePeer (s : State) (agent k : Nat) (e : HomeEntry) (q : PeerReq) (mon : Bool) : State :=
  let reply (s : State) (er : Option MemErr) (x : Word) : State := s.send (.ack none agent 64 er x)
  match q with
  | .watch lane pa n =>
    match homeErr s k pa n with
    | some er => reply s (some er) 0
    | none =>
      let s := if !(mon && e.owner.isNone) then s
        else (s.setUnit k { s.unit k with pmons := (s.unit k).pmons ++ [⟨agent, lane, pa, n⟩] }).setEntry k { e with mon := true }
      reply s none (BitVec.ofNat 64 (memNat s.mem pa n))
  | .unwatch =>
    reply ((s.setUnit k { s.unit k with pmons := (s.unit k).pmons.filter fun m => m.agent != agent }).endMon k) none 0
  | .lock => if e.ol then reply s (some .ownerLost) 0 else reply (s.setUnit k { s.unit k with plock := some agent }) none 0
  | .unlock =>
    reply (if (s.unit k).plock == some agent then s.setUnit k { s.unit k with plock := none } else s) none 0
  | .orclm =>
    match tget s.registry k with
    | none => reply s none 0
    | some _ => reply (if e.ol then s.setEntry k { e with ol := false, owner := none } else s) none e.word
  | .pclr pa x =>
    if e.ol then reply s none 2
    else
      let st : Word := if isPoisoned s pa then 0 else 1
      reply ((s.storeHome pa ((List.range 8).map (wordByte x))).1.wakeOver pa 8) none st

/-- Serve one request for which home needs nothing further. -/
def State.serve (s : State) (r : HomeReq) : State :=
  let k := r.ukey
  let e := s.entry k
  if r.timedOut then s.send .late
  else
  let s := if s.inbound r && s.poisonMet r then s.noteInbound r else s
  match r.req with
  | .fill actor flight pa install pol =>
    let base := pa / 32 * 4
    let ws := (List.range 4).map fun j => (memWord s (base + j), mget false s.poison (base + j))
    (s.answer actor flight fun f => f.give pa s.fresh ws (if e.ol then some .ownerLost else none) install pol).bump
  | .reg _ =>
    if e.ol then s.send (.grant r.agent k [] (some .ownerLost))
    else if e.mon then s.send (.denied r.agent k)
    else
      let s := s.setEntry k { e with owner := some r.agent, granted := s.fresh }
      s.send (.grant r.agent k ((unitWords k).map fun w => (w, memWord s w, mget false s.poison w)) none)
  | .farStore actor flight lane pa bs va =>
    if e.ol then s.send (.ack actor flight lane (some (ackErr r .ownerLost)) va)
    else
      let (s, err) := s.storeHome pa bs
      (s.wakeOver pa bs.length).send (.ack actor flight lane (if err then some (ackErr r .poison) else none) va)
  | .plane actor flight lane pa n mask bits va =>
    match homeErr s k pa n with
    | some er => s.send (.ack (some actor) flight lane (some (ackErr r er)) va)
    | none =>
      if r.second.any fun k => (s.entry k).ol then s.send (.ack (some actor) flight lane (some (ackErr r .ownerLost)) va)
      else
      let old : Word := BitVec.ofNat 64 (memNat s.mem pa n)
      let s := { s with mem := memSetNat s.mem pa n ((old &&& ~~~mask) ||| (bits &&& mask)).toNat }
      (s.wakeOver pa n).send (.ack (some actor) flight lane none va)
  | .red actor flight lane pa op b64 val die va =>
    match homeErr s k pa (if b64 then 8 else 4) with
    | some er => s.answerErr (some actor) flight lane er va false
    | none =>
      let s := s.addPartial die k pa op b64 val r.prpt
      s.ackWrite actor none flight
  | .watch actor lane pa n _ =>
    if !s.asks actor lane pa then s
    else
      match homeErr s k pa n with
      | some er => s.answerWatch actor lane pa (.error er) false
      | none =>
        let mon := s.monitors r && e.owner.isNone
        let s := if !mon then s
          else
            let u := s.unit k
            (s.setUnit k { u with monitors := u.monitors ++ [⟨actor, r.agent, lane, pa, n⟩] }).setEntry k { e with mon := true }
        s.answerWatch actor lane pa (.ok (BitVec.ofNat 64 (memNat s.mem pa n))) mon
  | .farAtomic actor flight lane pa n op cmp val va =>
    match homeErr s k pa n with
    | some er => s.answerErr actor flight lane er va (r.agent / 4096 != pkgOf pa)
    | none =>
      let old : Word := BitVec.ofNat 64 (memNat s.mem pa n)
      let new := match op with
        | some o => some (aopVal o (n == 8) old val)
        | none => if old == cmp then some val else none
      let s := match new with
        | some x => { s with mem := memSetNat s.mem pa n x.toNat }.wakeOver pa n
        | none => s
      s.answer actor flight fun f => { f with
        wait := f.wait - 1
        bytes := f.bytes.map fun b => if b.lane == lane then { b with val := some (wordByte old b.idx) } else b }
  | .lock actor flight =>
    if e.ol then s.answer (some actor) flight fun f => { f with wait := f.wait - 1, err := some .ownerLost }
    else
    let s := s.setUnit k { s.unit k with lock := some actor }
    s.answer (some actor) flight fun f => { f with wait := f.wait - 1 }
  | .peer q => s.servePeer r.agent k e q (s.monitors r)

/-! ## Room in the registry (R121, R124) -/

/-- Whether a unit without an entry finds its set full, with 16 entries that all mark something. -/
def State.setFull (s : State) (k : Nat) : Bool :=
  (tget s.registry k).isNone && decide (16 ≤ s.registry.length) &&
    decide (16 ≤ ((s.setOf k).filter fun e => !e.2.idle).length)

/-- The unit of the least recently granted entry of a set that has an owner, which gives way to a new entry. -/
def State.victim (s : State) (k : Nat) : Option Nat :=
  ((s.setOf k).foldl (init := none) fun (best : Option (Nat × HomeEntry)) e =>
    if e.2.owner.isNone then best
    else match best with
      | some b => if e.2.granted < b.2.granted then some e else best
      | none => some e).map Prod.fst

/-- Ask the owner of a unit to give it up (R131). -/
def State.revokeOwner (s : State) (k a : Nat) : State :=
  (s.setUnit k { s.unit k with stage := .revoking a s.ps }).send (.revoke a k)

/-- Free an entry of a unit's full set by revocation, unless one is being freed or none can be chosen. -/
def State.makeRoom (s : State) (k : Nat) : State :=
  if (s.setOf k).any fun e => (s.unit e.1).stage != .idle then s
  else
    match s.victim k with
    | some v => match (s.entry v).owner with | some a => s.revokeOwner v a | none => s
    | none => s

/-! ## The queue of a unit (R125) -/

/-- Whether a request needs an entry in the registry. -/
def State.enters (s : State) (r : HomeReq) : Bool :=
  match r.req with
  | .reg _ => !(s.entry r.ukey).mon
  | .red _ _ _ _ _ _ _ _ _ => true
  | _ => s.monitors r

/-- Whether a request merges the unit before it is served (R139): all but a reduction of the same operation and type. -/
def State.merges (s : State) (r : HomeReq) : Bool :=
  match r.req with
  | .red _ _ _ _ op b64 _ _ _ => (unitPartials s r.ukey).any fun p => p.op != op || p.b64 != b64
  | .peer .orclm | .peer .unwatch | .peer .unlock => false
  | _ => true

/-- Whether a request leaves the unit's owner and its queue's lock alone: it only reads or changes home's own record. -/
def HomeReq.record (r : HomeReq) : Bool :=
  match r.req with
  | .peer .orclm | .peer .unwatch | .peer .unlock => true
  | _ => false

/-- What home does before it can serve the first request of a unit. -/
inductive Prep where
  | ready (s : State)
  | waits (s : State)
  deriving DecidableEq, Repr

/-- What the second unit of a plane word needs first: nothing under way there, no owner, its partials merged (R131, R139,
R180). -/
def State.prepareSecond (s : State) (j : Nat) : Prep :=
  if (s.entry j).ol then .ready s
  else if !(s.unit j).still then .waits s
  else
    match (s.entry j).owner with
    | some a => .waits (s.revokeOwner j a)
    | none => .ready (s.merge j)

/-- The revocation, forward, merge or room that a request needs first (R124, R125, R131, R132, R139). -/
def State.prepare (s : State) (r : HomeReq) : Prep :=
  let k := r.ukey
  if (s.entry k).ol || r.timedOut || r.record then .ready s
  else
    let s := if s.merges r then s.merge k else s
    match (s.entry k).owner with
    | some a =>
      let forward : Prep := .waits ((s.setUnit k { s.unit k with stage := .forwarding a s.ps }).send (.forward a k))
      match r.req with
      | .reg _ => if a == r.agent then .ready s else .waits (s.revokeOwner k a)
      | .fill _ _ _ _ _ => forward
      | .watch _ _ _ _ _ | .peer (.watch _ _ _) => if s.monitors r then .waits (s.revokeOwner k a) else forward
      | _ => .waits (s.revokeOwner k a)
    | none =>
      if s.enters r && s.setFull k then .waits (s.makeRoom k)
      else match r.second with
        | none => .ready s
        | some j => s.prepareSecond j

/-- Whether a lock holds a unit back from a request: all but the unlock of the MCAS that holds it (R191). -/
def HomeUnit.heldFrom (u : HomeUnit) (r : HomeReq) : Bool :=
  u.lock.isSome || (u.plock.isSome && !(r.req == .peer .unlock && u.plock == some r.agent))

/-- The unlock of a peer's MCAS overtakes the requests that wait for it (R191). -/
def HomeUnit.unlocks (u : HomeUnit) (r : HomeReq) : Bool := r.req == .peer .unlock && u.plock == some r.agent

/-- Serve the requests of a unit in order of arrival, as far as home can go without waiting (R125); a locked unit waits
(R191). The fuel bounds the requests served. -/
def State.drain (s : State) (k : Nat) : Nat → State
  | 0 => s
  | n + 1 =>
    let u := s.unit k
    match u.queue with
    | [] => s
    | r :: rest =>
      if u.stage != .idle || u.heldFrom r then s
      else
        match s.prepare r with
        | .waits s => s
        | .ready s => ((s.setUnit k { s.unit k with queue := rest }).serve r).drain k n

/-- Serve as many requests of a unit as can be. -/
def State.drainAll (s : State) (k : Nat) : State := s.drain k ((s.unit k).queue.length + 1)

/-- A request arrives at home (R125). -/
def State.arrive (s : State) (r : HomeReq) : State :=
  let u := s.unit r.ukey
  (s.setUnit r.ukey { u with queue := if u.unlocks r then r :: u.queue else u.queue ++ [r] }).drainAll r.ukey

/-- Home no longer waits for an owner's answer. -/
def State.unstage (s : State) (k : Nat) : State := s.setUnit k { s.unit k with stage := .idle, prpt := none }

/-- Whether home waits for an agent's answer for a unit. -/
def State.waitsFor (s : State) (k a : Nat) : Bool :=
  match (s.unit k).stage with
  | .revoking o _ | .forwarding o _ => o == a
  | .idle => false

/-- Whether home has waited more than 20 µs for the answer of an owner on another package: what still comes is discarded
(R142, R143). -/
def State.tooLate (s : State) (k : Nat) : Bool :=
  match (s.unit k).stage with
  | .revoking o t | .forwarding o t => o / 4096 != pkgOf (unitBase k) && decide (t + 20000000 < s.ps)
  | .idle => false

/-- A write-back reaches home (R131): its words are written and the owner is cleared. An answer that home no longer waits
for, or that comes after 20 µs, is discarded (R143). -/
def State.takeWriteBack (s : State) (a k : Nat) (ws : List (Nat × Word × Bool)) : State :=
  if !s.waitsFor k a || s.tooLate k then
    if ws.isEmpty && s.localAgent a then s else { s with hkc := { s.hkc with late := s.hkc.late + 1 } }
  else
    let e := s.entry k
    let s := if e.owner == some a then (s.writeWords ws).setEntry k { e with owner := none } else s
    s.unstage k

/-- A forwarded load's answer (R132): home's copy is updated, the owner stays, the load is served; with no request waiting it
was a read of the device's own, which finds home's copy. -/
def State.takeForward (s : State) (a k : Nat) (ws : List (Nat × Word × Bool)) : State :=
  let u := s.unit k
  if s.tooLate k then { s with hkc := { s.hkc with late := s.hkc.late + 1 } }
  else
  match u.stage, u.queue with
  | .forwarding o _, r :: rest =>
    if o == a && (s.entry k).owner == some a then
      let s := s.writeWords ws
      ((s.setUnit k { s.unit k with stage := .idle, prpt := none, queue := rest }).serve r).drainAll k
    else (s.unstage k).drainAll k
  | .forwarding o _, [] =>
    if o == a && (s.entry k).owner == some a then
      let s := s.writeWords ws
      s.setUnit k { s.unit k with stage := .idle, prpt := none, got := .given }
    else s.unstage k
  | _, _ => s

/-- An agent of this package gives up a unit of its own accord (R128, R131): its dirty words go home and the registration
ends; a revocation or forward on its way finds its answer given. -/
def State.revokeNow (s : State) (k a : Nat) : State :=
  let e := s.entry k
  let s := (if e.owner == some a then (s.writeWords ((s.l1Of a).dirtyOf k)).setEntry k { e with owner := none } else s).surrender a k
  if s.waitsFor k a then
    (({ s with net := s.net.filter fun x => x.body != Body.revoke a k && x.body != Body.forward a k }).unstage k).drainAll k
  else s

/-- Serve again every unit whose requests wait for nothing but room in the registry (R124). -/
def State.settleHome (s : State) : State :=
  (s.home.filter fun e => !e.2.queue.isEmpty && e.2.stage == .idle && e.2.lock.isNone && e.2.plock.isNone).foldl (init := s) fun s e => s.drainAll e.1

/-! ## The device's own coherent accesses -/

/-- The unit whose registration a message concerns. -/
def Body.unit : Body → Option Nat
  | .grant _ k _ _ | .denied _ k | .revoke _ k | .forward _ k | .writeBack _ k _ | .lost _ k => some k
  | _ => none

/-- Whether a unit, of any grain, holds one of n bytes (R137). -/
def unitOver (pa n k : Nat) : Bool := decide (unitBase k < pa + n) && decide (pa < unitBase k + unitSize k)

/-- Whether something is under way for a unit that holds one of n bytes, or an MCAS holds it (R125, R191). -/
def State.homeBusy (s : State) (pa n : Nat) : Bool := s.home.any fun e => unitOver pa n e.1 && !e.2.still

/-- Whether the device must wait before it writes n bytes: something is under way for a unit that holds one of them, an
agent of another package owns it, or an MCAS holds it (R125, R131, R191). -/
def State.lockedOver (s : State) (pa n : Nat) : Bool :=
  s.homeBusy pa n ||
  (s.registry.any fun e => unitOver pa n e.1 && e.2.owner.any fun a => !s.localAgent a) ||
  s.net.any fun m => m.body.unit.any (unitOver pa n)

/-- Whether the device must wait before it writes a byte. -/
def State.locked (s : State) (pa : Nat) : Bool := s.lockedOver pa 1

/-- Whether the device must wait before it reads n bytes: as for a write, but an owner on another package keeps the unit, and
the read goes on once that owner has answered it (R132). -/
def State.readBusy (s : State) (pa n : Nat) : Bool :=
  s.homeBusy pa n ||
  (s.registry.any fun e => unitOver pa n e.1 && (e.2.owner.any fun a => !s.localAgent a) && (s.unit e.1).got == .no) ||
  s.net.any fun m => m.body.unit.any (unitOver pa n)

/-- Ask every owner on another package of a unit that holds one of n bytes, where home has nothing under way and `pick` holds:
`ask` gives the stage and the message; `prpt` is the grid that is told if the owner is lost (R142). -/
def State.askOwners (s : State) (pa n : Nat) (prpt : Option Nat) (pick : HomeUnit → Bool)
    (ask : Nat → Nat → Stage × Body) : State :=
  (s.registry.filter fun e => unitOver pa n e.1).foldl (init := s) fun s e =>
    let u := s.unit e.1
    match e.2.owner with
    | some a =>
      if u.still && pick u && !s.localAgent a then
        (s.setUnit e.1 { u with stage := (ask a e.1).1, prpt := prpt, got := .no }).send (ask a e.1).2
      else s
    | none => s

/-- While the device waits to write a unit that an agent of another package owns, home revokes that owner (R131); `prpt` is
the grid that is told if the owner is lost (R142). -/
def State.stir (s : State) (pa n : Nat) (prpt : Option Nat := none) : State :=
  s.askOwners pa n prpt (fun _ => true) fun a k => (.revoking a s.ps, .revoke a k)

/-- While the device waits to read a unit that an agent of another package owns, home forwards the read to it (R132). -/
def State.stirRead (s : State) (pa n : Nat) (prpt : Option Nat := none) : State :=
  if s.readBusy pa n then s.askOwners pa n prpt (fun u => u.got == .no) fun a k => (.forwarding a s.ps, .forward a k) else s

/-- Bring a unit home: its owner in this package surrenders it, partials merge. -/
def State.recallUnit (s : State) (k : Nat) : State :=
  let s := match (s.entry k).owner with
    | some a => if s.localAgent a then s.revokeNow k a else s
    | none => s
  s.merge k

/-- Bring home every unit that holds one of n bytes; each that is owned or in reduction state has its entry (R122). -/
def State.recall (s : State) (pa n : Nat) : State :=
  (s.registry.filter fun e => unitOver pa n e.1).foldl (init := s) fun s e => s.recallUnit e.1

/-- What a coherent read of n bytes does at home: partials merge (R139), an owner of this package writes its words to home's
copy and stays owner (R132), and an answer that an owner on another package has given for it is used. -/
def State.readUnit (s : State) (k : Nat) : State :=
  let s := s.merge k
  let s := match (s.entry k).owner with
    | some a =>
      if s.localAgent a then
        let c := s.l1Of a
        let ws := c.dirtyOf k
        (s.setL1 a (c.clean ws)).writeWords ws
      else s
    | none => s
  if (s.unit k).got == .given then s.setUnit k { s.unit k with got := .used } else s

/-- What a coherent read of n bytes does to every unit that holds one of them; where home cannot answer yet the step that
reads is put off (assumption 114). -/
def State.readOver (s : State) (pa n : Nat) : State :=
  if s.readBusy pa n then { s with unread := s.unread.orElse fun _ => some (pa, n) }
  else (s.registry.filter fun e => unitOver pa n e.1).foldl (init := s) fun s e => s.readUnit e.1

/-- A step is over: the owners' answers that it used are used up (R132). -/
def State.forget (s : State) : State :=
  (s.home.filter fun e => e.2.got == .used).foldl (init := s) fun s e => s.setUnit e.1 { s.unit e.1 with got := .no }

/-- Read n bytes coherently. -/
def State.devRead (s : State) (pa n : Nat) : State × List Byte :=
  let s := s.readOver pa n
  (s, memRead s.mem pa n)

/-- Write bytes coherently, bringing their units home; watched words wake their monitors (R141). A unit whose owner is lost
answers with an error and is not written (R142). -/
def State.devWrite (s : State) (pa : Nat) (bs : List Byte) : State :=
  let s := s.recall pa bs.length
  let ix := (List.range bs.length).map fun j => (pa + j, (bs[j]?).getD 0)
  let ix := if s.registry.any fun e => e.2.ol then ix.filter fun x => !s.ownerGone x.1 else ix
  (s.storeIx ix).1.wakeOver pa bs.length

/-- Merge what reductions hold of n bytes (R139). -/
def State.mergeOver (s : State) (pa n : Nat) : State :=
  (s.registry.filter fun e => unitOver pa n e.1 && e.2.cst != 0).foldl (init := s) fun s e => s.merge e.1

/-- The addresses, one in each smallest unit, of n bytes. -/
def unitsOver (pa n : Nat) : List Nat :=
  if n = 0 then [] else (List.range ((pa + n - 1) / 32 - pa / 32 + 1)).map fun j => (pa / 32 + j) * 32

/-- The word an owner of this package holds, if its registration stands, or has written back (R132). -/
def State.ownedWord (s : State) (w : Nat) : Option (Word × Bool) :=
  let stands (a : Nat) (c : L1) : Bool := c.owned.any fun k => inUnit k (8 * w) && (s.entry k).owner == some a
  (s.l1.findSome? fun e =>
    match e.2.word w with
    | some x => if x.owned && stands e.1 e.2 then some (x.data, x.poison) else none
    | none => none).orElse fun _ =>
  s.net.reverse.findSome? fun m =>
    match m.body with
    | .writeBack a k ws => if s.waitsFor k a && (s.entry k).owner == some a then
        (ws.find? fun x => x.1 == w).map Prod.snd else none
    | _ => none

/-- The coherent value of a word and whether it is Poisoned, without moving anything: the owner's, or that of memory after
merging (R132, R139). -/
def State.peekWord (s : State) (w : Nat) : Word × Bool :=
  match s.ownedWord w with
  | some r => r
  | none =>
    let s := s.mergeOver (8 * w) 8
    (memWord s w, mget false s.poison w)

/-- The coherent value of a byte. -/
def State.peek (s : State) (pa : Nat) : Byte := wordByte (s.peekWord (pa / 8)).1 (pa % 8)

/-- The coherent n-byte value at an address. -/
def State.peekNat (s : State) (pa n : Nat) : Nat := valOf ((List.range n).map fun j => s.peek (pa + j))

/-- The coherent bytes at an address. -/
def State.peekBytes (s : State) (pa n : Nat) : List Byte := (List.range n).map fun j => s.peek (pa + j)

end Sys2Proof.Machine
end

