-- ==== Sys2Proof/Machine/Operands.lean ====
section
/-!
DEFINITION. Operand forms: how each class of operand is read and written (R47 to R54), and the checks every instruction
passes at issue: allotment (R52), issue distance and the checking scoreboard (R62 to R69), poisoned registers (R461),
guard (R36) and the choice between uniform pipe and lanes (R37, R54).
-/
namespace Sys2Proof.Machine

/-- How an operand is read: its integer width, or the float format its small constants take (R49, R50). -/
inductive Rd where | u32 | u64 | f32 | f16 | bf16
  deriving DecidableEq, Repr

/-- Registers a v operand takes under a read kind. -/
def Rd.grp : Rd → Nat
  | .u64 => 2
  | _ => 1

/-- The value of a special operand (R48), as seen by a lane. -/
def View.special (s : State) (v : View) (sp : Special) (lane : Nat) : Word :=
  match sp with
  | .lane => BitVec.ofNat 64 lane
  | .width => BitVec.ofNat 64 v.g.width
  | .gangid => BitVec.ofNat 64 v.g.gangid
  | .teamid => (s.teamOf v.g).teamid &&& 0xFFFFFFFF#64
  | .vallot => BitVec.ofNat 64 v.g.vallot
  | .f0 => 0
  | .f1 => 0x3F800000
  | .fm1 => 0xBF800000
  | .fhalf => 0x3F000000
  | .f2 => 0x40000000
  | .finf => 0x7F800000
  | .fninf => 0xFF800000
  | .fnan => 0x7FC00000
  | .fln2 => 0x3F317218
  | .flog2e => 0x3FB8AA3B
  | .fpi => 0x40490FDB
  | .ones => 0xFFFFFFFF

/-- A small constant under a read kind (R49). -/
def constVal (k : Rd) (n : BitVec 6) : Word :=
  let x := n.toInt
  match k with
  | .u32 => zx64 (n.signExtend 32)
  | .u64 => n.signExtend 64
  | .f32 => BitVec.ofNat 64 (Machine.f32.ofInt .rn x).bits
  | .f16 => let h := (Machine.f16.ofInt .rn x).bits; BitVec.ofNat 64 (h + 65536 * h)
  | .bf16 => let h := (Machine.bf16.ofInt .rn x).bits; BitVec.ofNat 64 (h + 65536 * h)

/-- The value of an operand as a lane reads it (R50, R54). A predicate reads as 0 or 1. -/
def View.read (s : State) (v : View) (ixs : BitVec 2) (k : Rd) (o : Opd) (lane : Nat) : Word :=
  match o with
  | .v n ix =>
    let e := v.t.eff ixs n ix
    match k with
    | .u64 => zx64 (v.t.regs.getV e lane) ||| (zx64 (v.t.regs.getV (e + 1) lane) <<< 32)
    | _ => zx64 (v.t.regs.getV e lane)
  | .s n =>
    match k with
    | .u64 => v.t.regs.getS n.toNat
    | _ => v.t.regs.getS n.toNat &&& 0xFFFFFFFF#64
  | .k n => bword (hasLane (v.t.regs.getK n.toNat) lane)
  | .p sp => v.special s sp lane
  | .c n => constVal k n

/-- The register writes that put a result into a destination, for one lane (R50). `wide` results take a pair;
`signed` 32-bit results are sign-extended in an s register. -/
def View.dest (v : View) (ixs : BitVec 2) (wide signed : Bool) (d : Opd) (lane : Nat) (x : Word) : List RegW :=
  match d with
  | .v n ix =>
    let e := v.t.eff ixs n ix
    if wide then [.v e lane (x.setWidth 32), .v (e + 1) lane ((x >>> 32).setWidth 32)]
    else [.v e lane (x.setWidth 32)]
  | .s n =>
    [.s n.toNat (if wide then x else if signed then (x.setWidth 32).signExtend 64 else x &&& 0xFFFFFFFF#64)]
  | .k n => [.k n.toNat (laneBit lane) (if x.getLsbD 0 then laneBit lane else 0)]
  | .p _ | .c _ => []

/-- The lanes whose guard passes (R36). -/
def View.exec (v : View) (p : Pre) : Mask :=
  let k := v.t.regs.getK p.pk.toNat
  v.act &&& (if p.pn then ~~~k else k)

/-- What an instruction declares about its registers before it acts. -/
structure Uses where
  p : Pre
  ixs : BitVec 2 := 0
  rd : List (Opd × Nat) := []
  wr : List (Opd × Nat) := []
  rs : List Nat := []
  ws : List Nat := []
  rk : List Nat := []
  wk : List Nat := []
  wi : List Nat := []
  safe : Bool := true
  deriving DecidableEq, Repr

/-- The registers an instruction reads (its guard and index register included). -/
def Uses.reads (u : Uses) (t : Thr) : List RegId :=
  (u.rd.flatMap fun o => t.regsOf u.ixs o.1 o.2) ++ ixRegs u.ixs (u.rd ++ u.wr) ++
    u.rs.map RegId.s ++ u.rk.map RegId.k ++ (if u.p.pk = 0 then [] else [.k u.p.pk.toNat])

/-- The registers an instruction writes. -/
def Uses.writes (u : Uses) (t : Thr) : List RegId :=
  (u.wr.flatMap fun o => t.regsOf u.ixs o.1 o.2) ++ u.ws.map RegId.s ++ u.wk.map RegId.k ++ u.wi.map RegId.i

/-- The registers that an instruction in flight will write when it lands. -/
def Flight.regs (f : Flight) : List RegId :=
  (match f.dst with
   | .none => []
   | .s n => [.s n]
   | .v r =>
     match f.kind with
     | .load b | .atom b => (List.range ((b + 3) / 4)).map fun j => .v (r + j)
     | .planes _ => [.v r]
     | _ => []) ++
  (if f.chk then [.k 7] else []) ++
  (match f.kind with | .regs w => w.map RegW.reg | _ => [])

/-- A fixed-latency result of one of these registers is not yet readable (R64); a result for k0 or i0, which keeps nothing
(R258), counts like any other (DESIGN CHOICE, assumption 119). -/
def Thr.pendingHit (t : Thr) (rs : List RegId) : Bool :=
  t.pend.any fun p => p.w.any fun w => rs.contains w.reg

/-- A variable-latency result of one of these registers has not landed (R67). -/
def Thr.flightHit (t : Thr) (rs : List RegId) : Bool :=
  t.flights.any fun f => !f.landed && f.regs.any fun r => rs.contains r

/-- The lanes that read a poisoned register, with its number (R461). -/
def View.poisoned (v : View) (u : Uses) (ex : Mask) : Option (Nat × Mask) :=
  let regs := (u.rd.flatMap fun o => v.t.regsOf u.ixs o.1 o.2).filterMap fun r =>
    match r with | .v n => some n | _ => none
  regs.findSome? fun n =>
    let m := (lanesOf ex).foldl (init := (0 : Mask)) fun m l =>
      if mget false v.t.regs.vp (vkey n l) then m ||| laneBit l else m
    if m = 0 then none else some (n, m)

/-- A gang's earliest issue cycle: its own distance and its issue unit (R62, R416). -/
def State.issueCycle (s : State) (v : View) : Nat := Nat.max v.t.next (mget 0 s.units (unitOf v.g))

/-- The moment of a thread's earliest issue; a lane waits for its start and its SLC (R16, R381). -/
def State.issuePs (s : State) (v : View) : Nat :=
  match v.lane with
  | some _ => Nat.max v.t.next (mget 0 s.slcs (slcOf v.ctxNo))
  | none => (s.island (islandOf v.g.core)).psOf (s.issueCycle v)

/-- Let time pass to a thread's earliest issue. -/
def State.atIssue (s : State) (v : View) : State :=
  match v.lane with
  | some _ => s.atPs (s.issuePs v)
  | none => s.atCycle v.g.core (s.issueCycle v)

/-- Let time pass to the issue of a thread's next instruction and land what can then be read. -/
def State.startIssue (s : State) (v : View) : State × View :=
  let s := s.atIssue v
  let now := s.clk v.g.core
  let t := if v.lane.isSome then v.t.landAll else v.t.landDue now
  (s.setThr v.a t, { v with t := t, now := now })

/-- The checks an instruction passes at issue. Where it passes them: the state and the view it acts in and the lanes whose
guard passes. Where it does not: what happens instead. An instruction marked unsafe sends a carry-pool lane back to its gang
(R368, R369), as does an operand naming v64 or above there (R365); a lane waits for registers still in flight (R69).
The registers an instruction reads are those it reads whatever its guard, so SBCHK (R64) halts also where the guard passes in no
lane (DESIGN CHOICE, assumption 102). -/
def State.admits (s : State) (u : Uses) : Except Out (State × View × Mask) :=
  match s.view with
  | none => .error (.fault .noAgent)
  | some v0 =>
    if v0.lane.isSome && !u.safe then .error (.next (s.earlyReturn v0.ctxNo))
    else
      let (s, v) := s.startIssue v0
      let top := v.t.vTop u.ixs (u.rd ++ u.wr)
      if v.g.vallot < top then .error (.next (s.haltV v { cause := .vregBound }))
      else if v.lane.isSome && decide (64 < top) then .error (.next (s.earlyReturn v.ctxNo))
      else
        let rd := u.reads v.t
        let wr := u.writes v.t
        if v.lane.isSome && v.t.flightHit (rd ++ wr) then .error (.next s)
        else if v.lane.isNone && (s.gridOf v.g).sbchk && (v.t.pendingHit rd || v.t.flightHit (rd ++ wr)) then
          .error (.next (s.haltV v { cause := .sbchk }))
        else
          match v.poisoned u (v.exec u.p) with
          | some (n, m) => .error (.next (s.haltV v { cause := .poisonReg, mask := some m, addr := BitVec.ofNat 64 n }))
          | none => .ok (s, v, v.exec u.p)

/-- Whether the thread's next instruction, with this guard, finds the counter of its path full: it waits at issue, and reads no
register yet (R64, R205). -/
def State.fullAt (s : State) (p : Pre) (path : View → Path) : Bool :=
  match s.view with
  | none => false
  | some v0 =>
    let v := (s.startIssue v0).2
    v.exec p != 0 && decide (63 ≤ v.t.count (path v))

/-- An instruction that passes its checks acts by `body`. -/
def State.issue (s : State) (u : Uses) (body : State → View → Mask → Out) : Out :=
  match s.admits u with
  | .error o => o
  | .ok (s, v, ex) => body s v ex

/-- Add a fixed-latency result (R61, R63); on the carry pool it is readable at once (R69). -/
def View.later (v : View) (t : Thr) (lat : Nat) (w : List RegW) : Thr :=
  if v.lane.isSome then { t with regs := t.regs.applyAll w }
  else if w.isEmpty then t
  else { t with pend := t.pend ++ [{ cycle := v.now + lat + (if v.g.width = 64 then 1 else 0), w := w }] }

/-- Note registers a carry-pool lane has written (R369). -/
def State.noteGot (s : State) (v : View) (w : List RegW) : State :=
  match v.lane with
  | none => s
  | some _ =>
    { s with lanes := tmod s.lanes v.ctxNo fun l => { l with
        got := w.foldl (init := l.got) fun g x =>
          match x with
          | .v n _ _ => if g.contains n then g else g ++ [n]
          | _ => g } }

/-- Whether an instruction runs on the uniform pipe: its destination and sources are s, constant or special (R54). -/
def uniform (ops : List Opd) : Bool :=
  ops.all fun o => match o with | .v _ _ | .k _ => false | _ => true

/-- The lane number the uniform pipe reads (R54): the lowest lane whose guard passes. -/
def uniLane (ex : Mask) : Nat := (lowest ex).getD 0

/-- Finish a fixed-latency instruction: its writes, flags raised, and retirement. -/
def State.done (s : State) (v : View) (p : Pre) (lat : Nat) (w : List RegW) (fl : FFlags) : State :=
  let t := v.later { v.t with regs := v.t.regs.raise fl } lat w
  (s.noteGot v w).retire v t p.stall

/-- What a computed instruction declares: its sources, its destination, and the destination as a source where it keeps
part of it (R8). -/
def aluUses (p : Pre) (ixs : BitVec 2) (d : Opd) (wide : Bool) (srcs : List (Opd × Rd)) (keep : Bool) : Uses :=
  let dg := if wide then 2 else 1
  { p := p, ixs := ixs, rd := srcs.map (fun o => (o.1, o.2.grp)) ++ (if keep then [(d, dg)] else []), wr := [(d, dg)] }

/-- The end of an instruction computed lane by lane, or once on the uniform pipe (R54, R61): `f` maps the values of the
sources to a result and the flags raised (R264). -/
def State.aluEnd (s : State) (v : View) (ex : Mask) (p : Pre) (ixs : BitVec 2) (lat : Nat) (d : Opd) (wide signed : Bool)
    (srcs : List (Opd × Rd)) (f : List Word → Word × FFlags) : State :=
  let at_ (l : Nat) : Word × FFlags := f (srcs.map fun o => v.read s ixs o.2 o.1 l)
  if uniform (d :: srcs.map Prod.fst) then
    if ex = 0 then s.done v p lat [] 0
    else
      let r := at_ (uniLane ex)
      s.done v p lat (v.dest ixs wide signed d 0 r.1) r.2
  else
    let rs := (lanesOf ex).map fun l => (l, at_ l)
    s.done v p lat (rs.flatMap fun r => v.dest ixs wide signed d r.1 r.2.1)
      (rs.foldl (init := (0 : FFlags)) fun fl r => fl ||| r.2.2)

/-- A fixed-latency computed instruction. -/
def State.alu (s : State) (p : Pre) (ixs : BitVec 2) (lat : Nat) (d : Opd) (wide signed : Bool)
    (srcs : List (Opd × Rd)) (keep : Bool) (f : List Word → Word × FFlags) : Out :=
  s.issue (aluUses p ixs d wide srcs keep) fun s v ex => .next (s.aluEnd v ex p ixs lat d wide signed srcs f)

end Sys2Proof.Machine
end

