-- ==== Sys2Proof/Machine/Translate.lean ====
section
/-!
DEFINITION. Addresses and translation: page walks and cached leaves (R91 to R99), translation registers (R100 to R106),
the checks of an access and the order of their halts (R102, R103, R109, R110), and instruction fetch (R199).
-/
namespace Sys2Proof.Machine

/-! ## Free choices -/

/-- Choose among candidates; where all agree nothing is left open and no free value is used. -/
def State.choose {α : Type} [DecidableEq α] (s : State) (d : α) (cs : List α) : State × α :=
  match cs with
  | [] => (s, d)
  | c :: rest =>
    if rest.all fun x => decide (x = c) then (s, c)
    else (s.useFree, ((cs[Config.pick s.free % cs.length]?).getD c))

/-! ## Which addresses exist (R86, R89, R90) -/

/-- Whether a die of this package is gated. -/
def State.gated (s : State) (d : Nat) : Bool := ((tget s.dies d).map Die.gated).getD false

/-- Whether the package of an address is in the domain and a port is up to reach it (R90, R465, R475). -/
def State.reachable (s : State) (pa : Nat) : Bool :=
  pkgOf pa == s.pkg.toNat || (s.members.getLsbD (pkgOf pa) && s.down != BitVec.allOnes 18)

/-- A halt that an address of this package meets (R86, R89). -/
def State.paHalt (s : State) (pa : Nat) : Option Cause2 :=
  if pkgOf pa == s.pkg.toNat then
    if localPa pa / 2 ^ 40 != 0 then some .paUnbacked
    else if s.gated (dieOfPa pa) then some .dieGated else none
  else none

/-- An address that the home of another package answers with an error, or that no hub can send (R90, R465). -/
def State.remoteBad (s : State) (pa : Nat) : Bool :=
  pkgOf pa != s.pkg.toNat && (!s.reachable pa || localPa pa / 2 ^ 40 != 0)

/-- A request whose package is no member of the domain, or that no port can carry: it fails at once, and the initiator's HKC
logs it (R465), with the first such address of an instruction. -/
def State.noteRemote (s : State) (pas : List Nat) : State :=
  match pas.find? fun pa => pkgOf pa != s.pkg.toNat && !s.reachable pa with
  | some pa => s.logErr 3 (BitVec.ofNat 64 pa) 0
  | none => s

/-- The same where a walk ends there (R93, R465). -/
def State.noteWalk (s : State) (c : Cause2) (pa : Word) : State := if c = .remoteError then s.noteRemote [pa.toNat] else s

/-! ## Page walks (R91 to R97) -/

/-- What an access needs of a page (R94, R111). -/
inductive Want where | read | write | rmw | fetch
  deriving DecidableEq, Repr

/-- The access kind in FCAUSE (R447). -/
def Want.kind : Want → Nat
  | .read => 0
  | .write => 1
  | .rmw => 2
  | .fetch => 3

/-- Whether an address is canonical (R91). -/
def canonical (va : Word) : Bool := va.toNat / 2 ^ 56 == 0 || va.toNat / 2 ^ 56 == 255

/-- A present leaf as a walk returns it: the entry, its level, the base of its page and the page's size. -/
structure Leaf where
  pte : Word
  level : Nat
  base : Nat
  size : Nat
  deriving DecidableEq, Repr

/-- The outcome of a walk. -/
inductive Walk where
  | leaf (l : Leaf)
  | absent (level : Nat)
  | bad (c : Cause2) (addr : Word)
  deriving DecidableEq, Repr

/-- FRAME of an entry, as a domain physical address (R94). -/
def pteFrame (e : Word) : Nat := nbits e.toNat 12 40 * 4096

/-- The level of a leaf's size code: 0 for 4 KiB and 64 KiB, 1 for 2 MiB, 2 for 1 GiB (R93, R115). -/
def leafSize (level : Nat) (ps64 : Bool) : Nat :=
  match level with
  | 0 => if ps64 then 2 ^ 16 else 2 ^ 12
  | 1 => 2 ^ 21
  | _ => 2 ^ 30

/-- Whether a valid leaf is malformed at its level (R95). -/
def leafMalformed (e : Word) (level : Nat) : Bool :=
  e.extractLsb' 52 8 != (0 : BitVec 8) || e.getLsbD 11 || level == 3 || e.getLsbD 1 ||
    e.extractLsb' 7 2 == (3 : BitVec 2) || (e.getLsbD 3 && !e.getLsbD 2) || (e.getLsbD 10 && level != 0) ||
    pteFrame e % leafSize level (e.getLsbD 10) != 0

/-- Whether a valid table pointer is malformed at its level (R95). -/
def tableMalformed (s : State) (e : Word) (level : Nat) : Bool :=
  e.extractLsb' 52 8 != (0 : BitVec 8) || e.getLsbD 11 || level == 0 || e.extractLsb' 2 9 != (0 : BitVec 9) ||
    pkgOf (pteFrame e) != s.pkg.toNat

/-- The index bits of a level (R93). -/
def levelIdx (va : Nat) (level : Nat) : Nat := if level = 3 then nbits va 39 18 else nbits va (12 + 9 * level) 9

/-- Read one entry of a table at its home (R97): the entry, or why it cannot be read (R86, R89, R461). -/
def State.readEntry (s : State) (pa : Nat) : Except (Cause2 × Word) Word :=
  match s.paHalt pa with
  | some c => .error (c, BitVec.ofNat 64 pa)
  | none =>
    if s.remoteBad pa then .error (.remoteError, BitVec.ofNat 64 pa)
    else
      let w := s.peekWord (pa / 8)
      if w.2 then .error (.poison, BitVec.ofNat 64 pa) else .ok w.1

/-- One level of a walk: a result, or the next table (R93, R95, R96). The sixteen entries of a group stand for one another where
the entry that the address selects is a 64 KiB leaf (assumption 27). -/
def State.walkStep (s : State) (va : Word) (table level : Nat) : Walk ⊕ Nat :=
  let slot := table + 8 * levelIdx va.toNat level
  match s.readEntry slot with
  | .error (c, a) => .inl (.bad c a)
  | .ok e0 =>
    -- a 64 KiB group whose entries differ: the hardware uses one of them (R96)
    let group : List (Option Word × Nat) := if level == 0 && e0.getLsbD 0 && e0.getLsbD 10 then
      (List.range 16).map fun j =>
        let a := slot / 128 * 128 + 8 * j
        match s.readEntry a with
        | .ok x => (some x, 0)
        | .error _ => (none, a) else [(some e0, 0)]
    match (s.choose (some e0, 0) group).2 with
    | (none, a) => .inl (.bad .poison (BitVec.ofNat 64 a))
    | (some e, _) =>
    if !e.getLsbD 0 then .inl (.absent level)
    else if e.getLsbD 1 then
      if tableMalformed s e level then .inl (.bad .pteMalformed va) else .inr (pteFrame e)
    else if leafMalformed e level then .inl (.bad .pteMalformed va)
    else
      let sz := leafSize level (e.getLsbD 10)
      .inl (.leaf { pte := e, level := level, base := va.toNat / sz * sz, size := sz })

/-- Walk from a table of a level downwards (R93). All the reads of one walk fall in one step (DESIGN CHOICE, assumption 105). -/
def State.walkFrom (s : State) (va : Word) : Nat → Nat → Walk
  | 0, table => match s.walkStep va table 0 with
    | .inl w => w
    | .inr _ => .bad .pteMalformed va
  | l + 1, table => match s.walkStep va table (l + 1) with
    | .inl w => w
    | .inr t => s.walkFrom va l t

/-- The root table of a context, if its entry is valid (R92). -/
def State.rootOf (s : State) (ctx : BitVec 12) : Except (Cause2 × Word) Nat :=
  match s.readEntry s.dst with
  | .error e => .error e
  | .ok ctxt =>
    match s.readEntry (ctxt.toNat + 8 * ctx.toNat) with
    | .error e => .error e
    | .ok e => if e.getLsbD 0 then .ok (nbits e.toNat 21 31 * 2 ^ 21) else .error (.pteMalformed, 0)

/-- A walk of a context (R91, R92, R93). -/
def State.walk (s : State) (ctx : BitVec 12) (va : Word) : Walk :=
  if !canonical va then .bad .noncanon va
  else
    match s.rootOf ctx with
    | .error (.pteMalformed, _) => .bad .pteMalformed va
    | .error (c, a) => .bad c a
    | .ok root => s.walkFrom va 3 root

/-- The stretches that a walk reads from a table of a level downwards (R93); in a table of level 0 a whole group (R96). -/
def State.slotsFrom (s : State) (va : Word) : Nat → Nat → List (Nat × Nat)
  | 0, table => [((table + 8 * levelIdx va.toNat 0) / 128 * 128, 128)]
  | l + 1, table => (table + 8 * levelIdx va.toNat (l + 1), 8) :: match s.walkStep va table (l + 1) with
    | .inl _ => []
    | .inr t => s.slotsFrom va l t

/-- The stretches that a walk of a context reads: the DST's, the context's and the tables' entries (R91 to R93). -/
def State.walkSlots (s : State) (ctx : BitVec 12) (va : Word) : List (Nat × Nat) :=
  if !canonical va then []
  else (s.dst, 8) :: match s.readEntry s.dst with
    | .error _ => []
    | .ok ctxt => (ctxt.toNat + 8 * ctx.toNat, 8) :: match s.rootOf ctx with
      | .error _ => []
      | .ok root => s.slotsFrom va 3 root

/-- What a walk does at the homes of the entries that it reads (R97, R132, R139). -/
def State.walkRead (s : State) (ctx : BitVec 12) (va : Word) : State :=
  (s.walkSlots ctx va).foldl (init := s) fun s p => s.readOver p.1 p.2

/-- The physical address that a leaf gives an address. -/
def Leaf.pa (l : Leaf) (va : Word) : Nat := pteFrame l.pte + va.toNat % l.size

/-- Whether a leaf permits an access in a mode (R94, R110, R439). -/
def Leaf.permits (l : Leaf) (w : Want) (sup : Bool) : Bool :=
  (sup || l.pte.getLsbD 5) &&
    match w with
    | .read => l.pte.getLsbD 2
    | .write | .rmw => l.pte.getLsbD 3
    | .fetch => l.pte.getLsbD 4

/-- The TLB and instruction cache of an agent. -/
def State.frontOf (s : State) (a : Nat) : Front := (tget s.front a).getD {}

/-- Put back the TLB and instruction cache of an agent. -/
def State.setFront (s : State) (a : Nat) (f : Front) : State := { s with front := tput s.front a f }

/-- The cached leaf of an address, if the agent's TLB holds one (R98). -/
def Front.hit (f : Front) (ctx : BitVec 12) (va : Word) : Option Leaf :=
  (f.tlb.find? fun t => t.ctx == ctx && va.toNat / t.size * t.size == t.base).map fun t =>
    { pte := t.pte, level := if t.size = 2 ^ 30 then 2 else if t.size = 2 ^ 21 then 1 else 0,
      base := t.base, size := t.size }

/-- Cache a leaf, in place of those that overlap it. -/
def Front.fillTlb (f : Front) (ctx : BitVec 12) (l : Leaf) : Front :=
  let keep := f.tlb.filter fun t => !(t.ctx == ctx && t.base < l.base + l.size && l.base < t.base + t.size)
  { f with tlb := keep ++ [{ ctx := ctx, base := l.base, size := l.size, pte := l.pte }] }

/-- The leaf an agent uses for an address: a cached one or the current one, whichever the hardware still holds. -/
def State.lookup (s : State) (agent : Nat) (ctx : BitVec 12) (va : Word) : State × Walk :=
  let s := s.walkRead ctx va
  let cur := s.walk ctx va
  let cs := match (s.frontOf agent).hit ctx va with
    | some l => if canonical va then [Walk.leaf l, cur] else [cur]
    | none => [cur]
  let (s, w) := s.useFree.choose cur cs
  match w with
  | .leaf l => (s.setFront agent ((s.frontOf agent).fillTlb ctx l), w)
  | _ => (s, w)

/-! ## Forming addresses (R102, R103, R109) -/

/-- Whether an access through a SPAD register leaves the arrays of the window and of its aperture (R236, R237). -/
def spadCheck (arrays off n : Nat) : Option (Cause2 × Word) :=
  if off < arrays * 0x8000 then
    (if off + n ≤ arrays * 0x8000 then none else some (.xrBound, BitVec.ofNat 64 off))
  else if off < 0x800000 then some (.xrBound, BitVec.ofNat 64 off)
  else if (off - 0x800000) / 512 != (off + n - 1 - 0x800000) / 512 then some (.align, BitVec.ofNat 64 off)
  else none

/-- The checks of R102, R103 and R109 on one lane, in their order; `odd` is the number of an odd offset register of a
W64 register. Answers the effective address: virtual, physical, or the scratchpad offset. -/
def formAddr (x : XReg) (arrays off n : Nat) (writes : Bool) (odd : Option Nat) (align : Nat) :
    Except (Cause2 × Word) Word :=
  let a : Word := match x.kind with
    | .virt | .frame => x.base + BitVec.ofNat 64 off
    | _ => BitVec.ofNat 64 off
  if x.kind = .none then .error (.xrNone, 0)
  else if x.limit.toNat < off + n then .error (.xrBound, BitVec.ofNat 64 off)
  else if writes && x.ro then .error (.xrPerm, BitVec.ofNat 64 off)
  else
    match (if x.kind = .spad then spadCheck arrays off n else none), odd with
    | some e, _ => .error e
    | none, some r => .error (.xrPair, BitVec.ofNat 64 r)
    | none, none => if a.toNat % align != 0 then .error (.align, a) else .ok a

/-- The offset of a lane (R102): the operand's value under the register's W64, plus the displacement. -/
def View.offset (s : State) (v : View) (ixs : BitVec 2) (x : XReg) (o : Opd) (disp : Word) (lane : Nat) : Nat :=
  let base := match o with
    | .v _ _ => v.read s ixs (if x.w64 then .u64 else .u32) o lane
    | .c n => n.signExtend 64
    | _ => v.read s ixs .u64 o lane
  (base + disp).toNat

/-- An odd offset register under W64 (R103): of an indexed operand the field's number is judged, and HADDR takes the effective
number (DESIGN CHOICE, assumption 121). -/
def View.oddPair (v : View) (ixs : BitVec 2) (x : XReg) (o : Opd) : Option Nat :=
  match o with
  | .v n ix => if x.w64 && n.getLsbD 0 then some (v.t.eff ixs n ix) else none
  | _ => none

/-- The stretches of n bytes from an address that lie in one 4 KiB frame each: place and length. -/
def splitPages (a : Nat) : Nat → Nat → Nat → List (Nat × Nat)
  | 0, _, _ => []
  | _ + 1, _, 0 => []
  | fuel + 1, off, n =>
    let room := 4096 - (a + off) % 4096
    if n ≤ room then [(off, n)] else (off, room) :: splitPages a fuel (off + room) (n - room)

/-- What translating one lane's access gives. -/
inductive Xlat where
  | ok (ps : List Piece)
  | halt (c : Cause2) (addr : Word)
  | fault (level : Nat) (va : Word)
  deriving DecidableEq, Repr

/-- Combine the outcomes of an access's pages: a halt decides, then the first page not present. -/
def Xlat.join : Xlat → Xlat → Xlat
  | .halt c a, _ => .halt c a
  | _, .halt c a => .halt c a
  | .fault l a, _ => .fault l a
  | .ok _, .fault l a => .fault l a
  | .ok p, .ok q => .ok (p ++ q)

/-- Translate one stretch of virtual addresses (R91, R95, R110). -/
def State.xlatPage (s : State) (agent : Nat) (ctx : BitVec 12) (sup : Bool) (w : Want) (va : Word) (off n : Nat) :
    State × Xlat :=
  let (s, r) := s.lookup agent ctx va
  match r with
  | .bad c a => (s, .halt c a)
  | .absent l => (s, .fault l va)
  | .leaf l =>
    if !l.permits w sup then (s, .halt .pfProt va)
    else
      let pa := l.pa va
      match s.paHalt pa with
      | some c => (s, .halt c va)
      | none => (s, .ok [⟨off, n, pa, l.pte.getLsbD 6, (l.pte.extractLsb' 7 2 : BitVec 2).toNat, l.pte.getLsbD 9⟩])

/-- Translate n bytes of a virtual access, page by page (R108). -/
def State.xlatVirt (s : State) (agent : Nat) (ctx : BitVec 12) (sup : Bool) (w : Want) (va : Word) (n : Nat) :
    State × Xlat :=
  (splitPages va.toNat (n / 4096 + 2) 0 n).foldl (init := (s, Xlat.ok [])) fun acc p =>
    let r := acc.1.xlatPage agent ctx sup w (va + BitVec.ofNat 64 p.1) p.1 p.2
    (r.1, acc.2.join r.2)

/-- Translate an access through a register whose checks have passed (R102). -/
def State.xlatReg (s : State) (agent : Nat) (ctx : BitVec 12) (sup : Bool) (w : Want) (x : XReg) (a : Word) (n : Nat) :
    State × Xlat :=
  match x.kind with
  | .frame =>
    match s.paHalt a.toNat with
    | some c => (s, .halt c a)
    | none => (s, .ok [⟨0, n, a.toNat % 2 ^ 52, x.pca, x.cohg.toNat, x.prpt⟩])
  | _ => s.xlatVirt agent ctx sup w a n

/-- The physical address and unit of byte j of a translated access. -/
def pieceAt (ps : List Piece) (j : Nat) : Option (Nat × Piece) :=
  (ps.find? fun p => p.off ≤ j && j < p.off + p.n).map fun p => (p.pa + (j - p.off), p)

/-- The physical address of byte j. -/
def paAt (ps : List Piece) (j : Nat) : Nat := ((pieceAt ps j).map Prod.fst).getD 0

/-- The physical addresses of an access's n bytes. -/
def pasOf (ps : List Piece) (n : Nat) : List Nat := (List.range n).map (paAt ps)

/-- The halt that an error from home makes of an access that cannot report it (R144). -/
def MemErr.halt : MemErr → Cause2
  | .poison => .poison
  | .ownerLost => .ownerLost
  | .remote => .remoteError
  | .gated => .dieGated

/-! ## Device accesses by virtual address -/

/-- Whether an address answers with an error when it is read (R144). -/
def State.readErr (s : State) (pa cohg : Nat) : Option MemErr :=
  if s.remoteBad pa then some .remote
  else if (s.entry (ukeyOf pa cohg)).ol then some .ownerLost
  else if (s.peekWord (pa / 8)).2 then some .poison
  else none

/-- Whether the device must wait before it writes one of a translated access's bytes (R125, R191). -/
def State.busyPieces (s : State) (ps : List Piece) : Bool := ps.any fun p => s.lockedOver p.pa p.n

/-- Whether the device must wait before it reads one of a translated access's bytes (R125, R132, R191). -/
def State.busyReads (s : State) (ps : List Piece) : Bool := ps.any fun p => s.readBusy p.pa p.n

/-- Let home ask for what the device waits to read (R132). -/
def State.stirReads (s : State) (ps : List Piece) (grid : Nat) : State :=
  ps.foldl (init := s) fun s p => s.stirRead p.pa p.n (if p.prpt then some grid else none)

/-- Let home free what the device waits for (R131). -/
def State.stirPieces (s : State) (ps : List Piece) (grid : Nat) : State :=
  ps.foldl (init := s) fun s p => s.stir p.pa p.n (if p.prpt then some grid else none)

/-- What a coherent read through a translation does at home (R132, R139). -/
def State.readAt (s : State) (ps : List Piece) : State := ps.foldl (init := s) fun s p => s.readOver p.pa p.n

/-- The bytes that a coherent read of n bytes through a translation gives. -/
def State.readPieces (s : State) (ps : List Piece) (n : Nat) : List Byte := (pasOf ps n).map s.peek

/-- The first error among n bytes of a translated access. -/
def State.errPieces (s : State) (ps : List Piece) (n : Nat) : Option MemErr :=
  (List.range n).findSome? fun j => (pieceAt ps j).bind fun q => s.readErr q.1 q.2.cohg

/-- Take the units of a translated access at their homes: registrations are revoked and reductions merged (R131, R139, R401,
R422). -/
def State.recallAt (s : State) (ps : List Piece) : State := ps.foldl (init := s) fun s p => s.recall p.pa p.n

/-- The error with which home answers a write of whole words, or else any access, of n bytes of a translated access (R142, R144,
R147). -/
def State.errAt (s : State) (w : Want) (ps : List Piece) (n : Nat) : Option MemErr :=
  if w == .write then
    (pasOf ps n).findSome? fun pa => if s.remoteBad pa then some .remote else if s.ownerGone pa then some .ownerLost else none
  else s.errPieces ps n

/-- Write bytes through a translation, at home. -/
def State.writePieces (s : State) (ps : List Piece) (bs : List Byte) : State :=
  ps.foldl (init := s) fun s p => s.devWrite p.pa ((bs.drop p.off).take p.n)

/-! ## Instruction fetch (R199, R203) -/

/-- The value of a word at its home: owned words and pending stores are invisible (R199). -/
def State.homeWord (s : State) (pa : Nat) : Word :=
  memWord (s.mergeOver (pa / 8 * 8) 8) (pa / 8)

/-- The error with which home answers a fetch (R144): it looks at home's own copy (R199). -/
def State.fetchErr (s : State) (pa cohg : Nat) : Option MemErr :=
  if s.remoteBad pa then some .remote
  else if (s.entry (ukeyOf pa cohg)).ol then some .ownerLost
  else if isPoisoned s pa then some .poison
  else none

/-- Put words into an instruction cache of 128 KiB (R17), 2048 lines; a line that finds it full takes the place of one that
the hardware picks. -/
def State.cacheWords (s : State) (agent : Nat) (ws : List (Nat × Word)) : State :=
  ws.foldl (init := s) fun s w =>
    let f := s.frontOf agent
    let lines := if f.icache.length < 2048 then [] else (f.icache.map fun e => e.1 / 8).eraseDups
    if lines.contains (w.1 / 8) || decide (lines.length < 2048) then
      s.setFront agent { f with icache := tput f.icache w.1 w.2 }
    else
      let gone := (lines[Config.pick s.free % 2048]?).getD 0
      s.useFree.setFront agent { f with icache := tput (f.icache.filter fun e => e.1 / 8 != gone) w.1 w.2 }

/-- What a fetch gives. -/
inductive Fetch where
  | word (w : Word)
  | halt (c : Cause2) (addr : Word)
  | fault (level : Nat)
  deriving DecidableEq, Repr

/-- Fetch the word at a virtual address for a thread: a word already in its fetch buffer, one in the agent's
instruction cache, or the current one at home; which of them, where they differ, the hardware decides. Only home's current
word enters the cache (R199). -/
def State.fetch (s : State) (v : View) (va : Word) : State × Fetch :=
  let agent := v.agent s
  let buf := tget v.t.fbuf va.toNat
  let (s, x) := s.xlatPage agent v.g.ctx v.sup .fetch va 0 8
  match buf, x with
  | none, .halt c a => (s.noteWalk c a, .halt c a)
  | none, .fault l _ => (s, .fault l)
  | some w, .halt _ _ => (s, .word w)
  | some w, .fault _ _ => (s, .word w)
  | _, .ok ps =>
    let pa := paAt ps 0
    let err := s.fetchErr pa (((pieceAt ps 0).map fun q => q.2.cohg).getD 0)
    let cached := tget (s.frontOf agent).icache (pa / 8)
    match err, buf.isNone && cached.isNone with
    | some e, true => (s.noteRemote [pa], .halt e.halt va)
    | _, _ =>
      let away := s.homeBusy pa 8
      let has := buf.isSome || cached.isSome
      let s := if has then s else if away then { s with unread := s.unread.orElse fun _ => some (pa, 8) } else s.mergeOver pa 8
      let home := s.homeWord pa
      let cs := buf.toList ++ cached.toList ++ (if err.isSome || away && has then [] else [home])
      let (s, w) := s.choose home cs
      (if err.isNone && w == home then s.cacheWords agent [(pa / 8, w)] else s, .word w)

/-- The word a prefetch would bring, if it can be had without a fault (R34). -/
def State.prefetch (s : State) (v : View) (va : Word) : Option Word :=
  match s.walk v.g.ctx va with
  | .leaf l =>
    let pa := l.pa va
    if l.permits .fetch v.sup && (s.paHalt pa).isNone then
      match tget (s.frontOf (v.agent s)).icache (pa / 8) with
      | some w => some w
      | none => if (s.fetchErr pa (l.pte.extractLsb' 7 2 : BitVec 2).toNat).isSome then none else some (s.homeWord pa)
    else none
  | _ => none

/-- Words put into a fetch buffer that does not hold them yet. -/
def State.fillBuf (s : State) (v : View) (m : Map Word) (vas : List Word) : Map Word :=
  vas.foldl (init := m) fun m va =>
    match tget m va.toNat with
    | some _ => m
    | none => match s.prefetch v va with
      | some w => tput m va.toNat w
      | none => m

end Sys2Proof.Machine
end

