-- ==== Sys2Proof/Machine/Faults.lean ====
section
/-!
DEFINITION. Taking a page fault and returning from it (R111, R112, R446 to R448), the XLAT effect (R105, R543), and the
way an access instruction decides between halt, page fault and execution (R110).
-/
namespace Sys2Proof.Machine

/-! ## Translation registers as words (R100) -/

/-- KIND bits. -/
def XKind.code : XKind → Nat
  | .none => 0
  | .virt => 1
  | .frame => 2
  | .spad => 3

/-- KIND of its bits. -/
def XKind.ofCode (n : Nat) : XKind :=
  match n % 4 with
  | 1 => .virt
  | 2 => .frame
  | 3 => .spad
  | _ => .none

/-- The attribute word of a register (R100). -/
def XReg.attrs (x : XReg) : Word :=
  BitVec.ofNat 64 (x.kind.code + 4 * bnat x.w64 + 8 * bnat x.ro + 32 * bnat x.fb + 64 * bnat x.pca +
    128 * x.cohg.toNat + 512 * bnat x.pw + 1024 * x.pgs.toNat)

/-- A register from base, limit and attribute word (R100). -/
def XReg.ofWords (b l q : Word) : XReg :=
  { kind := XKind.ofCode q.toNat, base := b, limit := l, w64 := q.getLsbD 2, ro := q.getLsbD 3, fb := q.getLsbD 5,
    pca := q.getLsbD 6, cohg := q.extractLsb' 7 2, pw := q.getLsbD 9, pgs := q.extractLsb' 10 2, va := b }

/-- x0 at placement and in the page-fault handler: everything, by virtual address (R101, R112). -/
def xAll : XReg := { kind := .virt, base := 0, limit := 0xFFFFFFFFFFFFFFFF, w64 := true, ro := false }

/-- PGS of a leaf (R100). -/
def Leaf.pgs (l : Leaf) : BitVec 2 :=
  match l.level with
  | 0 => if l.pte.getLsbD 10 then 1 else 0
  | 1 => 2
  | _ => 3

/-- A FRAME request of XLAT (R105, R543): the register and whether the frame could be had. -/
def State.xlatFrame (s : State) (ctx : BitVec 12) (sup : Bool) (b lim : Word) (w64 ro : Bool) : XReg :=
  let fail : XReg := { kind := .virt, base := b, limit := lim, w64 := w64, ro := ro, va := b }
  match s.walk ctx b with
  | .leaf l =>
    if l.permits .read sup && (l.pte.getLsbD 3 || ro) && decide (b.toNat + lim.toNat ≤ l.base + l.size) then
      { kind := .frame, base := BitVec.ofNat 64 (l.pa b), limit := lim, w64 := w64, ro := ro, pca := l.pte.getLsbD 6,
        cohg := l.pte.extractLsb' 7 2, pw := l.pte.getLsbD 3, pgs := l.pgs, va := b, ctx := ctx, prpt := l.pte.getLsbD 9 }
    else fail
  | _ => fail

/-! ## The fault frame (R446) -/

/-- A word of 64 bits as bytes. -/
def wbytes (x : Word) : List Byte := bytesOf 8 x.toNat

/-- The address of a gang's fault frame in its team's swap area (R458). -/
def State.framePa (s : State) (g : Gang) : Nat := (s.teamOf g).area + 0x21000 + 0x1000 * g.gangid

/-- Write a register of a lane that a page-fault handler has saved into its place in the fault frame (R446): the write clears
the register's poison there, and the other register of the word keeps its own (R461). -/
def State.frameReg (s : State) (g : Gang) (r l : Nat) (x : V32) : State :=
  let a := g.pfFrame + 32 * l + 4 * r
  if (s.peekWord (a / 8)).2 then
    let other := if r % 2 = 0 then a + 4 else a - 4
    let keep := bytesOf 4 (s.peekNat other 4)
    let mine := bytesOf 4 x.toNat
    let s := s.devWrite (a / 8 * 8) (if r % 2 = 0 then mine ++ keep else keep ++ mine)
    if g.pfVp.contains (vkey (if r % 2 = 0 then r + 1 else r - 1) l) then setPoison s a true else s
  else s.devWrite a (bytesOf 4 x.toNat)

/-- Write registers of a thread that a page-fault handler has saved into the fault frame instead (assumption 23). -/
def State.toFrame (s : State) (g : Gang) (w : RegW) : State × Bool :=
  let f := g.pfFrame
  match w with
  | .v r l x => if r < 8 && hasLane g.fmask l then (s.frameReg g r l x, true) else (s, false)
  | .k n lanes vals =>
    if n = 0 then (s, true)
    else
      let a := f + 0x800 + 8 * (n - 1)
      let old : Mask := BitVec.ofNat 64 (s.peekNat a 8)
      (s.devWrite a (wbytes ((old &&& ~~~lanes) ||| (vals &&& lanes))), true)
  | .s n x => if 56 ≤ n then (s.devWrite (f + 0x840 + 8 * (n - 56)) (wbytes x), true) else (s, false)
  | .i _ _ => (s, false)

/-- Whether a gang's fault frame cannot be written yet (R125). -/
def State.frameBusy (s : State) (g : Gang) : Bool := s.lockedOver (s.framePa g) 0x1000

/-- Register writes that land in a thread: those issued before a page-fault handler that has saved their registers go
to the fault frame, from which RETS restores them (assumption 23). -/
def State.landRegs (s : State) (a : Actor) (issuedAt : Nat) (ws : List RegW) : State :=
  let put (s : State) (w : RegW) : State := s.modThr a fun t =>
    { t with regs := t.regs.apply w, pend := t.pend.map (Pend.supersede [w]) }
  match a with
  | .lane _ => ws.foldl put s
  | .gang u =>
    match tget s.gangs u with
    | none => s
    | some g =>
      if g.inPf && decide (issuedAt < g.pfFresh) then
        ws.foldl (init := s) fun s w =>
          let r := s.toFrame g w
          if r.2 then r.1 else put s w
      else ws.foldl put s

/-- The fault frame's contents: the bytes below 0x800 that belong to FMASK lanes are written apart. -/
def frameTail (g : Gang) (rpc hdra : Word) (mask : Mask) (fmask fcause : Word) : List Byte :=
  let r := g.thr.regs
  let x0 := r.getX 0
  ((List.range 7).flatMap fun n => wbytes (r.getK (n + 1))) ++ wbytes hdra ++
    ((List.range 8).flatMap fun n => wbytes (r.getS (56 + n))) ++ wbytes rpc ++ wbytes mask ++
    wbytes (BitVec.ofNat 64 (bnat g.sup + 2 * bnat g.inEmu)) ++ wbytes fmask ++ wbytes fcause ++
    wbytes x0.base ++ wbytes x0.limit ++ wbytes x0.attrs ++ wbytes 0 ++ List.replicate 1848 0#8

/-- The eight registers a frame holds for a lane. -/
def frameLane (r : Regs) (l : Nat) : List Byte := (List.range 8).flatMap fun n => bytesOf 4 (r.getV n l).toNat

/-- Entry to the page-fault handler (R111, R112, R446): the frame is written, FMASK, FVA and FCAUSE are set, x0 reaches
everything, and the gang goes to the DST's handler in supervisor mode with mask FMASK (a gang whose lanes all wait in GJOIN
gets an entry for it). Inside the handler it halts
instead (R113). While the frame cannot be written the gang stays where it is and meets the fault again; a frame that does not
exist or lies on a gated die, and a DST that cannot be read, halt it (R86, R89). -/
def State.pageFault (s : State) (u : Nat) (fmask : Mask) (fva : List (Nat × Word)) (fcause : Word) : State :=
  match tget s.gangs u with
  | none => s
  | some g0 =>
    let rpc := g0.thr.pc
    if g0.inPf then s.haltGang u .pfNest rpc g0.active 0
    else if s.frameBusy g0 then s.stir (s.framePa g0) 0x1000
    else
    let s := s.readOver (s.dst + 8) 8
    match s.paHalt (s.framePa g0), s.readEntry (s.dst + 8) with
    | some c, _ => s.haltGang u c rpc g0.active (BitVec.ofNat 64 (s.framePa g0))
    | none, .error (c, a) => s.haltGang u c rpc g0.active a
    | none, .ok pfh =>
      let g := { g0 with thr := g0.thr.landAll }
      let f := s.framePa g
      let mask := (g.top.map Entry.mask).getD 0
      let hdra := g.thr.hdra
      let s := (lanesOf fmask).foldl (init := s) fun s l => s.devWrite (f + 32 * l) (frameLane g.thr.regs l)
      let s := s.devWrite (f + 0x800) (frameTail g rpc hdra mask fmask fcause)
      let s := (lanesOf fmask).foldl (init := s) fun s l => (List.range 8).foldl (init := s) fun s n =>
        if mget false g.thr.regs.vp (vkey n l) then setPoison s (f + 32 * l + 4 * n) true else s
      let g := match tget s.gangs u with
        | some g' => { g with thr := { g.thr with flights := g'.thr.flights, postErr := g'.thr.postErr } }
        | none => g
      let st := match g.stack.reverse with
        | [] => [⟨pfh, none, fmask, 0, pfh, 0⟩]
        | e :: rest => (({ e with mask := fmask } : Entry) :: rest).reverse
      let g := { g with
        thr := { (g.thr.toHdr pfh) with regs := g.thr.regs.setX 0 xAll, wait := .none }
        fmask := fmask
        fva := (lanesOf fmask).foldl (init := g.fva) fun m l => mset 0 m l (((fva.find? fun e => e.1 == l).map Prod.snd).getD 0)
        fcause := fcause
        sup := true
        inPf := true
        pfDepth := g0.spilled + g0.stack.length
        pfFresh := s.fresh
        pfHdr := g.thr.hdr
        pfHdra := hdra
        pfX0 := g.thr.regs.getX 0
        pfSup := g.sup
        pfFrame := f
        pfVp := (lanesOf fmask).flatMap fun l =>
          ((List.range 8).map fun n => vkey n l).filter fun key => mget false g.thr.regs.vp key
        pfWait := g.thr.wait
        stack := st
        only := none }
      { s with gangs := tput s.gangs u g }

/-- FCAUSE of an instruction's page fault (R447). -/
def fcauseOf (w : Want) (level : Nat) : Word := BitVec.ofNat 64 (w.kind + 16 * level)

/-- A page fault of a thread at its instruction; a lane returns early first (R114). -/
def State.pageFaultV (s : State) (v : View) (fmask : Mask) (fva : List (Nat × Word)) (w : Want) (level : Nat) : State :=
  match v.lane with
  | some _ => s.earlyReturn v.ctxNo
  | none => s.pageFault v.uid fmask fva (fcauseOf w level)

/-! ## The return from the page-fault handler (R448) -/

/-- Whether a register write goes to a register that RETS restores from the frame (R448). -/
def RegW.inFrame (fmask : Mask) : RegW → Bool
  | .v r l _ => decide (r < 8) && hasLane fmask l
  | .k n _ _ => n != 0
  | .s n _ => decide (56 ≤ n)
  | .i _ _ => false

/-- What RETS restores from the frame and where the gang goes (R29, R448). A copy's or run's fault resumes at RPC; any other
fault re-executes the instruction there for the FMASK lanes. A header travels with the return unless the handler has put
another HDRA into the frame. Results of the handler that have not landed yet stay pending, but for the registers that are
restored. -/
def State.rets (s : State) (v : View) (stall : BitVec 4) : State :=
  let g := v.g
  let f := g.pfFrame
  let s := s.readOver f 0x8C8
  let bs := s.peekBytes f 0x8C8
  let w (o : Nat) : Word := fieldW bs o
  let fmask := w 0x898
  let regs := (lanesOf fmask).foldl (init := v.t.regs) fun r l => (List.range 8).foldl (init := r) fun r n =>
    let r := r.setV n l (BitVec.ofNat 32 (fieldN bs (32 * l + 4 * n) 4))
    if (s.peekWord ((f + 32 * l + 4 * n) / 8)).2 then { r with vp := mset false r.vp (vkey n l) true } else r
  let regs := (List.range 7).foldl (init := regs) fun r n => r.setK (n + 1) (BitVec.allOnes 64) (w (0x800 + 8 * n))
  let regs := (List.range 8).foldl (init := regs) fun r n => r.setS (56 + n) (w (0x840 + 8 * n))
  let x0 := XReg.ofWords (w 0x8A8) (w 0x8B0) (w 0x8B8)
  -- what R104 has made of the saved register meanwhile stands
  let x0 := if x0.kind = .frame then
    (if g.pfX0.kind = .frame then { x0 with va := g.pfX0.va, ctx := g.pfX0.ctx, prpt := g.pfX0.prpt } else g.pfX0) else x0
  let regs := regs.setX 0 x0
  let rpc := w 0x880
  let hdra := w 0x838
  let mask := w 0x888
  let fc := w 0x8A0
  let wait := match g.pfWait with
    | .waitc pc n => if pc = rpc then .waitc pc n else .none
    | .acting => .none
    | w => w
  let thr : Thr := { v.t with
    regs := regs, pend := v.t.pend.map fun p => { p with w := p.w.filter fun w => !w.inFrame fmask }, wait := wait, next := Nat.max v.t.next (v.now + issueGap g stall.toNat) }
  let thr := thr.resume rpc hdra (if hdra = g.pfHdra then g.pfHdr else 0)
  let engine := fc.getLsbD 8 || fc.getLsbD 9
  let only := if engine || g.pfDepth = 0 || thr.atHdr then none else some (fmask, mask)
  let g := (g.backTo g.pfDepth mask)
  let g := { g with
    thr := thr, sup := (w 0x890).getLsbD 0, inPf := false, halted := g.halted || g.pfHalted, pfHalted := false
    pfWait := .none, inEmu := (w 0x890).getLsbD 1, only := only }
  { s with gangs := tput s.gangs v.uid g }

/-! ## Deciding an access (R110) -/

/-- Where one lane's access goes, once its checks have passed. -/
inductive Target where
  | glob (a : Word) (ps : List Piece)
  | spad (off : Nat)
  deriving DecidableEq, Repr

/-- One lane's request: the offset, size, alignment, and an odd offset pair. -/
structure LaneReq where
  lane : Nat
  off : Nat
  n : Nat
  align : Nat
  odd : Option Nat
  deriving DecidableEq, Repr

/-- What R110 decides for an access. -/
inductive Decision where
  | halt (h : HaltWhy)
  | run (ok : List (Nat × Target)) (faults : List (Nat × Word)) (level : Nat)
  deriving DecidableEq, Repr

/-- The first check that fails in the lowest lane that fails any, or every lane's effective address. -/
def checkLanes (x : XReg) (arrays : Nat) (writes : Bool) (reqs : List LaneReq) : Except HaltWhy (List (LaneReq × Word)) :=
  reqs.foldl (init := .ok []) fun acc r =>
    match acc with
    | .error h => .error h
    | .ok l =>
      match formAddr x arrays r.off r.n writes r.odd r.align with
      | .error (c, a) => .error { cause := c, mask := laneMask r.lane, addr := a }
      | .ok a => .ok (l ++ [(r, a)])

/-- Decide an access of a thread through a register (R110): checks of every lane, then translations, then faults. Where lanes
fault at different levels, the level that FCAUSE takes is that of the lowest of them (DESIGN CHOICE, assumption 106). -/
def State.decideAccess (s : State) (v : View) (w : Want) (x : XReg) (writes : Bool) (reqs : List LaneReq) : State × Decision :=
  match checkLanes x (s.teamOf v.g).window.length writes reqs with
  | .error h => (s, .halt h)
  | .ok rs =>
    if x.kind = .spad then (s, .run (rs.map fun r => (r.1.lane, .spad r.1.off)) [] 0)
    else
      let agent := v.agent s
      let r := rs.foldl (init := (s, ([] : List (LaneReq × Word × Xlat)))) fun acc r =>
        let y := acc.1.xlatReg agent v.g.ctx v.sup w x r.2 r.1.n
        (y.1, acc.2 ++ [(r.1, r.2, y.2)])
      let bad := r.2.findSome? fun e =>
        match e.2.2 with
        | .halt c a => some ({ cause := c, mask := laneMask e.1.lane, addr := a } : HaltWhy)
        | _ => none
      match bad with
      | some h => (r.1.noteWalk h.cause h.addr, .halt h)
      | none =>
        let ok := r.2.filterMap fun e => match e.2.2 with | .ok ps => some (e.1.lane, Target.glob e.2.1 ps) | _ => none
        let fs := r.2.filterMap fun e => match e.2.2 with | .fault l a => some (e.1.lane, l, a) | _ => none
        (r.1, .run ok (fs.map fun f => (f.1, f.2.2)) (((fs.head?).map fun f => f.2.1).getD 0))

/-- A mask of the lanes of a list. -/
def maskOf (ls : List Nat) : Mask := ls.foldl (init := (0 : Mask)) fun m l => m ||| laneBit l

/-- Translate a run of virtual addresses as through an unbounded VIRT register (R408): pieces, a halt, or a page
fault of the executing lanes. -/
def State.deviceAddr (s : State) (v : View) (w : Want) (va : Word) (n align : Nat) : State × Xlat :=
  match formAddr xAll 0 va.toNat n false none align with
  | .error (c, a) => (s, .halt c a)
  | .ok a =>
    match s.xlatVirt (v.agent s) v.g.ctx v.sup w a n with
    | (s, .halt c a) => (s.noteWalk c a, .halt c a)
    | x => x

end Sys2Proof.Machine
end

