-- ==== Sys2Proof/Machine/Landing.lean ====
section
/-!
DEFINITION. Landing: the value an instruction in flight delivers when its data is complete (R66, R144, R172, R179).
-/
namespace Sys2Proof.Machine

/-- The bytes of one lane of a flight. -/
def Flight.laneBytes (f : Flight) (l : Nat) : List LByte := f.bytes.filter fun b => b.lane == l

/-- Byte idx of a lane's returned data; errors give zero (R144). -/
def byteAt (bs : List LByte) (i : Nat) : Byte := ((bs.find? fun b => b.idx == i).bind LByte.val).getD 0

/-- The value a lane of a flight delivers (R175, R179, R185). -/
def Flight.value (f : Flight) (l : Nat) : Nat :=
  let bs := f.laneBytes l
  match f.kind with
  | .load n | .atom n => if bs.any fun b => b.err.isSome then 0 else valOf ((List.range n).map (byteAt bs))
  | .planes p =>
    let e := ((f.elems.find? fun x => x.1 == l).map Prod.snd).getD 0
    (List.range p).foldl (init := 0) fun acc i =>
      let word := (List.range 8).map fun j => 8 * i + j
      if word.any fun j => (bs.find? fun b => b.idx == j).any fun b => b.err.isSome then acc
      else acc + bnat ((byteAt bs (8 * i + e / 8)).getLsbD (e % 8)) * 2 ^ i
  | _ => 0

/-- The register writes of a landing. -/
def Flight.results (f : Flight) : List RegW :=
  let one (l : Nat) (lane : Nat) : List RegW :=
    match f.dst with
    | .none => []
    | .s n => [.s n (BitVec.ofNat 64 (f.value l))]
    | .v r =>
      let x := f.value l
      let k := match f.kind with | .load n | .atom n => (n + 3) / 4 | _ => 1
      (List.range k).map fun j => .v (r + j) lane (BitVec.ofNat 32 (x / 2 ^ (32 * j)))
  match f.kind with
  | .regs w => w
  | .write | .line => []
  | _ =>
    let ls := (f.bytes.map LByte.lane).eraseDups
    ls.flatMap fun l => one l (if l = 64 then 0 else l)

/-- The lanes of a flight that met an error, and those whose data came from a part not thread-owned. -/
def Flight.errLanes (f : Flight) : List Nat := ((f.bytes.filter fun b => b.err.isSome).map LByte.lane).eraseDups

/-- k7 of a checked access (R45, R173). -/
def Flight.flag (f : Flight) : List RegW :=
  if !f.chk then []
  else
    let uni := f.bytes.any fun b => b.lane == 64
    let bad := if uni then (if f.errLanes.isEmpty && f.zeros == 0 then 0 else f.lanes)
      else maskOf f.errLanes ||| f.zeros
    [.k 7 f.lanes bad]

/-- Deliver a flight whose data is complete (R66, R144, R172): the acquire it makes, then its registers, its checked flag
or MODEZ, or the halt of an error; MODEZ counts the lanes that received zero, on the carry pool the parts (R239, R244). -/
def State.deliver (s : State) (v : View) (f : Flight) : State :=
  let s := if f.acq then s.acquire (v.agent s) else s
  let mark (s : State) : State := s.modThr v.a fun t => (t.modFlight f.id fun g => { g with landed := true }).reap
  let ws := f.results ++ f.flag
  match (List.range 65).findSome? fun l => (f.laneBytes l).find? fun b => b.err.isSome with
  | some b =>
    if f.chk then (mark (s.landRegs v.a f.id ws)).noteGot v ws
    else
      mark (s.haltGang v.uid ((b.err.map MemErr.halt).getD .poison) f.pc
        (if b.lane = 64 then f.lanes else maskOf f.errLanes) b.va)
  | none =>
    let s := (mark (s.landRegs v.a f.id ws)).noteGot v ws
    let n := if v.lane.isSome then f.zparts
      else if f.bytes.any fun b => b.lane == 64 then (if f.zeros = 0 then 0 else 1) else popcount f.zeros
    if f.chk || n = 0 then s
    else s.modThr v.a fun t => { t with regs := { t.regs with modez := t.regs.modez + BitVec.ofNat 32 n } }

/-- Whether landing must wait because the registers of a page-fault handler's frame cannot be written yet. -/
def State.landBusy (s : State) (a : Actor) (flight : Nat) : Bool :=
  match a with
  | .gang u => (tget s.gangs u).any fun g => g.inPf && decide (flight < g.pfFresh) && s.frameBusy g
  | .lane _ => false

end Sys2Proof.Machine
end

