-- ==== Sys2Proof/Machine/Scratch.lean ====
section
/-!
DEFINITION. Scratchpad arrays as threads reach them (R234 to R251): the window, ownership, zero reads, deferred writes
and their application.
-/
namespace Sys2Proof.Machine

/-! ## Arrays and their places -/

/-- An array by number: 16 × core + array. -/
def State.arr (s : State) (key : Nat) : Arr := (tget s.arrays key).getD {}

/-- Put back an array. -/
def State.setArr (s : State) (key : Nat) (a : Arr) : State := { s with arrays := tput s.arrays key a }

/-- Bytes of an array's cells (R17). -/
def cellBytes : Nat := 32768

/-- The byte at a place of an array; places from 32768 on are the weight-scale RAM. -/
def Arr.byte (a : Arr) (pos : Nat) : Byte :=
  if pos < cellBytes then mget 0 a.cells pos else mget 0 a.ram (pos - cellBytes)

/-- Whether the word at a place is poisoned (R146). -/
def Arr.bad (a : Arr) (pos : Nat) : Bool := mget false a.poison (pos / 8)

/-- Write the byte at a place. -/
def Arr.setByte (a : Arr) (pos : Nat) (b : Byte) : Arr :=
  if pos < cellBytes then { a with cells := mset 0 a.cells pos b } else { a with ram := mset 0 a.ram (pos - cellBytes) b }

/-- The slab of a place; 32 is the weight-scale RAM (R235, R237). -/
def slabOf (pos : Nat) : Nat := if pos < cellBytes then pos / 1024 else 32

/-- The owner of a slab. -/
def Arr.ownerOf (a : Arr) (slab : Nat) : Owner := mget .t a.owner slab

/-- Whether a conversion still holds a slab (R315). -/
def Arr.converting (a : Arr) (slab now : Nat) : Bool := decide (now < mget 0 a.conv slab)

/-- Whether a place is thread-owned (R242). -/
def Arr.threads (a : Arr) (pos : Nat) : Bool := !a.rck && a.ownerOf (slabOf pos) == .t

/-- The array and place of a window offset (R235, R236). -/
def winPlace (window : List Nat) (off : Nat) : Nat × Nat :=
  if off < 0x800000 then ((window[off / 32768]?).getD 0, off % 32768)
  else ((window[(off - 0x800000) / 512]?).getD 0, cellBytes + (off - 0x800000) % 512)

/-- The n bytes of an array from a place. -/
def Arr.bytes (a : Arr) (pos n : Nat) : List Byte := (List.range n).map fun j => a.byte (pos + j)

/-- Write bytes at places; a word is written only if no part of it is poisoned or all of it is stored (R147, R461).
Answers whether a partial store met a poisoned word. -/
def Arr.store (a : Arr) (xs : List (Nat × Byte)) : Arr × Bool :=
  let full (w : Nat) : Bool := (List.range 8).all fun j => xs.any fun e => e.1 == 8 * w + j
  let bad (p : Nat) : Bool := a.bad p && !full (p / 8)
  (xs.foldl (init := a) fun a e =>
      if bad e.1 then a
      else { (a.setByte e.1 e.2) with poison := mset false a.poison (e.1 / 8) false },
    xs.any fun e => bad e.1)

/-! ## Operations at memory -/

/-- What one lane's write does at memory. -/
inductive MOp where
  | store (bs : List Byte)
  | atom (op : AOp) (x : Word)
  | cas (cmp new : Word)
  | planes (val : V32) (p e : Nat) (pend : List Nat)
  deriving DecidableEq, Repr

/-- The value an atomic leaves, if it writes (R185). -/
def MOp.result (o : MOp) (n : Nat) (m : Word) : Option Word :=
  match o with
  | .atom op x => some (aopVal op (n == 8) m x)
  | .cas c w => if m = c then some w else none
  | _ => none

/-- Set bit e of plane word at a place (R180). -/
def Arr.setPlane (a : Arr) (pos e : Nat) (b : Bool) : Arr × Bool :=
  let p := pos + e / 8
  if a.bad p then (a, true)
  else
    let x := a.byte p
    let m : Byte := (1 : Byte) <<< (e % 8)
    (a.setByte p (if b then x ||| m else x &&& ~~~m), false)

/-- Perform one lane's write at a place of an array: the array, the old value of an atomic, whether it met poison. -/
def Arr.perform (a : Arr) (pos n : Nat) (o : MOp) : Arr × Word × Bool :=
  match o with
  | .store bs =>
    let r := a.store ((List.range bs.length).map fun j => (pos + j, (bs[j]?).getD 0))
    (r.1, 0, r.2)
  | .atom _ _ | .cas _ _ =>
    if a.bad pos then (a, 0, true)
    else
      let m : Word := BitVec.ofNat 64 (valOf (a.bytes pos n))
      match o.result n m with
      | none => (a, m, false)
      | some x => ((a.store ((List.range n).map fun j => (pos + j, wordByte x j))).1, m, false)
  | .planes v _ e pend =>
    let r := pend.foldl (init := (a, false)) fun acc i =>
      let y := acc.1.setPlane (pos + 8 * i) e (v.getLsbD i)
      (y.1, acc.2 || y.2)
    (r.1, 0, r.2)

/-! ## Deferred writes (R245 to R248) -/

/-- The operation of a deferred instruction, from its saved data. -/
def Instr.mop (i : Instr) (data : List Byte) : MOp :=
  match i with
  | .atom op _ | .red op _ => .atom op (BitVec.ofNat 64 (valOf (data.take 8)))
  | .acas _ => .cas (BitVec.ofNat 64 (valOf (data.take 8))) (BitVec.ofNat 64 (valOf (data.drop 8)))
  | .bpk m =>
    let p := match m.sz with | .b8 => 8 | .b16 => 16 | .b32 => 32 | _ => 1
    let pend := valOf ((data.drop 4).take 4)
    .planes (BitVec.ofNat 32 (valOf (data.take 4))) p (valOf ((data.drop 8).take 1))
      ((List.range 32).filter fun i => pend / 2 ^ i % 2 == 1)
  | _ => .store data

/-- The size of an atomic, in bytes. -/
def Instr.asz (i : Instr) : Nat :=
  match i with
  | .atom _ a | .red _ a | .acas a => if a.sz = .b64 then 8 else 4
  | _ => 0

/-- The data a deferred operation is saved as. -/
def MOp.data (o : MOp) : List Byte :=
  match o with
  | .store bs => bs
  | .atom _ x => bytesOf 8 x.toNat
  | .cas c w => bytesOf 8 c.toNat ++ bytesOf 8 w.toNat
  | .planes v _ e pend =>
    bytesOf 4 v.toNat ++ bytesOf 4 (pend.foldl (init := 0) fun m i => m + 2 ^ i) ++ [BitVec.ofNat 8 e]

/-- The window offset of a place of an array (R235, R236). -/
def winOffset (window : List Nat) (key pos : Nat) : Nat :=
  let j := (window.findIdx? fun k => k == key).getD 0
  if pos < cellBytes then cellBytes * j + pos else 0x800000 + 512 * j + (pos - cellBytes)

/-- The thread that an access in flight belongs to. -/
def State.flightActor (s : State) (id : Nat) : Option Actor :=
  let has (t : Thr) : Bool := t.flights.any fun f => f.id == id
  match s.gangs.find? fun e => has e.2.thr with
  | some e => some (.gang e.1)
  | none => (s.lanes.find? fun e => has e.2.thr).map fun e => .lane e.1

/-- Change the thread that a flight belongs to, or a lane's that is saved with its team (R379). -/
def State.modFlier (s : State) (id : Nat) (f : Thr → Thr) : State :=
  match s.flightActor id with
  | some a => s.modThr a f
  | none =>
    let lane (c : LaneCtx) : LaneCtx := if c.thr.flights.any fun x => x.id == id then { c with thr := f c.thr } else c
    { s with teams := s.teams.map fun e => (e.1, { e.2 with savedLanes := e.2.savedLanes.map fun l => (l.1, lane l.2) }) }

/-- Note at its flight that a deferred part is performed (R247): the old value of an atomic, or an error. -/
def State.deferPartDone (s : State) (key : Nat) (e : DefEntry) (l : Nat × Nat × List Byte) (old : Word) (err : Bool) : State :=
  match e.flight with
  | none => s
  | some (_, id) =>
    let va : Word := BitVec.ofNat 64 (winOffset ((tget s.teams e.team).getD {}).window key l.2.1)
    s.modFlier id fun t =>
      let posted := err && t.flights.any fun f => f.id == id && f.kind == .write
      (t.modFlight id fun f => { f with bytes := f.bytes.map fun b =>
          if b.lane == l.1 && b.val.isNone && b.err.isNone then
            (if err then { b with err := some .poison } else { b with val := some (wordByte old b.idx) })
          else b }).post (if posted then some { remote := false, addr := va, flight := id, lane := l.1 } else none)

/-- All parts of a deferred entry are performed (R247): the flight waits for one entry less, its counter falls, and an atomic
that waits for nothing more delivers its old values; that of a swapped team does so once the team is placed again. -/
def State.deferDone (s : State) (f : Option (Actor × Nat)) : State :=
  match f with
  | none => s
  | some (_, id) =>
    let s := s.modFlier id fun t => (t.modFlight id fun f => { f with wait := f.wait - 1 }).reap
    match (s.flightActor id).bind s.viewOf with
    | none => s
    | some v =>
      match v.t.flights.find? fun f => f.id == id with
      | none => s
      | some f =>
        match f.kind with
        | .atom _ =>
          if f.wait == 0 && !f.landed && f.bytes.all (fun b => b.val.isSome || b.err.isSome) && !s.landBusy v.a id &&
              !(s.teamOf v.g).cores.isEmpty then
            s.deliver v f
          else s
        | _ => s

/-- The agents of the threads that reach an array: the cores of the teams that hold it in their window, and the SLCs of those teams'
lanes on the carry pool. -/
def State.reaching (s : State) (key : Nat) : List Nat :=
  let ts := s.teams.filter fun t => t.2.window.contains key
  let lane (e : Nat × LaneCtx) : Option Nat := (tget s.gangs e.2.gang).bind fun g =>
    if ts.any fun t => t.1 == g.team then some (s.slcAgent g.core e.1) else none
  ((ts.flatMap fun t => t.2.cores.map s.coreAgent) ++ s.lanes.filterMap lane).eraseDups

/-- Apply the entries of an array whose slabs have returned to the threads, in arrival order and in ascending lane order
within an entry (R246, R247). What a thread reads after the slabs' return is no older than what the engine's flip follows: the agents
of the array's threads acquire (R157). -/
def State.applyDefer (s : State) (key : Nat) : State :=
  let s := (s.reaching key).foldl State.acquire s
  let a := s.arr key
  a.defer.foldl (init := s.setArr key { a with defer := [] }) fun s e =>
    let a := s.arr key
    let due (l : Nat × Nat × List Byte) : Bool := a.threads l.2.1
    let go := e.lanes.filter due
    let stay := e.lanes.filter fun l => !due l
    let n := Instr.asz e.instr
    let s := go.foldl (init := s) fun s l =>
      let r := (s.arr key).perform l.2.1 n (Instr.mop e.instr l.2.2)
      (s.setArr key r.1).deferPartDone key e l r.2.1 r.2.2
    if stay.isEmpty then s.deferDone e.flight
    else
      let a := s.arr key
      s.setArr key { a with defer := a.defer ++ [{ e with lanes := stay }] }

/-- Give the owner of slabs of an array, and apply what returns to the threads. -/
def State.flip (s : State) (key : Nat) (slabs : List Nat) (o : Owner) : State :=
  let a := s.arr key
  let a := { a with owner := slabs.foldl (init := a.owner) fun m k => mset .t m k o }
  let s := s.setArr key a
  if o = .t then s.applyDefer key else s

/-! ## A thread instruction at the arrays -/

/-- Parts of n bytes at a window offset: array, place, length, and place in the access; cut at slab boundaries. -/
def spadParts (window : List Nat) (off n : Nat) : List (Nat × Nat × Nat × Nat) :=
  let bs := (List.range n).map fun j => (winPlace window (off + j), j)
  (bs.foldl (init := ([] : List (Nat × Nat × Nat × Nat))) fun acc b =>
    match acc with
    | (k, p, len, j) :: rest =>
      if k == b.1.1 && slabOf p == slabOf b.1.2 && p + len == b.1.2 then (k, p, len + 1, j) :: rest
      else (b.1.1, b.1.2, 1, b.2) :: (k, p, len, j) :: rest
    | [] => [(b.1.1, b.1.2, 1, b.2)]).reverse

/-- The row of a place of an array: 128 bytes of cells, or the weight-scale RAM (R235, R238). -/
def rowOf (pos : Nat) : Nat := if pos < cellBytes then pos / 128 else 256

/-- Distinct rows touched per array, in the busiest array (R238). -/
def spadCost (parts : List (Nat × Nat × Nat × Nat)) : Nat :=
  let rows := (parts.flatMap fun p => (List.range p.2.2.1).map fun j =>
    (p.1, rowOf (p.2.1 + j))).eraseDups
  Nat.max 1 ((rows.map fun r => (rows.filter fun q => q.1 == r.1).length).foldl Nat.max 0)

/-- Note the bank conflicts of an instruction (R238, R239). -/
def State.bkconf (s : State) (a : Actor) (cost : Nat) : State :=
  s.modThr a fun t => { t with regs := { t.regs with bkconf := t.regs.bkconf + BitVec.ofNat 32 (cost - 1) } }

/-- An access of a thread to scratchpad parts: it notes its bank conflicts (R229) and holds the scratchpad port of its core for its
cost from the first cycle at which that is free (assumption 128); the cycle at which a load's data lands (R238, R239). -/
def State.spadTime (s : State) (v : View) (parts : List (Nat × Nat × Nat × Nat)) : State × Nat :=
  let cost := spadCost parts
  let now := if v.lane.isSome then s.clkUp v.g.core else v.now
  let from_ := Nat.max now (s.core v.g.core).port
  let far := parts.any fun p => p.1 / 16 != v.g.core
  let lat := if v.lane.isSome then 40 else if far then 26 else 22
  ((s.bkconf v.a cost).modCore v.g.core fun c => { c with port := from_ + cost }, from_ + lat + (cost - 1))

/-- As `spadTime`, where an access reaches the scratchpad at all. -/
def State.spadUse (s : State) (v : View) (parts : List (Nat × Nat × Nat × Nat)) : State × Nat :=
  if parts.isEmpty then (s, 0) else s.spadTime v parts

/-- Read n bytes at a window offset as a thread does (R243, R244): per byte its value or error, and how many row parts
were not thread-owned. -/
def State.spadRead (s : State) (window : List Nat) (off n : Nat) : List (Option Byte × Option MemErr) × Nat :=
  let zero := (((List.range n).map fun j => winPlace window (off + j)).filter fun p =>
    !(s.arr p.1).threads p.2).map (fun p => (p.1, rowOf p.2)) |>.eraseDups.length
  let bs := (List.range n).map fun j =>
    let (k, p) := winPlace window (off + j)
    let a := s.arr k
    if !a.threads p then (some (0 : Byte), none)
    else if a.bad p then (none, some MemErr.poison) else (some (a.byte p), none)
  (bs, zero)

/-- One lane's write: lane, window offset, bytes of memory it covers, operation. -/
structure SpadOp where
  lane : Nat
  off : Nat
  n : Nat
  op : MOp
  deriving DecidableEq, Repr

/-- What R245 decides for a write before anything is done: a halt, or the arrays that will take a deferred entry. A MODE_FAULT of
any part comes before a MODE_OVERFLOW of another (DESIGN CHOICE, assumption 123). -/
def State.judge (s : State) (team : Nat) (window : List Nat) (ops : List SpadOp) : Except HaltWhy (List Nat) :=
  let parts := ops.flatMap fun o => (spadParts window o.off o.n).map fun p => (o, p)
  let bad := parts.filter fun q => !(s.arr q.2.1).threads q.2.2.1
  let mine := bad.find? fun q => (s.arr q.2.1).rck && (s.arr q.2.1).modeTeam == some team
  match mine with
  | some q => .error { cause := .modeFault, mask := laneMask q.1.lane, addr := BitVec.ofNat 64 q.1.off }
  | none =>
    match bad.find? fun q => decide (32 ≤ (s.arr q.2.1).defer.length) with
    | some q => .error { cause := .modeOverflow, mask := laneMask q.1.lane, addr := BitVec.ofNat 64 q.1.off }
    | none => .ok (bad.map fun q => q.2.1).eraseDups

/-- The deferred part of an operation that falls on one array: place and data. -/
def deferPart (s : State) (window : List Nat) (key : Nat) (o : SpadOp) : List (Nat × Nat × List Byte) :=
  let parts := (spadParts window o.off o.n).filter fun p => p.1 == key && !(s.arr key).threads p.2.1
  match o.op with
  | .store bs => parts.map fun p => (o.lane, p.2.1, (bs.drop p.2.2.2).take p.2.2.1)
  | .planes v p e _ =>
    parts.map fun q =>
      let i0 := q.2.2.2 / 8
      (o.lane, q.2.1, (MOp.planes (v >>> i0) (p - i0) e (List.range (q.2.2.1 / 8))).data)
  | op => (parts.take 1).map fun p => (o.lane, p.2.1, op.data)

/-- Perform the thread-owned parts of the writes and queue the others (R243, R245, R246). Answers the old values of
atomics and the error that a write meets at a poisoned word (R144): the lowest lane's. -/
def State.spadWrite (s : State) (v : View) (i : Instr) (word : Word) (flight : Nat) (window : List Nat)
    (ops : List SpadOp) (keys : List Nat) : State × List (Nat × Word × Bool) × Option PostErr :=
  let entries := keys.map fun k => (k, ops.flatMap fun o => deferPart s window k o)
  let r := ops.foldl (init := (s, ([] : List (Nat × Word × Bool)), (none : Option PostErr))) fun acc o =>
    let s := acc.1
    let parts := (spadParts window o.off o.n).filter fun p => (s.arr p.1).threads p.2.1
    let note (bad : Bool) : Option PostErr :=
      PostErr.join acc.2.2 (if bad then some { remote := false, addr := BitVec.ofNat 64 o.off, flight := flight, lane := o.lane } else none)
    match o.op with
    | .store bs =>
      let y := parts.foldl (init := (s, false)) fun q p =>
        let z := (q.1.arr p.1).perform p.2.1 p.2.2.1 (.store ((bs.drop p.2.2.2).take p.2.2.1))
        (q.1.setArr p.1 z.1, q.2 || z.2.2)
      (y.1, acc.2.1, note y.2)
    | .planes val p e _ =>
      let y := (List.range p).foldl (init := (s, false)) fun q i =>
        match parts.find? fun c => decide (c.2.2.2 ≤ 8 * i) && decide (8 * i < c.2.2.2 + c.2.2.1) with
        | none => q
        | some c =>
          let z := (q.1.arr c.1).setPlane (c.2.1 + (8 * i - c.2.2.2)) e (val.getLsbD i)
          (q.1.setArr c.1 z.1, q.2 || z.2)
      (y.1, acc.2.1, note y.2)
    | op =>
      match parts with
      | p :: _ =>
        let z := (s.arr p.1).perform p.2.1 o.n op
        (s.setArr p.1 z.1, acc.2.1 ++ [(o.lane, z.2.1, z.2.2)], note z.2.2)
      | [] => acc
  let s := entries.foldl (init := r.1) fun s e =>
    let a := s.arr e.1
    s.setArr e.1 { a with defer := a.defer ++
      [{ word := word, team := v.g.team, gang := v.uid, instr := i, lanes := e.2, flight := some (v.a, flight) }] }
  (s, r.2)

end Sys2Proof.Machine
end

