-- ==== Sys2Proof/Machine/Access.lean ====
section
/-!
DEFINITION. The shared parts of the memory instructions: the ordering waits (R134, R135, R155), the choice of path and
counter (R172, R205), loads and stores as an agent's L1 makes them (R128 to R133, R149), and their landing.
-/
namespace Sys2Proof.Machine

/-- What an access does once it is decided: wait at issue, halt, or go on. -/
inductive Go where
  | wait (s : State)
  | halt (h : HaltWhy)
  | done (s : State)
  deriving DecidableEq, Repr

/-! ## Ordering (R134, R135, R155) -/

/-- Every earlier store, reduction and atomic of the thread is performed (R135), and every earlier read has its value, for it
must not return a write that follows it in happens-before (R157, R164). -/
def Thr.released (t : Thr) : Bool := t.flights.all fun f => f.engine || f.kind == .line || f.bound

/-- Every earlier store, reduction and atomic of the thread is performed: an SC read waits for it, so that no read after a later
SC event misses them (R160). -/
def Thr.written (t : Thr) : Bool := t.flights.all fun f => f.engine || f.bound ||
  match f.kind with
  | .write | .atom _ => false
  | _ => true

/-- Every earlier read of the thread has returned (R159); copies and runs are no reads of the thread (R182, R340). -/
def Thr.returned (t : Thr) : Bool :=
  t.flights.all fun f => f.engine || f.landed || f.kind == .write || f.kind == .line

/-- A release of a thread (R135, R144): it waits, halts on a posted error, or is complete. -/
def State.release (s : State) (v : View) : Go :=
  if !v.t.released then .wait s
  else
    match (s.thr? v.a).bind Thr.postErr with
    | some e => .halt { cause := e.cause, addr := e.addr }
    | none =>
      -- units that an agent has lost with stores of the gang in them (R143)
      match s.l1.findSome? fun e => e.2.lostGangs.find? fun x => x.1 == v.uid with
      | some x => .halt { cause := .remoteStoreError, addr := BitVec.ofNat 64 x.2 }
      | none => .done s

/-- A later access waits for an acquire read or SC write that is not complete (R155). -/
def Thr.held (t : Thr) : Bool := t.flights.any fun f => f.hold && !f.complete

/-- A carry-pool lane's first access waits for what its gang had issued before the ejection, then acquires (R367). -/
def State.laneReady (s : State) (v : View) : Option State :=
  match v.lane with
  | none => some s
  | some _ =>
    match tget s.lanes v.ctxNo with
    | none => some s
    | some lc =>
      let waiting := (tget s.gangs lc.gang).any fun g =>
        g.thr.flights.any fun f => !f.bound && lc.held.contains f.id
      if waiting then none
      else if lc.acqDue then
        some ({ s with lanes := tput s.lanes v.ctxNo { lc with acqDue := false, held := [] } }.acquire (v.agent s))
      else some s

/-- The waits before a thread's access (R155, R367), and the acquire that follows a write in S once it is performed: a later
read returns no copy older than what precedes that write (R160). -/
def State.ordered (s : State) (v : View) : Option (State × View) :=
  if v.t.held then none
  else
    match s.laneReady v with
    | none => none
    | some s =>
      if v.t.flights.any fun f => f.kind == .write && f.acq then
        let t := ({ v.t with flights := v.t.flights.map fun f =>
          if f.kind == .write then { f with acq := false } else f } : Thr).reap
        some ((s.setThr v.a t).acquire (v.agent s), { v with t := t })
      else some (s, v)

/-- Add an instruction in flight. -/
def State.fly (s : State) (a : Actor) (f : Flight) : State :=
  let ctx := ((s.viewOf a).map fun v => v.g.ctx).getD 0
  s.modThr a fun t => let t := t.reap; { t with flights := t.flights ++ [{ f with ctx := ctx }] }

/-! ## The common course of an access (R102, R110, R172) -/

/-- The fields of an access instruction. `n` is the size checked, `block` says that the offset's low bits name an
element of a bit-plane block (R178). -/
structure AccF where
  p : Pre
  ixs : BitVec 2
  xr : BitVec 3
  o : Opd
  disp : Word
  v : Option Opd
  n : Nat
  align : Nat
  want : Want
  writes : Bool
  path : Path
  spath : Path
  counts : Bool := true
  block : Bool := false
  deriving DecidableEq, Repr

/-- The lanes an access is made for: one for the uniform pipe (R173). -/
def AccF.lanes (m : AccF) (ex : Mask) : List Nat :=
  if uniform (m.o :: m.v.toList) then [uniLane ex] else lanesOf ex

/-- The request of a lane. A bit-plane access is checked from its block's base: the bound check and its HADDR take the offset
with the element bits cleared (DESIGN CHOICE, assumption 120). -/
def View.laneReq (s : State) (v : View) (m : AccF) (x : XReg) (l : Nat) : LaneReq :=
  let off := v.offset s m.ixs x m.o m.disp l
  { lane := l, off := if m.block && m.align = 1 then off / 8 * 8 else off, n := m.n, align := m.align,
    odd := v.oddPair m.ixs x m.o }

/-- An access that has passed its checks: the state, the view, the lanes whose guard passes, whether it is uniform, its x
register, the lanes that translate with their targets, the lanes that page-fault, and the level of the fault. -/
structure Acc where
  s : State
  v : View
  ex : Mask
  uni : Bool
  x : XReg
  ok : List (Nat × Target)
  faults : List (Nat × Word)
  level : Nat
  deriving DecidableEq, Repr

/-- The path whose counter an access raises (R172, R207). -/
def AccF.pathOf (m : AccF) (v : View) : Path := if (v.t.regs.getX m.xr.toNat).kind = .spad then m.spath else m.path

/-- The course of an access up to its effect: guard, waits at issue, checks and translation (R102, R110, R172). -/
def State.accessReady (s : State) (u : Uses) (m : AccF) : Except Out Acc :=
  if m.counts && s.fullAt m.p m.pathOf then .error (.next s)
  else
  match s.admits u with
  | .error o => .error o
  | .ok (s, v, ex) =>
    if ex = 0 then .error (.next (s.retire v v.t m.p.stall))
    else
      match s.ordered v with
      | none => .error (.next s)
      | some (s, v) =>
        let x := v.t.regs.getX m.xr.toNat
        match s.decideAccess v m.want x m.writes ((m.lanes ex).map (v.laneReq s m x)) with
        | (s, .halt h) => .error (.next (s.haltV v h))
        | (s, .run ok fs level) =>
          if v.lane.isSome && !fs.isEmpty then .error (.next (s.earlyReturn v.ctxNo))
          else if !fs.isEmpty && !v.g.inPf && s.frameBusy v.g then .error (.next (s.stir (s.framePa v.g) 0x1000))
          else .ok { s := s, v := v, ex := ex, uni := uniform (m.o :: m.v.toList), x := x, ok := ok, faults := fs, level := level }

/-- The physical addresses of a lane's target. -/
def Target.pas : Target → List Nat
  | .glob _ ps => ps.map Piece.pa
  | .spad _ => []

/-- The end of an access: retirement, or the page fault of the lanes that have none (R111). -/
def Acc.finish (r : Acc) (m : AccF) (g : Go) : Out :=
  match g with
  | .wait s => .next s
  | .halt h => .next (r.s.haltV r.v h)
  | .done s =>
    let v := r.v
    let s := s.noteRemote (r.ok.flatMap fun t => t.2.pas)
    let s := if m.writes then s.noSpin v else s
    if r.faults.isEmpty then .next (s.retire v ((s.thr? v.a).getD v.t) m.p.stall)
    else if r.uni then
      let va := ((r.faults.head?).map Prod.snd).getD 0
      .next (s.pageFaultV v r.ex ((lanesOf r.ex).map fun l => (l, va)) m.want r.level)
    else .next (s.pageFaultV v (maskOf (r.faults.map Prod.fst)) r.faults m.want r.level)

/-- The course of an access: what `accessReady` decides, the effect, the end. -/
def State.access (s : State) (u : Uses) (m : AccF)
    (body : State → View → Mask → Bool → XReg → List (Nat × Target) → Go) : Out :=
  match s.accessReady u m with
  | .error o => o
  | .ok r => r.finish m (if r.ok.isEmpty then .done r.s else body r.s r.v r.ex r.uni r.x r.ok)

/-! ## Line counters and hints (R149, R150) -/

/-- Whether a context has a gang on a core. -/
def State.resident (s : State) (agent ctx : Nat) : Bool :=
  s.gangs.any fun e => s.coreAgent e.2.core == agent && e.2.ctx.toNat == ctx && !e.2.ended && !(s.teamOf e.2).cores.isEmpty

/-- The place of a context's counters among eight (R150): its own, a free one, that of a context no longer resident, which is
evicted from it, or the place last evicted from, shared by a ninth resident context: place 7 where none has been evicted
(DESIGN CHOICE, assumption 115). -/
def State.cntPlace (s : State) (agent ctx : Nat) : L1 × Nat :=
  let c := s.l1Of agent
  match c.cntOrder.findIdx? fun x => x == ctx with
  | some j => (c, j)
  | none =>
    if c.cntOrder.length < 8 then ({ c with cntOrder := c.cntOrder ++ [ctx] }, c.cntOrder.length)
    else
      match c.cntOrder.findIdx? fun x => !s.resident agent x with
      | some j => ({ c with cntOrder := c.cntOrder.set j ctx, cnt := mset {} c.cnt j {}, cntLast := j }, j)
      | none => (c, c.cntLast)

/-- Add to a context's line counters; only cores keep them, for contexts that hold a place or are resident (R150). -/
def State.countLine (s : State) (agent ctx : Nat) (f : LineCnt → LineCnt) : State :=
  if 1024 ≤ agent % 4096 || !((s.l1Of agent).cntOrder.contains ctx || s.resident agent ctx) then s
  else
    let r := s.cntPlace agent ctx
    s.setL1 agent { r.1 with cnt := mset {} r.1.cnt r.2 (f (mget {} r.1.cnt r.2)) }

/-- The line counters of a context on a core, as they are read (R150): a context without a place that is not resident has
none. -/
def State.lineCounters (s : State) (agent ctx : Nat) : LineCnt :=
  let c := s.l1Of agent
  match c.cntOrder.findIdx? fun x => x == ctx with
  | some j => mget {} c.cnt j
  | none => if s.resident agent ctx && decide (8 ≤ c.cntOrder.length) then mget {} c.cnt c.cntLast else {}

/-- POLMIS: a hint that contradicts a UC page (R149). -/
def polMis (pol : Pol) (ok : List (Nat × Target)) : Bool :=
  (pol == .stream || pol == .keep) &&
    ok.any fun t => match t.2 with | .glob _ ps => ps.any Piece.uc | .spad _ => false

/-- Count a contradicted hint. -/
def State.notePol (s : State) (a : Actor) (pol : Pol) (ok : List (Nat × Target)) : State :=
  if polMis pol ok then s.modThr a fun t => { t with regs := { t.regs with polmis := t.regs.polmis + 1 } } else s

/-! ## Loads -/

/-- How a load or atomic delivers its result. -/
structure LoadF where
  kind : LandKind
  dst : LandDst
  n : Nat
  chk : Bool
  acq : Bool
  hold : Bool
  sc : Bool
  pol : Pol
  path : Path
  elems : List (Nat × Nat) := []
  deriving DecidableEq, Repr

/-- What an agent's L1 gives for a byte: pending store data of its own gangs, an Owned or a Valid word (R128, R129). -/
def L1.readByte (c : L1) (uc sc : Bool) (pa : Nat) : Option (Except MemErr Byte) :=
  match c.pending pa with
  | some p => some (.ok p.val)
  | none =>
    if uc then none
    else
      match c.word (pa / 8) with
      | some w =>
        if sc && !w.owned then none
        else if w.poison then some (.error .poison) else some (.ok (wordByte w.data (pa % 8)))
      | none => none

/-- Put the lane number of a flight's bytes: 64 for the uniform pipe. -/
def laneNo (uni : Bool) (l : Nat) : Nat := if uni then 64 else l

/-- Whether a thread has a read of a word on its way that a copy of an earlier moment may be older than: two reads of one
location never run backwards, and a read returns no later write of its own thread (R164). -/
def Thr.openRead (t : Thr) (w stamp : Nat) : Bool :=
  t.flights.any fun f => f.reads && !f.landed &&
    ((f.bytes.any fun b => b.pa / 8 == w && b.val.isNone && b.err.isNone) ||
      f.fills.any fun x => decide (stamp < x.stamp) && x.pa / 32 == w / 4)

/-- One byte of a load of global memory as its L1 gives it: the byte, whether it must be read at home, its page. -/
structure GByte where
  b : LByte
  miss : Bool
  uc : Bool
  cohg : Nat
  prpt : Bool
  deriving DecidableEq, Repr

/-- Look up the bytes of a load in the L1 (R128, R132). -/
def State.lookBytes (s : State) (c : L1) (uni sc : Bool) (n : Nat) (ok : List (Nat × Target)) : List GByte :=
  ok.flatMap fun t =>
    match t.2 with
    | .spad _ => []
    | .glob a ps => (List.range n).map fun j =>
      let q := (pieceAt ps j).getD (0, ⟨0, 0, 0, false, 0, false⟩)
      let lb : LByte := { lane := laneNo uni t.1, idx := j, pa := q.1, va := a, val := none, err := none }
      let r := if s.remoteBad q.1 then some (Except.error MemErr.remote) else c.readByte q.2.uc sc q.1
      { b := match r with
          | some (.ok x) => { lb with val := some x }
          | some (.error e) => { lb with err := some e }
          | none => lb
        miss := r.isNone, uc := q.2.uc, cohg := q.2.cohg, prpt := q.2.prpt }

/-- Start a load of global memory and scratchpad lanes (R132, R172, R175). It waits for the pending data of another gang if
it is in S (R161), for a grant on its way to the agent, and behind the thread's own reads of a word it would hit (R164). -/
def State.load (s : State) (v : View) (ex : Mask) (uni : Bool) (f : LoadF) (ok : List (Nat × Target)) : Go :=
  let agent := v.agent s
  let c := s.l1Of agent
  let win := (s.teamOf v.g).window
  let gb := s.lookBytes c uni f.sc f.n ok
  let other (g : GByte) : Bool := (c.pending g.b.pa).any fun p => p.actor != v.a
  let behind (g : GByte) : Bool := !g.miss && (c.pending g.b.pa).isNone && (c.word (g.b.pa / 8)).any fun x =>
    v.t.openRead (g.b.pa / 8) (if x.owned then s.fresh else x.stamp)
  let misses := gb.filter GByte.miss
  if f.sc && gb.any other || gb.any behind || misses.any fun g => c.asked.contains (ukeyOf g.b.pa g.cohg) then .wait s
  else
    let sectors := (misses.map fun g => (g.b.pa / 32 * 32, g.uc, g.cohg, g.prpt)).eraseDups
    let keeps (uc : Bool) : Bool := !uc && f.pol != .l2only
    let id := s.fresh
    let s := s.bump
    -- words that must be read at home are not kept Valid beside it
    let words := misses.foldl (init := c.words) fun ws g =>
      match tget ws (g.b.pa / 8) with | some w => if w.owned then ws else tdel ws (g.b.pa / 8) | none => ws
    let hits := ((gb.filter fun g => !g.miss).map fun g => g.b.pa / 64).eraseDups
    let xh := (hits.filter fun ln => match tget c.lines ln with | some l => l.ctx != v.g.ctx | none => false).length
    let s := if gb.isEmpty then s else (s.setL1 agent { c with words := words }).countLine agent v.g.ctx.toNat fun n =>
      { n with fills := n.fills + (sectors.filter fun q => keeps q.2.1).length, xhits := n.xhits + xh }
    let grid := (s.teamOf v.g).grid
    let s := sectors.foldl (init := s) fun s q =>
      s.request agent (ukeyOf q.1 q.2.2.1) (.fill (some v.a) id q.1 (keeps q.2.1) f.pol) (if q.2.2.2 then some grid else none)
    -- scratchpad lanes are read at once
    let sp := ok.filterMap fun t => match t.2 with | .spad off => some (t.1, off, s.spadRead win off f.n) | _ => none
    let sb := sp.flatMap fun t => (List.range f.n).map fun j =>
      let r := (t.2.2.1[j]?).getD (none, none)
      ({ lane := laneNo uni t.1, idx := j, pa := t.2.1 + j, va := BitVec.ofNat 64 t.2.1,
         val := r.1, err := r.2 } : LByte)
    let zeros := maskOf ((sp.filter fun t => t.2.2.2 != 0).map fun t => t.1)
    let (s, due) := s.spadUse v (sp.flatMap fun t => spadParts win t.2.1 f.n)
    .done ((s.notePol v.a f.pol ok).fly v.a
      { id := id, path := if gb.isEmpty && !sp.isEmpty && f.path != .a then .s else f.path, kind := f.kind,
        dst := f.dst, lanes := ex &&& (if uni then ex else maskOf (ok.map Prod.fst)),
        bytes := gb.map GByte.b ++ sb, elems := f.elems, zeros := zeros,
        zparts := (sp.map fun t => t.2.2.2).foldl (· + ·) 0, chk := f.chk, acq := f.acq, spad := !sp.isEmpty,
        hold := f.hold, wait := sectors.length, pc := v.t.pc, sent := s.ps, epoch := c.epoch, due := due })

/-! ## Stores -/

/-- One byte to be stored in global memory; `prpt` is the grid that is told of a lost owner (R142). -/
structure SByte where
  pa : Nat
  val : Byte
  ukey : Nat
  far : Bool
  va : Word
  prpt : Option Nat := none
  deriving DecidableEq, Repr

/-- Contiguous runs of bytes of one unit, each for one far store. -/
def farRuns (bs : List SByte) : List (List SByte) :=
  (bs.foldl (init := ([] : List (List SByte))) fun acc b =>
    match acc with
    | (q :: run) :: rest =>
      if q.ukey == b.ukey && q.pa + 1 == b.pa then (b :: q :: run) :: rest else [b] :: (q :: run) :: rest
    | _ => [b] :: acc).reverse.map List.reverse

/-- Whether an agent holds pending store data, or a request on its way, for the units of an address. -/
def State.busyUnit (s : State) (agent pa : Nat) : Bool :=
  let ks := (List.range 3).map fun g => ukeyOf pa g
  (s.l1Of agent).pend.any (fun p => ks.contains p.ukey) || (s.l1Of agent).asked.any (fun k => ks.contains k)

/-- Whether a request of an agent for the units of an address has not been served (its far stores and atomics). -/
def State.farPending (s : State) (agent pa : Nat) : Bool :=
  let ks := (List.range 3).map fun g => ukeyOf pa g
  s.net.any (fun m => match m.body with
    | .req r => r.agent == agent && ks.contains r.ukey && (match r.req with | .fill _ _ _ _ _ => false | _ => true)
    | _ => false) ||
  ks.any fun k => (s.unit k).queue.any fun r => r.agent == agent &&
    (match r.req with | .fill _ _ _ _ _ => false | _ => true)

/-- Before an agent's own far access to an address: it surrenders the units there and keeps no Valid copy of the words; what
home has served before does not bring one back (R164). -/
def State.farTouch (s : State) (agent pa n : Nat) : State :=
  let ks := (s.l1Of agent).owned.filter (unitOver pa n)
  let s := ks.foldl (init := s) fun s k => s.revokeNow k agent
  let c := s.l1Of agent
  let ws := ((List.range n).map fun j => (pa + j) / 8).eraseDups
  let late (f : Flight) : Flight :=
    if f.wait == 0 || !f.reads then f
    else { f with noInst := f.noInst ++ ws.filter fun w => f.bytes.any fun b => b.pa / 32 == w / 4 }
  (s.setL1 agent { c with words := c.words.filter fun e => e.2.owned || !ws.contains e.1 }).modAgent agent fun t =>
    let t := t.cancelFills fun _ w => ws.contains w
    { t with flights := t.flights.map late }

/-- Write a byte of an Owned word; a partial store to a poisoned word writes nothing (R147). -/
def L1.putOwned (c : L1) (pa : Nat) (b : Byte) (full : Bool) : L1 × Bool :=
  match c.word (pa / 8) with
  | none => (c, false)
  | some w =>
    if w.poison && !full then (c, true)
    else
      let w' : L1Word := { w with dirty := true, poison := false, data := setWordByte w.data (pa % 8) b }
      ({ c with words := tput c.words (pa / 8) w' }, false)

/-- Note that a gang stored to an owned unit (R143). -/
def L1.noteStorer (c : L1) (k u : Nat) : L1 :=
  let l := (tget c.storers k).getD []
  if l.contains u then c else { c with storers := tput c.storers k (l ++ [u]) }

/-- The lines of another context that a store of a context hits in Owned words (R150). -/
def L1.foreignHits (c : L1) (ctx : BitVec 12) (bs : List SByte) : Nat :=
  let hits := bs.filter fun b => !b.far && c.owned.contains b.ukey && (c.word (b.pa / 8)).any L1Word.owned
  ((hits.map fun b => b.pa / 64).eraseDups.filter fun ln => (tget c.lines ln).any fun l => l.ctx != ctx).length

/-- Perform or start the store of one lane's bytes (R129, R133): the parts waited for, and an error posted at once. -/
def State.storeBytes (s : State) (v : View) (id lane : Nat) (pol : Pol) (bs : List SByte) : State × Nat × Option PostErr :=
  let agent := v.agent s
  let err (b : SByte) (remote : Bool) : Option PostErr := some { remote := remote, addr := b.va, flight := id, lane := lane }
  let dead := bs.find? fun b => s.remoteBad b.pa
  let bs := bs.filter fun b => !s.remoteBad b.pa
  let near := bs.filter fun b => !b.far
  let runs := farRuns (bs.filter fun b => b.far)
  let full (w : Nat) : Bool := (List.range 8).all fun j => near.any fun b => b.pa == 8 * w + j
  let u := s.gangUid v.a
  -- owned words are written, other units are requested and hold the bytes pending
  let xh := (s.l1Of agent).foreignHits v.g.ctx near
  let s := if xh = 0 then s else s.countLine agent v.g.ctx.toNat fun n => { n with xhits := n.xhits + xh }
  let r := near.foldl (init := (s, ([] : List Nat), (none : Option PostErr))) fun acc b =>
    let s := acc.1
    let c := s.l1Of agent
    if c.owned.contains b.ukey && !c.asked.contains b.ukey && (c.word (b.pa / 8)).any L1Word.owned then
      let w := c.putOwned b.pa b.val (full (b.pa / 8))
      let s := s.setL1 agent (w.1.noteStorer b.ukey u)
      (s, acc.2.1, PostErr.join acc.2.2 (if w.2 then err b (pkgOf b.pa != s.pkg.toNat) else none))
    else
      let ask := !c.asked.contains b.ukey
      let c := { c with
        pend := c.pend ++ [{ pa := b.pa, val := b.val, ukey := b.ukey, actor := v.a, flight := id, va := b.va,
                             lane := lane, pol := pol, prpt := b.prpt }]
        asked := if ask then c.asked ++ [b.ukey] else c.asked }
      let s := s.setL1 agent c
      -- the grant fills the unit's sectors (assumption 116)
      let s := if ask then (s.countLine agent v.g.ctx.toNat fun n => { n with fills := n.fills + unitSize b.ukey / 32 }).request
        agent b.ukey (.reg (some v.a)) b.prpt else s
      (s, if acc.2.1.contains b.ukey then acc.2.1 else acc.2.1 ++ [b.ukey], acc.2.2)
  let s := runs.foldl (init := r.1) fun s run =>
    match run with
    | [] => s
    | b :: _ =>
      (s.farTouch agent b.pa run.length).request agent b.ukey
        (.farStore (some v.a) id lane b.pa (run.map SByte.val) b.va) b.prpt
  (s, r.2.1.length + runs.length, match dead with | some b => err b true | none => r.2.2)

/-- Several parts of one flight may fall on one unit; each unit counts once. -/
def State.stores (s : State) (v : View) (id : Nat) (pol : Pol) (lanes : List (Nat × List SByte)) :
    State × Nat × Option PostErr :=
  lanes.foldl (init := (s, 0, none)) fun acc bs =>
    let agent := v.agent acc.1
    let had := ((acc.1.l1Of agent).pend.filter fun p => p.flight == id && p.actor == v.a).map PStore.ukey
    let again := ((bs.2.filter fun b => !b.far && had.contains b.ukey).map SByte.ukey).eraseDups.length
    let r := acc.1.storeBytes v id bs.1 pol bs.2
    (r.1, acc.2.1 + r.2.1 - again, PostErr.join acc.2.2 r.2.2)

/-- The bytes a lane stores: the low n bytes of a value. -/
def valBytes (n x : Nat) : List Byte := bytesOf n x

/-- The value of the data operand of a store as a lane reads it (R175). -/
def View.storeVal (s : State) (v : View) (ixs : BitVec 2) (o : Opd) (n lane : Nat) : Nat :=
  match o with
  | .v r ix =>
    let e := v.t.eff ixs r ix
    (List.range ((n + 3) / 4)).foldl (init := 0) fun acc j => acc + (v.t.regs.getV (e + j) lane).toNat * 2 ^ (32 * j)
  | _ => (v.read s ixs (if 8 ≤ n then .u64 else .u32) o lane).toNat

/-- The bytes of a lane's store with their units. -/
def sbytes (pol : Pol) (grid : Nat) (a : Word) (ps : List Piece) (bs : List Byte) : List SByte :=
  (List.range bs.length).filterMap fun j =>
    (pieceAt ps j).map fun q =>
      { pa := q.1, val := (bs[j]?).getD 0, ukey := ukeyOf q.1 q.2.cohg, far := q.2.uc || pol == .l2only, va := a,
        prpt := if q.2.prpt then some grid else none }

/-- Start a store instruction: scratchpad lanes under R243 to R247, global lanes in ascending order (R154). A far store
waits for the agent's own pending data, a store to an Owned word behind the thread's own reads of it (R164). -/
def State.store (s : State) (v : View) (ex : Mask) (uni : Bool) (i : Instr) (pol : Pol) (path : Path) (hold : Bool)
    (ok : List (Nat × Target × List Byte)) : Go :=
  let agent := v.agent s
  let win := (s.teamOf v.g).window
  let sp := ok.filterMap fun t => match t.2.1 with
    | .spad off => some ({ lane := laneNo uni t.1, off := off, n := t.2.2.length, op := .store t.2.2 } : SpadOp)
    | _ => none
  let gl := ok.filterMap fun t => match t.2.1 with
    | .glob a ps => some (laneNo uni t.1, sbytes pol (s.teamOf v.g).grid a ps t.2.2)
    | _ => none
  let blocked (b : SByte) : Bool := if b.far then s.busyUnit agent b.pa
    else ((s.l1Of agent).word (b.pa / 8)).any L1Word.owned && v.t.openRead (b.pa / 8) s.fresh
  if gl.any fun bs => bs.2.any blocked then .wait s
  else
    match s.judge v.g.team win sp with
    | .error h => .halt h
    | .ok keys =>
      let id := s.fresh
      let s := s.bump
      let s := (s.spadUse v (sp.flatMap fun o => spadParts win o.off o.n)).1
      let r := s.spadWrite v i ((encode i).getD 0) id win sp keys
      let g := r.1.stores v id pol gl
      let s := g.1.modThr v.a fun t => t.post (PostErr.join g.2.2 r.2.2)
      .done ((s.notePol v.a pol (ok.map fun t => (t.1, t.2.1))).fly v.a
        { id := id, path := if sp.isEmpty then path else .s, kind := .write, lanes := ex, wait := keys.length + g.2.1,
          hold := hold, acq := hold, spad := !sp.isEmpty, pc := v.t.pc, sent := s.ps })

/-! ## Installing returned sectors (R126, R134, R149 to R151) -/

/-- Lines of a core's set that a line falls in, and whether the set is divided; an SLC's cache is one set of 512 lines
(assumption 30). -/
def L1.inSet (c : L1) (core : Bool) (line : Nat) : List (Nat × L1Line) :=
  if core then c.lines.filter fun e => e.1 % 256 == line % 256 else c.lines

/-- Ways of a set (R126, R127). -/
def setWays (core : Bool) : Nat := if core then 24 else 512

/-- Evict a line: its owned units are written back and surrendered, its words become Invalid and no sector on its way brings
them back (R128, R148, R150). -/
def State.evict (s : State) (agent line : Nat) (ctx : BitVec 12) : State :=
  let c := s.l1Of agent
  let ks := c.owned.filter (unitOver (64 * line) 64)
  let dirty := c.words.any fun e => e.1 / 8 == line && e.2.owned
  let lctx := ((tget c.lines line).map L1Line.ctx).getD 0
  let s := ks.foldl (init := s) fun s k => s.revokeNow k agent
  let c := s.l1Of agent
  let s := (s.setL1 agent { c with words := c.words.filter (fun e => e.1 / 8 != line), lines := tdel c.lines line }).cancelFills
    agent ((List.range 8).map fun j => 8 * line + j)
  let s := if dirty then s.countLine agent lctx.toNat fun n => { n with wbchg := n.wbchg + 1 } else s
  if lctx != ctx then s.countLine agent ctx.toNat fun n => { n with displ := n.displ + 1 } else s

/-- The lines of a set that may give way to a fill (R149, R151): of the context's ways, those not kept unless the fill is
kept too, and of these the ones of lowest age if there are any. A context without a way may take any (assumption 30), and
where all lines of the context's ways are kept a fill that is not takes one of them (DESIGN CHOICE, assumption 117). -/
def victims (set : List (Nat × L1Line)) (allowed : Nat → Bool) (keep : Bool) : List (Nat × L1Line) :=
  let or' (a b : List (Nat × L1Line)) : List (Nat × L1Line) := if a.isEmpty then b else a
  let may := or' (set.filter fun e => allowed e.2.way) set
  let cand := if keep then may else or' (may.filter fun e => !e.2.keep) may
  or' (cand.filter fun e => e.2.age == 0) cand

/-- Make room for a line and note it, evicting a line of an allowed way if its set is full (R149, R151), but none of those
that `stays` names. -/
def State.allocLine (s : State) (agent line : Nat) (ctx : BitVec 12) (pol : Pol) (stays : Nat → Bool := fun _ => false) :
    State :=
  let core := agent % 4096 < 1024
  let c := s.l1Of agent
  let set := c.inSet core line
  let keep := pol == .keep && decide ((set.filter fun e => e.2.keep).length < 6)
  match tget c.lines line with
  | some l =>
    let l : L1Line := { l with age := if pol == .stream then l.age else s.fresh, keep := l.keep || keep }
    s.setL1 agent { c with lines := tput c.lines line l }
  | none =>
    let mask : BitVec 24 := mget 0xFFFFFF#24 c.ways ctx.toNat
    let allowed (w : Nat) : Bool := !core || mask == 0 || mask.getLsbD w
    let free := (List.range (setWays core)).find? fun w => allowed w && !(set.any fun e => e.2.way == w)
    let line' (w : Nat) : L1Line := { ctx := ctx, keep := keep, way := w, age := if pol == .stream then 0 else s.fresh }
    match free with
    | some w => s.setL1 agent { c with lines := tput c.lines line (line' w) }
    | none =>
      let cand := victims (set.filter fun e => !stays e.1) allowed keep
      match cand[Config.pick s.free % Nat.max cand.length 1]? with
      | none => s
      | some e =>
        let s := (s.useFree).evict agent e.1 ctx
        let c := s.l1Of agent
        s.setL1 agent { c with lines := tput c.lines line (line' e.2.way) }

/-- Install a returned sector: its Invalid words, and Valid words that are older, become Valid with its data; a poisoned
word is never installed (R132, R146). What it does not install leaves no older copy behind (R164). -/
def State.install (s : State) (agent : Nat) (ctx : BitVec 12) (epoch : Nat) (f : Fill) : State :=
  let inst := f.install && (s.l1Of agent).epoch == epoch
  let ws := ((List.range f.words.length).zip f.words).map fun w => (f.pa / 32 * 4 + w.1, w.2)
  let s := if inst then s.allocLine agent (f.pa / 64) ctx f.pol else s
  let c := s.l1Of agent
  let older (x : L1Word) : Bool := !x.owned && decide (x.stamp < f.stamp)
  let words := ws.foldl (init := c.words) fun m w =>
    let new : L1Word := { owned := false, dirty := false, data := w.2.1, poison := false, stamp := f.stamp }
    match tget m w.1, inst && !w.2.2 with
    | some x, true => if older x then tput m w.1 new else m
    | some x, false => if older x then tdel m w.1 else m
    | none, true => tput m w.1 new
    | none, false => m
  let rest := (ws.filter fun w => !inst || w.2.2).map Prod.fst
  let s := s.setL1 agent { c with words := words }
  if rest.isEmpty then s
  else s.modAgent agent fun t => t.cancelFills fun x w => rest.contains w && decide (x.stamp < f.stamp)

/-- Whether an earlier read of global memory by the thread has still to get its value: loads land behind it, so that no later
read shows a value older than it (R166; assumption 99). -/
def Thr.readsBefore (t : Thr) (f : Flight) : Bool :=
  f.reads && t.flights.any fun g => g.reads && decide (g.id < f.id) && g.wait != 0

/-- Land a flight whose data is complete (R66, R144, R172): its sectors are installed one after another, since the room that
one takes may cancel another, then its data is delivered. -/
def State.land (s : State) (v : View) (f : Flight) : State :=
  let fills (s : State) : List Fill := (((s.thr? v.a).bind fun t => t.flights.find? fun g => g.id == f.id).map Flight.fills).getD []
  let s := (List.range f.fills.length).foldl (init := s) fun s j =>
    match (fills s)[j]? with
    | some x => s.install (v.agent s) v.g.ctx f.epoch x
    | none => s
  s.deliver v f

end Sys2Proof.Machine
end

