-- ==== Sys2Proof/Machine/LoadStore.lean ====
section
/-!
DEFINITION. LD, ST, BPK, BPX, LDA, STA, FENCE, the cache instructions and XLAT (R105, R171 to R182, R199 to R203).
-/
namespace Sys2Proof.Machine

/-- Bytes of an access (R175). -/
def szBytes : Sz → Nat
  | .b8 => 1
  | .b16 => 2
  | .b32 => 4
  | .b64 | .pw => 8
  | .b128 => 16

/-- Planes of a bit-plane access (R178). -/
def szPlanes : Sz → Nat
  | .b8 => 8
  | .b16 => 16
  | .b32 => 32
  | _ => 1

/-- Registers of an offset operand: a pair under W64 (R103). -/
def State.ogrp (s : State) (xr : BitVec 3) : Nat :=
  match s.view with
  | some v => if (v.t.regs.getX xr.toNat).w64 then 2 else 1
  | none => 1

/-- Where the result of an operand's access goes. -/
def View.landDst (v : View) (ixs : BitVec 2) (o : Opd) : LandDst :=
  match o with
  | .v n ix => .v (v.t.eff ixs n ix)
  | .s n => .s n.toNat
  | _ => .none

/-- k7 as a written register, under CHK. -/
def chkRegs (chk : Bool) : List Nat := if chk then [7] else []

/-- The access fields of a Format M instruction. -/
def MF.acc (m : MF) (want : Want) (writes : Bool) (n align : Nat) (block : Bool) : AccF :=
  { p := m.p, ixs := m.ixs, xr := m.xr, o := m.o, disp := sx64 m.disp, v := some m.v, n := n, align := align,
    want := want, writes := writes, path := .g, spath := .s, block := block }

/-- The access fields of a Format A instruction. -/
def AF.acc (a : AF) (want : Want) (writes : Bool) (n : Nat) (path spath : Path) : AccF :=
  { p := a.p, ixs := a.ixs, xr := a.xr, o := a.o, disp := sx64 a.disp, v := some a.v, n := n, align := n,
    want := want, writes := writes, path := path, spath := spath }

/-- The natural alignment of a plane word access (R109, R177). -/
def pwAlign (z : Sz) : Nat := if z = .pw then 8 else 1

/-- LD (R175). -/
def execLd (m : MF) (s : State) : Out :=
  let n := szBytes m.sz
  s.access { p := m.p, ixs := m.ixs, rd := [(m.o, s.ogrp m.xr)], wr := [(m.v, m.sz.grp)], wk := chkRegs m.chk }
    (MF.acc m .read false n (pwAlign m.sz) false) fun s v ex uni _ ok =>
      s.load v ex uni
        { kind := .load n, dst := v.landDst m.ixs m.v, n := n, chk := m.chk, acq := false, hold := false, sc := false,
          pol := m.pol, path := .g } ok

/-- ST (R175). -/
def execSt (m : MF) (s : State) : Out :=
  let n := szBytes m.sz
  s.access { p := m.p, ixs := m.ixs, rd := [(m.o, s.ogrp m.xr), (m.v, m.sz.grp)] }
    (MF.acc m .write true n (pwAlign m.sz) false) fun s v ex uni _ ok =>
      s.store v ex uni (.st m) m.pol .g false
        (ok.map fun t => (t.1, t.2, valBytes n (v.storeVal s m.ixs m.v n t.1)))

/-- The element index of a lane of a bit-plane access (R178). -/
def View.elem (s : State) (v : View) (m : MF) (uni : Bool) (x : XReg) (l : Nat) : Nat :=
  let off := v.offset s m.ixs x m.o (sx64 m.disp) l
  if uni then 8 * (off % 8) else (l + 8 * (off % 8)) % 64

/-- BPX (R178, R179). -/
def execBpx (m : MF) (s : State) : Out :=
  let p := szPlanes m.sz
  s.access { p := m.p, ixs := m.ixs, rd := [(m.o, s.ogrp m.xr)], wr := [(m.v, 1)], wk := chkRegs m.chk }
    (MF.acc m .read false (8 * p) (pwAlign m.sz) true) fun s v ex uni x ok =>
      s.load v ex uni
        { kind := .planes p, dst := v.landDst m.ixs m.v, n := 8 * p, chk := m.chk, acq := false, hold := false,
          sc := false, pol := m.pol, path := .g,
          elems := ok.map fun t => (laneNo uni t.1, v.elem s m uni x t.1) } ok

/-- A merged update of a plane word in global memory (R180), or of its part in one line: address, length, first unit, the
bits written, the lowest lane that has one, and the grid that is told of a lost owner. -/
structure PlaneUp where
  pa : Nat
  n : Nat
  ukey : Nat
  mask : Word
  bits : Word
  lane : Nat
  va : Word
  prpt : Option Nat
  deriving DecidableEq, Repr

/-- The stretches of one 64-byte line in which the eight bytes of plane word i lie, each one access (R107): the first byte, the
length, the address and its page. -/
def planeParts (ps : List Piece) (i : Nat) : List (Nat × Nat × Nat × Piece) :=
  ((List.range 8).foldl (init := ([] : List (Nat × Nat × Nat × Piece))) fun acc j =>
    match pieceAt ps (8 * i + j), acc with
    | none, _ => acc
    | some q, (j0, n, pa, p) :: rest =>
      if pa + n == q.1 && pa / 64 == q.1 / 64 && p.cohg == q.2.cohg then (j0, n + 1, pa, p) :: rest
      else (j, 1, q.1, q.2) :: (j0, n, pa, p) :: rest
    | some q, [] => [(j, 1, q.1, q.2)]).reverse

/-- Add a lane's bit e to the updates of an instruction; a later lane's bit stands (R180). -/
def addPlane (grid lane : Nat) (us : List PlaneUp) (ps : List Piece) (i e : Nat) (b : Bool) (va : Word) : List PlaneUp :=
  (planeParts ps i).foldl (init := us) fun us q =>
    let at_ := e - 8 * q.1
    let m : Word := if 8 * q.1 ≤ e ∧ e < 8 * (q.1 + q.2.1) then 1#64 <<< at_ else 0
    if us.any fun u => u.pa == q.2.2.1 && u.n == q.2.1 then
      us.map fun u => if u.pa == q.2.2.1 && u.n == q.2.1 then
        { u with mask := u.mask ||| m, bits := if b then u.bits ||| m else u.bits &&& ~~~m } else u
    else us ++ [⟨q.2.2.1, q.2.1, ukeyOf q.2.2.1 q.2.2.2.cohg, m, if b then m else 0, lane, va,
      if q.2.2.2.prpt then some grid else none⟩]

/-- BPK (R178, R180): each plane word of global memory is merged indivisibly at its home. -/
def execBpk (m : MF) (s : State) : Out :=
  let p := szPlanes m.sz
  s.access { p := m.p, ixs := m.ixs, rd := [(m.o, s.ogrp m.xr), (m.v, 1)] }
    (MF.acc m .write true (8 * p) (pwAlign m.sz) true) fun s v ex uni x ok =>
      let agent := v.agent s
      let win := (s.teamOf v.g).window
      let grid := (s.teamOf v.g).grid
      let lane (t : Nat × Target) : V32 × Nat :=
        (BitVec.ofNat 32 (v.storeVal s m.ixs m.v 4 t.1), v.elem s m uni x t.1)
      let sp := ok.filterMap fun t => match t.2 with
        | .spad off =>
          some ({ lane := laneNo uni t.1, off := off / 8 * 8, n := 8 * p,
                  op := .planes (lane t).1 p (lane t).2 (List.range p) } : SpadOp)
        | _ => none
      let ups := ok.foldl (init := ([] : List PlaneUp)) fun us t =>
        match t.2 with
        | .glob a ps => (List.range p).foldl (init := us) fun us i =>
            addPlane grid (laneNo uni t.1) us ps i (lane t).2 ((lane t).1.getLsbD i) a
        | .spad _ => us
      let live := ups.filter fun u => !s.remoteBad u.pa
      if live.any fun u => s.busyUnit agent u.pa || s.busyUnit agent (u.pa + u.n - 1) then .wait s
      else
        match s.judge v.g.team win sp with
        | .error h => .halt h
        | .ok keys =>
          let id := s.fresh
          let s := s.bump
          let s := (s.spadUse v (sp.flatMap fun o => spadParts win o.off o.n)).1
          let r := s.spadWrite v (.bpk m) ((encode (.bpk m)).getD 0) id win sp keys
          let s := live.foldl (init := r.1) fun s u =>
            (s.farTouch agent u.pa u.n).request agent u.ukey (.plane v.a id u.lane u.pa u.n u.mask u.bits u.va) u.prpt
          let dead : Option PostErr := (ups.find? fun u => s.remoteBad u.pa).map fun u => { remote := true, addr := u.va, flight := id, lane := u.lane }
          let s := s.modThr v.a fun t => t.post (PostErr.join dead r.2.2)
          .done ((s.notePol v.a m.pol ok).fly v.a
            { id := id, path := if sp.isEmpty then .g else .s, kind := .write, lanes := ex, wait := keys.length + live.length,
              spad := !sp.isEmpty, pc := v.t.pc, sent := s.ps })

/-! ## Ordered accesses (R155, R181, R182) -/

/-- Whether an order has a read side. -/
def Ord.acquires : Ord → Bool
  | .acq | .ar | .sc => true
  | _ => false

/-- Whether an order has a write side. -/
def Ord.releases : Ord → Bool
  | .rel | .ar | .sc | .cmt => true
  | _ => false

/-- Do something after a release, where the order asks for one. -/
def State.after (s : State) (v : View) (rel : Bool) (k : State → Go) : Go :=
  if rel then
    match s.release v with
    | .done s => k s
    | g => g
  else k s

/-- LDA (R181); with SC it waits for the lane's earlier writes (R160). -/
def execLda (a : AF) (s : State) : Out :=
  let n := szBytes a.sz
  let o := Ord.acquires a.ord
  s.access { p := a.p, ixs := a.ixs, rd := [(a.o, s.ogrp a.xr)], wr := [(a.v, a.sz.grp)], wk := chkRegs a.chk }
    (AF.acc a .read false n .g .s) fun s v ex uni _ ok =>
      if a.ord == .sc && !v.t.written then .wait s
      else s.load v ex uni
        { kind := .load n, dst := v.landDst a.ixs a.v, n := n, chk := a.chk, acq := o, hold := o, sc := a.ord == .sc,
          pol := .page, path := .g } ok

/-- STA (R181). -/
def execSta (a : AF) (s : State) : Out :=
  let n := szBytes a.sz
  s.access { p := a.p, ixs := a.ixs, rd := [(a.o, s.ogrp a.xr), (a.v, a.sz.grp)] }
    (AF.acc a .write true n .g .s) fun s v ex uni _ ok =>
      s.after v (Ord.releases a.ord) fun s =>
        s.store v ex uni (.sta a) .page .g (a.ord == .sc)
          (ok.map fun t => (t.1, t.2, valBytes n (v.storeVal s a.ixs a.v n t.1)))

/-- FENCE (R159, R182): once for the gang, when the guard passes in some lane; a lane's fence also orders what its gang had
issued before the ejection (R154, R367). -/
def execFence (p : Pre) (ord : Ord) (s : State) : Out :=
  s.issue { p := p } fun s v ex =>
    if ex = 0 then .next (s.retire v v.t p.stall)
    else
      match s.laneReady v with
      | none => .next s
      | some s =>
        if Ord.acquires ord && !v.t.returned then .next s
        else
          match s.after v (Ord.releases ord) Go.done with
          | .wait s => .next s
          | .halt h => .next (s.haltV v h)
          | .done s =>
            let s := if Ord.acquires ord then s.acquire (v.agent s) else s
            .next (s.retire v v.t p.stall)

/-! ## Cache instructions (R200 to R203) -/

/-- The line each lane of a cache instruction names, where every check of R102, R103 and R110 passes; the page must permit
reads (DESIGN CHOICE, assumption 118). -/
def State.lineLanes (s : State) (v : View) (m : MLineF) (ex : Mask) : State × List Piece :=
  let x := v.t.regs.getX m.xr.toNat
  let lanes := if uniform [m.o] then [uniLane ex] else lanesOf ex
  lanes.foldl (init := (s, [])) fun acc l =>
    match formAddr x (s.teamOf v.g).window.length (v.offset acc.1 m.ixs x m.o (sx64 m.disp) l) 1 false
        (v.oddPair m.ixs x m.o) 1 with
    | .error _ => acc
    | .ok a =>
      if x.kind = .spad then acc
      else
        match acc.1.xlatReg (v.agent s) v.g.ctx v.sup .read x a 1 with
        | (s, .ok ps) => (s, acc.2 ++ ps)
        | (s, _) => (s, acc.2)

/-- A cache instruction: once per lane that passes, after the waits of an access. -/
def State.lineOp (s : State) (m : MLineF) (f : State → View → List Piece → Go) : Out :=
  if s.fullAt m.p fun _ => .g then .next s
  else
  s.issue { p := m.p, ixs := m.ixs, rd := [(m.o, s.ogrp m.xr)] } fun s v ex =>
    if ex = 0 then .next (s.retire v v.t m.p.stall)
    else
      match s.laneReady v with
      | none => .next s
      | some s =>
        let r := s.lineLanes v m ex
        match f r.1 v r.2 with
        | .wait s => .next s
        | .halt h => .next (s.haltV v h)
        | .done s => .next (s.retire v ((s.thr? v.a).getD v.t) m.p.stall)

/-- Bring a line's readable words into an L1, where nothing of the agent's own is on its way there (R200). -/
def State.prefetchLine (s : State) (agent : Nat) (ctx : BitVec 12) (pol : Pol) (p : Piece) : State :=
  let line := p.pa / 64
  if p.uc || pol == .l2only || s.remoteBad p.pa || s.busyUnit agent p.pa || s.farPending agent p.pa ||
    s.lockedOver (64 * line) 64 then s
  else
    let s := (s.allocLine agent line ctx pol).readOver (64 * line) 64
    let c := s.l1Of agent
    let words := (List.range 8).foldl (init := c.words) fun ws j =>
      let w := 8 * line + j
      match tget ws w with
      | some _ => ws
      | none =>
        if (s.readErr (8 * w) p.cohg).isSome then ws
        else tput ws w { owned := false, dirty := false, data := (s.peekWord w).1, poison := false, stamp := s.fresh }
    (s.setL1 agent { c with words := words }).bump

/-- PFCH (R200). -/
def execPfch (m : MLineF) (s : State) : Out :=
  s.lineOp m fun s v ps =>
    let s := ps.foldl (init := s) fun s p => s.prefetchLine (v.agent s) v.g.ctx m.pol p
    .done (s.notePol v.a m.pol [(0, .glob 0 ps)])

/-- Whether a cache instruction names a scratchpad register, through which it counts nothing (R207). -/
def View.spadLine (v : View) (m : MLineF) : Bool := (v.t.regs.getX m.xr.toNat).kind == .spad

/-- Whether a gang has a store to a line on its way home without a registration, or one whose acknowledgement has still to
come (R133, R135). -/
def State.farStoring (s : State) (u line : Nat) : Bool :=
  let mine (a : Actor) : Bool := s.gangUid a == u
  let store (r : HomeReq) : Bool := match r.req with
    | .farStore (some a) _ _ pa bs _ => mine a && decide (pa / 64 ≤ line) &&
        decide (line ≤ (pa + bs.length - 1) / 64)
    | .plane a _ _ pa n _ _ _ => mine a && decide (pa / 64 ≤ line) && decide (line ≤ (pa + n - 1) / 64)
    | _ => false
  (s.net.any fun m => match m.body with
    | .req r => store r
    | .ack (some a) _ _ _ _ => mine a
    | _ => false) || s.home.any fun e => e.2.queue.any store

/-- CWB (R201). -/
def execCwb (m : MLineF) (s : State) : Out :=
  s.lineOp m fun s v ps =>
    if v.spadLine m then .done s else
    let agent := v.agent s
    let lines := ((ps.filter fun p => !p.uc).map fun p => p.pa / 64).eraseDups
    let mine (b : PStore) : Bool := s.gangUid b.actor == v.uid && lines.contains (b.pa / 64)
    if (s.l1Of agent).pend.any mine || lines.any (s.farStoring v.uid) then .wait s
    else
      let s := lines.foldl (init := s) fun s ln =>
        let ks := (s.l1Of agent).owned.filter (unitOver (64 * ln) 64)
        if (s.l1Of agent).words.any fun e => e.1 / 8 == ln && e.2.owned then
          ks.foldl (init := s) fun s k => s.revokeNow k agent
        else s
      .done (s.bump.fly v.a { id := s.fresh, path := .g, kind := .line, landed := true, pc := v.t.pc, sent := s.ps })

/-- ICINV (R202): the lines it names are removed when every instruction cache has acknowledged. -/
def execIcinv (m : MLineF) (s : State) : Out :=
  s.lineOp m fun s v ps =>
    if v.spadLine m then .done s else
    let lines := (ps.map fun p => p.pa / 64).eraseDups
    .done (s.bump.fly v.a
      { id := s.fresh, path := .g, kind := .line, elems := lines.map fun l => (0, l), pc := v.t.pc, sent := s.ps })

/-- Remove lines from every instruction cache of the package (R202). -/
def State.dropLines (s : State) (lines : List Nat) : State :=
  { s with front := s.front.map fun e =>
      if e.1 / 4096 == s.pkg.toNat then
        (e.1, { e.2 with icache := e.2.icache.filter fun w => !lines.contains (w.1 / 8) }) else e }

/-- ICINV_REMOVAL_ACK (R202). -/
def execIcinvRemovalAck (a : Actor) (flight : Nat) (s : State) : Out :=
  match s.thr? a with
  | none => .fault .noAgent
  | some t =>
    match t.flights.find? fun f => f.id == flight && f.kind == .line && f.path == .g && !f.landed with
    | none => .next s
    | some f =>
      .next ((s.dropLines (f.elems.map Prod.snd)).modThr a fun t =>
        (t.modFlight flight fun g => { g with landed := true }).reap)

/-- FBAR (R203). -/
def execFbar (p : Pre) (s : State) : Out :=
  s.issue { p := p } fun s v ex =>
    if ex = 0 then .next (s.retire v v.t p.stall)
    else
      match s.laneReady v with
      | none => .next s
      | some s =>
        if v.t.flights.any fun f => f.kind == .line && f.path == .g && !f.landed then .next s
        else .next (s.retire v { v.t with fbuf := [] } p.stall)

/-! ## XLAT (R105) -/

/-- XLAT: once on the uniform pipe, when the guard passes in some lane. -/
def execXlat (x : X1) (xr : BitVec 3) (s : State) : Out :=
  let sb := x.sb.toNat
  s.issue { p := x.p, rs := [sb, sb + 1, sb + 2], ws := [sb + 2] } fun s v ex =>
    if ex = 0 then .next (s.retire v v.t x.p.stall)
    else
      let b := v.t.regs.getS sb
      let lim := v.t.regs.getS (sb + 1)
      let q := v.t.regs.getS (sb + 2)
      if q >>> 4 != 0 then .next (s.haltV v { cause := .xlatAttr })
      else
        let set (r : XReg) (res : Word) : Out :=
          let w := RegW.s (sb + 2) res
          let t := { v.t with
            regs := (v.t.regs.setX xr.toNat r).apply w, pend := v.t.pend.map (Pend.supersede [w]) }
          .next (s.retire v t x.p.stall)
        match XKind.ofCode q.toNat with
        | .none => set {} 0
        | .virt => set { kind := .virt, base := b, limit := lim, w64 := q.getLsbD 2, ro := q.getLsbD 3, va := b } q
        | .frame =>
          let s := s.walkRead v.g.ctx b
          let r := s.xlatFrame v.g.ctx v.sup b lim (q.getLsbD 2) (q.getLsbD 3)
          if r.kind = .frame then set r (q ||| (r.attrs &&& 0xFC0#64))
          else set r ((q &&& ~~~3#64) ||| 1#64 ||| 0x20#64)
        | .spad => .next (s.haltV v { cause := .xlatAttr })

end Sys2Proof.Machine
end

