-- ==== Sys2Proof/Machine/Atomics.lean ====
section
/-!
DEFINITION. ATOM, ACAS, RED, MCAS and WAITU (R183 to R198, R544), committed reductions (R170), and the events that
wake, poll and time out a WAITU.
-/
namespace Sys2Proof.Machine

/-! ## ATOM and ACAS (R185, R186) -/

/-- One lane of an atomic: where it acts and how. -/
structure AtomLane where
  lane : Nat
  tgt : Target
  op : MOp
  deriving DecidableEq, Repr

/-- The request a global atomic sends home. -/
def atomReq (actor : Option Actor) (flight lane pa n : Nat) (op : MOp) (va : Word) : Req :=
  match op with
  | .atom o x => .farAtomic actor flight lane pa n (some o) 0 x va
  | .cas c w => .farAtomic actor flight lane pa n none c w va
  | _ => .farAtomic actor flight lane pa n none 0 0 va

/-- Whether an agent must wait before it acts at home on addresses: its own earlier accesses are not there yet. -/
def State.mustWait (s : State) (agent : Nat) (pas : List Nat) : Bool := pas.any fun pa => s.busyUnit agent pa

/-- Start an atomic that returns its old values (R185): scratchpad lanes act at the array, global lanes at home, in
ascending lane order (R174). -/
def State.atomics (s : State) (v : View) (ex : Mask) (uni : Bool) (i : Instr) (a : AF) (ls : List AtomLane) : Go :=
  let agent := v.agent s
  let n := szBytes a.sz
  let win := (s.teamOf v.g).window
  let sp := ls.filterMap fun l => match l.tgt with
    | .spad off => some ({ lane := laneNo uni l.lane, off := off, n := n, op := l.op } : SpadOp)
    | _ => none
  let gl := ls.filterMap fun l => match l.tgt with
    | .glob va ps => (pieceAt ps 0).map fun q => (laneNo uni l.lane, va, q.1, q.2, l.op)
    | _ => none
  let grid := (s.teamOf v.g).grid
  if s.mustWait agent (gl.map fun g => g.2.2.1) then .wait s
  else
    match s.judge v.g.team win sp with
    | .error h => .halt h
    | .ok keys =>
      let id := s.fresh
      let s := s.bump
      let (s, due) := s.spadUse v (sp.flatMap fun o => spadParts win o.off o.n)
      let olds := s.spadWrite v i ((encode i).getD 0) id win sp keys
      let s := olds.1
      let lb (lane : Nat) (va : Word) (pa j : Nat) : LByte :=
        { lane := lane, idx := j, pa := pa, va := va, val := none, err := none }
      let sb := sp.flatMap fun o => (List.range n).map fun j =>
        let b := lb o.lane (BitVec.ofNat 64 o.off) o.off j
        match olds.2.1.find? fun x => x.1 == o.lane with
        | some x => if x.2.2 then { b with err := some .poison } else { b with val := some (wordByte x.2.1 j) }
        | none => b
      let gb := gl.flatMap fun g => (List.range n).map fun j =>
        let b := lb g.1 g.2.1 g.2.2.1 j
        if s.remoteBad g.2.2.1 then { b with err := some .remote } else b
      let live := gl.filter fun g => !s.remoteBad g.2.2.1
      let s := live.foldl (init := s) fun s g =>
        (s.farTouch agent g.2.2.1 n).request agent (ukeyOf g.2.2.1 g.2.2.2.1.cohg)
          (atomReq (some v.a) id g.1 g.2.2.1 n g.2.2.2.2 g.2.1) (if g.2.2.2.1.prpt then some grid else none)
      .done (s.fly v.a
        { id := id, path := .a, kind := .atom n, dst := v.landDst a.ixs a.v, lanes := ex &&& (if uni then ex else maskOf (ls.map AtomLane.lane)),
          bytes := gb ++ sb, chk := a.chk, acq := Ord.acquires a.ord, hold := Ord.acquires a.ord, spad := !sp.isEmpty,
          wait := live.length + keys.length, pc := v.t.pc, sent := s.ps, due := due })

/-- ATOM (R183, R185). -/
def execAtom (op : AOp) (a : AF) (s : State) : Out :=
  let n := szBytes a.sz
  s.access { p := a.p, ixs := a.ixs, rd := [(a.o, s.ogrp a.xr), (a.v, a.sz.grp)], wr := [(a.v, a.sz.grp)],
             wk := chkRegs a.chk }
    (AF.acc a .rmw true n .a .a) fun s v ex uni _ ok =>
      s.after v (Ord.releases a.ord) fun s =>
        s.atomics v ex uni (.atom op a) a
          (ok.map fun t => ⟨t.1, t.2, .atom op (BitVec.ofNat 64 (v.storeVal s a.ixs a.v n t.1))⟩)

/-- ACAS (R185): the low half of the group is expected, the high half written. -/
def execAcas (a : AF) (s : State) : Out :=
  let n := szBytes a.sz
  let g := a.sz.grp
  s.access { p := a.p, ixs := a.ixs, rd := [(a.o, s.ogrp a.xr), (a.v, 2 * g)], wr := [(a.v, g)], wk := chkRegs a.chk }
    (AF.acc a .rmw true n .a .a) fun s v ex uni _ ok =>
      s.after v (Ord.releases a.ord) fun s =>
        s.atomics v ex uni (.acas a) a
          (ok.map fun t =>
            let x := v.storeVal s a.ixs a.v (2 * n) t.1
            ⟨t.1, t.2, .cas (BitVec.ofNat 64 (x % 2 ^ (8 * n))) (BitVec.ofNat 64 (x / 2 ^ (8 * n)))⟩)

/-! ## RED (R138, R170, R187) -/

/-- The lanes of a reduction, from its translated targets; `instr` numbers the instruction. -/
def redEntries (s : State) (v : View) (a : AF) (op : AOp) (uni : Bool) (ok : List (Nat × Target)) : List CmtEntry :=
  let n := szBytes a.sz
  let x := v.t.regs.getX a.xr.toNat
  ok.map fun t =>
    let y : Word := BitVec.ofNat 64 (v.storeVal s a.ixs a.v n t.1)
    let e : CmtEntry := { pa := 0, cohg := 0, spad := true, op := op, b64 := a.sz == .b64, val := y, instr := s.fresh, ctx := v.g.ctx,
                          lane := laneNo uni t.1 }
    match t.2 with
    | .glob va ps =>
      let q := (pieceAt ps 0).getD (0, ⟨0, 0, 0, false, 0, false⟩)
      { e with pa := q.1, cohg := q.2.cohg, spad := false, va := va,
               virt := if x.kind = .frame then x.va + (va - x.base) else va,
               prpt := if q.2.prpt then some (s.teamOf v.g).grid else none }
    | .spad off => { e with pa := off, va := BitVec.ofNat 64 off }

/-- An entry of a held CMT log as it stands in the swap area (R460). -/
def CmtEntry.bytes (e : CmtEntry) : List Byte :=
  bytesOf 8 (e.pa % 2 ^ 52 + (AOp.bits e.op).toNat * 2 ^ 52 + bnat e.b64 * 2 ^ 56) ++ bytesOf 8 e.val.toNat

/-- The address of entry n of a gang's held CMT log (R458). -/
def State.logPa (s : State) (g : Gang) (n : Nat) : Nat := (s.teamOf g).area + 0x600000 + 0x10000 * g.gangid + 16 * n

/-- What a reduction in global memory asks of home: a contribution to its die's partial, or a far atomic on another
package (R138, R187). -/
def CmtEntry.req (s : State) (v : View) (id : Nat) (e : CmtEntry) : Req :=
  if pkgOf e.pa == s.pkg.toNat then .red v.a id e.lane e.pa e.op e.b64 e.val (v.g.core / 128) e.va
  else .farAtomic (some v.a) id e.lane e.pa (if e.b64 then 8 else 4) (some e.op) 0 e.val e.va

/-- The instruction that a deferred part of a reduction is queued as. -/
def redInstr (op : AOp) (b64 : Bool) : Instr :=
  .red op { p := { stall := 0, pn := false, pk := 0 }, ixs := 0, v := .v 0 false, xr := 7, o := .c 0,
            sz := if b64 then .b64 else .b32, ord := .cmt, chk := false, disp := 0 }

/-- Start the reductions of one instruction (R187): scratchpad lanes act at the array or are deferred (R245), the others
travel home. The flight waits until all are performed; `acq` is the read side of its ordering kind (R155). -/
def State.startReds (s : State) (v : View) (ex : Mask) (i : Instr) (acq : Bool) (es : List CmtEntry) : Go :=
  let agent := v.agent s
  let win := (s.teamOf v.g).window
  let n (e : CmtEntry) : Nat := if e.b64 then 8 else 4
  let sp := (es.filter CmtEntry.spad).map fun e => ({ lane := e.lane, off := e.pa, n := n e, op := .atom e.op e.val } : SpadOp)
  let gl := es.filter fun e => !e.spad
  if s.mustWait agent (gl.map CmtEntry.pa) then .wait s
  else
    match s.judge v.g.team win sp with
    | .error h => .halt h
    | .ok keys =>
      let id := s.fresh
      let s := s.bump
      let s := (s.spadUse v (sp.flatMap fun o => spadParts win o.off o.n)).1
      let r := s.spadWrite v i ((encode i).getD 0) id win sp keys
      let live := gl.filter fun e => !s.remoteBad e.pa
      let dead : Option PostErr := (gl.find? fun e => s.remoteBad e.pa).map fun e => { remote := true, addr := e.va, flight := id, lane := e.lane }
      let s := live.foldl (init := r.1) fun s e =>
        (s.farTouch agent e.pa (n e)).request agent (ukeyOf e.pa e.cohg) (e.req s v id) e.prpt
      let s := s.modThr v.a fun t => t.post (PostErr.join dead r.2.2)
      .done (s.fly v.a
        { id := id, path := .a, kind := .write, lanes := ex, wait := keys.length + live.length, hold := acq, acq := acq,
          spad := !sp.isEmpty, pc := v.t.pc, sent := s.ps })

/-- RED (R187): a CMT reduction is held for the gang's next COMMIT (R170) and entered in its log (R458). -/
def execRed (op : AOp) (a : AF) (s : State) : Out :=
  let n := szBytes a.sz
  s.access { p := a.p, ixs := a.ixs, rd := [(a.o, s.ogrp a.xr), (a.v, a.sz.grp)] }
    { (AF.acc a .rmw true n .a .a) with counts := a.ord != .cmt } fun s v ex uni _ ok =>
      let es := redEntries s v a op uni ok
      if a.ord = .cmt then
        match tget s.gangs v.uid with
        | none => .wait s
        | some g =>
          let at_ := s.logPa g g.cmtLog.length
          if 4096 < g.cmtLog.length + es.length then .halt { cause := .cmtOverflow }
          else if s.lockedOver at_ (16 * es.length) then .wait (s.stir at_ (16 * es.length))
          else
            .done ((s.bump.devWrite at_ (es.flatMap CmtEntry.bytes)).modGang v.uid fun g =>
              { g with cmtLog := g.cmtLog ++ es })
      else
        s.after v (Ord.releases a.ord) fun s => s.startReds v ex (.red op a) (Ord.acquires a.ord) es

/-- Whether every write that a lane or its gang issued before a held reduction is performed (R170): the release ordering of a
reduction that a lane of the gang issued on the carry pool is its own. -/
def State.heldReady (s : State) (u : Nat) (e : CmtEntry) : Bool :=
  s.lanes.all fun l => l.2.gang != u || l.2.thr.flights.all fun f => decide (e.instr ≤ f.id) || f.engine || f.bound || f.kind == .line

/-- The halt that a held reduction meets when it is performed: its die has been gated since it was issued (R491). -/
def State.heldHalt (s : State) (es : List CmtEntry) : Option HaltWhy :=
  es.findSome? fun e => if e.spad then none else (s.paHalt e.pa).map fun c => { cause := c, addr := e.va }

/-- Take a gang's held reductions further (R170): one instruction after another in the order of issue, each performed before
the next, under the ordering waits and the counter of an access. Answers done once all are performed. -/
def State.performHeld (s : State) (u : Nat) : Go :=
  match s.viewOf (.gang u) with
  | none => .done s
  | some v =>
    if !v.t.released then .wait s
    else
      match v.g.cmtLog with
      | [] => .done s
      | e :: _ =>
        let es := v.g.cmtLog.filter fun x => x.instr == e.instr
        if 63 ≤ v.t.count .a || !s.heldReady u e then .wait s
        else
          match s.ordered v, s.heldHalt es with
          | none, _ => .wait s
          | _, some h => .halt h
          | some (s, v), none =>
            let s := s.noteRemote ((es.filter fun x => !x.spad).map CmtEntry.pa)
            match s.startReds v v.act (redInstr e.op e.b64) false es with
            | .done s => .wait (s.modGang u fun g => { g with cmtLog := g.cmtLog.filter fun x => x.instr != e.instr })
            | g => g

/-! ## MCAS (R189 to R195, R544) -/

/-- The status word of an MCAS (R192). -/
def mcasStatus (idx code mism ok : Nat) : Word := BitVec.ofNat 64 (idx * 2 ^ 24 + code * 2 ^ 16 + mism * 2 ^ 8 + ok)

/-- What an agent reads at n addresses: its pending data, its L1 words, or the value at home (R128). -/
def State.agentByte (s : State) (agent pa : Nat) : Byte :=
  match (s.l1Of agent).readByte false false pa with
  | some (.ok b) => b
  | _ => s.peek pa

/-- Before a thread reads bytes at once, as a plain read in its program order (R164): its own far accesses to them have been
served, no earlier read of it has a newer value of a word that its L1 would give, and what its L1 does not give has been read at
home (R132, R139); a state in which it waits for that otherwise. -/
def State.readOwn (s : State) (v : View) (agent : Nat) (pas : List Nat) (prpt : Option Nat) : Except State State :=
  let c := s.l1Of agent
  let behind (pa : Nat) : Bool := (c.pending pa).isNone && (c.word (pa / 8)).any fun x =>
    v.t.openRead (pa / 8) (if x.owned then s.fresh else x.stamp)
  let secs := ((pas.filter fun pa => (c.readByte false false pa).isNone).map fun pa => pa / 32 * 32).eraseDups
  if pas.any fun pa => behind pa || s.farPending agent pa then .error s
  else if secs.any fun pa => s.readBusy pa 32 then .error (secs.foldl (fun s pa => s.stirRead pa 32 prpt) s)
  else .ok (secs.foldl (fun s pa => s.readOver pa 32) s)

/-- The first entry that fails a test. -/
def firstBad (n : Nat) (f : Nat → Bool) : Option Nat := (List.range n).find? f

/-- Where the word of an entry stands: its address and unit, status code 4, or a halt (R190). -/
inductive EntryAt where
  | at (pa unit : Nat) (prpt : Bool)
  | none
  | halt (c : Cause2) (addr : Word)
  deriving DecidableEq, Repr

/-- Translate an entry's address (R190): code 4 only where no page is present, or it permits no write in the mode; what
halts any other access halts here too (R86, R89, R91, R95, R461). -/
def State.entryAt (s : State) (v : View) (x : XReg) (a : Word) : EntryAt :=
  let va := x.base + a
  let put (pa cohg : Nat) (prpt : Bool) : EntryAt :=
    match s.paHalt pa with | some c => .halt c va | none => .at pa (ukeyOf pa cohg) prpt
  match x.kind with
  | .frame => if x.pw then put (va.toNat % 2 ^ 52) x.cohg.toNat x.prpt else .none
  | _ =>
    match s.walk v.g.ctx va with
    | .leaf l => if l.permits .rmw v.sup then put (l.pa va) (l.pte.extractLsb' 7 2 : BitVec 2).toNat (l.pte.getLsbD 9) else .none
    | .absent _ => .none
    | .bad c ad => .halt c ad

/-- The checks of R190 on the entries read: a halt, or the physical address and unit of each and whether its leaf has PRPT, or a
status. -/
def State.mcasCheck (s : State) (v : View) (x : XReg) (es : List (Word × Word × Word)) :
    Except HaltWhy (Except Word (List (Nat × Nat × Bool))) :=
  let n := es.length
  let a (j : Nat) : Word := ((es[j]?).map fun e => e.1).getD 0
  match firstBad n fun j => (a j).toNat % 8 != 0 with
  | some j => .error { cause := .align, addr := x.base + a j }
  | none =>
    match firstBad n fun j => x.kind == .spad || decide (x.limit.toNat < (a j).toNat + 8) with
    | some j => .ok (.error (mcasStatus j 5 0 0))
    | none =>
      let ws := (List.range n).map fun j => s.entryAt v x (a j)
      let ps := ws.filterMap fun w => match w with | .at pa k p => some (pa, k, p) | _ => none
      match ws.findIdx? fun w => match w with | .at _ _ _ => false | _ => true with
      | some j =>
        match ws[j]? with
        | some (.halt c ad) => .error { cause := c, addr := ad }
        | _ => .ok (.error (mcasStatus j 4 0 0))
      | none =>
        let pa (j : Nat) : Nat := ((ps[j]?).map Prod.fst).getD 0
        match firstBad n fun j => (List.range j).any fun k => pa k == pa j with
        | some j => .ok (.error (mcasStatus j 5 0 0))
        | none => .ok (.ok ps)

/-- Insert a unit by ascending address. -/
def insUnit (k : Nat) : List Nat → List Nat
  | [] => [k]
  | j :: l => if k = j then j :: l else if unitBase k < unitBase j then k :: j :: l else j :: insUnit k l

/-- Send the lock request for a unit (R191). -/
def State.sendLock (s : State) (a : Actor) (agent flight k : Nat) (prpt : Option Nat) : State :=
  s.request agent k (.lock a flight) prpt

/-- The grid that is told of a lost owner of a unit that an MCAS locks (R142). -/
def McasSt.tells (m : McasSt) (grid k : Nat) : Option Nat := if m.told.contains k then some grid else none

/-- The lowest entry of a unit. -/
def McasSt.first (m : McasSt) (k : Nat) : Nat := (m.entries.findIdx? fun e => e.2.2.2.2 == k).getD 0

/-- MCAS (R190): the checks before the first lock; the rest goes on as an instruction in flight. RO of its register is no bar to it
(DESIGN CHOICE, assumption 127). -/
def execMcas (cnt : BitVec 4) (a : AF) (s : State) : Out :=
  let n := cnt.toNat
  let sv : Nat := match a.v with | .s r => r.toNat | _ => 0
  s.access { p := a.p, ixs := a.ixs, rd := [(a.o, s.ogrp a.xr)], ws := [sv] }
    { (AF.acc a .read false (24 * n) .a .a) with align := 8 } fun s v ex _ x ok =>
      match s.release v with
      | .wait s => .wait s
      | .halt h => .halt h
      | .done s =>
        match ok with
        | [] => .done s
        | t :: _ =>
          let agent := v.agent s
          let win := (s.teamOf v.g).window
          let blk : List (Nat × Nat) := match t.2 with
            | .glob _ ps => (List.range (24 * n)).map fun j => (paAt ps j, ((pieceAt ps j).map fun q => q.2.cohg).getD 0)
            | .spad _ => []
          let grid := (s.teamOf v.g).grid
          let told : Option Nat := match t.2 with
            | .glob _ ps => if ps.any Piece.prpt then some grid else none
            | .spad _ => none
          match s.readOwn v agent (blk.map Prod.fst) told with
          | .error s => .wait s
          | .ok s =>
          let sp : List (Option Byte × Option MemErr) × Nat :=
            match t.2 with | .spad off => s.spadRead win off (24 * n) | _ => ([], 0)
          let s := match t.2 with
            | .spad off => (s.spadUse v (spadParts win off (24 * n))).1.modThr v.a fun t =>
                { t with regs := { t.regs with modez := t.regs.modez + BitVec.ofNat 32 (if v.lane.isSome then sp.2 else Nat.min 1 sp.2) } }
            | _ => s
          let bs : List (Option Byte) := match t.2 with
            | .glob _ _ => blk.map fun b =>
                if (s.readErr b.1 b.2).isSome then none else some (s.agentByte agent b.1)
            | .spad _ => sp.1.map Prod.fst
          let bad := (List.range n).find? fun j => ((bs.drop (24 * j)).take 24).any Option.isNone
          let raw := bs.map fun b => b.getD 0
          let es := (List.range n).map fun j =>
            (fieldW raw (24 * j), fieldW raw (24 * j + 8), fieldW raw (24 * j + 16))
          let id := s.fresh
          let start (s : State) (st : McasSt) (k : Option Nat) : Go :=
            let s := s.bump
            let s := s.fly v.a
              { id := id, path := .a, kind := .regs [], dst := .s sv, lanes := ex, hold := true,
                wait := if k.isSome then 1 else 0, pc := v.t.pc, sent := s.ps, mcas := some st }
            .done (match k with | some k => s.sendLock v.a agent id k (st.tells grid k) | none => s)
          let done (s : State) (w : Word) : Go :=
            start s { entries := [], blk := [], todo := [], held := [], t0 := s.time, status := some w, writes := [] } none
          match bad with
          | some j => done s (mcasStatus j 3 0 0)
          | none =>
            let s := if x.kind = .frame then s else es.foldl (init := s) fun s e => s.walkRead v.g.ctx (x.base + e.1)
            match s.mcasCheck v x es with
            | .error h => .halt h
            | .ok (.error w) => done s w
            | .ok (.ok ps) =>
              let units := ps.foldl (init := ([] : List Nat)) fun l p => insUnit p.2.1 l
              let ents := (es.zip ps).map fun e => (e.1.1, e.1.2.1, e.1.2.2, e.2.1, e.2.2.1)
              let st : McasSt :=
                { entries := ents, blk := blk, todo := units.drop 1, held := units.take 1, t0 := s.time, status := none,
                  writes := [], told := (ps.filter fun p => p.2.2).map fun p => p.2.1, blkTold := told }
              match units with
              | [] => done s (mcasStatus 0 5 0 0)
              | k :: _ =>
                if s.remoteBad (unitBase k) then
                  done (s.noteRemote [unitBase k]) (mcasStatus (st.first k) 3 0 0)
                else start s st (some k)

/-- Let go of units (R191). -/
def State.unlock (s : State) (a : Actor) (ks : List Nat) : State :=
  ks.foldl (init := s) fun s k =>
    if (s.unit k).lock == some a then (s.setUnit k { s.unit k with lock := none }).drainAll k else s

/-- Deliver an MCAS's status (R190): the acquire at the cache, then s[V]. -/
def State.mcasFinish (s : State) (v : View) (f : Flight) (w : Word) : State :=
  let s := s.acquire (v.agent s)
  let ws : List RegW := match f.dst with | .s n => [.s n w] | _ => []
  (s.landRegs v.a f.id ws).modThr v.a fun t => (t.modFlight f.id fun g => { g with landed := true, mcas := none }).reap

/-- The reads of a thread that have their value from before a write of words, behind an earlier read of one of them that has
none yet: by flight, the addresses. -/
def Thr.early (t : Thr) (ws : List Nat) : List (Nat × List Nat) :=
  (t.flights.foldl (init := (false, ([] : List (Nat × List Nat)))) fun acc f =>
    if !f.reads || f.landed then acc
    else
      let mine := f.bytes.filter fun b => ws.contains (b.pa / 8) && b.err.isNone
      let late := (mine.filter fun b => b.val.isSome).map LByte.pa
      let atom := match f.kind with | .atom _ => true | _ => false
      (acc.1 || mine.any fun b => b.val.isNone, if acc.1 && !atom && !late.isEmpty then acc.2 ++ [(f.id, late)] else acc.2)).2

/-- What a successful MCAS does to the copies of its words (R166): a read that follows one which returns its write returns
no older value of another of its words. Valid copies go, and reads that already have an older value behind a read still on
its way are made again. `ks` gives the words with their units. -/
def State.mcasSeen (s : State) (ks : List (Nat × Nat)) : State :=
  let ws := ks.map Prod.fst
  let drop (c : L1) : L1 := { c with words := c.words.filter fun w => w.2.owned || !ws.contains w.1 }
  let s : State := { s with l1 := s.l1.map fun e => (e.1, drop e.2) }
  let actors := (s.gangs.map fun e => Actor.gang e.1) ++ s.lanes.map fun e => Actor.lane e.1
  actors.foldl (init := s) fun s a =>
    match s.viewOf a with
    | none => s
    | some v =>
      let agent := v.agent s
      let own (pa : Nat) : Bool := ((s.l1Of agent).pending pa).isSome || ((s.l1Of agent).word (pa / 8)).any L1Word.owned
      let s := s.modThr a fun t => t.cancelFills fun _ w => ws.contains w
      (v.t.early ws).foldl (init := s) fun (s : State) (e : Nat × List Nat) =>
        let pas := e.2.filter fun pa => !own pa
        let secs := (pas.map fun pa => (pa / 32 * 32, ((ks.find? fun k => k.1 == pa / 8).map Prod.snd).getD 0)).eraseDups
        let s := s.modThr a fun t => t.modFlight e.1 fun f => { f with
          wait := f.wait + secs.length
          bytes := f.bytes.map fun b => if pas.contains b.pa then { b with val := none } else b }
        secs.foldl (init := s) fun s q => s.request agent q.2 (.fill (some a) e.1 q.1 false .page)

/-- Take an MCAS further once its last lock request is answered (R190, R193, R544). -/
def State.mcasStep (s : State) (v : View) (f : Flight) (st : McasSt) : State :=
  let a := v.a
  let agent := v.agent s
  let upd (s : State) (g : Flight → Flight) : State :=
    s.modThr a fun t => { t with flights := t.flights.map fun x => if x.id == f.id then g x else x }
  match st.status with
  | some w =>
    if st.writes.any fun p => s.locked p.1 then st.writes.foldl (fun s p => s.stir p.1 1 st.blkTold) s
    else (st.writes.foldl (init := s) fun s p => s.devWrite p.1 [p.2]).mcasFinish v f w
  | none =>
    match f.err with
    | some _ =>
      let k := (st.held.getLast?).getD 0
      ((s.unlock a st.held).mcasFinish v f (mcasStatus (st.first k) 3 0 0))
    | none =>
      match st.todo with
      | k :: rest =>
        if st.t0 + 10000 < s.time then
          (s.unlock a st.held).mcasFinish v f (mcasStatus (st.first k) 2 0 0)
        else if s.remoteBad (unitBase k) then
          ((s.noteRemote [unitBase k]).unlock a st.held).mcasFinish v f (mcasStatus (st.first k) 3 0 0)
        else
          (upd s fun x => { x with wait := 1, mcas := some { st with todo := rest, held := st.held ++ [k] } }).sendLock
            a agent f.id k (st.tells (s.teamOf v.g).grid k)
      | [] =>
        let cur (e : Word × Word × Word × Nat × Nat) : Word := BitVec.ofNat 64 (memNat s.mem e.2.2.2.1 8)
        match st.entries.findIdx? fun e => isPoisoned s e.2.2.2.1 with
        | some j => (s.unlock a st.held).mcasFinish v f (mcasStatus j 3 0 0)
        | none =>
          let miss := (List.range st.entries.length).filter fun j =>
            match st.entries[j]? with | some e => cur e != e.2.1 | none => false
          match miss with
          | [] =>
            let s := st.entries.foldl (init := s) fun s e =>
              { s with mem := memSetNat s.mem e.2.2.2.1 8 e.2.2.1.toNat }.wakeOver e.2.2.2.1 8
            let s := s.mcasSeen (st.entries.map fun e => (e.2.2.2.1 / 8, e.2.2.2.2))
            (s.unlock a st.held).mcasFinish v f (mcasStatus 0 0 0 1)
          | j :: _ =>
            let w := mcasStatus j 1 (miss.foldl (init := 0) fun m j => m + 2 ^ j) 0
            let vals := st.entries.map cur
            let s := s.unlock a st.held
            let writes := ((List.range vals.length).zip vals).flatMap fun jc =>
              (List.range 8).map fun b => ((((st.blk[24 * jc.1 + 8 + b]?).map Prod.fst).getD 0), wordByte jc.2 b)
            upd s fun x => { x with mcas := some { st with held := [], status := some w, writes := writes } }

/-! ## WAITU (R196 to R198) -/

/-- End an actor's monitors; a unit without monitors is no longer marked (R141, R197). -/
def State.endMonitors (s : State) (a : Actor) : State :=
  s.home.foldl (init := s) fun s e =>
    if e.2.monitors.any fun m => m.actor == a then
      let u := s.unit e.1
      let ms := u.monitors.filter fun m => m.actor != a
      (s.setUnit e.1 { u with monitors := ms }).endMon e.1
    else s

/-- The lanes of a WAITU in scratchpad that it reads again, and the cost of reading them (R238). -/
def WaitU.rereads (w : WaitU) : List Watch := w.watches.filter fun x => !(x.met || x.err.isSome)

/-- Read the scratchpad words of a WAITU again (R196, R229): a part that no thread owns gives zero. -/
def State.rereadSpad (s : State) (v : View) (w : WaitU) : State × WaitU :=
  let win := (s.teamOf v.g).window
  let again := w.rereads
  let s := (s.spadUse v (again.flatMap fun x => spadParts win x.pa w.bytes)).1
  let read (x : Watch) : Watch :=
    if x.met || x.err.isSome then x
    else
      let r := s.spadRead win x.pa w.bytes
      match r.1.findSome? fun b => b.2 with
      | some e => x.got w.eq (.error e) false false
      | none => x.got w.eq (.ok (BitVec.ofNat 64 (valOf (r.1.map fun b => b.1.getD 0)))) (r.2 != 0) false
  (s, { w with polled := v.now, watches := w.watches.map read })

/-- Send reads of the words of a WAITU that a test picks (R132, R196), with or without a claim of a monitor (R197). -/
def State.askWatches (s : State) (v : View) (w : WaitU) (mon : Bool) (pick : Watch → Bool) : State :=
  let goes (x : Watch) : Bool := pick x && !(x.met || x.err.isSome || x.asked)
  let w' := { w with polled := v.now, watches := w.watches.map fun x => if goes x then { x with asked := true } else x }
  let s := s.modThr v.a fun t => { t with wait := .waitu w' }
  (w.watches.filter goes).foldl (init := s) fun s x =>
    s.request (v.agent s) (ukeyOf x.pa x.cohg) (.watch v.a x.lane x.pa w.bytes mon) x.prpt

/-- Complete a WAITU (R196): the acquire, the values, k7 or MODEZ, then the lanes that page-faulted. -/
def State.waituEnd (s : State) (v : View) (w : WaitU) : State :=
  let s := (s.endMonitors v.a).acquire (v.agent s)
  match (if w.chk then none else w.watches.find? fun x => x.err.isSome) with
  | some x =>
    let bad := (w.watches.filter fun y => y.err.isSome).map Watch.lane
    s.haltV v { cause := (x.err.map MemErr.halt).getD .poison, addr := x.va,
                mask := some (if x.lane = 64 then w.lanes else maskOf bad) }
  | none =>
    let ws := w.watches.flatMap fun x =>
      let val : Word := if x.err.isSome then 0 else x.cur
      match w.dst with
      | .v r => (List.range ((w.bytes + 3) / 4)).map fun j => RegW.v (r + j) x.lane (BitVec.ofNat 32 (val.toNat / 2 ^ (32 * j)))
      | .s n => [.s n val]
      | .none => []
    let uni := w.watches.any fun x => x.lane == 64
    let flagged := w.watches.filter fun x => x.err.isSome || x.zero
    let kw : List RegW := if w.chk then
        [.k 7 w.lanes (if uni then (if flagged.isEmpty then 0 else w.lanes) else maskOf (flagged.map Watch.lane))] else []
    let zs := (w.watches.filter fun x => x.zero && x.err.isNone).length
    let s := (s.landRegs v.a s.fresh (ws ++ kw)).noteGot v ws
    let s := s.modThr v.a fun t =>
      { t with wait := .none,
               regs := if w.chk then t.regs else { t.regs with modez := t.regs.modez + BitVec.ofNat 32 zs } }
    if w.fault.isEmpty then s.retire v ((s.thr? v.a).getD v.t) w.stall
    else s.pageFaultV v (maskOf (w.fault.map Prod.fst)) w.fault .read w.level

/-- End a WAITU, once the frame of a page fault that follows it can be written. -/
def State.waituDone (s : State) (v : View) (w : WaitU) : State :=
  if !w.fault.isEmpty && v.lane.isNone && !v.g.inPf && s.frameBusy v.g then s.stir (s.framePa v.g) 0x1000
  else s.waituEnd v w

/-- Whether no read of a WAITU is on its way and every word has been read. -/
def WaitU.still (w : WaitU) : Bool := w.watches.all fun x => x.seen && !x.asked

/-- A WAITU whose reads have returned completes if every lane has met its condition or failed (R196); otherwise it sleeps. -/
def State.waituJudge (s : State) (a : Actor) : State :=
  match s.viewOf a with
  | none => s
  | some v =>
    match v.t.wait with
    | .waitu w =>
      let failed := !w.chk && w.watches.any fun x => x.err.isSome
      if w.still && (failed || w.watches.all fun x => x.met || x.err.isSome) then s.waituDone v w else s
    | _ => s

/-- STALL of the instruction a thread stands at. -/
def State.stallAt (s : State) (v : View) : BitVec 4 :=
  match (tget v.t.fbuf v.t.pc.toNat).orElse fun _ => s.prefetch v v.t.pc with
  | some w => w.extractLsb' 52 4
  | none => 0

/-- Judge every WAITU (R196). -/
def State.settleWaits (s : State) : State :=
  let waits (t : Thr) : Bool := match t.wait with | .waitu _ => true | _ => false
  let as := ((s.gangs.filter fun e => waits e.2.thr).map fun e => Actor.gang e.1) ++
    (s.lanes.filter fun e => waits e.2.thr).map fun e => Actor.lane e.1
  as.foldl State.waituJudge s

/-- WAITU (R196): reads its words at home, claiming their monitors, or at the array, and waits. -/
def execWaitu (eq : Bool) (a : AF) (s : State) : Out :=
  let n := szBytes a.sz
  if (s.view.map fun v => match v.t.wait with | .waitu _ => true | _ => false).getD false then .next s
  else
    s.issue { p := a.p, ixs := a.ixs, rd := [(a.o, s.ogrp a.xr), (a.v, a.sz.grp)], wr := [(a.v, a.sz.grp)],
              wk := chkRegs a.chk } fun s v ex =>
      let m := AF.acc a .read false n .g .s
      if ex = 0 then .next (s.retire v v.t a.p.stall)
      else
        match s.ordered v with
        | none => .next s
        | some (s, v) =>
          let x := v.t.regs.getX a.xr.toNat
          let uni := uniform [a.o, a.v]
          let agent := v.agent s
          match s.decideAccess v .read x false ((m.lanes ex).map (v.laneReq s m x)) with
          | (s, .halt h) => .next (s.haltV v h)
          | (s, .run ok fs level) =>
            if v.lane.isSome && !fs.isEmpty then .next (s.earlyReturn v.ctxNo)
            else
              let pa (t : Nat × Target) : Nat := match t.2 with | .glob _ ps => paAt ps 0 | .spad off => off
              let glob (t : Nat × Target) : Bool := match t.2 with | .glob _ _ => true | .spad _ => false
              if s.mustWait agent ((ok.filter glob).map pa) then .next s
              else
                let watch (t : Nat × Target) : Watch :=
                  let x : Watch :=
                    { lane := laneNo uni t.1, pa := pa t, va := 0, old := BitVec.ofNat 64 (v.storeVal s a.ixs a.v n t.1),
                      val := 0, cur := 0, met := false, zero := false, err := none, monitored := false }
                  match t.2 with
                  | .glob va ps =>
                    let dead := s.remoteBad x.pa
                    { x with va := va, cohg := ((pieceAt ps 0).map fun q => q.2.cohg).getD 0,
                             prpt := if ps.any Piece.prpt then some (s.teamOf v.g).grid else none,
                             err := if dead then some .remote else none, seen := dead }
                  | .spad off => { x with va := BitVec.ofNat 64 off }
                let faults := if uni then
                    (match fs.head? with | some f => (lanesOf ex).map fun l => (l, f.2) | none => []) else fs
                let w : WaitU :=
                  { eq := eq, spad := ok.any fun t => !glob t, bytes := n, dst := v.landDst a.ixs a.v,
                    lanes := if uni then ex else maskOf (ok.map Prod.fst), chk := a.chk, acq := true, started := v.now,
                    polled := v.now, watches := ok.map watch, fault := faults, level := level, stall := a.p.stall }
                let r := if w.spad then s.rereadSpad v w else (s, w)
                let s := r.1.noteRemote ((ok.filter glob).map pa)
                .next ((s.askWatches v r.2 true fun x => !w.spad && !x.seen).waituJudge v.a)

/-- WAITU_WAKE (R196): a woken WAITU reads its words again, once the reads on their way have returned. -/
def execWaituWake (m : Nat) (s : State) : Out :=
  match s.net.find? fun x => x.id == m with
  | some ⟨_, .wake a⟩ =>
    match s.viewOf a with
    | none => .next (s.unsend m)
    | some v =>
      match v.t.wait with
      | .waitu w =>
        if !w.still then .next s
        else .next (((s.unsend m).askWatches v w false fun _ => !w.spad).waituJudge v.a)
      | _ => .next (s.unsend m)
  | _ => .next s

/-- WAITU_POLL (R197): words without a monitor are read again every 1024 cycles, scratchpad words every 16. -/
def execWaituPoll (a : Actor) (s : State) : Out :=
  match s.viewOf a with
  | none => .fault .noAgent
  | some v =>
    match v.t.wait with
    | .waitu w =>
      let period := if w.spad then 16 else 1024
      if v.now < w.polled + period || !w.still || w.watches.all (fun x => x.monitored) then .next s
      else if w.spad then
        let r := s.rereadSpad v w
        .next ((r.1.modThr a fun t => { t with wait := .waitu r.2 }).waituJudge a)
      else .next (s.askWatches v w false fun x => !x.monitored)
    | _ => .next s

/-- WAITU_TIMEOUT (R196): after 65,536 cycles the last values are delivered. -/
def execWaituTimeout (a : Actor) (s : State) : Out :=
  match s.viewOf a with
  | none => .fault .noAgent
  | some v =>
    match v.t.wait with
    | .waitu w => if v.now < w.started + 65536 || !w.still then .next s else .next (s.waituDone v w)
    | _ => .next s

end Sys2Proof.Machine
end

