-- ==== Sys2Proof/Machine/Flags.lean ====
section
/-!
DEFINITION. Every computation that sets a flag or a predicate from operands: integer comparison and saturation (R269,
R270), the F32 wrappers with FTZ and SAT (R275, R276), the packed halves (R281), and the conversions (R283, R284).
-/
namespace Sys2Proof.Machine

/-- The exact value of an operand under an integer type (R270). -/
def ityVal (t : ITy) (x : Word) : Int :=
  let n := if t.wide then 64 else 32
  if t.signed then snat x.toNat n else ((x.toNat % 2 ^ n : Nat) : Int)

/-- The width of an integer type. -/
def ityBits (t : ITy) : Nat := if t.wide then 64 else 32

/-- The least and greatest values of an integer type. -/
def ityLo (t : ITy) : Int := if t.signed then -((2 ^ (ityBits t - 1) : Nat) : Int) else 0
/-- The greatest value of an integer type. -/
def ityHi (t : ITy) : Int := ((if t.signed then 2 ^ (ityBits t - 1) - 1 else 2 ^ ityBits t - 1 : Nat) : Int)

/-- The result written for an exact value: modulo 2^n, or clamped with SAT (R270). -/
def ityResult (t : ITy) (sat : Bool) (x : Int) : Word :=
  BitVec.ofNat 64 (wrapNat (if sat then clampInt x (ityLo t) (ityHi t) else x) (ityBits t))

/-- ICMP's comparison (R269). -/
def condHolds (c : ICond) (a b : Int) : Bool :=
  match c with
  | .eq => decide (a = b)
  | .ne => decide (a ≠ b)
  | .lt => decide (a < b)
  | .le => decide (a ≤ b)
  | .gt => decide (b < a)
  | .ge => decide (b ≤ a)

/-- The read kind of an integer type. -/
def ityRd (t : ITy) : Rd := if t.wide then .u64 else .u32

/-- An F32 source, flushed under FTZ. -/
def fIn (ftz : Bool) (x : Word) : FVal := f32.flushIn ftz (f32.decode (x.toNat % 2 ^ 32))

/-- An F32 result after FTZ and SAT (R275, R276). -/
def fOut (f : FFn) (r : FRes) : Word × FFlags :=
  let r := f32.sat f.sat (f32.flushOut f.ftz r)
  (BitVec.ofNat 64 r.bits, r.flags)

/-- One half of a packed operation (R281). -/
def half (fmt : FFmt) (sat : Bool) (g : List FVal → FRes) (xs : List Nat) : FRes :=
  fmt.sat sat (g (xs.map fmt.decode))

/-- A packed operation on both halves, flags ORed (R281). -/
def packed (bf sat : Bool) (g : FFmt → List FVal → FRes) (xs : List Word) : Word × FFlags :=
  let fmt := if bf then bf16 else f16
  let lo := half fmt sat (g fmt) (xs.map fun x => x.toNat % 65536)
  let hi := half fmt sat (g fmt) (xs.map fun x => x.toNat / 65536 % 65536)
  (BitVec.ofNat 64 (lo.bits + 65536 * hi.bits), lo.flags ||| hi.flags)

/-- The i-th source value. -/
def arg (xs : List FVal) (i : Nat) : FVal := (xs[i]?).getD (.fin false 0 0)

/-- The i-th source word. -/
def warg (xs : List Word) (i : Nat) : Word := (xs[i]?).getD 0

end Sys2Proof.Machine
end

