-- ==== Sys2Proof/Machine/IntOps.lean ====
section
/-!
DEFINITION. The integer instructions (R269 to R272).
-/
namespace Sys2Proof.Machine

/-- A two-source integer instruction: its exact value, written modulo 2^n or clamped (R270). -/
def State.int3 (s : State) (sat : Bool) (ty : ITy) (lat : Nat) (o : R3) (g : Int → Int → Int) : Out :=
  s.alu o.p o.ixs lat o.d ty.wide ty.signed [(o.a, ityRd ty), (o.b, ityRd ty)] false fun xs =>
    (ityResult ty sat (g (ityVal ty (warg xs 0)) (ityVal ty (warg xs 1))), 0)

/-- IADD (R270). -/
def execIadd (sat : Bool) (ty : ITy) (o : R3) (s : State) : Out := s.int3 sat ty 4 o fun a b => a + b

/-- ISUB (R270). -/
def execIsub (sat : Bool) (ty : ITy) (o : R3) (s : State) : Out := s.int3 sat ty 4 o fun a b => a - b

/-- IMUL (R270). -/
def execImul (ty : ITy) (o : R3) (s : State) : Out := s.int3 false ty 6 o fun a b => a * b

/-- IMULH (R270). -/
def execImulh (ty : ITy) (o : R3) (s : State) : Out :=
  s.int3 false ty 6 o fun a b => a * b / ((2 ^ ityBits ty : Nat) : Int)

/-- IMAD (R270). -/
def execImad (sat : Bool) (ty : ITy) (o : R4) (s : State) : Out :=
  s.alu o.p o.ixs 6 o.d ty.wide ty.signed [(o.a, ityRd ty), (o.b, ityRd ty), (o.c, ityRd ty)] false fun xs =>
    (ityResult ty sat (ityVal ty (warg xs 0) * ityVal ty (warg xs 1) + ityVal ty (warg xs 2)), 0)

/-- IMIN (R270). -/
def execImin (ty : ITy) (o : R3) (s : State) : Out := s.int3 false ty 4 o fun a b => if a ≤ b then a else b

/-- IMAX (R270). -/
def execImax (ty : ITy) (o : R3) (s : State) : Out := s.int3 false ty 4 o fun a b => if a ≤ b then b else a

/-- IABS (R270). -/
def execIabs (sat : Bool) (ty : ITy) (o : R2) (s : State) : Out :=
  s.alu o.p o.ixs 4 o.d ty.wide ty.signed [(o.a, ityRd ty)] false fun xs =>
    (ityResult ty sat ((ityVal ty (warg xs 0)).natAbs : Int), 0)

/-- ICMP (R269, R270). -/
def execIcmp (c : ICond) (ty : ITy) (o : R3) (s : State) : Out :=
  s.alu o.p o.ixs 4 o.d false false [(o.a, ityRd ty), (o.b, ityRd ty)] false fun xs =>
    (bword (condHolds c (ityVal ty (warg xs 0)) (ityVal ty (warg xs 1))), 0)

/-- The quotient and remainder of IDIV (R270, R271). -/
def idivVal (rem : Bool) (ty : ITy) (a b : Int) : Int :=
  if b = 0 then (if rem then a else ((2 ^ ityBits ty - 1 : Nat) : Int))
  else if rem then a - b * a.tdiv b else a.tdiv b

/-- IDIV (R270, R271). -/
def execIdiv (rem : Bool) (ty : ITy) (o : R3) (s : State) : Out :=
  s.int3 false ty (if ty.wide then 72 else 40) o (idivVal rem ty)

/-- LEA (R270); its count is read as one 32-bit value (R260). -/
def execLea (ty : ITy) (o : R4) (s : State) : Out :=
  s.alu o.p o.ixs 4 o.d ty.wide ty.signed [(o.a, ityRd ty), (o.b, ityRd ty), (o.c, .u32)] false fun xs =>
    (ityResult ty false
      (ityVal ty (warg xs 0) + ityVal ty (warg xs 1) * ((2 ^ ((warg xs 2).toNat % 64) : Nat) : Int)), 0)

/-- IADDI (R272). -/
def execIaddi (ty : ITy) (o : I2) (s : State) : Out :=
  s.alu o.p o.ixs 4 o.d ty.wide ty.signed [(o.a, ityRd ty)] false fun xs =>
    (ityResult ty false (ityVal ty (warg xs 0) + o.imm.toInt), 0)

/-- IMULI (R272). -/
def execImuli (ty : ITy) (o : I2) (s : State) : Out :=
  s.alu o.p o.ixs 6 o.d ty.wide ty.signed [(o.a, ityRd ty)] false fun xs =>
    (ityResult ty false (ityVal ty (warg xs 0) * o.imm.toInt), 0)

/-- ICMPI (R272): the immediate is sign-extended and taken as the type takes its operands. -/
def execIcmpi (c : ICond) (ty : ITy) (p : Pre) (ixs : BitVec 2) (d a : Opd) (imm : BitVec 21) (s : State) : Out :=
  s.alu p ixs 4 d false false [(a, ityRd ty)] false fun xs =>
    (bword (condHolds c (ityVal ty (warg xs 0)) (ityVal ty (imm.signExtend 64))), 0)

/-- Whether a destination operand is an s register, which is 64 bits wide. -/
def isS : Opd → Bool
  | .s _ => true
  | _ => false

/-- MOVI (R272): extended to the destination's width. -/
def execMovi (zx : Bool) (o : I1) (s : State) : Out :=
  s.alu o.p o.ixs 4 o.d (isS o.d) false [] false fun _ =>
    (if zx then zx64 o.imm else sx64 o.imm, 0)

/-- The value MOVK leaves (R272). -/
def movkVal (part : MovkPart) (old : Word) (imm : BitVec 24) : Word :=
  match part with
  | .h0 => (old &&& ~~~0xFFFFFF#64) ||| zx64 imm
  | .h1 => (old &&& ~~~(0xFFFFFF#64 <<< 24)) ||| (zx64 imm <<< 24)
  | .h2 => (old &&& ~~~(0xFFFF#64 <<< 48)) ||| (zx64 imm <<< 48)

/-- MOVK (R272): reads its destination as a source (R8). -/
def execMovk (part : MovkPart) (o : I1) (s : State) : Out :=
  s.alu o.p o.ixs 4 o.d (isS o.d) false [(o.d, if isS o.d then .u64 else .u32)] true fun xs =>
    (movkVal part (warg xs 0) o.imm, 0)

end Sys2Proof.Machine
end

