-- ==== Sys2Proof/Machine/BitOps.lean ====
section
/-!
DEFINITION. The bit instructions (R273, R274).
-/
namespace Sys2Proof.Machine

/-- The read kind of a width. -/
def wrd (w64 : Bool) : Rd := if w64 then .u64 else .u32

/-- The width in bits. -/
def wbits (w64 : Bool) : Nat := if w64 then 64 else 32

/-- A value cut to a width. -/
def wcut (w64 : Bool) (x : Word) : Word := if w64 then x else x &&& 0xFFFFFFFF#64

/-- A two-source bit instruction. -/
def State.bit3 (s : State) (w64 : Bool) (o : R3) (b : Rd) (g : Word → Word → Word) : Out :=
  s.alu o.p o.ixs 4 o.d w64 false [(o.a, wrd w64), (o.b, b)] false fun xs => (wcut w64 (g (warg xs 0) (warg xs 1)), 0)

/-- AND (R273). -/
def execAnd (w64 : Bool) (o : R3) (s : State) : Out := s.bit3 w64 o (wrd w64) fun a b => a &&& b
/-- OR (R273). -/
def execOr (w64 : Bool) (o : R3) (s : State) : Out := s.bit3 w64 o (wrd w64) fun a b => a ||| b
/-- XOR (R273). -/
def execXor (w64 : Bool) (o : R3) (s : State) : Out := s.bit3 w64 o (wrd w64) fun a b => a ^^^ b
/-- ANDN (R273). -/
def execAndn (w64 : Bool) (o : R3) (s : State) : Out := s.bit3 w64 o (wrd w64) fun a b => a &&& ~~~b

/-- A value shifted left; a count of n or more gives 0 (R273). -/
def shlVal (w64 : Bool) (a : Word) (c : Nat) : Word := if wbits w64 ≤ c then 0 else wcut w64 (a <<< c)
/-- A value shifted right with zero fill; a count of n or more gives 0 (R273). -/
def shrVal (w64 : Bool) (a : Word) (c : Nat) : Word := if wbits w64 ≤ c then 0 else wcut w64 a >>> c
/-- A value shifted right with sign fill; a count of n or more gives copies of the sign bit (R273). -/
def sraVal (w64 : Bool) (a : Word) (c : Nat) : Word :=
  let n := wbits w64
  BitVec.ofNat 64 (wrapNat (snat a.toNat n / ((2 ^ (if n ≤ c then n else c) : Nat) : Int)) n)
/-- A value rotated left (R273). -/
def rotVal (w64 : Bool) (a : Word) (c : Nat) : Word :=
  if w64 then a.rotateLeft c else zx64 ((a.setWidth 32 : BitVec 32).rotateLeft c)

/-- SHL (R273). -/
def execShl (w64 : Bool) (o : R3) (s : State) : Out := s.bit3 w64 o .u32 fun a b => shlVal w64 a b.toNat
/-- SHR (R273). -/
def execShr (w64 : Bool) (o : R3) (s : State) : Out := s.bit3 w64 o .u32 fun a b => shrVal w64 a b.toNat
/-- SRA (R273). -/
def execSra (w64 : Bool) (o : R3) (s : State) : Out := s.bit3 w64 o .u32 fun a b => sraVal w64 a b.toNat
/-- ROT (R273). -/
def execRot (w64 : Bool) (o : R3) (s : State) : Out := s.bit3 w64 o .u32 fun a b => rotVal w64 a b.toNat

/-- BFE's field (R273): position p, length q; bits above n read as 0, or as bit n−1 when signed. -/
def bfeVal (signed w64 : Bool) (a : Word) (p q : Nat) : Word :=
  let n := wbits w64
  let q := Nat.min q n
  let x : Int := if signed then snat a.toNat n else (((wcut w64 a).toNat : Nat) : Int)
  let fld := wrapNat (x / ((2 ^ p : Nat) : Int)) q
  if q = 0 then 0
  else if signed then BitVec.ofNat 64 (wrapNat (snat fld q) n) else BitVec.ofNat 64 fld

/-- BFE (R273). -/
def execBfe (signed w64 : Bool) (o : R4) (s : State) : Out :=
  s.alu o.p o.ixs 4 o.d w64 false [(o.a, wrd w64), (o.b, .u32), (o.c, .u32)] false fun xs =>
    (bfeVal signed w64 (warg xs 0) ((warg xs 1).toNat % 256) ((warg xs 2).toNat % 256), 0)

/-- BFI's value (R273): bits p … p+q−1 of A replaced by the low bits of B. -/
def bfiVal (w64 : Bool) (a b : Word) (p q : Nat) : Word :=
  let m := (2 ^ q - 1) * 2 ^ p % 2 ^ wbits w64
  (wcut w64 a &&& ~~~(BitVec.ofNat 64 m)) ||| (BitVec.ofNat 64 (b.toNat * 2 ^ p) &&& BitVec.ofNat 64 m)

/-- BFI (R273). -/
def execBfi (w64 : Bool) (o : R4) (s : State) : Out :=
  s.alu o.p o.ixs 4 o.d w64 false [(o.a, wrd w64), (o.b, wrd w64), (o.c, .u32)] false fun xs =>
    (bfiVal w64 (warg xs 0) (warg xs 1) ((warg xs 2).toNat % 256) ((warg xs 2).toNat / 256 % 256), 0)

/-- POPC (R273). -/
def execPopc (w64 : Bool) (o : R2) (s : State) : Out :=
  s.alu o.p o.ixs 4 o.d false false [(o.a, wrd w64)] false fun xs =>
    (BitVec.ofNat 64 (popcount (wcut w64 (warg xs 0))), 0)

/-- CLZ (R273). -/
def execClz (w64 : Bool) (o : R2) (s : State) : Out :=
  s.alu o.p o.ixs 4 o.d false false [(o.a, wrd w64)] false fun xs =>
    (BitVec.ofNat 64 (wbits w64 - bitLen (wcut w64 (warg xs 0)).toNat), 0)

/-- BREV's value (R273). -/
def brevVal (w64 : Bool) (a : Word) : Word :=
  if w64 then a.reverse else zx64 (a.setWidth 32 : BitVec 32).reverse

/-- BREV (R273). -/
def execBrev (w64 : Bool) (o : R2) (s : State) : Out :=
  s.alu o.p o.ixs 4 o.d w64 false [(o.a, wrd w64)] false fun xs => (brevVal w64 (warg xs 0), 0)

/-- SEL (R273): k[C] ? A : B, per lane. -/
def execSel (w64 : Bool) (o : R4) (s : State) : Out :=
  s.alu o.p o.ixs 4 o.d w64 false [(o.a, wrd w64), (o.b, wrd w64), (o.c, .u32)] false fun xs =>
    (if warg xs 2 = 0 then warg xs 1 else warg xs 0, 0)

/-- MOV (R273). -/
def execMov (w64 : Bool) (o : R2) (s : State) : Out :=
  s.alu o.p o.ixs 4 o.d w64 false [(o.a, wrd w64)] false fun xs => (warg xs 0, 0)

/-- LOGI's operation (R274). -/
def logiVal (op : LogiOp) (a b : Word) : Word :=
  match op with
  | .and => a &&& b
  | .or => a ||| b
  | .xor => a ^^^ b
  | .andn => a &&& ~~~b

/-- LOGI (R274): 32 bits with a v destination, 64 with an s destination. -/
def execLogi (op : LogiOp) (o : I2) (s : State) : Out :=
  let w := isS o.d
  s.alu o.p o.ixs 4 o.d w false [(o.a, wrd w)] false fun xs => (wcut w (logiVal op (warg xs 0) (zx64 o.imm)), 0)

end Sys2Proof.Machine
end

