-- ==== Sys2Proof/Machine/Control.lean ====
section
/-!
DEFINITION. Control flow, the rejoin stack, ejection and merge (R353 to R390), and the traps of R443 to R445.
-/
namespace Sys2Proof.Machine

/-! ## Entering headers -/

/-- Every lane of a gang. -/
def Gang.all (g : Gang) : Mask := fullMask g.width

/-- What a check of a transfer's target gives (R384). -/
inductive Target2 where
  | ok (hdr : Word)
  | halt (h : HaltWhy)
  | fault (level : Nat)
  deriving DecidableEq, Repr

/-- Check the header at a transfer's target (R31, R384). -/
def State.checkTarget (s : State) (v : View) (target : Word) : State × Target2 :=
  if target.toNat % 8 != 0 then (s, .halt { cause := .framing })
  else
    match s.fetch v target with
    | (s, .halt c a) => (s, .halt { cause := c, addr := a })
    | (s, .fault l) => (s, .fault l)
    | (s, .word w) => (s, if hdrOk w v.g.vallot then .ok w else .halt { cause := .framing })

/-- Note a backward transfer of a gang (R417). -/
def State.backward (s : State) (v : View) (target : Word) : State :=
  if v.lane.isSome || decide (v.t.pc.toNat < target.toNat) then s
  else s.modGang v.uid fun g =>
    let n := if g.spinPc = target then g.spinCnt + 1 else 1
    if n = 16 then { g with spinPc := target, spinCnt := 0, lowUntil := some (v.now + 256) }
    else { g with spinPc := target, spinCnt := n }

/-- Cycles from a branch to the next issue (R381). -/
def branchGap (g : Gang) (base stall : Nat) : Nat := base + stall + g.extra

/-- Go to a checked header, with thread contents `t`. -/
def State.enterAt (s : State) (v : View) (t : Thr) (target : Word) (base : Nat) (stall : BitVec 4) : State :=
  let t := { t.toHdr target with next := s.nextIssue v (branchGap v.g base stall.toNat) }
  let s := (s.setThr v.a t).issued v
  s.modGang v.uid fun g => if v.lane.isSome then g else { g with only := none }

/-- A fetch fault of the active lanes at a transfer. -/
def State.fetchFault (s : State) (v : View) (va : Word) (level : Nat) : State :=
  s.pageFaultV v v.act ((lanesOf v.act).map fun l => (l, va)) .fetch level

/-- A thread whose resumption stands in a block whose header word has not travelled with it reads that word first; a PC outside
the block, or a word that is no header, is a framing fault with HPC at the resumption (R29). -/
def State.loadHeader (s : State) (v : View) : Out :=
  match s.fetch v v.t.hdra with
  | (s, .halt c a) => .next (s.haltV v { cause := c, addr := a })
  | (s, .fault l) => .next (s.fetchFault v v.t.hdra l)
  | (s, .word w) =>
    .next (if inBlock v.t.pc v.t.hdra w then s.modThr v.a fun t => ({ t with hdr := w } : Thr).goto t.pc
      else s.haltV v { cause := .framing })

/-- A uniform transfer (R384, R385): the target is checked, then `t` goes there. -/
def State.transfer (s : State) (v : View) (t : Thr) (target : Word) (stall : BitVec 4) : Out :=
  match s.checkTarget v target with
  | (s, .halt h) => .next (s.haltV v h)
  | (s, .fault l) => .next (s.fetchFault v target l)
  | (s, .ok _) => .next ((s.backward v target).enterAt v t target 3 stall)

/-- The guard-free prefix of Format B. -/
def preB (stall : BitVec 4) : Pre := { stall := stall, pn := false, pk := 0 }

/-! ## The rejoin stack -/

/-- Make the top entry current, after a pop or where entries have been placed: a path switch (R381). -/
def State.switchTop (s : State) (u : Nat) : State :=
  match (tget s.gangs u).bind Gang.top with
  | none => s
  | some _ => (s.modGang u Gang.resumeTop).delay u 2

/-- Parked lanes of a gang with their contexts, in ascending lane order. -/
def State.parkedOf (s : State) (u : Nat) : List (Nat × LaneCtx) :=
  let ls := s.lanes.filter fun e => e.2.gang == u && e.2.st == .parked
  (List.range 64).flatMap fun l => ls.filter fun e => e.2.lane == l

/-- Copy a lane back at a merge (R364): v0 to v(LIVE'-1), k1 to k7, flags and counters (R266). -/
def mergeRegs (live : Nat) (lc : LaneCtx) (g : Regs) : Regs :=
  let rs := lc.thr.landAll.regs
  mergeCounters rs (copyK rs (copyLane rs g lc.lane (List.range live)) lc.lane)

/-- R374: place every parked lane in a new bottom entry. -/
def State.unpark (s : State) (u core : Nat) : State :=
  let s := (s.parkedOf u).foldl (init := s) fun s e =>
    let lc := e.2
    let s := s.modGang u fun g =>
      { g with
        thr := ({ g.thr with regs := mergeRegs (hdrLive lc.thr.hdr) lc g.thr.regs } : Thr).post lc.thr.postErr
        dmask := g.dmask &&& ~~~laneBit lc.lane
        stack := ⟨lc.thr.pc, none, laneBit lc.lane, 0, lc.thr.pc, 0⟩ :: g.stack }
    { s with lanes := tdel s.lanes e.1 }
  s.acquire (s.coreAgent core)

/-- The address at which every lane of a gang that has not exited waits in GJOIN, none being away or running a handler for its
release (R389). -/
def Gang.joinAt (g : Gang) : Option Word :=
  match lowest g.jw with
  | none => none
  | some l =>
    let at_ := mget 0 g.jpc l
    if g.spilled != 0 || (g.jw ||| g.exited) &&& g.all != g.all || g.dmask != 0 ||
        g.stack.any (fun e => (e.mask ||| e.emask) != 0) || (lanesOf g.jw).any (fun j => mget 0 g.jpc j != at_) then none
    else some at_

/-- Release of a GJOIN (R389). Its word and the target's header are fetched; a page fault of either is taken with RPC at the
GJOIN, and the release is tried again after it. -/
def State.tryJoin (s : State) (u : Nat) : State :=
  match s.viewOf (.gang u) with
  | none => s
  | some v =>
    let g := v.g
    match g.joinAt with
    | none => s
    | some at_ =>
      let halt (s : State) (h : HaltWhy) : State := s.haltGang u h.cause at_ g.jw h.addr
      let fault (s : State) (va : Word) (l : Nat) : State :=
        (s.modGang u fun g => { g with thr := { g.thr with pc := at_ } }).pageFault u g.jw
          ((lanesOf g.jw).map fun j => (j, va)) (fcauseOf .fetch l)
      match s.fetch v at_ with
      | (s, .halt c a) => halt s { cause := c, addr := a }
      | (s, .fault l) => fault s at_ l
      | (s, .word w) =>
        match decode w with
        | .ok (.gjoin _ off) =>
          let target := at_ + 8 * sx64 off
          match s.checkTarget v target with
          | (s, .halt h) => halt s h
          | (s, .fault l) => fault s target l
          | (s, .ok _) =>
            (s.modGang u fun g => { g with
              stack := [⟨target, none, g.jw, 0, target, 0⟩], jw := 0, jpc := [], deadSince := none
              thr := { g.thr.toHdr target with wait := .none } }).hold u (4 + g.extra)
        | _ => halt s { cause := .framing }

/-- R360, R374: pop empty entries from the top, then run, arrive, or act as a gang with no entry left. Lanes still parked with
accesses in flight are waited for (R367). -/
def State.settleTop (s : State) (u : Nat) : Nat → Bool → State
  | 0, _ => s
  | n + 1, popped =>
    match tget s.gangs u with
    | none => s
    | some g =>
      match g.stack.reverse with
      | [] =>
        let parked := s.parkedOf u
        if g.spilled != 0 then s
        else if parked.isEmpty then s.tryJoin u
        else if parked.any fun e => e.2.thr.flights.any fun f => !f.complete then s
        else (s.unpark u g.core).switchTop u
      | e :: rest =>
        if e.mask = 0 && e.emask = 0 then
          ((s.modGang u fun g => { g with stack := rest.reverse }).delay u 1).settleTop u n true
        else if popped then s.switchTop u
        else if e.mask = 0 then s.modGang u fun g => { g with thr := g.thr.toHdr e.pc }
        else s

/-- Settle a gang's stack after lanes have left it. -/
def State.settleGang (s : State) (u : Nat) : State :=
  match tget s.gangs u with
  | none => s
  | some g => (s.settleTop u (g.stack.length + 1) (decide (g.stack = []))).tryJoin u

/-- Remove lanes from the mask of every entry (R360). -/
def Gang.removeLanes (g : Gang) (m : Mask) : Gang :=
  { g with stack := g.stack.map fun e => { e with mask := e.mask &&& ~~~m } }

/-- The chain rule (R361), on a stack held bottom first whose top is the current entry: the stack, and the header at which the
walk still looks for an entry below it. -/
def chainAdd (st : List Entry) (lane : Mask) : List Entry × Option Word :=
  match st.reverse with
  | [] => ([], none)
  | top :: rest =>
    rest.foldl (init := ([{ top with mask := top.mask ||| lane }], top.rpc)) fun acc e =>
      match acc.2 with
      | none => (e :: acc.1, none)
      | some r => if e.pc = r then ({ e with mask := e.mask ||| lane } :: acc.1, e.rpc) else (e :: acc.1, some r)

/-! ## Spill and fill of the stack (R377, R378) -/

/-- An entry as it stands in the spill area (R377). -/
def Entry.bytes (e : Entry) : List Byte :=
  wbytes e.pc ++ wbytes (e.rpc.getD 0xFFFFFFFFFFFFFFFF) ++ wbytes e.mask ++ wbytes e.emask ++ wbytes e.hdra ++
    List.replicate 24 0#8

/-- An entry from the spill area (R377); its header word is read when it resumes (R378). -/
def Entry.ofBytes (bs : List Byte) : Entry :=
  let r := fieldW bs 8
  ⟨fieldW bs 0, if r = 0xFFFFFFFFFFFFFFFF then none else some r, fieldW bs 16, fieldW bs 24, fieldW bs 32, 0⟩

/-- What an entry's place in the spill area is: a translation, a page that is absent or does not permit the access, or one that
the device cannot reach yet (R125). -/
inductive SpillPlace where
  | ok (ps : List Piece)
  | no
  | busy (ps : List Piece)
  deriving DecidableEq, Repr

/-- The place of the nth spilled entry. -/
def State.spillSlot (s : State) (v : View) (w : Want) (n : Nat) : State × SpillPlace :=
  match s.xlatVirt (v.agent s) v.g.ctx v.sup w (v.g.spillVa n) 64 with
  | (s, .ok ps) => (s, if (if w == .read then s.busyReads ps else s.busyPieces ps) then .busy ps else .ok ps)
  | (s, _) => (s, .no)

/-- Bring back spilled entries from the top downwards, as far as they can be read; or the place that must be waited for. -/
def State.unspillFrom (s : State) (u : Nat) : Nat → Except (List Piece) State
  | 0 => .ok s
  | n + 1 =>
    match s.viewOf (.gang u) with
    | none => .ok s
    | some v =>
      match s.spillSlot v .read n with
      | (_, .busy ps) => .error ps
      | (s, .no) => .ok s
      | (s, .ok ps) =>
        ((s.readAt ps).modGang u fun g =>
          { g with stack := Entry.ofBytes (s.readPieces ps 64) :: g.stack, spilled := n }).unspillFrom u n

/-- Bring back the spilled entries of a gang, so that an action sees the whole stack. -/
def State.unspill (s : State) (u : Nat) : Except (List Piece) State :=
  s.unspillFrom u (((tget s.gangs u).map Gang.spilled).getD 0)

/-- What a write of spilled entries meets: every place written, the first place that does not permit it, or a place that must
be waited for. -/
inductive SpillEnd where
  | done
  | bad (n : Nat)
  | wait (ps : List Piece)
  deriving DecidableEq, Repr

/-- Write entries to the spill area, the first at place n. -/
def State.spillAll (s : State) (v : View) (n : Nat) : List Entry → State × SpillEnd
  | [] => (s, .done)
  | e :: es =>
    match s.spillSlot v .write n with
    | (s, .no) => (s, .bad n)
    | (s, .busy ps) => (s, .wait ps)
    | (s, .ok ps) => (if s.readPieces ps 64 == e.bytes then s else s.writePieces ps e.bytes).spillAll v (n + 1) es

/-- Leave at most sixteen entries in hardware, and as many while any is spilled (R378). An area too small, or a page that is
absent or not writable or readable, halts the gang instead, in the state before the action; a page the device must wait for
leaves the action to be tried again. -/
def State.respill (before s : State) (u : Nat) : State :=
  match s.viewOf (.gang u) with
  | none => s
  | some v =>
    let n := v.g.stack.length - 16
    let halt (c : Cause2) (ad : Word) : State :=
      match before.viewOf (.gang u) with
      | none => s
      | some b => before.haltGang u c b.t.pc b.act ad
    if v.g.spilled != 0 && decide (v.g.stack.length < 16) then
      (if v.g.halted then s else halt .stackSpill (v.g.spillVa (v.g.spilled - 1)))
    else if n = 0 then s
    else if v.g.spwSize < v.g.spilled + n then halt .stackOverflow 0
    else
      match s.spillAll v v.g.spilled (v.g.stack.take n) with
      | (_, .bad j) => halt .stackSpill (v.g.spillVa j)
      | (_, .wait ps) => before.stirPieces ps (s.teamOf v.g).grid
      | (s, .done) => s.modGang u fun g => { g with stack := g.stack.drop n, spilled := g.spilled + n }

/-- Let an action see a gang's spilled entries, and put back what exceeds sixteen after it (R377, R378). -/
def State.withStack (s : State) (u : Nat) (f : State → Out) : Out :=
  match s.unspill u with
  | .error ps => .next (s.stirReads ps (((tget s.gangs u).map fun g => (s.teamOf g).grid).getD 0))
  | .ok s1 =>
    match f s1 with
    | .next s2 => .next (State.respill s s2 u)
    | o => o

/-! ## The instructions of Format B -/

/-- NOP (R382). -/
def execNop (p : Pre) (s : State) : Out := s.issue { p := p } fun s v _ => .next (s.retire v v.t p.stall)

/-- BRA (R385). -/
def execBra (stall : BitVec 4) (off : BitVec 32) (s : State) : Out :=
  s.issue { p := preB stall } fun s v _ => s.transfer v v.t (v.t.pc + 8 * sx64 off) stall

/-- The lanes in which a BRC's condition holds (R386). -/
def View.cond (v : View) (bn : Bool) (bk : BitVec 3) : Mask :=
  let k := v.t.regs.getK bk.toNat
  v.act &&& if bn then ~~~k else k

/-- A branch that goes one way with every active lane. -/
def State.branchAll (s : State) (v : View) (stall : BitVec 4) (off : BitVec 32) (taken : Bool) : Out :=
  if taken then s.transfer v v.t (v.t.pc + 8 * sx64 off) stall else .next (s.retire v v.t stall)

/-- BRC.ANY (R386). -/
def execBrcAny (stall : BitVec 4) (bn : Bool) (bk : BitVec 3) (off : BitVec 32) (s : State) : Out :=
  s.issue { p := preB stall, rk := [bk.toNat] } fun s v _ => s.branchAll v stall off (v.cond bn bk != 0)

/-- BRC.ALL (R386). -/
def execBrcAll (stall : BitVec 4) (bn : Bool) (bk : BitVec 3) (off : BitVec 32) (s : State) : Out :=
  s.issue { p := preB stall, rk := [bk.toNat] } fun s v _ => s.branchAll v stall off (v.cond bn bk == v.act)

/-- A side of a divergent branch: its lanes, where it goes, and the header of the block there. -/
structure BrSide where
  mask : Mask
  pc : Word
  hdra : Word
  hdr : Word
  deriving DecidableEq, Repr

/-- R358: which side runs first. -/
def pathOrder (a b : BrSide) : BrSide × BrSide :=
  if popcount a.mask > popcount b.mask then (a, b)
  else if popcount b.mask > popcount a.mask then (b, a)
  else if a.pc.toNat < b.pc.toNat then (a, b) else (b, a)

/-- The effective ejection threshold (R362). -/
def ejThreshold (hdr : Word) (ejdef : Nat) : Nat :=
  if hdrEj hdr = 15 then 0 else if hdrEj hdr = 0 then ejdef else hdrEj hdr

/-- Free lane contexts of the carry pool of a core's cluster (R15, R363): lanes take the lowest of them in order (DESIGN CHOICE,
assumption 125). -/
def State.freeCtx (s : State) (core : Nat) : List Nat :=
  ((List.range 64).map fun n => core / 8 * 64 + n).filter fun n => (tget s.lanes n).isNone

/-- EjectAllowed (R362). -/
def State.ejectAllowed (s : State) (v : View) (side : BrSide) : Bool :=
  let n := popcount side.mask
  decide (n ≤ ejThreshold v.t.hdr (s.gridOf v.g).ejdef) && !v.g.sup && !v.g.inEmu && !v.g.inPf &&
    decide (n ≤ (s.freeCtx v.g.core).length)

/-- The registers of a lane's context at ejection (R364). -/
def ejectRegs (g : Regs) (lane live : Nat) : Regs :=
  { copyK g (copyLane g { s := g.s, i := g.i, x := g.x } lane (List.range live)) lane with
    fpflags := 0, bkconf := 0, modez := 0, polmis := 0 }

/-- Eject a side's lanes (R364): each gets a context and starts 12 + ⌈LIVE/4⌉ cycles after the branch (R381). Results of the gang
that cannot be read yet come with its registers, since an SLC interlocks on them (R69). Its first access waits for what the gang
has in flight here (R367). The contexts are the lowest free ones (DESIGN CHOICE, assumption 125). -/
def State.eject (s : State) (v : View) (side : BrSide) (rj : Word) : State :=
  let live := hdrLive side.hdr
  let held := (v.t.flights.filter fun f => !f.bound && !f.engine).map Flight.id
  let start := (s.island (islandOf v.g.core)).psOf (v.now + 12 + (live + 3) / 4 + v.g.extra)
  ((lanesOf side.mask).zip (s.freeCtx v.g.core)).foldl (init := s) fun s lc =>
    let thr : Thr :=
      { regs := ejectRegs v.t.landAll.regs lc.1 live, pc := side.pc, hdra := side.hdra, hdr := side.hdr,
        atHdr := side.pc == side.hdra, next := start }
    let c : LaneCtx :=
      { thr := thr, gang := v.uid, lane := lc.1, rejoin := rj, got := List.range live, held := held }
    { s with lanes := tput s.lanes lc.2 c }

/-- The rest of a BRC.DIV whose lanes disagree (R357), its target checked. -/
def State.diverge (s : State) (v : View) (stall : BitVec 4) (rj : Word) (tk fl : BrSide) : Out :=
  let (first, second) := pathOrder tk fl
  match v.g.stack.reverse with
  | [] => .fault .noAgent
  | top :: below =>
    let base : Option (List Entry × Entry × List Entry) :=   -- entries above E (nearest last), E, below E; top first
      if top.rpc = some rj then
        match below.findIdx? fun e => e.pc == rj with
        | none => none
        | some i => (below[i]?).map fun e => (below.take i, e, below.drop (i + 1))
      else some ([], { top with pc := rj, hdra := rj }, below)
    match base with
    | none => .next (s.whole v.uid fun s => s.haltV v { cause := .framing })
    | some (above, e, rest) =>
      let keep1 := first.pc != rj
      let keep2 := second.pc != rj
      let ej := keep2 && s.ejectAllowed v second
      let e := if ej then { e with mask := e.mask &&& ~~~second.mask, emask := e.emask ||| second.mask } else e
      let s := if ej then s.eject v second rj else s
      let push2 := if keep2 && !ej then [(⟨second.pc, some rj, second.mask, 0, second.hdra, second.hdr⟩ : Entry)] else []
      let push1 := if keep1 then [(⟨first.pc, some rj, first.mask, 0, first.hdra, first.hdr⟩ : Entry)] else []
      let st := (push1 ++ push2 ++ above ++ [e] ++ rest).reverse
      let thr := { v.t with next := v.now + branchGap v.g 4 stall.toNat }
      let s := (s.setThr v.a thr).issued v
      let s := if tk.pc.toNat ≤ v.t.pc.toNat then s.backward v tk.pc else s
      let s := s.modGang v.uid fun g => { g with stack := st, only := none }
      .next (s.modGang v.uid Gang.resumeTop)

/-- BRC.DIV (R357, R386, R387). -/
def execBrcDiv (stall : BitVec 4) (bn : Bool) (bk : BitVec 3) (off : BitVec 32) (s : State) : Out :=
  s.issue { p := preB stall, rk := [bk.toNat] } fun s v _ =>
    if hdrKind v.t.hdr != 1 then
      match v.lane with
      | some _ => .next (s.earlyReturn v.ctxNo)
      | none => .next (s.haltV v { cause := .divKind })
    else
      let h := v.t.hdra
      let rj := h + hdrRj v.t.hdr
      let tgt := v.t.pc + 8 * sx64 off
      let nxt := v.t.pc + 8
      match s.fetch v rj with
      | (s, .halt c a) => .next (s.haltV v { cause := c, addr := a })
      | (s, .fault l) => .next (s.fetchFault v rj l)
      | (s, .word w) =>
        if rj.toNat % 8 != 0 || !isHdr w then .next (s.haltV v { cause := .framing })
        else
          let tk := v.cond bn bk
          let fl := v.act &&& ~~~tk
          if tk = 0 then .next (s.retire v v.t stall)
          else if fl = 0 || v.lane.isSome then s.transfer v v.t tgt stall
          else
            match s.checkTarget v tgt with
            | (s, .halt h) => .next (s.haltV v h)
            | (s, .fault l) => .next (s.fetchFault v tgt l)
            | (s, .ok tw) =>
              if nxt == v.t.blockEnd then
                match s.checkTarget v nxt with
                | (s, .halt h) => .next (s.haltGang v.uid h.cause (if h.cause = .framing then nxt else v.t.pc) v.act h.addr)
                | (s, .fault l) => .next (s.fetchFault v nxt l)
                | (s, .ok nw) => s.diverge v stall rj ⟨tk, tgt, tgt, tw⟩ ⟨fl, nxt, nxt, nw⟩
              else s.diverge v stall rj ⟨tk, tgt, tgt, tw⟩ ⟨fl, nxt, h, v.t.hdr⟩

/-- BRX (R385). -/
def execBrx (stall : BitVec 4) (a : BitVec 6) (off : BitVec 32) (s : State) : Out :=
  s.issue { p := preB stall, rs := [a.toNat] } fun s v _ =>
    s.transfer v v.t (v.t.regs.getS a.toNat + 8 * sx64 off) stall

/-- CALL (R385): s[A] is written before the transfer. -/
def execCall (stall : BitVec 4) (a : BitVec 6) (off : BitVec 32) (s : State) : Out :=
  s.issue { p := preB stall, ws := [a.toNat] } fun s v _ =>
    let w := RegW.s a.toNat (v.t.pc + 8)
    let t := { v.t with regs := v.t.regs.apply w, pend := v.t.pend.map (Pend.supersede [w]) }
    s.transfer v t (v.t.pc + 8 * sx64 off) stall

/-- RET (R385). -/
def execRet (stall : BitVec 4) (a : BitVec 6) (s : State) : Out :=
  s.issue { p := preB stall, rs := [a.toNat] } fun s v _ => s.transfer v v.t (v.t.regs.getS a.toNat) stall

/-- EXIT of a carry-pool lane (R388): its registers return, its context is freed once its writes are performed. -/
def State.exitLane (s : State) (v : View) : State :=
  match tget s.lanes v.ctxNo with
  | none => s
  | some lc =>
    if lc.thr.flights.any (fun f => !f.complete) then s
    else s.whole lc.gang fun s =>
      let bit := laneBit lc.lane
      let s := s.modGang lc.gang fun g =>
        { g with
          thr := lc.giveBack g.thr
          stack := g.stack.map fun e => { e with mask := e.mask &&& ~~~bit, emask := e.emask &&& ~~~bit }
          dmask := g.dmask &&& ~~~bit
          exited := g.exited ||| bit
          deadSince := none }
      let s := { s with lanes := tdel s.lanes v.ctxNo }
      match tget s.gangs lc.gang with
      | none => s
      | some g =>
        let waits := match g.thr.wait with | .waitMerge _ => true | _ => false
        match g.top with
        | none => s.settleGang lc.gang
        | some e =>
          if e.emask = 0 && waits then
            let s := s.modGang lc.gang fun g => { g with thr := { g.thr with wait := .none } }
            if e.mask = 0 then s.settleGang lc.gang else s
          else s

/-- Take the active lanes out of a gang's stack, as EXIT and GJOIN do, and go on as R360 gives; `mark` notes where they are. -/
def State.leaveStack (s : State) (v : View) (stall : BitVec 4) (mark : Gang → Gang) : State :=
  s.whole v.uid fun s =>
    ((s.retire v v.t stall).modGang v.uid fun g => mark (g.removeLanes v.act)).settleGang v.uid

/-- EXIT (R388). -/
def execExit (stall : BitVec 4) (s : State) : Out :=
  s.issue { p := preB stall } fun s v _ =>
    match v.lane with
    | some _ => .next (s.exitLane v)
    | none => .next (s.leaveStack v stall fun g => { g with exited := g.exited ||| v.act })

/-- GJOIN (R389). -/
def execGjoin (stall : BitVec 4) (off : BitVec 32) (s : State) : Out :=
  let _ := off
  s.issue { p := preB stall, safe := false } fun s v _ =>
    .next (s.leaveStack v stall fun g =>
      { g with
        jw := g.jw ||| v.act
        jpc := (lanesOf v.act).foldl (init := g.jpc) fun m l => mset 0 m l v.t.pc })

/-- YIELD (R390). -/
def execYield (stall : BitVec 4) (s : State) : Out :=
  s.issue { p := preB stall } fun s v _ =>
    let s := s.retire v v.t stall
    .next (if v.lane.isSome then s else s.modGang v.uid fun g => { g with yieldUntil := some (v.now + 256) })

/-! ## Traps -/

/-- BKPT (R444). -/
def execBkpt (p : Pre) (code : BitVec 24) (s : State) : Out :=
  s.issue { p := p } fun s v ex =>
    if ex = 0 then .next (s.retire v v.t p.stall)
    else .next (s.haltV v { cause := .bkpt, mask := some ex, addr := zx64 code })

/-- TRAPU (R443). -/
def execTrapu (p : Pre) (code : BitVec 24) (s : State) : Out :=
  s.issue { p := p } fun s v ex =>
    if ex = 0 then .next (s.retire v v.t p.stall)
    else .next (s.emulate v ((encode (.trapu p code)).getD 0) 9 p.stall)

/-- RETU (R75, R445): the gang goes on after the emulated word with the mask it had at entry. -/
def execRetu (stall : BitVec 4) (s : State) : Out :=
  s.issue { p := preB stall } fun s v _ =>
    if v.lane.isSome || !v.g.inEmu || v.g.inPf then .next (s.haltV v { cause := .notInHandler })
    else
      let g := v.g.backTo v.g.emuDepth v.g.emuMask
      let t : Thr := { v.t with next := v.now + issueGap v.g stall.toNat }
      let g := { g with thr := t.resume (v.g.emu.pc + 8) v.g.ehdra v.g.ehdr, inEmu := false, ehdra := 0, ehdr := 0, only := none }
      .next (({ s with gangs := tput s.gangs v.uid g }).issued v)

/-! ## Arrival at headers -/

/-- The lines a header prefetches (R33, R34): their words' addresses. -/
def prefetchVas (h hdr : Word) : List Word :=
  let start := if hdrPfk hdr = 1 then h + hdrRj hdr else h + BitVec.ofNat 64 (8 * (hdrLen hdr + 1))
  if hdrPfk hdr ≤ 1 then
    (List.range (8 * hdrPfn hdr)).map fun j => BitVec.ofNat 64 (start.toNat / 64 * 64 + 8 * j) else []

/-- Begin the block whose header, at `h`, has been met (R30). -/
def State.beginBlock (s : State) (v : View) (h hdr : Word) : State :=
  let vas := (List.range (hdrLen hdr)).map fun j => h + BitVec.ofNat 64 (8 * (j + 1))
  s.modThr v.a fun t =>
    { t with hdra := h, hdr := hdr, pc := h + 8, atHdr := false, wait := .none,
             fbuf := s.fillBuf v (tdel t.fbuf h.toNat) (vas ++ prefetchVas h hdr) }

/-- A gang's arrival at the header at its PC (R359), one action at a time: merge, pop, rendezvous, or the block. -/
def State.arriveGang (s : State) (v : View) (hdr : Word) : State :=
  let h := v.t.pc
  let u := v.uid
  let s := s.modGang u fun g => { g with thr := { g.thr with hdra := h, hdr := hdr }, only := none }
  match v.g.stack.reverse with
  | [] => s.settleGang u
  | top :: rest =>
    if top.emask != 0 then
      s.modGang u fun g => { g with
        stack := (({ top with pc := h, hdra := h } : Entry) :: rest).reverse
        thr := { g.thr with wait := match g.thr.wait with | .waitMerge t => .waitMerge t | _ => .waitMerge v.now } }
    else if top.rpc = some h then
      let s := (s.modGang u fun g => { g with stack := rest.reverse, thr := { g.thr with wait := .none } }).delay u 1
      match rest with
      | [] => s.settleGang u
      | e :: _ =>
        if e.mask = 0 && e.emask = 0 then s.settleGang u
        else if e.pc = h then s
        else s.switchTop u
    else if top.mask = 0 then s.settleGang u
    else if hdrKind hdr = 3 && v.g.dmask != 0 then
      let here := (s.parkedOf u).any fun e => e.2.thr.pc == h
      let running := s.lanes.any fun e => e.2.gang == u && e.2.st == .detached
      let s := s.modGang u fun g => { g with
        stack := (({ top with pc := h, hdra := h } : Entry) :: rest).reverse
        thr := { g.thr with wait := match g.thr.wait with | .rendezvous t => .rendezvous t | _ => .rendezvous v.now } }
      if here || running then s else s.beginBlock v h hdr
    else s.beginBlock v h hdr

/-- A lane's arrival at a header on the carry pool (R365, R372): at its rejoin header it waits, a detached lane parks
at a rendezvous header, any other header it ignores. -/
def State.arriveLane (s : State) (v : View) (hdr : Word) : State :=
  let h := v.t.pc
  match tget s.lanes v.ctxNo with
  | none => s
  | some lc =>
    let stop (st : LaneSt) : State :=
      { s with lanes := tput s.lanes v.ctxNo { lc with st := st, thr := { lc.thr with hdra := h, hdr := hdr } } }
    match lc.st with
    | .ejected => if h = lc.rejoin then stop .waiting else s.beginBlock v h hdr
    | .detached => if hdrKind hdr = 3 then stop .parked else s.beginBlock v h hdr
    | .waiting | .parked => s

/-- A carry-pool lane of a cancelled sibling is stopped and its context freed (R435), once what it has sent to memory is performed
(R144, R161, R194); the gang keeps the errors posted for its stores. -/
def State.dropLane (s : State) (c : Nat) : State :=
  match tget s.lanes c with
  | none => s
  | some lc =>
    let sent (f : Flight) : Bool := f.mcas.isSome || match f.kind with | .write | .atom _ => true | _ => false
    if lc.thr.flights.any fun f => sent f && !f.complete then s
    else
      let bit := laneBit lc.lane
      { s.modGang lc.gang fun g =>
          { g with
            thr := g.thr.post lc.thr.postErr
            stack := g.stack.map fun e => { e with mask := e.mask &&& ~~~bit, emask := e.emask &&& ~~~bit }
            dmask := g.dmask &&& ~~~bit
            exited := g.exited ||| bit } with lanes := tdel s.lanes c }

/-- Every lane of a cancelled sibling's gang exits (R435): those on the carry pool as `dropLane` gives. -/
def State.cancelGang (s : State) (u : Nat) : State :=
  let mine := (s.lanes.filter fun e => e.2.gang == u).map Prod.fst
  let s := mine.foldl State.dropLane s
  let away := (s.lanes.filter fun e => e.2.gang == u).foldl (init := (0 : Mask)) fun m e => m ||| laneBit e.2.lane
  s.modGang u fun g =>
    { g with exited := g.exited ||| (g.all &&& ~~~away), stack := [], spilled := 0, jw := 0, jpc := [], dmask := away,
             only := none, thr := { g.thr with wait := .none, atHdr := true } }

/-- A thread meets the header at its PC (R30, R31, R353, R359). A gang with no entry acts as R374. -/
def State.arriveHeader (s : State) (a : Actor) : Out :=
  match s.viewOf a with
  | none => .fault .noAgent
  | some v =>
    if !v.t.atHdr || v.g.ended || v.g.halted then .next s
    else if (s.teamOf v.g).cancelled then .next (if v.lane.isSome then s.dropLane v.ctxNo else s.cancelGang v.uid)
    else if v.lane.isNone && v.g.stack.isEmpty then .next (s.settleGang v.uid)
    else if v.lane.isNone && v.g.exited &&& v.g.all == v.g.all then .next s
    else
      match s.fetch v v.t.pc with
      | (s, .halt c ad) => .next (s.haltV v { cause := c, addr := ad })
      | (s, .fault l) =>
        .next (s.fetchFault { v with act := if v.act = 0 then (v.g.top.map Entry.emask).getD 0 else v.act } v.t.pc l)
      | (s, .word w) =>
        if v.t.pc.toNat % 8 != 0 || !hdrOk w v.g.vallot then .next (s.haltV v { cause := .framing })
        else
          match v.lane with
          | none => .next (s.arriveGang v w)
          | some _ => .next (s.arriveLane v w)

/-- HEADER_ARRIVE. -/
def execHeaderArrive (a : Actor) (s : State) : Out :=
  match s.viewOf a with
  | none => .fault .noAgent
  | some v => s.withStack v.uid fun s => s.arriveHeader a

/-- A lane's merge into its gang, with the gang's stack after it (R364, R366, R367, R381). -/
def State.mergeLane (s : State) (c : Nat) (lc : LaneCtx) (g : Gang) : State :=
  let live := hdrLive g.thr.hdr
  let g := { g with thr := { g.thr with regs := mergeRegs live lc g.thr.regs }, deadSince := none }
  (({ s with gangs := tput s.gangs lc.gang g, lanes := tdel s.lanes c }).acquire (s.coreAgent g.core)).hold lc.gang
    (mergeCost live + g.extra)

/-- A lane waiting at its rejoin header, or parked at the header where its gang meets, is merged once its writes are performed;
a posted error of theirs halts (R144). -/
def State.tryMerge (s : State) (c : Nat) (lc : LaneCtx) (g : Gang) : State :=
  let bit := laneBit lc.lane
  if lc.thr.flights.any (fun f => !f.complete) || !g.thr.atHdr || lc.thr.pc != g.thr.pc then s
  else
    let finish (g' : Gang) : State :=
      match lc.thr.postErr with
      | some pe =>
        (s.clearPosted (.lane c) lc.gang).haltGang lc.gang pe.cause lc.thr.pc bit
          pe.addr
      | none => s.mergeLane c lc g'
    match lc.st, g.thr.wait, g.stack.reverse with
    | .waiting, .waitMerge t0, top :: rest =>
      if hasLane top.emask lc.lane then
        let top := { top with mask := top.mask ||| bit, emask := top.emask &&& ~~~bit }
        let w : Wait := if top.emask = 0 then .none else .waitMerge t0
        finish { g with stack := (top :: rest).reverse, thr := { g.thr with wait := w } }
      else s
    | .parked, .rendezvous _, _ :: _ =>
      let r := chainAdd g.stack bit
      let g' := { g with stack := r.1, dmask := g.dmask &&& ~~~bit }
      if r.2.isSome then s.whole lc.gang fun _ => finish g' else finish g'
    | _, _, _ => s

/-- LANE_MERGE (R366, R373). -/
def execLaneMerge (c : Nat) (s : State) : Out :=
  match tget s.lanes c with
  | none => .fault .noAgent
  | some lc =>
    s.withStack lc.gang fun s =>
      match tget s.gangs lc.gang with
      | none => .fault .noAgent
      | some g => .next (s.tryMerge c lc g)

/-- A WaitMerge's lanes are detached: every lane still ejected leaves the stack, and those that waited go on (R371). -/
def State.detach (s : State) (u : Nat) (m : Mask) : State :=
  let s := s.modGang u fun g => { g with
    stack := g.stack.map fun e => { e with mask := e.mask &&& ~~~m, emask := e.emask &&& ~~~m }
    dmask := g.dmask ||| m
    thr := { g.thr with wait := .none } }
  let lanes := s.lanes.map fun e =>
    if e.2.gang == u && hasLane m e.2.lane then
      (e.1, { e.2 with st := .detached, thr := { e.2.thr with atHdr := e.2.thr.atHdr || e.2.st == .waiting } })
    else e
  let s := { s with lanes := lanes }
  match (tget s.gangs u).bind Gang.top with
  | some e => if e.mask = 0 then s.settleGang u else s
  | none => s

/-- RJT_DETACH (R371): a WaitMerge that has lasted RJT cycles ends. -/
def execRjtDetach (u : Nat) (s : State) : Out :=
  match tget s.gangs u with
  | none => .fault .noAgent
  | some g =>
    let rjt := (s.gridOf g).rjt
    match g.thr.wait, g.top with
    | .waitMerge t0, some e =>
      if rjt = 0 || decide (s.clk g.core < t0 + rjt) then .next s
      else s.withStack u fun s => .next (s.whole u fun s => s.detach u e.emask)
    | _, _ => .next s

/-- RENDEZVOUS_TIMEOUT (R373): the wait for detached lanes ends, and the block at the header begins. -/
def execRendezvousTimeout (u : Nat) (s : State) : Out :=
  match s.viewOf (.gang u) with
  | none => .fault .noAgent
  | some v =>
    match v.t.wait with
    | .rendezvous t0 =>
      let here := (s.parkedOf u).any fun e => e.2.thr.pc == v.t.pc
      if here || decide (v.now < t0 + (s.gridOf v.g).rjt) then .next s
      else .next (s.beginBlock v v.t.pc v.t.hdr)
    | _ => .next s

/-- Whether an instruction is ejection-unsafe (R368). -/
def Instr.unsafeOnPool : Instr → Bool
  | .barSync _ _ | .barArrive _ _ | .barinit _ _ | .amodeSto _ _ | .amodeRck _ _ | .mcal _ _ | .macq _ _ | .mrel _ _
  | .mloop _ | .mloopRes _ | .bcopy _ _ _ _ _ _ | .bfill _ _ _ | .shfl _ _ _ | .vote _ _ | .gred _ _ _
  | .gscan _ _ _ | .rdlane _ | .wrlane _ | .gjoin _ _ | .forkg _ | .grwd _ | .gbar _ | .commit _ | .spawn _
  | .qpush _ | .qpop _ | .pgmap _ | .pgunmap _ | .tlbinv _ | .pgtake _ | .rets _ | .pclr _ | .orclm _
  | .haltg _ => true
  | _ => false

/-- EARLY_RETURN (R368, R369): an ejected or detached lane stands at an ejection-unsafe instruction. -/
def execEarlyReturn (c : Nat) (s : State) : Out :=
  match s.viewOf (.lane c) with
  | none => .fault .noAgent
  | some v =>
    let runs := match (tget s.lanes c).map LaneCtx.st with
      | some .ejected | some .detached => true
      | _ => false
    let word := (tget v.t.fbuf v.t.pc.toNat).orElse fun _ => s.prefetch v v.t.pc
    match word.map decode with
    | some (.ok i) =>
      if runs && !v.t.atHdr && Instr.unsafeOnPool i then s.withStack v.uid fun s => .next (s.earlyReturn c) else .next s
    | _ => .next s

/-- Whether a gang stands in rejoin deadlock (R376). -/
def State.dead (s : State) (u : Nat) (g : Gang) : Bool :=
  let mine := (s.lanes.filter fun e => e.2.gang == u).map Prod.snd
  let away := mine.foldl (init := (0 : Mask)) fun m l => m ||| laneBit l.lane
  g.active == 0 && (g.exited ||| g.jw ||| away) &&& g.all == g.all && g.exited &&& g.all != g.all &&
    mine.all (fun l => (l.st == .waiting || l.st == .parked) && l.thr.flights.all Flight.complete) &&
    g.thr.flights.all Flight.complete &&
    (match g.thr.wait with | .waitu _ => false | _ => true) && !g.ended && !g.halted

/-- REJOIN_DEADLOCK (R376): the condition is noted, and after 1024 cycles of it the gang halts. -/
def execRejoinDeadlock (u : Nat) (s : State) : Out :=
  match tget s.gangs u with
  | none => .fault .noAgent
  | some g =>
    if !s.dead u g then .next (s.modGang u fun g => { g with deadSince := none })
    else
      match g.deadSince with
      | none => .next (s.modGang u fun g => { g with deadSince := some (s.clk g.core) })
      | some t =>
        if s.clk g.core < t + 1024 then .next s
        else
          let hpc := match lowest g.jw with
            | some l => mget 0 g.jpc l
            | none =>
              let mine := (s.lanes.filter fun e => e.2.gang == u).map Prod.snd
              ((List.range 64).findSome? fun l => (mine.find? fun c => c.lane == l).map fun c => c.thr.pc).getD 0
          .next (s.haltGang u .rejoinDeadlock hpc g.jw 0)

end Sys2Proof.Machine
end

