-- ==== Sys2Proof/Machine/MemEvents.lean ====
section
/-!
DEFINITION. The events of the memory system: landings, registration, forwarding, revocation, write-backs, far accesses,
locks, lost owners, timeouts and links (R125 to R148, R465), walks and instruction fills (R99, R199), soft errors (R146).
-/
namespace Sys2Proof.Machine

/-- LOAD_DATA_LAND (R66, R144, R172): data that has wholly returned lands, scratchpad data not before its
cycle (R238); an MCAS goes on (R190). -/
def execLoadDataLand (a : Actor) (id : Nat) (s : State) : Out :=
  match s.viewOf a with
  | none => .fault .noAgent
  | some v =>
    match v.t.flights.find? fun f => f.id == id with
    | none => .next s
    | some f =>
      if f.landed || f.wait != 0 || f.kind == .write || f.kind == .line then .next s
      else
        match f.mcas with
        | some st => .next (if s.landBusy a id then s.stir (s.framePa v.g) 0x1000 else s.mcasStep v f st)
        | none =>
          if s.clk v.g.core < f.due || (f.bytes.any fun b => b.val.isNone && b.err.isNone) || v.t.readsBefore f || s.landBusy a id then
            .next (if s.landBusy a id then s.stir (s.framePa v.g) 0x1000 else s)
          else .next (s.land v f)

/-- Whether a request may reach home: no earlier request of the same agent for bytes of the unit is still on its way, and an
atomic comes after the values of its thread's earlier reads (R125, R166; assumption 99). -/
def State.inOrder (s : State) (m : Nat) (r : HomeReq) : Bool :=
  let behind := s.net.any fun x => decide (x.id < m) && match x.body with
    | .req q => q.agent == r.agent && (q.units.any fun k => r.units.any fun j => inUnit k (unitBase j) || inUnit j (unitBase k))
    | _ => false
  let reads := match r.req with
    | .farAtomic (some a) fl _ _ _ _ _ _ _ =>
      ((s.thr? a).map Thr.flights).any fun fs => fs.any fun g => g.reads && decide (g.id < fl) && g.wait != 0
    | _ => false
  !behind && !reads

/-- An owner's answer to a revocation (R131): the dirty words travel home, the unit's words stay Valid. -/
def State.answerRevoke (s : State) (a k : Nat) : State :=
  let dirty := (s.l1Of a).dirtyOf k
  (s.surrender a k).send (.writeBack a k dirty)

/-- An owner's answer to a forwarded load (R132): it stays owner, its words are home's too. -/
def State.answerForward (s : State) (a k : Nat) : State :=
  let c := s.l1Of a
  let ws := c.dirtyOf k
  (s.setL1 a (c.clean ws)).takeForward a k ws

/-- Honour what an agent held back until a grant (R130). -/
def State.honour (s : State) (a k : Nat) : State :=
  let c := s.l1Of a
  let fwd := c.heldFwd.contains k
  let rev := c.heldRev.contains k
  let s := s.setL1 a { c with heldFwd := c.heldFwd.filter (· != k), heldRev := c.heldRev.filter (· != k) }
  let s := if fwd then s.answerForward a k else s
  if rev then s.answerRevoke a k else s

/-- An agent no longer holds stores pending for a unit. -/
def State.unpend (s : State) (a k : Nat) : State :=
  let c := s.l1Of a
  s.setL1 a { c with pend := c.pend.filter (fun p => p.ukey != k), asked := c.asked.filter (· != k) }

/-- The stores an agent holds pending for a unit fail: each lane's error is posted (R144). -/
def State.dropPending (s : State) (a k : Nat) (er : MemErr) : State :=
  let mine := (s.l1Of a).pend.filter fun p => p.ukey == k
  (s.unpend a k).storesDone mine (mine.map fun p => (p.actor, er.posted p.va p.flight p.lane))

/-- A denied registration (R122, R133): the pending stores of the unit go home as far stores, lane by lane. -/
def State.goFar (s : State) (a k : Nat) : State :=
  let mine := (s.l1Of a).pend.filter fun p => p.ukey == k
  let s := (s.unpend a k).storesDone mine []
  (storeGroups mine).foldl (init := s) fun s g =>
    match g with
    | [] => s
    | p :: _ =>
      let runs := farRuns (g.map fun q => { pa := q.pa, val := q.val, ukey := k, far := true, va := q.va })
      let s := runs.foldl (init := s) fun s run =>
        match run with
        | [] => s
        | b :: _ =>
          (s.farTouch a b.pa run.length).request a k (.farStore (some p.actor) p.flight p.lane b.pa (run.map SByte.val) b.va)
            p.prpt
      s.modThr p.actor fun t => t.modFlight p.flight fun x => { x with wait := x.wait + runs.length }

/-- The lines that hold a unit's words. -/
def unitLines (k : Nat) : List Nat := ((unitWords k).map fun w => w / 8).eraseDups

/-- Lines for the words of a unit that is granted, as the store that asked for it has them (R149, R150): none of them makes
room for another (R127). -/
def State.allocUnit (s : State) (a k : Nat) : State :=
  let alloc (ctx : BitVec 12) (pol : Pol) : State :=
    (unitLines k).foldl (init := s) fun s ln => s.allocLine a ln ctx pol (unitLines k).contains
  match (s.l1Of a).pend.find? fun p => p.ukey == k with
  | none => alloc 0 .page
  | some p => alloc (((tget s.gangs (s.gangUid p.actor)).map Gang.ctx).getD 0) p.pol

/-- REGISTRATION_GRANT (R129, R130): a grant fills the unit and performs its pending stores, then what was held is
honoured; a denial sends the stores far; an error posts them (R144). -/
def execRegistrationGrant (m : Nat) (s : State) : Out :=
  match s.net.find? fun x => x.id == m with
  | some ⟨_, .grant a k ws err⟩ =>
    let s := s.unsend m
    if !s.localAgent a then .next s
    else
      match err with
      | none => .next (((s.allocUnit a k).takeGrant a k ws).honour a k)
      | some e => .next ((s.dropPending a k (if pkgOf (unitBase k) = s.pkg.toNat then e else .remote)).honour a k)
  | some ⟨_, .denied a k⟩ =>
    let s := s.unsend m
    if !s.localAgent a then .next s else .next ((s.goFar a k).honour a k)
  | _ => .next s

/-- FORWARDED_LOAD (R130, R132). -/
def execForwardedLoad (m : Nat) (s : State) : Out :=
  match s.net.find? fun x => x.id == m with
  | some ⟨_, .forward a k⟩ =>
    if !s.localAgent a then .next s
    else
      let s := s.unsend m
      let c := s.l1Of a
      if c.asked.contains k && !c.owned.contains k then
        .next (s.setL1 a { c with heldFwd := c.heldFwd ++ [k] })
      else .next (s.answerForward a k)
  | _ => .next s

/-- REVOCATION (R130, R131). -/
def execRevocation (m : Nat) (s : State) : Out :=
  match s.net.find? fun x => x.id == m with
  | some ⟨_, .revoke a k⟩ =>
    if !s.localAgent a then .next s
    else
      let s := s.unsend m
      let c := s.l1Of a
      if c.asked.contains k && !c.owned.contains k then
        .next (s.setL1 a { c with heldRev := c.heldRev ++ [k] })
      else .next (s.answerRevoke a k)
  | _ => .next s

/-- WRITE_BACK (R131): home takes the words and clears the owner; a remote owner's answer to a forward leaves it. -/
def execWriteBack (m : Nat) (s : State) : Out :=
  match s.net.find? fun x => x.id == m with
  | some ⟨_, .writeBack a k ws⟩ =>
    let s := s.unsend m
    let fwd := match (s.unit k).stage with | .forwarding o _ => o == a && !s.localAgent a | _ => false
    if fwd then .next (s.takeForward a k ws)
    else .next ((s.takeWriteBack a k ws).drainAll k)
  | _ => .next s

/-- STORE_ACK (R135, R144): a far write is performed, or its error is posted. -/
def execStoreAck (m : Nat) (s : State) : Out :=
  match s.net.find? fun x => x.id == m with
  | some ⟨_, .ack actor fl lane err va⟩ =>
    let s := s.unsend m
    match actor with
    | none => .next s
    | some a => .next (s.ackWrite a (err.map fun e => e.posted va fl lane) fl)
  | _ => .next s

/-! ## Lost owners, timeouts and links -/

/-- Poison every word of a unit in memory (R142). -/
def State.poisonUnit (s : State) (k : Nat) : State :=
  (unitWords k).foldl (init := s) fun s w => { s with poison := mset false s.poison w true }

/-- OWNER_LOST (R142): an owner on another package than home has not answered for 20 µs; the home's HKC logs it. -/
def execOwnerLost (k : Nat) (s : State) : Out :=
  let u := s.unit k
  let go (o sent : Nat) : Out :=
    if o / 4096 == pkgOf (unitBase k) || s.ps < sent + 20000000 then .next s
    else
      let e := s.entry k
      let s := (s.setEntry k { e with ol := true, owner := none, cst := 0 }).poisonUnit k
      let s := s.setUnit k { u with queue := [], stage := .idle, prpt := none }
      let s := u.queue.foldl State.serve s
      let s := s.send (.lost o k)
      let s := { s with net := s.net.filter fun x => x.body != Body.revoke o k && x.body != Body.forward o k }
      let s := if pkgOf (unitBase k) == s.pkg.toNat then s.logErr 2 (BitVec.ofNat 64 (unitBase k)) (BitVec.ofNat 64 o) else s
      match (u.queue.findSome? HomeReq.prpt).orElse fun _ => u.prpt with
      | some g => .next { s with posts := s.posts ++ [{ grid := g, kind := 5, data0 := BitVec.ofNat 64 (unitBase k) }] }
      | none => .next s
  match u.stage with
  | .revoking o t => go o t
  | .forwarding o t => go o t
  | .idle => .next s

/-- OWNER_LOST_NOTICE (R128, R143): the unit's words are dropped, and the gangs that stored to it are marked. -/
def execOwnerLostNotice (m : Nat) (s : State) : Out :=
  match s.net.find? fun x => x.id == m with
  | some ⟨_, .lost a k⟩ =>
    let s := s.unsend m
    if !s.localAgent a then .next s
    else
      let c := s.l1Of a
      let gs := (tget c.storers k).getD []
      let c := { c with
        words := (unitWords k).foldl (init := c.words) fun ws w =>
          match tget ws w with | some x => if x.owned then tdel ws w else ws | none => ws
        owned := c.owned.filter (· != k)
        storers := tdel c.storers k
        lostGangs := c.lostGangs ++ gs.map fun g => (g, unitBase k) }
      .next (((s.setL1 a c).cancelFills a (unitWords k)).logErr 4 (BitVec.ofNat 64 (unitBase k)) (BitVec.ofNat 64 a))
  | _ => .next s

/-- The error that the initiator of a request receives (R144, R465, R491). -/
def State.failed (s : State) (r : HomeReq) (er : MemErr := .remote) : State :=
  match r.req with
  | .fill actor fl pa _ pol => s.answer actor fl fun f => f.give pa s.fresh [] (some er) false pol
  | .reg _ => s.dropPending r.agent r.ukey er
  | .farStore actor fl lane _ _ va =>
    match actor with
    | none => s
    | some a => s.ackWrite a (some (er.posted va fl lane)) fl
  | .plane a fl lane _ _ _ _ va => s.ackWrite a (some (er.posted va fl lane)) fl
  | .red a fl lane _ _ _ _ _ va => s.ackWrite a (some (er.posted va fl lane)) fl
  | .watch a lane pa _ _ => s.answerWatch a lane pa (.error er) false
  | .farAtomic actor fl lane _ _ _ _ _ va => s.answerErr actor fl lane er va (er == .remote)
  | .lock a fl => s.answer (some a) fl fun f => { f with wait := f.wait - 1, err := some er }
  | .peer _ => s.send (.ack none r.agent 64 (some er) 0)

/-- Home answers an inbound request to an unbacked address or a gated die with an error and logs it (R465). -/
def State.turnAway (s : State) (r : HomeReq) : State :=
  let s := s.noteInbound r
  match r.req with
  | .reg _ => s.send (.grant r.agent r.ukey [] (some .remote))
  | .farStore actor fl lane _ _ va => s.send (.ack actor fl lane (some .remote) va)
  | .plane a fl lane _ _ _ _ va => s.send (.ack (some a) fl lane (some .remote) va)
  | _ => s.failed r

/-- A request that reaches home, if it is of the kind an event names; a request of this package whose home's die has been
gated since is answered with DIE_GATED (R491). -/
def State.reqEvent (s : State) (m : Nat) (kind : Req → Bool) : Out :=
  match s.net.find? fun x => x.id == m with
  | some ⟨_, .req r⟩ =>
    if !(kind r.req && s.inOrder m r) then .next s
    else if s.inbound r && (s.paHalt (unitBase r.ukey)).isSome then .next ((s.unsend m).turnAway r)
    else if s.paHalt (unitBase r.ukey) == some .dieGated then .next ((s.unsend m).failed r .gated)
    else .next ((s.unsend m).arrive r)
  | _ => .next s

/-- REGISTRATION_REQUEST (R129). -/
def execRegistrationRequest (m : Nat) (s : State) : Out :=
  s.reqEvent m fun r => match r with | .reg _ => true | _ => false

/-- HOME_FILL (R132): a read reaches home, a load's or a WAITU's (R196), a peer's claim or end of monitors or its ORCLM
(R473). -/
def execHomeFill (m : Nat) (s : State) : Out :=
  s.reqEvent m fun r => match r with
    | .fill _ _ _ _ _ | .watch _ _ _ _ _ | .peer (.watch _ _ _) | .peer .unwatch | .peer .orclm => true
    | _ => false

/-- FAR_STORE (R133, R147), the merged update of a BPK's plane word (R180), and a peer's PCLR (R463, R473). -/
def execFarStore (m : Nat) (s : State) : Out :=
  s.reqEvent m fun r => match r with
    | .farStore _ _ _ _ _ _ | .plane _ _ _ _ _ _ _ _ | .peer (.pclr _ _) => true
    | _ => false

/-- FAR_ATOMIC (R186), and a reduction on its way to its die's partial (R138). -/
def execFarAtomic (m : Nat) (s : State) : Out :=
  s.reqEvent m fun r => match r with
    | .farAtomic _ _ _ _ _ _ _ _ _ | .red _ _ _ _ _ _ _ _ _ => true
    | _ => false

/-- MCAS_LOCK (R191), and a peer's lock or unlock (R473). -/
def execMcasLock (m : Nat) (s : State) : Out :=
  s.reqEvent m fun r => match r with | .lock _ _ | .peer .lock | .peer .unlock => true | _ => false

/-- Answer a remote request with an error at its initiator, whose HKC logs it (R144, R465). -/
def State.failReq (s : State) (r : HomeReq) : State :=
  (s.logErr 1 (BitVec.ofNat 64 (unitBase r.ukey)) (BitVec.ofNat 64 r.agent)).failed r

/-- Mark requests as timed out wherever they are. -/
def State.markTimed (s : State) (sel : HomeReq → Bool) : State :=
  let mark (r : HomeReq) : HomeReq := if sel r then { r with timedOut := true } else r
  { s with
    net := s.net.map fun x => match x.body with | .req r => { x with body := .req (mark r) } | _ => x
    home := s.home.map fun e => (e.1, { e.2 with queue := e.2.queue.map mark }) }

/-- The requests that have not been answered. -/
def State.openReqs (s : State) : List HomeReq :=
  (s.net.filterMap fun x => match x.body with | .req r => some r | _ => none) ++ s.home.flatMap fun e => e.2.queue

/-- Whether a request of this package goes to another one. -/
def State.outbound (s : State) (r : HomeReq) : Bool :=
  s.localAgent r.agent && pkgOf (unitBase r.ukey) != s.pkg.toNat && !r.timedOut

/-- REMOTE_TIMEOUT (R144): a remote request unanswered for 100 µs. -/
def execRemoteTimeout (m : Nat) (s : State) : Out :=
  match s.openReqs.find? fun r => r.id == m && s.outbound r with
  | none => .next s
  | some r =>
    if s.ps < r.sent + 100000000 then .next s
    else .next ((s.markTimed fun q => q.id == m).failReq r)

/-- LATE_ANSWER (R465). -/
def execLateAnswer (m : Nat) (s : State) : Out :=
  match s.net.find? fun x => x.id == m with
  | some ⟨_, .late⟩ => .next ((fun s : State => { s with hkc := { s.hkc with late := s.hkc.late + 1 } }) (s.unsend m))
  | _ => .next s

/-- LINK_DOWN (R465, R475): a port goes down. Every request that is still unanswered was sprayed on it among others, and fails;
later ones use the ports that remain. -/
def execLinkDown (port : Nat) (s : State) : Out :=
  if 18 ≤ port || s.down.getLsbD port then .next s
  else .next ((s.openReqs.filter s.outbound).foldl State.failReq
    (({ s with down := s.down ||| (1#18 <<< port) } : State).markTimed s.outbound))

/-! ## Walks, instruction lines, soft errors -/

/-- PAGE_WALK (R98, R99): a walk completes and its leaf is cached by the agent. -/
def execPageWalk (agent : Nat) (ctx : BitVec 12) (va : Word) (s : State) : Out :=
  let s := s.walkRead ctx va
  match s.walk ctx va with
  | .leaf l => .next (s.useFree.setFront agent ((s.frontOf agent).fillTlb ctx l))
  | _ => .next s.useFree

/-- The fetch fault of a thread at its next word. -/
def State.fetchFaultAt (s : State) (v : View) (level : Nat) : State :=
  s.pageFaultV v v.act ((lanesOf v.act).map fun l => (l, v.t.pc)) .fetch level

/-- INSTRUCTION_CACHE_FILL (R199): the line's current words at home enter the thread's instruction cache; if the thread
stands in the line and the fetch is refused, it halts or faults. -/
def execInstructionCacheFill (a : Actor) (line : Word) (s : State) : Out :=
  match s.viewOf a with
  | none => .fault .noAgent
  | some v =>
    let va : Word := BitVec.ofNat 64 (line.toNat / 64 * 64)
    let here := v.t.pc.toNat / 64 == line.toNat / 64 && !v.g.halted && !v.g.ended && v.t.wait == .none &&
      (tget v.t.fbuf v.t.pc.toNat).isNone && v.act != 0
    match s.xlatPage (v.agent s) v.g.ctx v.sup .fetch va 0 64 with
    | (s, .ok ps) =>
      let pa := paAt ps 0
      let cohg := ((pieceAt ps 0).map fun q => q.2.cohg).getD 0
      let s := if s.homeBusy pa 64 then { s with unread := s.unread.orElse fun _ => some (pa, 64) } else s.mergeOver pa 64
      let js := (List.range 8).filter fun j => (s.fetchErr (pa + 8 * j) cohg).isNone
      .next (s.cacheWords (v.agent s) (js.map fun j => (pa / 8 + j, s.homeWord (pa + 8 * j))))
    | (s, .halt c ad) => .next (if here then s.haltV v { cause := c, addr := ad } else s)
    | (s, .fault l _) => .next (if here then s.fetchFaultAt v l else s)

/-- The grids that are told of a lasting error at an address (R94): those of a context for which some agent of the package
holds a leaf with PRPT that maps it (assumption 100). -/
def State.prptGrids (s : State) (pa : Nat) : List Nat :=
  let maps (t : TlbEntry) : Bool := t.pte.getLsbD 9 && pteFrame t.pte ≤ pa && pa < pteFrame t.pte + t.size
  let ctxs := s.front.flatMap fun e => (e.2.tlb.filter maps).map TlbEntry.ctx
  (s.grids.filter fun g => ctxs.contains g.2.ctx).map Prod.fst

/-- A lasting error is entered in the HKC's log (R146), with what it struck; at a word of memory it is told to the grids of
a page with PRPT (R94). -/
def State.noteLasting (s : State) (what : Nat) (x : Word) (pa : Option Nat) : State :=
  let s := s.logErr 6 x (BitVec.ofNat 64 what)
  match pa with
  | none => s
  | some pa => (s.prptGrids pa).foldl (init := s) fun s g =>
      { s with posts := s.posts ++ [{ grid := g, kind := 5, data0 := BitVec.ofNat 64 pa }] }

/-- SOFT_ERROR (R146, R461): a detected error is transient and counted, or lasting: it acts on its word and is logged. -/
def execSoftError (site : SoftSite) (s : State) : Out :=
  let lasting := Config.pick s.free % 2 == 1
  let s := s.useFree
  if !lasting then .next { s with hkc := { s.hkc with transient := s.hkc.transient + 1 } }
  else
    match site with
    | .memory pa => .next ((setPoison s pa true).noteLasting 0 (BitVec.ofNat 64 pa) (some pa))
    | .l1 agent pa =>
      let c := s.l1Of agent
      match c.word (pa / 8) with
      | none => .next s
      | some w =>
        let s := s.noteLasting 1 (BitVec.ofNat 64 pa) (some pa)
        if w.owned then .next (s.setL1 agent { c with words := tput c.words (pa / 8) { w with poison := true, dirty := true } })
        else .next ((s.setL1 agent { c with words := tdel c.words (pa / 8) }).cancelFills agent [pa / 8])
    | .vreg a r l =>
      .next ((s.modThr a fun t => { t with regs := { t.regs with vp := mset false t.regs.vp (vkey r l) true } }).noteLasting
        2 (BitVec.ofNat 64 (vkey r l)) none)
    | .array key off =>
      let a := s.arr key
      .next ((s.setArr key { a with poison := mset false a.poison (off / 8) true }).noteLasting
        3 (BitVec.ofNat 64 (65536 * key + off)) none)

end Sys2Proof.Machine
end

