-- ==== Sys2Proof/Machine/Queues.lean ====
section
/-!
DEFINITION. Continuation records, queues, join counters, event records and the instructions on them (R394, R395, R400
to R412, R542), and the supervisor instructions on translation and poison (R115 to R119, R448, R452, R463, R464).
-/
namespace Sys2Proof.Machine

/-! ## Continuation records (R394, R395) -/

/-- A record from its 64 bytes. -/
def Rec.ofBytes (b : List Byte) : Rec :=
  let sh := fieldN b 28 2
  let fl := fieldN b 30 1
  { hdr := fieldW b 0, frame := fieldW b 8, jcnt := fieldW b 16, flen := fieldN b 24 4, gangs := sh % 32,
    pair := sh / 32 % 2 == 1, arrays := sh / 64 % 64, idem := fl % 2 == 1, sys := fl / 2 % 2 == 1,
    join := fl / 4 % 2 == 1, ganged := fl / 8 % 2 == 1, grp := fl / 16 % 2 == 1, sibx := fieldN b 31 1,
    args := [fieldW b 32, fieldW b 40, fieldW b 48, fieldW b 56] }

/-- GANGS as stored: 32 does not fit five bits other than as 0 (assumption 40). -/
def Rec.count (r : Rec) : Nat := if r.gangs = 0 && r.pair then 32 else r.gangs

/-- A record as its 64 bytes. -/
def Rec.bytes (r : Rec) : List Byte :=
  wbytes r.hdr ++ wbytes r.frame ++ wbytes r.jcnt ++ bytesOf 4 r.flen ++
    bytesOf 2 (r.gangs % 32 + 32 * bnat r.pair + 64 * (r.arrays % 64)) ++
    [BitVec.ofNat 8 (bnat r.idem + 2 * bnat r.sys + 4 * bnat r.join + 8 * bnat r.ganged + 16 * bnat r.grp),
     BitVec.ofNat 8 r.sibx] ++ (List.range 4).flatMap fun j => wbytes ((r.args[j]?).getD 0)

/-- Whether a record as bytes has a nonzero reserved field (R394). -/
def recReserved (b : List Byte) : Bool :=
  let r := Rec.ofBytes b
  fieldN b 28 2 / 4096 != 0 || fieldN b 30 1 / 32 != 0 || (!r.join && r.jcnt != 0) || (!r.grp && r.sibx != 0)

/-- Gangs of a team on its first core (R395). -/
def Rec.onFirst (r : Rec) : Nat := if r.pair then (r.count + 1) / 2 else r.count

/-- Gang numbers on a core of the team. -/
def Rec.gangsOn (r : Rec) (second : Bool) : List Nat :=
  (List.range r.count).filter fun g => if second then decide (r.onFirst ≤ g) else decide (g < r.onFirst)

/-- Whether a shape is legal for a width and allotment (R395). -/
def Rec.shapeOk (r : Rec) (width vallot : Nat) : Bool :=
  let unitOk (gs : List Nat) : Bool := (List.range 4).all fun u =>
    let n := (gs.filter fun g => g % 4 == u).length
    decide (n * width * vallot * 4 ≤ 131072) && decide (n ≤ 16)
  (if r.pair then decide (2 ≤ r.count) && decide (r.count ≤ 32) && decide (r.arrays ≤ 32)
   else decide (1 ≤ r.count) && decide (r.count ≤ 16) && decide (r.arrays ≤ 16)) &&
    unitOk (r.gangsOn false) && unitOk (r.gangsOn true)

/-! ## Queue descriptors (R400) -/

/-- A queue descriptor. -/
structure QDesc where
  base : Word
  cap : Nat
  esz : Nat
  head : Nat
  tail : Nat
  free : Nat
  items : Nat
  kind : Nat
  dmask : Nat
  grid : Nat
  hook : Word
  lost : Nat
  ok : Bool
  deriving DecidableEq, Repr

/-- Whether n is a power of two between two bounds. -/
def pow2Between (n lo hi : Nat) : Bool := decide (lo ≤ n) && decide (n ≤ hi) && n == 2 ^ Nat.log2 n

/-- A descriptor from its 64 bytes; `ok` says that R401's checks on it pass. -/
def QDesc.ofBytes (b : List Byte) : QDesc :=
  let kind := fieldN b 40 1
  let cap := fieldN b 8 4
  let esz := fieldN b 12 4
  let eszOk := match kind with
    | 0 => pow2Between esz 8 4096
    | 2 => esz == 8
    | 1 | 3 => esz == 64
    | _ => false
  let dm := fieldN b 41 1
  let gr := fieldN b 42 2
  let lost := fieldN b 56 4
  { base := fieldW b 0, cap := cap, esz := esz, head := fieldN b 16 8, tail := fieldN b 24 8, free := fieldN b 32 4,
    items := fieldN b 36 4, kind := kind, dmask := dm, grid := gr, hook := fieldW b 48, lost := lost,
    ok := decide (kind ≤ 3) && pow2Between cap 1 (2 ^ 24) && eszOk && fieldN b 44 4 == 0 && fieldN b 60 4 == 0 &&
      (kind == 1 || (dm == 0 && gr == 0)) && (kind == 3 || lost == 0) }

/-- The address of slot i (R400). -/
def QDesc.slot (q : QDesc) (i : Nat) : Word := q.base + BitVec.ofNat 64 (q.esz * (i % q.cap))

/-! ## Phases of a device operation (R401) -/

/-- How a device operation of a thread goes. -/
inductive Res where
  | wait (s : State)
  | halt (s : State) (h : HaltWhy)
  | fault (s : State) (w : Want) (level : Nat) (va : Word)
  | done (s : State)
  deriving DecidableEq, Repr

/-- Translate and check addresses for a thread (R401, R408). -/
def State.tAddr (s : State) (v : View) (w : Want) (va : Word) (n align : Nat) (k : State → List Piece → Res) : Res :=
  match s.deviceAddr v w va n align with
  | (s, .halt c a) => .halt s { cause := c, addr := a }
  | (s, .fault l a) => .fault s w l a
  | (s, .ok ps) => k s ps

/-- Translate and check addresses for a thread, and meet there what home answers (R142, R144, R401). -/
def State.tPlace (s : State) (v : View) (w : Want) (va : Word) (n align : Nat) (k : State → List Piece → Res) : Res :=
  s.tAddr v w va n align fun s ps =>
    match s.errAt w ps n with
    | some e => .halt (s.noteRemote (pasOf ps n)) { cause := e.halt, addr := va }
    | none => k s ps

/-- Wait for the units of some stretches (R125, R191). -/
def State.await (s : State) (v : View) (ps : List Piece) : Res := .wait (s.stirPieces ps (s.teamOf v.g).grid)

/-- Whether the agent's own accesses to a unit of some stretches are still on their way. -/
def State.ownPending (s : State) (v : View) (ps : List Piece) : Bool :=
  ps.any fun p => (unitsOver p.pa p.n).any fun a => s.busyUnit (v.agent s) a || s.farPending (v.agent s) a

/-- Whether a unit of some stretches is in use at home, or the agent's own accesses to it are still on their way. -/
def State.queueBusy (s : State) (v : View) (ps : List Piece) : Bool := s.busyPieces ps || s.ownPending v ps

/-- Act on some stretches once nothing else is under way for them, with their units taken at home: the action phase of R401. -/
def State.whenFree (s : State) (v : View) (ps : List Piece) (k : State → Res) : Res :=
  if s.queueBusy v ps then s.await v ps else k (s.recallAt ps)

/-- Read a checked record at home, after the agent's own accesses to it: an error from home halts as a load does (R132, R144). -/
def State.tRead (s : State) (v : View) (ps : List Piece) (n : Nat) (va : Word) (k : State → List Byte → Res) : Res :=
  if s.busyReads ps || s.ownPending v ps then .wait (s.stirReads ps (s.teamOf v.g).grid)
  else
    match s.errPieces ps n with
    | some e => .halt (s.noteRemote (pasOf ps n)) { cause := e.halt, addr := va }
    | none => k (s.readAt ps) (s.readPieces ps n)

/-- A queue descriptor of a thread's operation, checked. -/
def State.tQueue (s : State) (v : View) (va : Word) (k : State → QDesc → List Piece → Res) : Res :=
  s.tAddr v .rmw va 64 64 fun s ps =>
    s.tRead v ps 64 va fun s b =>
      let q := QDesc.ofBytes b
      if !q.ok then .halt s { cause := .queueDesc } else k s q ps

/-- Write a number into a field of a record. -/
def State.putField (s : State) (ps : List Piece) (off n x : Nat) : State :=
  (List.range n).foldl (init := s) fun s j => s.devWrite (paAt ps (off + j)) [BitVec.ofNat 8 (x / 256 ^ j)]

/-- Write a field of n bytes that lies within one stretch. -/
def State.putFieldW (s : State) (ps : List Piece) (off n x : Nat) : State := s.devWrite (paAt ps off) (bytesOf n x)

/-- Write s[n] at once; pending older writes of it are superseded. -/
def State.putS (s : State) (a : Actor) (n : Nat) (x : Word) : State :=
  s.modThr a fun t => { t with regs := t.regs.setS n x, pend := t.pend.map (Pend.supersede [.s n x]) }

/-- A release before the action phase (R410). -/
def State.tRelease (s : State) (v : View) (k : State → Res) : Res :=
  match s.release v with
  | .wait s => .wait s
  | .halt h => .halt s h
  | .done s => k s

/-- The checks of an instruction that executes once on the uniform pipe, up to its action (R37, R401). -/
def State.onceReady (s : State) (u : Uses) (safe : Bool) : Except Out (State × View × Mask) :=
  match s.admits { u with safe := safe } with
  | .error o => .error o
  | .ok (s, v, ex) =>
    if ex = 0 then .error (.next (s.retire v v.t u.p.stall))
    else if v.t.held then .error (.next s)
    else
      match s.laneReady v with
      | none => .error (.next s)
      | some s => .ok (s, v, ex)

/-- What follows from the action of such an instruction. -/
def Res.finish (r : Res) (v : View) (ex : Mask) (p : Pre) : Out :=
  match r with
  | .wait s => .next s
  | .halt s h => .next (s.haltV v h)
  | .fault s w l va =>
    if v.lane.isSome then .next (s.earlyReturn v.ctxNo)
    else .next (s.pageFaultV v ex ((lanesOf ex).map fun j => (j, va)) w l)
  | .done s => .next (s.retire v ((s.thr? v.a).getD v.t) p.stall)

/-- The course of an instruction that executes once on the uniform pipe and acts by device operations (R37, R401). -/
def State.once (s : State) (u : Uses) (safe : Bool) (body : State → View → Mask → Res) : Out :=
  match s.onceReady u safe with
  | .error o => o
  | .ok (s, v, ex) => (body s v ex).finish v ex u.p

/-- The registers of a parameter run. -/
def runRegs (sb : BitVec 6) (n : Nat) : List Nat := (List.range n).map fun j => sb.toNat + j

/-! ## Pushing and taking (R408, R542) -/

/-- Put an item into slot TAIL and count it (R408); the values carried beside an item of a DISP queue stand at the
descriptor's home (R542). The hook word, if any, then rises by one. -/
def State.pushAt (s : State) (qps slot : List Piece) (hook : Option (List Piece)) (q : QDesc) (item : List Byte)
    (side : Option (Word × Option Nat)) : State :=
  let s := s.writePieces slot item
  let s := s.putFieldW qps 32 4 (q.free - 1)
  let s := s.putFieldW qps 36 4 (q.items + 1)
  let s := s.putFieldW qps 24 8 (q.tail + 1)
  let s := match side with
    | some (reca, no) => { s with sides := s.sides ++ [{ desc := paAt qps 0, item := q.tail, reca := reca, teamNo := no }] }
    | none => s
  match hook with
  | some h => s.devWrite (paAt h 0) (bytesOf 8 (valOf (s.readPieces h 8) + 1))
  | none => s

/-- The hook word of a queue, translated, if it has one. -/
def State.tHook (s : State) (v : View) (q : QDesc) (k : State → Option (List Piece) → Res) : Res :=
  if q.hook = 0 then k s none else s.tPlace v .rmw q.hook 8 8 fun s ps => k s (some ps)

/-- A live grid by number. -/
def State.liveGrid (s : State) (n : Nat) : Option Grid := if n = 0 then none else tget s.grids n

/-- Why a record may not be pushed (R409), after its alignment. -/
def recCheck (b : List Byte) (g : Grid) (sup : Bool) : Option Cause2 :=
  let r := Rec.ofBytes b
  if recReserved b || !r.shapeOk g.width g.vallot || (r.join && (r.jcnt == 0 || r.jcnt.toNat % 32 != 0)) then
    some .taskRecord
  else if r.sys && !sup then some .privilege else none

/-- QPUSH (R408, R409). -/
def execQpush (x : X1) (s : State) : Out :=
  let sb := x.sb.toNat
  s.once { p := x.p, rs := runRegs x.sb 2, ws := [sb + 2] } false fun s v _ =>
    let item := v.t.regs.getS (sb + 1)
    s.tQueue v (v.t.regs.getS sb) fun s q qps =>
      if q.kind = 1 || q.kind = 3 then .halt s { cause := .queueBind }
      else
        let act (s : State) (slot : List Piece) (hook : Option (List Piece)) (bs : List Byte) : Res :=
          s.tRelease v fun s =>
            s.whenFree v (qps ++ slot ++ hook.getD []) fun s =>
              .done (((s.pushAt qps slot hook q bs none).putS v.a (sb + 2) 0).noSpin v)
        if q.free = 0 then
          s.tRelease v fun s => s.whenFree v qps fun s => .done (s.putS v.a (sb + 2) 1)
        else
          s.tPlace v .write (q.slot q.tail) q.esz 1 fun s slot =>
            s.tHook v q fun s hook =>
              if q.esz = 8 then act s slot hook (wbytes item)
              else s.tAddr v .read item q.esz 1 fun s src =>
                s.tRead v src q.esz item fun s bs => act s slot hook bs

/-- SPAWN (R408, R409, R542). -/
def execSpawn (x : X1) (s : State) : Out :=
  let sb := x.sb.toNat
  s.once { p := x.p, rs := runRegs x.sb 2, ws := [sb + 2] } false fun s v _ =>
    let ra := v.t.regs.getS (sb + 1)
    s.tQueue v (v.t.regs.getS sb) fun s q qps =>
      if q.kind != 1 then .halt s { cause := .queueBind }
      else
        match s.liveGrid q.grid with
        | none => .halt s { cause := .queueBind }
        | some g =>
          if !v.sup && g.ctx != v.g.ctx then .halt s { cause := .privilege }
          else
            s.tAddr v .read ra 64 64 fun s src =>
              s.tRead v src 64 ra fun s bs =>
                match recCheck bs g v.sup with
                | some c => .halt s { cause := c }
                | none =>
                  if q.free = 0 then
                    s.tRelease v fun s => s.whenFree v qps fun s => .done (s.putS v.a (sb + 2) 1)
                  else
                    s.tPlace v .write (q.slot q.tail) 64 1 fun s slot =>
                      s.tHook v q fun s hook =>
                        s.tRelease v fun s =>
                          s.whenFree v (qps ++ slot ++ hook.getD []) fun s =>
                            .done (((s.pushAt qps slot hook q bs (some (ra, none))).putS v.a (sb + 2) 0).noSpin v)

/-- QPOP (R408, R410): its result lands later and raises A. -/
def execQpop (x : X1) (s : State) : Out :=
  let sb := x.sb.toNat
  if s.fullAt x.p (fun _ => .a) then .next s
  else
  s.once { p := x.p, rs := [sb], ws := [sb + 1] } false fun s v ex =>
    s.tQueue v (v.t.regs.getS sb) fun s q qps =>
      if q.kind = 1 then .halt s { cause := .queueBind }
      else s.whenFree v qps fun s =>
        let took := q.items != 0
        let r : Word := if took then q.slot q.head else 0
        let s := if took then ((s.putFieldW qps 36 4 (q.items - 1)).putFieldW qps 16 8 (q.head + 1)).noSpin v else s
        let id := s.fresh
        .done (s.bump.fly v.a
          { id := id, path := .a, kind := .regs [.s (sb + 1) r], dst := .s (sb + 1), lanes := ex, acq := took,
            hold := took, pc := v.t.pc, sent := s.ps })

/-- QFREE (R408 to R410). -/
def execQfree (x : X1) (s : State) : Out :=
  let sb := x.sb.toNat
  s.once { p := x.p, rs := runRegs x.sb 2 } true fun s v _ =>
    let n := (v.t.regs.getS (sb + 1)).toNat
    s.tQueue v (v.t.regs.getS sb) fun s q qps =>
      if n = 0 || q.cap < q.free + n + q.items then .halt s { cause := .queueFree }
      else if v.t.flights.any (fun f => !f.complete && (f.path == .g || f.path == .s || f.path == .a)) then .wait s
      else s.whenFree v qps fun s => .done ((s.putFieldW qps 32 4 (q.free + n)).noSpin v)

/-! ## Device operations outside a thread's instruction -/

/-- Where a device operation translates: agent, context, mode; and what an event about it names (R402, R412). -/
structure Env where
  agent : Nat
  ctx : BitVec 12
  sup : Bool
  grid : Nat := 0
  teamid : Word := 0
  pc : Word := 0
  deriving DecidableEq, Repr

/-- What a device operation finds at an address: stretches it can use, none, or stretches it must wait for. -/
inductive Got where
  | ok (ps : List Piece)
  | bad
  | busy
  deriving DecidableEq, Repr

/-- Translate without page fault or halt, and take what is found at its home: a read is forwarded to an owner, for any other
access registrations are revoked and reductions merged (R131, R132, R139, R401). A request that no hub can send is logged
(R465). -/
def State.eAddr (s : State) (e : Env) (w : Want) (va : Word) (n align : Nat) : State × Got :=
  if va.toNat % align != 0 then (s, .bad)
  else
    match s.xlatVirt e.agent e.ctx e.sup w va n with
    | (s, .ok ps) =>
      if w == .read && s.busyReads ps then (s.stirReads ps e.grid, .busy)
      else if w != .read && s.busyPieces ps then (s.stirPieces ps e.grid, .busy)
      else if (s.errAt w ps n).isSome then (s.noteRemote (pasOf ps n), .bad)
      else (if w == .read then s.readAt ps else s.recallAt ps, .ok ps)
    | (s, .halt c a) => (s.noteWalk c a, .bad)
    | (s, .fault _ _) => (s, .bad)

/-- What a device operation finds of a queue. -/
inductive GotQ where
  | ok (q : QDesc) (qps : List Piece)
  | bad
  | busy
  deriving DecidableEq, Repr

/-- A queue descriptor, if it can be used. -/
def State.eQueue (s : State) (e : Env) (va : Word) : State × GotQ :=
  match s.eAddr e .rmw va 64 64 with
  | (s, .ok ps) =>
    let q := QDesc.ofBytes (s.readPieces ps 64)
    (s, if q.ok then .ok q ps else .bad)
  | (s, .bad) => (s, .bad)
  | (s, .busy) => (s, .busy)

/-- What a device push gives. -/
inductive Pushed where | ok | full | bad | busy
  deriving DecidableEq, Repr

/-- Push an item whose bytes are at hand into a queue. -/
def State.ePush (s : State) (e : Env) (q : QDesc) (qps : List Piece) (item : List Byte) (side : Option (Word × Option Nat)) :
    State × Pushed :=
  if q.free = 0 then (s, .full)
  else
    match s.eAddr e .write (q.slot q.tail) q.esz 1 with
    | (s, .bad) => (s, .bad)
    | (s, .busy) => (s, .busy)
    | (s, .ok slot) =>
      if q.hook = 0 then (s.pushAt qps slot none q item side, .ok)
      else
        match s.eAddr e .rmw q.hook 8 8 with
        | (s, .bad) => (s, .bad)
        | (s, .busy) => (s, .busy)
        | (s, .ok h) => (s.pushAt qps slot (some h) q item side, .ok)

/-- Push the record at an address into a DISP queue as SPAWN would, from outside a thread (R402, R431). -/
def State.ePushRec (s : State) (e : Env) (cont queue : Word) : State × Pushed :=
  match s.eQueue e queue with
  | (s, .bad) => (s, .bad)
  | (s, .busy) => (s, .busy)
  | (s, .ok q qps) =>
    match s.liveGrid q.grid with
    | none => (s, .bad)
    | some g =>
      if q.kind != 1 || (!e.sup && g.ctx != e.ctx) then (s, .bad)
      else
        match s.eAddr e .read cont 64 64 with
        | (s, .bad) => (s, .bad)
        | (s, .busy) => (s, .busy)
        | (s, .ok src) =>
          let bs := s.readPieces src 64
          if (recCheck bs g e.sup).isSome then (s, .bad)
          else s.ePush e q qps bs (some (cont, none))

/-! ## Event records (R412) -/

/-- The 64 bytes of an event record. -/
def eventBytes (kind code : Nat) (teamid : Word) (time : Nat) (pc d0 d1 : Word) : List Byte :=
  bytesOf 2 kind ++ bytesOf 2 code ++ bytesOf 4 0 ++ wbytes teamid ++ bytesOf 8 time ++ wbytes pc ++ wbytes d0 ++
    wbytes d1 ++ List.replicate 16 0#8

/-- Append a pending event to its grid's event queue; without one, or where it cannot be reached, the HKC's log takes
it; a full queue counts it lost (R398, R400, R402). A queue that is in use at home is waited for (R401). -/
def State.postOne (s : State) (p : Post) : State :=
  match tget s.grids p.grid with
  | none => s.logErr p.kind p.data0 p.data1
  | some g =>
    if g.evq = 0 then s.logErr p.kind p.data0 p.data1
    else
      let later (s : State) : State := { s with posts := s.posts ++ [p] }
      let e : Env := { agent := s.coreAgent 0, ctx := g.ctx, sup := true, grid := p.grid }
      match s.eQueue e g.evq with
      | (s, .bad) => s.logErr p.kind p.data0 p.data1
      | (s, .busy) => later s
      | (s, .ok q qps) =>
        let bs := match p.calib with
          | some b => b
          | none => eventBytes p.kind 0 p.teamid s.time p.pc p.data0 p.data1
        match s.ePush e q qps bs none with
        | (s, .ok) => s
        | (s, .full) => s.putFieldW qps 56 4 (q.lost + 1)
        | (s, .bad) => s.logErr p.kind p.data0 p.data1
        | (s, .busy) => later s

/-- Append every pending event. -/
def State.flushPosts (s : State) : State := s.posts.foldl State.postOne { s with posts := [] }

/-- Note an event to be posted. -/
def State.post (s : State) (p : Post) : State := { s with posts := s.posts ++ [p] }

/-- EVPOST (R408, R409). -/
def execEvpost (x : X1) (s : State) : Out :=
  let sb := x.sb.toNat
  s.once { p := x.p, rs := runRegs x.sb 3, ws := [sb] } true fun s v _ =>
    let code := (v.t.regs.getS sb).toNat % 65536
    let status (s : State) (n : Nat) : Res := s.tRelease v fun s => .done (s.putS v.a sb (BitVec.ofNat 64 n))
    let evt := (s.gridOf v.g).evq
    if code = 0 || 0x7FFF < code then status s 3
    else if evt = 0 then status s 2
    else
      s.tQueue v evt fun s q qps =>
        if q.free = 0 then
          s.tRelease v fun s =>
            s.whenFree v qps fun s => .done (((s.putFieldW qps 56 4 (q.lost + 1)).putS v.a sb 1).noSpin v)
        else
          s.tPlace v .write (q.slot q.tail) q.esz 1 fun s slot =>
            s.tHook v q fun s hook =>
              s.tRelease v fun s =>
                s.whenFree v (qps ++ slot ++ hook.getD []) fun s =>
                  let b := eventBytes 1 code (s.teamOf v.g).teamid s.time v.t.pc (v.t.regs.getS (sb + 1))
                    (v.t.regs.getS (sb + 2))
                  .done (((s.pushAt qps slot hook q b none).putS v.a sb 0).noSpin v)

/-! ## Join counters (R402) -/

/-- 1024 cycles at the nominal clock, in picoseconds. -/
def retryPs : Nat := 930910

/-- Push a continuation that a join or group has released; retry while its queue is full, report any other failure
(R402, R412, R431). -/
def State.startCont (s : State) (e : Env) (grid : Nat) (counter cont queue : Word) (group : Bool) : State :=
  let again (s : State) (due : Nat) : State :=
    { s with
      retries := tput s.retries s.fresh
        { ctx := e.ctx, grid := grid, counter := counter, cont := cont, queue := queue, due := due,
          group := group, sup := e.sup, teamid := e.teamid, pc := e.pc }
      fresh := s.fresh + 1 }
  match s.ePushRec { e with grid := grid } cont queue with
  | (s, .ok) => s
  | (s, .full) => again s (s.ps + retryPs)
  | (s, .busy) => again s s.ps
  | (s, .bad) => s.post { grid := grid, kind := 6, teamid := e.teamid, pc := e.pc, data0 := counter, data1 := cont }

/-- Count a join counter down by n; at zero its continuation is started (R402). Answers false on an underflow. -/
def State.countDown (s : State) (e : Env) (grid : Nat) (va : Word) (ps : List Piece) (n : Nat) : State × Bool :=
  let b := s.readPieces ps 32
  let c := fieldN b 0 8
  if n = 0 || c < n then (s, false)
  else
    let s := s.putFieldW ps 0 8 (c - n)
    if c = n then (s.startCont e grid va (fieldW b 8) (fieldW b 16) false, true) else (s, true)

/-- JDEC (R408, R409). -/
def execJdec (x : X1) (s : State) : Out :=
  let sb := x.sb.toNat
  s.once { p := x.p, rs := runRegs x.sb 2 } true fun s v _ =>
    let va := v.t.regs.getS sb
    let n := (v.t.regs.getS (sb + 1)).toNat
    s.tAddr v .rmw va 32 32 fun s ps =>
      s.tRead v ps 32 va fun s b =>
        if n = 0 || fieldN b 0 8 < n then .halt s { cause := .joinUnderflow }
        else
          s.tRelease v fun s =>
            s.whenFree v ps fun s =>
              .done (((s.countDown { agent := v.agent s, ctx := v.g.ctx, sup := v.sup, teamid := (s.teamOf v.g).teamid, pc := v.t.pc }
                (s.teamOf v.g).grid va ps n).1).noSpin v)

/-- A retry of a continuation's push that is due (R402, R431). -/
def State.retry (s : State) (n : Nat) (group : Bool) : Out :=
  match tget s.retries n with
  | none => .next s
  | some r =>
    if r.group != group || s.ps < r.due then .next s
    else
      let e : Env := { agent := s.coreAgent 0, ctx := r.ctx, sup := r.sup, teamid := r.teamid, pc := r.pc }
      let s := { s with retries := tdel s.retries n }
      .next (s.startCont e r.grid r.counter r.cont r.queue group)

/-- JOIN_PUSH_RETRY (R402). -/
def execJoinPushRetry (n : Nat) (s : State) : Out := s.retry n false

/-- GROUP_PARENT_PUSH_RETRY (R431). -/
def execGroupParentPushRetry (n : Nat) (s : State) : Out := s.retry n true

/-! ## Frame pools (R119, R441) -/

/-- A field of the device system table, read at home, or why it cannot be read (R86, R89, R461). -/
def State.dstField (s : State) (off : Nat) : State × Except (Cause2 × Word) Word :=
  let s := s.readOver (s.dst + off) 8
  (s, s.readEntry (s.dst + off))

/-- A field of the device system table for a thread (R86, R89, R461). -/
def State.tDst (s : State) (off : Nat) (k : State → Word → Res) : Res :=
  match s.dstField off with
  | (s, .error (c, a)) => .halt s { cause := c, addr := a }
  | (s, .ok w) => k s w

/-- The pool queue of a size code. -/
def poolOff (n : Nat) : Nat := 16 + 8 * n

/-- Count k items of a pool queue as taken and freed at once (R119). -/
def State.tookFrom (s : State) (qps : List Piece) (q : QDesc) (k : Nat) : State :=
  ((s.putFieldW qps 36 4 (q.items - k)).putFieldW qps 16 8 (q.head + k)).putFieldW qps 32 4 (q.free + k)

/-- Take the item at the head of a pool queue for the device. -/
def State.poolTake (s : State) (e : Env) (q : QDesc) (qps : List Piece) : State × Option Word :=
  if q.items = 0 then (s, none)
  else
    match s.eAddr e .read (q.slot q.head) 8 1 with
    | (s, .ok ps) => (s.tookFrom qps q 1, some (BitVec.ofNat 64 (valOf (s.readPieces ps 8))))
    | (s, _) => (s, none)

/-- The next n items of a pool queue, read and checked for a thread; `acc` holds those before them. -/
def State.tItems (s : State) (v : View) (q : QDesc) : Nat → List Word → (State → List Word → Res) → Res
  | 0, acc, k => k s acc
  | n + 1, acc, k =>
    let a := q.slot (q.head + acc.length)
    s.tAddr v .read a 8 1 fun s ps => s.tRead v ps 8 a fun s b => s.tItems v q n (acc ++ [BitVec.ofNat 64 (valOf b)]) k

/-- PGTAKE (R115, R119). -/
def execPgtake (x : X1) (s : State) : Out :=
  let sb := x.sb.toNat
  if s.fullAt x.p (fun _ => .g) then .next s
  else
  s.once { p := x.p, rs := [sb + 1], ws := [sb] } false fun s v ex =>
    let code := (v.t.regs.getS (sb + 1)).toNat
    if 3 < code then .halt s { cause := .xlatAttr }
    else
      s.tDst (poolOff code) fun s pool =>
      if pool = 0 then .halt s { cause := .pfPool }
      else
        s.tQueue v pool fun s q qps =>
          if q.items = 0 then .halt s { cause := .pfPool }
          else s.tItems v q 1 [] fun s fs =>
            s.whenFree v qps fun s =>
              let s := s.tookFrom qps q 1
              let id := s.fresh
              .done (s.bump.fly v.a
                { id := id, path := .g, kind := .regs [.s sb (fs.headD 0)], dst := .s sb, lanes := ex, pc := v.t.pc, sent := s.ps })

/-! ## PGMAP, PGUNMAP and TLBINV (R116 to R118) -/

/-- The level of a size code (R115). -/
def sizeLevel (n : Nat) : Nat := if n ≤ 1 then 0 else n - 1

/-- Where a walk towards a level stops (R116). -/
inductive MapWalk where
  | bad (c : Cause2) (addr : Word)
  | larger (pte : Word)
  | slot (pa : Nat)
  | missing (pa level : Nat)
  deriving DecidableEq, Repr

/-- Walk down to the entry of a level. -/
def State.mapWalk (s : State) (va : Word) (target : Nat) : Nat → Nat → MapWalk
  | 0, table => .slot (table + 8 * levelIdx va.toNat 0)
  | l + 1, table =>
    let slot := table + 8 * levelIdx va.toNat (l + 1)
    if l + 1 = target then .slot slot
    else
      match s.readEntry slot with
      | .error (c, a) => .bad c a
      | .ok e =>
        if !e.getLsbD 0 then .missing slot (l + 1)
        else if e.getLsbD 1 then
          if tableMalformed s e (l + 1) then .bad .pteMalformed va else s.mapWalk va target l (pteFrame e)
        else if leafMalformed e (l + 1) then .bad .pteMalformed va else .larger e

/-- A table pointer to a frame (R94). -/
def tablePte (frame : Nat) : Word := BitVec.ofNat 64 (frame / 4096 * 4096 % 2 ^ 52 + 3)

/-- The entries PGMAP and PGUNMAP act on: one, or the sixteen of a group (R96). -/
def leafSlots (size slot : Nat) : List Nat :=
  if size = 1 then (List.range 16).map fun j => slot / 128 * 128 + 8 * j else [slot]

/-- What PGMAP finds where its leaf would stand: nothing, or a status and the entry there. A valid entry that is malformed there
halts (R95), as does one that cannot be read (R86, R89, R461). -/
def State.leafFound (s : State) (va : Word) (size : Nat) (slot : Nat) : Except (Cause2 × Word) (Option (Nat × Word)) :=
  (leafSlots size slot).foldl (init := .ok none) fun acc a =>
    match acc, s.readEntry a with
    | .error x, _ => .error x
    | _, .error x => .error x
    | .ok (some f), _ => .ok (some f)
    | .ok none, .ok e =>
      if !e.getLsbD 0 then .ok none
      else if (if e.getLsbD 1 then tableMalformed s e (sizeLevel size) else leafMalformed e (sizeLevel size)) then
        .error (.pteMalformed, va)
      else .ok (some (if size = 0 && e.getLsbD 10 then 2 else 1, e))

/-- The tables that are missing from a level down to the target, in frames at hand, as entries to write; and the slot of the
leaf. -/
def mapTables (va : Word) (target : Nat) : Nat → Nat → List Word → List (Nat × Word) × Nat
  | 0, slot, _ => ([], slot)
  | l + 1, slot, frames =>
    if l + 1 ≤ target then ([], slot)
    else
      match frames with
      | [] => ([], slot)
      | f :: rest =>
        let r := mapTables va target l (pteFrame f + 8 * levelIdx va.toNat l) rest
        ((slot, tablePte f.toNat) :: r.1, r.2)

/-- Entries of tables as stretches. -/
def slotPieces (as : List Nat) : List Piece := as.map fun a => ⟨0, 8, a, false, 0, false⟩

/-- Why entries of tables cannot be written: the first of them that does not exist, lies on a gated die, or whose home answers with
an error (R86, R89, R142). -/
def State.slotsBad (s : State) (as : List Nat) : Option (Cause2 × Word) :=
  as.findSome? fun a =>
    match s.paHalt a with
    | some c => some (c, BitVec.ofNat 64 a)
    | none => (s.errAt .write (slotPieces [a]) 8).map fun e => (e.halt, BitVec.ofNat 64 a)

/-- PGMAP's leaf, below tables that are written with it (R116): nothing is written unless every entry is free and can be
written. -/
def State.mapLeaf (s : State) (v : View) (va : Word) (size : Nat) (pte : Word) (tables : List (Nat × Word)) (slot : Nat)
    (took : State → State) (finish : State → Nat → Option Word → Res) : Res :=
  s.whenFree v (slotPieces (tables.map Prod.fst ++ leafSlots size slot)) fun s =>
    match s.slotsBad (tables.map Prod.fst ++ leafSlots size slot), s.leafFound va size slot with
    | some (c, a), _ => .halt s { cause := c, addr := a }
    | none, .error (c, a) => .halt s { cause := c, addr := a }
    | none, .ok (some (st, e)) => finish s st (some e)
    | none, .ok none =>
      let s := tables.foldl (init := took s) fun s t => s.devWrite t.1 (wbytes t.2)
      finish ((leafSlots size slot).foldl (init := s) fun s a => s.devWrite a (wbytes pte)) 0 none

/-- PGMAP (R116). A virtual address that is not canonical halts NONCANON, a leaf with V = 0 is written as it stands, and a pool
that holds fewer frames than the walk needs counts as empty (DESIGN CHOICE, assumption 107). -/
def execPgmap (x : X1) (s : State) : Out :=
  let sb := x.sb.toNat
  s.once { p := x.p, rs := runRegs x.sb 3, ws := [sb + 1, sb + 3] } false fun s v _ =>
    let va := v.t.regs.getS sb
    let pte := v.t.regs.getS (sb + 1)
    let size := (v.t.regs.getS (sb + 2)).toNat
    let level := sizeLevel size
    if 3 < size || leafMalformed pte level || (pte.getLsbD 10 != (size == 1)) then .halt s { cause := .pteMalformed, addr := va }
    else if !canonical va then .halt s { cause := .noncanon, addr := va }
    else
      let s := s.walkRead v.g.ctx va
      match s.rootOf v.g.ctx with
      | .error (c, a) => .halt s { cause := c, addr := if c = .pteMalformed then va else a }
      | .ok root =>
        let finish (s : State) (st : Nat) (found : Option Word) : Res :=
          let s := match found with | some e => s.putS v.a (sb + 1) e | none => s
          .done ((s.putS v.a (sb + 3) (BitVec.ofNat 64 st)).noSpin v)
        s.tRelease v fun s =>
          match s.mapWalk va level 3 root with
          | .bad c a => .halt s { cause := c, addr := a }
          | .larger e => finish s 2 (some e)
          | .slot a => s.mapLeaf v va size pte [] a id finish
          | .missing a l =>
            s.tDst (poolOff 0) fun s pool =>
            if pool = 0 then finish s 3 none
            else
              s.tQueue v pool fun s q qps =>
                if q.items < l - level then finish s 3 none
                else s.tItems v q (l - level) [] fun s fs =>
                  let t := mapTables va level l a fs
                  s.whenFree v qps fun s => s.mapLeaf v va size pte t.1 t.2 (fun s => s.tookFrom qps q (l - level)) finish

/-- PGUNMAP (R117). -/
def execPgunmap (x : X1) (s : State) : Out :=
  let sb := x.sb.toNat
  s.once { p := x.p, rs := runRegs x.sb 2, ws := [sb + 1] } false fun s v _ =>
    let va := v.t.regs.getS sb
    let size := (v.t.regs.getS (sb + 1)).toNat
    let level := sizeLevel size
    let nothing (s : State) : Res := .done (s.putS v.a (sb + 1) 0)
    if 3 < size || !canonical va then nothing s
    else
      let s := s.walkRead v.g.ctx va
      match s.rootOf v.g.ctx with
      | .error (c, a) => .halt s { cause := c, addr := if c = .pteMalformed then va else a }
      | .ok root =>
        match s.mapWalk va level 3 root with
        | .bad c a => .halt s { cause := c, addr := a }
        | .larger _ | .missing _ _ => nothing s
        | .slot a =>
          s.whenFree v (slotPieces (leafSlots size a)) fun s =>
            match s.readEntry a with
            | .error (c, ad) => .halt s { cause := c, addr := ad }
            | .ok e =>
              if !e.getLsbD 0 then nothing s
              else if (if e.getLsbD 1 then tableMalformed s e level else leafMalformed e level) then
                .halt s { cause := .pteMalformed, addr := va }
              else if e.getLsbD 1 || e.getLsbD 10 != (size == 1) then nothing s
              else
                match (leafSlots size a).findSome? fun p => match s.readEntry p with | .error x => some x | .ok _ => none with
                | some (c, ad) => .halt s { cause := c, addr := ad }
                | none =>
                  let s := (leafSlots size a).foldl (init := s) fun s p =>
                    s.devWrite p (wbytes (BitVec.ofNat 64 (s.peekNat p 8) &&& ~~~1#64))
                  .done ((s.putS v.a (sb + 1) e).noSpin v)

/-- A FRAME register whose page a TLBINV covers, in the context it was loaded under, becomes VIRT again (R104). -/
def XReg.unframe (x : XReg) (ctxOk : BitVec 12 → Bool) (hit : Nat → Nat → Bool) : XReg :=
  let size := match x.pgs.toNat with | 0 => 2 ^ 12 | 1 => 2 ^ 16 | 2 => 2 ^ 21 | _ => 2 ^ 30
  if x.kind = .frame && ctxOk x.ctx && hit (x.va.toNat / size * size) size then
    { kind := .virt, base := x.va, limit := x.limit, w64 := x.w64, ro := x.ro, va := x.va }
  else x

/-- Apply R104 to the registers of a thread. -/
def Thr.unframe (t : Thr) (ctxOk : BitVec 12 → Bool) (hit : Nat → Nat → Bool) : Thr :=
  { t with regs := (List.range 8).foldl (init := t.regs) fun r n => r.setX n ((r.getX n).unframe ctxOk hit) }

/-- Remove cached leaves and frame registers of a range (R104, R118). -/
def State.tlbDrop (s : State) (ctxOk : BitVec 12 → Bool) (hit : Nat → Nat → Bool) : State :=
  let run (r : Run) : Run := { r with ax := r.ax.unframe ctxOk hit }
  let seq (q : Seq) : Seq := { q with run := q.run.map run }
  let job (j : Job) : Job := { j with gx := j.gx.unframe ctxOk hit }
  let lane (l : LaneCtx) : LaneCtx := { l with thr := l.thr.unframe ctxOk hit }
  let front (f : Front) : Front := { f with tlb := f.tlb.filter fun t => !(ctxOk t.ctx && hit t.base t.size) }
  { s with
    front := s.front.map fun e => if e.1 / 4096 == s.pkg.toNat then (e.1, front e.2) else e
    gangs := s.gangs.map fun e =>
      (e.1, { e.2 with thr := e.2.thr.unframe ctxOk hit, pfX0 := e.2.pfX0.unframe ctxOk hit })
    lanes := s.lanes.map fun e => (e.1, lane e.2)
    teams := s.teams.map fun e => (e.1, { e.2 with savedLanes := e.2.savedLanes.map fun l => (l.1, lane l.2) })
    cores := s.cores.map fun e =>
      (e.1, { e.2 with copyQ := e.2.copyQ.map job, seqs := e.2.seqs.map fun q => (q.1, seq q.2) }) }

/-- Whether a thread, whose context is `ctx`, has an access to memory under way that was translated in one of some contexts: an
incomplete instruction on path G or A, or a WAITU (R118). -/
def Thr.atHome (t : Thr) (ctx : BitVec 12) (ctxOk : BitVec 12 → Bool) : Bool :=
  (t.flights.any fun f => !f.complete && !f.spad && (f.path == .g || f.path == .a) && ctxOk f.ctx) ||
    match t.wait with
    | .waitu w => !w.spad && ctxOk ctx
    | _ => false

/-- Whether a TLBINV still waits for accesses that were translated before it (R118): those of other threads of its contexts, and
held reductions to the range (assumption 101). -/
def State.xlatBusy (s : State) (a : Actor) (ctxOk : BitVec 12 → Bool) (hit : Nat → Nat → Bool) : Bool :=
  (s.gangs.any fun e => a != .gang e.1 && e.2.thr.atHome e.2.ctx ctxOk ||
    e.2.cmtLog.any fun c => !c.spad && ctxOk c.ctx && hit c.virt.toNat 8) ||
  s.lanes.any fun e => e.2.thr.atHome (((tget s.gangs e.2.gang).map Gang.ctx).getD 0) ctxOk

/-- TLBINV (R118): a release that waits until the accesses translated before it have completed at their homes. A context operand
above 4095 that is not all ones names no context (DESIGN CHOICE, assumption 124). -/
def execTlbinv (x : X1) (s : State) : Out :=
  let sb := x.sb.toNat
  s.once { p := x.p, rs := runRegs x.sb 3 } false fun s v _ =>
    let start := (v.t.regs.getS sb).toNat
    let len := (v.t.regs.getS (sb + 1)).toNat
    let c := v.t.regs.getS (sb + 2)
    let ctxOk (k : BitVec 12) : Bool := c == BitVec.allOnes 64 || k.toNat == c.toNat
    let hit (b n : Nat) : Bool := len == 0 || (decide (b < start + len) && decide (start < b + n))
    s.tRelease v fun s =>
      let s := s.tlbDrop ctxOk hit
      if s.xlatBusy v.a ctxOk hit || v.t.flights.any (fun f => f.wait != 0 && !f.spad && (f.path == .g || f.path == .a)) then
        .wait s
      else .done s

/-! ## RETS, PCLR, ORCLM, HALTG (R448, R452, R463, R464) -/

/-- A paused copy of a gang goes on after its handler (R226). -/
def State.resumeCopy (s : State) (u : Nat) : State :=
  let job (j : Job) : Job := if j.gang == u && j.inHandler then { j with paused := false, inHandler := false } else j
  { s with cores := s.cores.map fun e => (e.1, { e.2 with copyQ := e.2.copyQ.map job }) }

/-- RETS (R448). -/
def execRets (p : Pre) (s : State) : Out :=
  s.issue { p := p, safe := false } fun s v ex =>
    if ex = 0 then .next (s.retire v v.t p.stall)
    else if !v.g.inPf then .next (s.haltV v { cause := .notInHandler })
    else
      let fc := v.g.fcause
      if s.readBusy v.g.pfFrame 0x8C8 then .next (s.stirRead v.g.pfFrame 0x8C8)
      else
        let s := (s.issued v).rets v p.stall
        .next (if fc.getLsbD 8 then s.resumeCopy v.uid else s)

/-- PCLR (R463). -/
def execPclr (x : X1) (s : State) : Out :=
  let sb := x.sb.toNat
  s.once { p := x.p, rs := runRegs x.sb 2, ws := [sb + 2] } false fun s v _ =>
    let va := v.t.regs.getS sb
    s.tAddr v .write va 8 8 fun s ps =>
      s.tRelease v fun s =>
        s.whenFree v ps fun s =>
          let pa := paAt ps 0
          let cohg := ((pieceAt ps 0).map fun q => q.2.cohg).getD 0
          if s.remoteBad pa then .halt (s.noteRemote [pa]) { cause := .remoteError, addr := va }
          else if (s.entry (ukeyOf pa cohg)).ol then .done (s.putS v.a (sb + 2) 2)
          else
            let s := (s.recall pa 8).farTouch (v.agent s) pa 8
            let st : Word := if isPoisoned s pa then 0 else 1
            .done (((s.devWrite pa (wbytes (v.t.regs.getS (sb + 1)))).putS v.a (sb + 2) st).noSpin v)

/-- ORCLM (R145, R464): it only reads the entry, so no owner is asked; requests that home has taken up before come first (R125). -/
def execOrclm (x : X1) (s : State) : Out :=
  let sb := x.sb.toNat
  s.once { p := x.p, rs := [sb], ws := [sb + 1] } false fun s v _ =>
    let va := v.t.regs.getS sb
    s.tAddr v .read va 1 1 fun s ps =>
      s.tRelease v fun s =>
        let pa := paAt ps 0
        let k := ukeyOf pa (((pieceAt ps 0).map fun q => q.2.cohg).getD 0)
        if s.remoteBad pa then .halt (s.noteRemote [pa]) { cause := .remoteError, addr := va }
        else if !(s.unit k).still || s.ownPending v ps then .wait s
        else
          match tget s.registry k with
          | none => .done (s.putS v.a (sb + 1) 0)
          | some e =>
            let s := if e.ol then s.setEntry k { e with ol := false, owner := none } else s
            .done (s.putS v.a (sb + 1) e.word)

/-- HALTG (R452). -/
def execHaltg (x : X1) (s : State) : Out :=
  s.once { p := x.p, rs := [x.sb.toNat] } false fun s v _ =>
    s.tRelease v fun s => .halt s { cause := .haltg, mask := some v.act, addr := v.t.regs.getS x.sb.toNat }

end Sys2Proof.Machine
end

