-- ==== Sys2Proof/Machine/Quant.lean ====
section
/-!
DEFINITION. Narrow and scaled formats: format slots (R299 to R301), layouts (R296 to R298), quantisation and decoding (R302 to
R305), saturation counters and calibration records (R306 to R308), and MXSCL, QCVT and DQCVT (R309 to R317).
-/
namespace Sys2Proof.Machine

/-! ## Format slots -/

/-- The element formats of a slot (R299). -/
inductive EFmt where | f32 | bf16 | f16 | e4m3 | e5m2 | e2m1 | i8 | i4 | t2
  deriving DecidableEq, Repr

/-- EF of its code. -/
def EFmt.ofCode : Nat → Option EFmt
  | 0 => some .f32
  | 1 => some .bf16
  | 2 => some .f16
  | 3 => some .e4m3
  | 4 => some .e5m2
  | 5 => some .e2m1
  | 6 => some .i8
  | 7 => some .i4
  | 8 => some .t2
  | _ => none

/-- A slot whose EF is named. -/
structure Slot where
  ef : EFmt
  bpl : Bool
  bl : Nat
  apl : Nat
  sath : Nat
  tq : Nat
  clean : Bool
  deriving DecidableEq, Repr

/-- A slot from its 128 bits; `clean` says that the reserved bits are zero. -/
def Slot.ofRaw (r : SlotRaw) : Option Slot :=
  let n := r.toNat
  (EFmt.ofCode (nbits n 0 4)).map fun ef =>
    { ef := ef, bpl := nbits n 4 1 == 1, bl := 32 * 2 ^ nbits n 5 2, apl := nbits n 8 3, sath := nbits n 32 32,
      tq := nbits n 64 32, clean := nbits n 7 1 == 0 && nbits n 11 21 == 0 && nbits n 96 32 == 0 }

/-- The bits of a code (R217, R293, R294). -/
def EFmt.bits : EFmt → Nat
  | .f32 => 32
  | .bf16 | .f16 => 16
  | .e4m3 | .e5m2 | .i8 => 8
  | .e2m1 | .i4 => 4
  | .t2 => 2

/-- Whether a format is a float format of R301. -/
def EFmt.isFloat : EFmt → Bool
  | .f32 | .bf16 | .f16 => true
  | _ => false

/-- R301 for a float slot. -/
def Slot.floatOk (f : Slot) : Bool :=
  f.ef.isFloat && !f.bpl && f.bl == 32 && f.apl == 0 && f.sath == 0 && f.tq == 0 && f.clean

/-- R301 for a code slot. -/
def Slot.codeOk (f : Slot) : Bool :=
  !f.ef.isFloat && f.clean &&
    (match f.ef with
     | .i8 => true
     | .i4 => decide (f.apl ≤ 3)
     | _ => f.apl == 0) &&
    (f.tq == 0 || (f.ef == .t2 && decide (f.tq < 0x7F800000)))

/-- Slot n of a grid. -/
def Grid.slot (g : Grid) (n : Nat) : Option Slot := Slot.ofRaw (mget 0 g.slots n)

/-- Slot n of a grid if it passes R301 as a code slot. -/
def Grid.codeSlot (g : Grid) (n : Nat) : Option Slot := (g.slot n).filter Slot.codeOk

/-- Slot n of a grid if it passes R301 as a float slot. -/
def Grid.floatSlot (g : Grid) (n : Nat) : Option Slot := (g.slot n).filter Slot.floatOk

/-! ## Layouts (R296 to R298) -/

/-- The byte and bit, from the base of a run of codes, of bit j of element e. -/
def Slot.place (f : Slot) (e j : Nat) : Nat × Nat :=
  let b := f.ef.bits
  let base := e / 64 * (8 * b)
  let i := e % 64
  if f.bpl then (base + 8 * j + i / 8, i % 8) else (base + (b * i + j) / 8, (b * i + j) % 8)

/-- The bits of a code that are read (R298). -/
def Slot.planes (f : Slot) : List Nat :=
  let b := f.ef.bits
  (List.range b).filter fun j => f.apl == 0 || decide (b - f.apl ≤ j)

/-- A code read from bytes; bits not read are zero. -/
def Slot.readCode (f : Slot) (byte : Nat → Byte) (e : Nat) : Nat :=
  f.planes.foldl (init := 0) fun acc j =>
    let p := f.place e j
    acc + bnat ((byte p.1).getLsbD p.2) * 2 ^ j

/-- The bytes a read of a code touches. -/
def Slot.codeBytes (f : Slot) (e : Nat) : List Nat := (f.planes.map fun j => (f.place e j).1).eraseDups

/-- The bytes that hold a code: a write goes to all of them (R298). -/
def Slot.wholeBytes (f : Slot) (e : Nat) : List Nat := ((List.range f.ef.bits).map fun j => (f.place e j).1).eraseDups

/-- The bytes that writing codes from element e0 on changes, with their new values; other bits are kept. -/
def Slot.writeCodes (f : Slot) (e0 : Nat) (codes : List Nat) (cur : Nat → Byte) : List (Nat × Byte) :=
  let bits := ((List.range codes.length).zip codes).flatMap fun c =>
    (List.range f.ef.bits).map fun j => (f.place (e0 + c.1) j, c.2 / 2 ^ j % 2 == 1)
  let offs := (bits.map fun b => b.1.1).eraseDups
  offs.map fun o =>
    (o, (bits.filter fun b => b.1.1 == o).foldl (init := cur o) fun (x : Byte) b =>
      let m : Byte := (1 : Byte) <<< b.1.2
      if b.2 then x ||| m else x &&& ~~~m)

/-! ## Quantisation and decoding (R302 to R304) -/

/-- emax of a code format (R293, R294). -/
def EFmt.emax : EFmt → Int
  | .e4m3 => 8
  | .e5m2 => 15
  | .e2m1 => 2
  | _ => 0

/-- The format of a small float code. -/
def EFmt.small : EFmt → FFmt
  | .e4m3 => Machine.e4m3
  | .e5m2 => Machine.e5m2
  | _ => ⟨2, 1⟩

/-- The largest finite code. -/
def EFmt.maxCode : EFmt → Nat
  | .e4m3 => 0x7E
  | .e5m2 => 0x7B
  | .e2m1 => 7
  | .i8 => 127
  | .i4 => 7
  | _ => 1

/-- The format of a float slot. -/
def EFmt.fmt : EFmt → FFmt
  | .bf16 => Machine.bf16
  | .f16 => Machine.f16
  | _ => Machine.f32

/-- Scale(x, f) (R302). -/
def scaleOf (ef : EFmt) (xs : List FVal) : Nat :=
  if xs.any fun x => match x with | .fin _ _ _ => false | _ => true then 0xFF
  else
    let tops := xs.filterMap fun x => match x with
      | .fin _ m e => if m = 0 then none else some ((bitLen m : Int) - 1 + e)
      | _ => none
    match tops with
    | [] => 0
    | t :: ts => (clampInt (ts.foldl max t + 127 - ef.emax) 0 254).toNat

/-- A value divided by 2^(s − 127). -/
def FVal.unscale (x : FVal) (s : Nat) : FVal :=
  match x with
  | .fin n m e => .fin n m (e - ((s : Int) - 127))
  | v => v

/-- The magnitude code of a finite value in a small float format, without an upper limit (R303). -/
def smallCode (f : FFmt) (m : Nat) (e : Int) : Nat :=
  if m = 0 then 0
  else
    let top : Int := (bitLen m : Int) - 1 + e
    let q : Int := (if top < f.emin then f.emin else top) - f.mbits
    let n := (roundAt .rn false m e q).1
    let n' := if n = 2 ^ (f.mbits + 1) then n / 2 else n
    let q' := if n = 2 ^ (f.mbits + 1) then q + 1 else q
    if n' < 2 ^ f.mbits then n' else (q' + f.mbits + f.bias).toNat * 2 ^ f.mbits + (n' - 2 ^ f.mbits)

/-- Encode(x, f, s) (R303): the code, and whether it saturates. -/
def encodeOf (f : Slot) (x : FVal) (s : Nat) : Nat × Bool :=
  let b := f.ef.bits
  let signed (neg : Bool) (c : Nat) : Nat := if neg then (2 ^ b - c) % 2 ^ b else c
  let withSign (neg : Bool) (c : Nat) : Nat := c + bnat neg * 2 ^ (b - 1)
  let top := f.ef.maxCode
  if s = 0xFF then (0, false)
  else
    match f.ef, x.unscale s with
    | .i8, .nan _ | .i4, .nan _ => (0, true)
    | .i8, .inf n | .i4, .inf n => (signed n top, true)
    | .i8, .fin n m e =>
      let c := (roundAt .rn n m (e + 6) 0).1
      if top < c then (signed n top, true) else (signed n c, false)
    | .i4, .fin n m e =>
      let c := (roundAt .rn n m (e + 2) 0).1
      if top < c then (signed n top, true) else (signed n c, false)
    | .t2, .nan _ => (0, false)
    | .t2, .inf n => (if n then 2 else 1, false)
    | .t2, .fin n m e =>
      if m != 0 && !(FVal.fin false m e).lt (Machine.f32.decode f.tq) then (if n then 2 else 1, false) else (0, false)
    | .e2m1, .nan _ => (0, true)
    | _, .nan _ => (0x7F, false)
    | _, .inf n => (withSign n top, true)
    | ef, .fin n m e =>
      let c := smallCode ef.small m e
      if top < c then (withSign n top, true) else (withSign n c, false)

/-- Decode(c, f, s, g) (R304). The code's unread bits are already zero (R298). -/
def decodeOf (f : Slot) (c s : Nat) (g : FFmt) : Nat :=
  if s = 0xFF then g.qnan
  else
    let sc : Int := s
    let int (x : Int) (e : Int) : Nat := (g.round .rn (decide (x < 0)) x.natAbs e).bits
    match f.ef with
    | .i8 => int (snat c 8) (sc - 133)
    | .i4 => int (snat c 4) (sc - 129)
    | .t2 => int ((c % 2 : Nat) - (c / 2 % 2 : Nat) : Int) (sc - 127)
    | ef =>
      let sm := ef.small
      let neg := c / 2 ^ (ef.bits - 1) % 2 == 1
      let mag := c % 2 ^ (ef.bits - 1)
      if (ef == .e4m3 && mag == 0x7F) || (ef == .e5m2 && decide (0x7C < mag)) then g.qnan
      else if ef == .e5m2 && mag == 0x7C then g.inf neg
      else
        let ex := mag / 2 ^ sm.mbits
        let fr := mag % 2 ^ sm.mbits
        let m := if ex = 0 then fr else 2 ^ sm.mbits + fr
        let e : Int := (if ex = 0 then sm.emin else (ex : Int) - sm.bias) - sm.mbits
        (g.round .rn neg m (e + sc - 127)).bits

/-! ## Saturation counters (R306 to R308) -/

/-- A calibration record (R308). -/
def calibBytes (slot src cnt : Nat) (teamid : Word) (time : Nat) (pc : Word) : List Byte :=
  bytesOf 2 2 ++ bytesOf 1 slot ++ bytesOf 1 src ++ bytesOf 4 cnt ++ wbytes teamid ++ bytesOf 8 time ++ wbytes pc ++
    List.replicate 32 0

/-- Raise a grid's saturation counter k times, one at a time (R306, R307). -/
def State.raiseSat (s : State) (grid slot src team : Nat) (pc : Word) : Nat → State
  | 0 => s
  | k + 1 =>
    match tget s.grids grid with
    | none => s
    | some g =>
      let old := mget 0 g.satc slot
      let new := old + 1
      let sath := nbits (mget 0 g.slots slot).toNat 32 32
      let s := { s with grids := tput s.grids grid { g with satc := mset 0 g.satc slot new } }
      let s :=
        if sath != 0 && decide (old.toNat < sath) && decide (sath ≤ new.toNat) then
          let tid := ((tget s.teams team).map Team.teamid).getD 0
          s.post { grid := grid, kind := 2, calib := some (calibBytes slot src new.toNat tid s.time pc) }
        else s
      s.raiseSat grid slot src team pc k

/-! ## Scratchpad words of the engines -/

/-- The byte at a window offset. -/
def State.spByte (s : State) (win : List Nat) (off : Nat) : Byte :=
  let p := winPlace win off
  (s.arr p.1).byte p.2

/-- The first poisoned byte of n bytes at a window offset. -/
def State.spBad (s : State) (win : List Nat) (off n : Nat) : Option Nat :=
  ((List.range n).map fun j => off + j).find? fun o => let p := winPlace win o; (s.arr p.1).bad p.2

/-- Write bytes at window offsets, whole words at a time where they are whole; answers whether a partial store met
poison. -/
def State.spPut (s : State) (win : List Nat) (xs : List (Nat × Byte)) : State × Bool :=
  let ys := xs.map fun x => (winPlace win x.1, x.2)
  let keys := (ys.map fun y => y.1.1).eraseDups
  keys.foldl (init := (s, false)) fun acc k =>
    let r := (acc.1.arr k).store ((ys.filter fun y => y.1.1 == k).map fun y => (y.1.2, y.2))
    (acc.1.setArr k r.1, acc.2 || r.2)

/-- Writes in the order of their visits, in stretches none of which writes a byte twice: what a later visit writes stands after
an earlier one (R212). -/
def visits {α : Type} (place : α → Nat) (xs : List α) : List (List α) :=
  (xs.foldl (init := ([] : List (List α))) fun acc x =>
    match acc with
    | [] => [[x]]
    | g :: gs => if g.any fun y => place y == place x then [x] :: g :: gs else (g ++ [x]) :: gs).reverse

/-- A number at a window offset. -/
def State.spNat (s : State) (win : List Nat) (off n : Nat) : Nat := valOf ((List.range n).map fun j => s.spByte win (off + j))

/-! ## MXSCL, QCVT and DQCVT -/

/-- The operands of a conversion after its checks, and the number that orders the errors of its writes (R144). -/
structure Conv where
  slot : Slot
  slotNo : Nat
  win : List Nat
  f : Nat
  c : Nat
  t : Nat
  n : Nat
  tag0 : Nat
  id : Nat
  deriving DecidableEq, Repr

/-- A region: offset, bytes, alignment, whether it is written, and the stretches of it that are moved (R317). -/
structure Region where
  off : Nat
  n : Nat
  align : Nat
  written : Bool
  moved : List (Nat × Nat)
  deriving DecidableEq, Repr

/-- The checks of R311 on the regions, in order. -/
def State.regionCheck (s : State) (win : List Nat) (ro : Bool) (rs : List Region) : Option HaltWhy :=
  let top := win.length * 0x8000
  let shape := rs.findSome? fun r =>
    if r.off % r.align != 0 then some ({ cause := .align, addr := BitVec.ofNat 64 r.off } : HaltWhy)
    else if top < r.off + r.n then some { cause := .xrBound, addr := BitVec.ofNat 64 r.off } else none
  match shape with
  | some h => some h
  | none =>
    if ro && rs.any Region.written then some { cause := .xrPerm }
    else
      rs.findSome? fun r =>
        ((List.range ((r.off + r.n - 1) / 1024 - r.off / 1024 + 1)).map fun j => (r.off / 1024 + j) * 1024).findSome? fun o =>
          let p := winPlace win o
          if (s.arr p.1).threads p.2 then none else some ({ cause := .modeFault, addr := BitVec.ofNat 64 o } : HaltWhy)

/-- Bank conflicts of a region, for each 128 bytes moved (R317). -/
def convCost (win : List Nat) (r : Region) : Nat :=
  let bs := r.moved.flatMap fun p => (List.range p.2).map fun j => p.1 + j
  ((List.range ((bs.length + 127) / 128)).map fun j =>
    spadCost (((bs.drop (128 * j)).take 128).flatMap fun o => spadParts win o 1) - 1).foldl (· + ·) 0

/-- Hold the slabs of some regions until a moment (R315). -/
def State.holdSlabs (s : State) (win : List Nat) (rs : List Region) (till : Nat) : State :=
  let ks := rs.flatMap fun r => (List.range ((r.off + r.n - 1) / 1024 - r.off / 1024 + 1)).map fun j =>
    winPlace win ((r.off / 1024 + j) * 1024)
  ks.foldl (init := s) fun s p =>
    let a := s.arr p.1
    s.setArr p.1 { a with conv := mset 0 a.conv (slabOf p.2) (Nat.max (mget 0 a.conv (slabOf p.2)) till) }

/-- How one block of a conversion goes. -/
inductive BlockRes where
  | ok (s : State)
  | halt (s : State) (h : HaltWhy)
  deriving DecidableEq, Repr

/-- Process blocks in ascending order, until one halts. -/
def convBlocks (body : State → Nat → BlockRes) : List Nat → State → BlockRes
  | [], s => .ok s
  | k :: ks, s =>
    match body s k with
    | .halt s h => .halt s h
    | .ok s => convBlocks body ks s

/-- A poisoned word a conversion reads halts it as a load does (assumption 52). -/
def State.convRead (s : State) (c : Conv) (off n : Nat) (k : BlockRes) : BlockRes :=
  match s.spBad c.win off n with
  | some o => .halt s { cause := .poison, addr := BitVec.ofNat 64 o }
  | none => k

/-- One write of a conversion (R316): a store, or with `rmw` the read-modify-write of a plane word (R180). Where it writes
only part of a poisoned word, or must read one, it writes nothing and becomes a posted store error (R144, R147). -/
def State.convWrite (s : State) (v : View) (c : Conv) (rmw : Bool) (xs : List (Nat × Byte)) : State :=
  let bad := rmw && xs.any fun x => (s.spBad c.win x.1 1).isSome
  let r := if bad then (s, true) else s.spPut c.win xs
  if r.2 then
    r.1.modThr v.a fun t => t.post (some
      { remote := false, addr := BitVec.ofNat 64 ((xs.map Prod.fst).headD 0), flight := c.id, lane := (lowest v.act).getD 0 })
  else r.1

/-- The writes of a conversion, one word after another (R316). -/
def State.convWords (s : State) (v : View) (c : Conv) (rmw : Bool) (xs : List (Nat × Byte)) : State :=
  ((xs.map fun x => x.1 / 8).eraseDups).foldl (init := s) fun s w => s.convWrite v c rmw (xs.filter fun x => x.1 / 8 == w)

/-- The F32 value of element e. -/
def State.convFloat (s : State) (c : Conv) (e : Nat) : FVal := f32.decode (s.spNat c.win (c.f + 4 * e) 4)

/-- The elements of block k. -/
def Conv.elems (c : Conv) (k : Nat) : List Nat := (List.range c.slot.bl).map fun j => k * c.slot.bl + j

/-- The tag of block k. -/
def Conv.tag (c : Conv) (k : Nat) : Nat := (c.tag0 + k) % 256

/-- One block of MXSCL (R312). -/
def mxsclBlock (v : View) (c : Conv) (s : State) (k : Nat) : BlockRes :=
  s.convRead c (c.f + 4 * k * c.slot.bl) (4 * c.slot.bl) <|
    let x := c.tag k * 256 + scaleOf c.slot.ef ((c.elems k).map (s.convFloat c))
    .ok (s.convWrite v c false [(c.t + 2 * k, BitVec.ofNat 8 x), (c.t + 2 * k + 1, BitVec.ofNat 8 (x / 256))])

/-- The stream entry of block k, its tag checked (R313, R314). -/
def State.convScale (s : State) (c : Conv) (k : Nat) (body : Nat → BlockRes) : BlockRes :=
  s.convRead c (c.t + 2 * k) 2 <|
    let e := s.spNat c.win (c.t + 2 * k) 2
    if e / 256 != c.tag k then .halt s { cause := .mxskew, addr := BitVec.ofNat 64 (c.t + 2 * k) } else body (e % 256)

/-- One block of QCVT (R313). -/
def qcvtBlock (v : View) (c : Conv) (s : State) (k : Nat) : BlockRes :=
  s.convScale c k fun sc =>
    s.convRead c (c.f + 4 * k * c.slot.bl) (4 * c.slot.bl) <|
      let es := (c.elems k).map fun e => encodeOf c.slot (s.convFloat c e) sc
      let ws := c.slot.writeCodes (k * c.slot.bl) (es.map Prod.fst) fun o => s.spByte c.win (c.c + o)
      let s := s.convWords v c c.slot.bpl (ws.map fun w => (c.c + w.1, w.2))
      .ok (s.raiseSat (s.teamOf v.g).grid c.slotNo 0 v.g.team v.t.pc (es.filter Prod.snd).length)

/-- One block of DQCVT (R314). -/
def dqcvtBlock (v : View) (c : Conv) (s : State) (k : Nat) : BlockRes :=
  s.convScale c k fun sc =>
    let offs := ((c.elems k).flatMap c.slot.codeBytes).eraseDups
    match offs.findSome? fun o => s.spBad c.win (c.c + o) 1 with
    | some o => .halt s { cause := .poison, addr := BitVec.ofNat 64 o }
    | none =>
      let xs := (c.elems k).map fun e => (e, decodeOf c.slot (c.slot.readCode (fun o => s.spByte c.win (c.c + o)) e) sc f32)
      .ok (xs.foldl (init := s) fun s x =>
        s.convWrite v c false ((List.range 4).map fun j => (c.f + 4 * x.1 + j, BitVec.ofNat 8 (x.2 / 256 ^ j))))

/-- The course of a conversion (R310, R311): the regions it touches, its body, and its cycles (R317), for which it holds its
slabs (R315); a lane of the carry pool takes 18 more (R239). -/
def State.conv (s : State) (x : X1) (xr slot : BitVec 3) (regions : Conv → List Region) (useC : Bool) (cyc : Nat → Nat)
    (body : View → Conv → State → Nat → BlockRes) : Out :=
  let sb := x.sb.toNat
  s.issue { p := x.p, rs := if useC then runRegs x.sb 4 else [sb, sb + 2, sb + 3] } fun s v ex =>
    if ex = 0 then .next (s.retire v v.t x.p.stall)
    else if v.t.held then .next s
    else
      match s.laneReady v with
      | none => .next s
      | some s =>
        let xg := v.t.regs.getX xr.toNat
        if xg.kind != .spad then .next (s.haltV v { cause := .copyXr })
        else
          match (s.gridOf v.g).codeSlot slot.toNat with
          | none => .next (s.haltV v { cause := .slotFormat })
          | some f =>
            let w := (v.t.regs.getS (sb + 3)).toNat
            let n := w % 65536
            if w / 2 ^ 24 != 0 || n < 64 || 4096 < n || n % 64 != 0 || n % f.bl != 0 then
              .next (s.haltV v { cause := .copyLayout })
            else
              let c : Conv := { slot := f, slotNo := slot.toNat, win := (s.teamOf v.g).window, n := n, tag0 := w / 65536 % 256
                                f := (v.t.regs.getS sb).toNat, c := (v.t.regs.getS (sb + 1)).toNat
                                t := (v.t.regs.getS (sb + 2)).toNat, id := s.fresh }
              match s.regionCheck c.win xg.ro (regions c) with
              | some h => .next (s.haltV v h)
              | none =>
                match convBlocks (body v c) (List.range (n / f.bl)) s.bump with
                | .halt s h => .next (s.haltV v h)
                | .ok s =>
                  let conf := ((regions c).map (convCost c.win)).foldl (· + ·) 0
                  let s := (s.bkconf v.a (conf + 1)).noSpin v
                  let took := cyc n + conf + if v.lane.isSome then 18 else 0
                  let s := s.modCore v.g.core fun k => { k with port := Nat.max v.now k.port + took }
                  let s := s.holdSlabs c.win (regions c) (s.ps + s.cyclesPs v.g.core took)
                  let s := s.retire v ((s.thr? v.a).getD v.t) x.p.stall
                  .next (if v.lane.isSome then s.modThr v.a fun t => { t with next := s.ps + s.cyclesPs v.g.core took }
                    else s.hold v.uid took)

/-- The region of the floats. -/
def Conv.fRegion (c : Conv) (w : Bool) : Region := ⟨c.f, 4 * c.n, 4, w, [(c.f, 4 * c.n)]⟩
/-- The region of the codes; planes that APL leaves out are not moved by a read (R298). -/
def Conv.cRegion (c : Conv) (w : Bool) : Region :=
  let b := c.slot.ef.bits
  let all := c.n * b / 8
  { off := c.c, n := all, align := 8, written := w
    moved := if w || !c.slot.bpl || c.slot.apl = 0 then [(c.c, all)]
      else (List.range (c.n / 64)).map fun j => (c.c + 8 * b * j + 8 * (b - c.slot.apl), 8 * c.slot.apl) }
/-- The region of the stream. -/
def Conv.tRegion (c : Conv) (w : Bool) : Region :=
  ⟨c.t, 2 * c.n / c.slot.bl, 2, w, [(c.t, 2 * c.n / c.slot.bl)]⟩

/-- MXSCL (R312). -/
def execMxscl (x : X1) (xr slot : BitVec 3) (s : State) : Out :=
  s.conv x xr slot (fun c => [c.fRegion false, c.tRegion true]) false (fun n => 12 + n / 16) mxsclBlock

/-- QCVT (R313). -/
def execQcvt (x : X1) (xr slot : BitVec 3) (s : State) : Out :=
  s.conv x xr slot (fun c => [c.fRegion false, c.cRegion true, c.tRegion false]) true (fun n => 12 + n / 8) qcvtBlock

/-- DQCVT (R314). -/
def execDqcvt (x : X1) (xr slot : BitVec 3) (s : State) : Out :=
  s.conv x xr slot (fun c => [c.fRegion true, c.cRegion false, c.tRegion false]) true (fun n => 12 + n / 8) dqcvtBlock

end Sys2Proof.Machine
end

