-- ==== Sys2Proof/Machine/Copy.lean ====
section
/-!
DEFINITION. The bulk copy engines and the in-flight counters: BCOPY, BFILL, WAITC, ICNT, SLBQ (R205 to R233) and the events
of a copy.
-/
namespace Sys2Proof.Machine

/-! ## Address generation (R210, R211) -/

/-- Extent d of a job. -/
def Job.ex (j : Job) (d : Nat) : Nat := (j.ext[d]?).getD 1

/-- Runs of the i0 loop. -/
def Job.runs (j : Job) : Nat := j.ex 1 * j.ex 2 * j.ex 3

/-- The offset of element (i0, run r) on a side with base and strides. -/
def Job.offset (j : Job) (base : Int) (str : List Int) (r i0 : Nat) : Int :=
  let st (d : Nat) : Int := (str[d]?).getD 0
  base + i0 * st 0 + (r % j.ex 1 : Nat) * st 1 + (r / j.ex 1 % j.ex 2 : Nat) * st 2 + (r / (j.ex 1 * j.ex 2) : Nat) * st 3

/-- The lowest and highest offset of a pattern, from the extents and the sign of each stride; `last` is the bytes of one
visit. -/
def spanOf (base : Int) (dims : List (Nat × Int)) (last : Nat) : Int × Int :=
  dims.foldl (init := (base, base + last - 1)) fun acc d =>
    let w : Int := (d.1 - 1 : Nat) * d.2
    if w < 0 then (acc.1 + w, acc.2) else (acc.1, acc.2 + w)

/-- Whether the codes of a converting copy stand on the global side. -/
def Job.codesGlobal (j : Job) : Bool := if j.conv == .qnt then j.toGlobal else !j.toGlobal

/-- The code slot of a converting copy. -/
def Job.codeNo (j : Job) : Nat := if j.conv == .qnt then j.slot2 else j.slot1

/-- The float slot of a converting copy. -/
def Job.floatNo (j : Job) : Nat := if j.conv == .qnt then j.slot1 else j.slot2

/-- The bounds of a side. -/
def Job.span (j : Job) (cs fs : Slot) (global : Bool) : Int × Int :=
  let base := if global then j.goff else j.poff
  let str := if global then j.gstr else j.pstr
  let dims := (List.range 4).map fun d => (j.ex d, (str[d]?).getD 0)
  if j.conv == .raw then spanOf base dims j.esz
  else if j.codesGlobal == global then spanOf base (dims.drop 1) (j.ex 0 / 64 * (8 * cs.ef.bits))
  else spanOf base dims (fs.ef.bits / 8)

/-- The blocks of a converting copy. -/
def Job.blocks (j : Job) (cs : Slot) : Nat := j.ex 0 / cs.bl * j.runs

/-- The bounds of the scale stream (R218). -/
def Job.streamSpan (j : Job) (cs : Slot) : Int × Int := (j.soff, j.soff + 2 * (j.blocks cs : Nat) - 1)

/-- An integer offset as a register shows it. -/
def offWord (x : Int) : Word := BitVec.ofInt 64 x

/-- A slot that no check has passed: it is never used for data. -/
def Slot.none : Slot := { ef := .f32, bpl := false, bl := 32, apl := 0, sath := 0, tq := 0, clean := false }

/-! ## Slab sets (R220, R225) -/

/-- The window offsets, one in each slab, between two bounds. -/
def slabOffs (lo hi : Nat) : List Nat :=
  let g := if lo < 0x800000 then 1024 else 512
  (List.range (hi / g - lo / g + 1)).map fun i => (lo / g + i) * g

/-- A window as another core of the cluster has it: the arrays of the same numbers (R225). -/
def winOn (win : List Nat) (core : Nat) : List Nat := win.map fun k => 16 * core + k % 16

/-- Insert a slab in ascending order of (core, window offset). -/
def insSlab (x : Nat × Nat × Nat) : List (Nat × Nat × Nat) → List (Nat × Nat × Nat)
  | [] => [x]
  | y :: ys =>
    if x.1 / 16 < y.1 / 16 || (x.1 / 16 == y.1 / 16 && decide (x.2.2 < y.2.2)) then x :: y :: ys else y :: insSlab x ys

/-- The slabs of spans of window offsets in some windows, each once: array, slab, window offset. -/
def slabSet (wins : List (List Nat)) (spans : List (Nat × Nat)) : List (Nat × Nat × Nat) :=
  (wins.flatMap fun w => spans.flatMap fun s => (slabOffs s.1 s.2).map fun o =>
    let p := winPlace w o
    (p.1, slabOf p.2, o)).foldl (init := []) fun l x =>
      if l.any fun y => y.1 == x.1 && y.2.1 == x.2.1 then l else insSlab x l

/-! ## Issue (R214, R216, R230) -/

/-- A span's check against the register of its side (R214, R236): the scratchpad side stays within the arrays or within
the aperture (assumption 53). -/
def spanCheck (limit : Word) (arrays : Option Nat) (s : Int × Int) : Option HaltWhy :=
  if s.1 < 0 then some { cause := .xrBound, addr := offWord s.1 }
  else if limit.toNat ≤ s.2.toNat then some { cause := .xrBound, addr := offWord s.2 }
  else
    match arrays with
    | none => none
    | some a =>
      if s.2.toNat < a * 0x8000 || 0x800000 ≤ s.1.toNat then none
      else some { cause := .xrBound, addr := offWord (if s.1.toNat < a * 0x8000 && 0x800000 ≤ s.2.toNat then (a * 0x8000 : Nat) else s.2) }

/-- The arrays that a grid's teams hold on a core (R214). -/
def State.gridArrays (s : State) (grid : Nat) : List Nat :=
  (s.teams.filter fun e => e.2.grid == grid && !e.2.cores.isEmpty).flatMap fun e => e.2.window

/-- The incomplete accesses of a gang and of its lanes on the carry pool (R220, R239, R337). -/
def State.undone (s : State) (u : Nat) : List Nat :=
  let of_ (t : Thr) : List Nat := (t.flights.filter fun f => !f.complete && !f.engine).map Flight.id
  ((s.thr? (.gang u)).map of_).getD [] ++ s.lanes.flatMap fun e => if e.2.gang == u then of_ e.2.thr else []

/-- Whether accesses of a gang with these numbers have completed. -/
def State.allDone (s : State) (u : Nat) (ids : List Nat) : Bool := (s.undone u).all fun i => !ids.contains i

/-- The checks of R214 that follow the layout, and the enqueueing. -/
def State.enqueue (s : State) (v : View) (xp : XReg) (j : Job) (mask : Nat) (stall : BitVec 4) : Out :=
  let win := (s.teamOf v.g).window
  let gr := s.gridOf v.g
  let conv := j.conv != .raw
  let cs := (gr.codeSlot j.codeNo).getD .none
  let fs := (gr.floatSlot j.floatNo).getD .none
  let badConv := conv && ((gr.codeSlot j.codeNo).isNone || (gr.floatSlot j.floatNo).isNone || j.ex 0 % 64 != 0 ||
    j.ex 0 % cs.bl != 0)
  if badConv || (mask != 0 && (j.toGlobal || j.conv == .dqt)) then .next (s.haltV v { cause := .copyLayout })
  else
    let arrays := some win.length
    let checks :=
      (if j.fill then [] else [spanCheck j.gx.limit none (j.span cs fs true)]) ++
      [spanCheck xp.limit arrays (j.span cs fs false)] ++
      (if conv then
        [if j.codesGlobal then spanCheck j.gx.limit none (j.streamSpan cs) else spanCheck xp.limit arrays (j.streamSpan cs)]
       else [])
    match checks.findSome? id with
    | some h => .next (s.haltV v h)
    | none =>
      if (if j.toGlobal then j.gx.ro else xp.ro) then .next (s.haltV v { cause := .xrPerm })
      else
        let core := v.g.core
        let dests := ((List.range 8).filter fun c => mask / 2 ^ c % 2 == 1).map (fun c => core / 8 * 8 + c)
        let dests := dests.filter (· != core)
        let sp := j.span cs fs false
        let spans := (sp.1.toNat, sp.2.toNat) ::
          (if conv && !j.codesGlobal then let t := j.streamSpan cs; [(t.1.toNat, t.2.toNat)] else [])
        let mine := slabSet [win] spans
        let have_ := s.gridArrays j.grid
        if dests.any fun c => mine.any fun x => !have_.contains (16 * c + x.1 % 16) then
          .next (s.haltV v { cause := .mcastTarget })
        else
          let id := s.fresh
          let j := { j with
            id := id, dests := dests, slabs := slabSet (win :: dests.map (winOn win)) spans
            earlier := s.undone v.uid }
          let s := s.bump.modCore core fun c => { c with copyQ := c.copyQ ++ [j] }
          let s := s.fly v.a { id := id, path := .c, kind := .line, wait := 1, pc := v.t.pc, sent := s.ps }
          .next (s.retire v ((s.thr? v.a).getD v.t) stall)

/-- A job with nothing of its operands set. -/
def State.newJob (s : State) (v : View) : Job :=
  { id := 0, gang := v.uid, team := v.g.team, grid := (s.teamOf v.g).grid, fill := false, conv := .raw, toGlobal := false
    ctx := v.g.ctx, sup := v.sup, gx := {}, goff := 0, poff := 0, esz := 1, ext := [], gstr := [], pstr := [], tag0 := 0
    soff := 0, slot1 := 0, slot2 := 0, val := 0, dests := [], pc := v.t.pc, lane := (lowest v.act).getD 0, earlier := []
    slabs := [], taken := 0, started := false, pos := 0, paused := false, inHandler := false }

/-- Whether a copy must wait at issue: its counter or the engine's queue is full (R205, R214). -/
def State.copyFull (s : State) (v : View) : Bool :=
  decide (63 ≤ v.t.count .c) || decide (16 ≤ (s.core v.g.core).copyQ.length)

/-- Whether the thread's next instruction, a copy with this guard, waits at issue, before any of its checks (DESIGN CHOICE,
assumption 122). -/
def State.copyWaits (s : State) (p : Pre) : Bool :=
  match s.view with
  | none => false
  | some v0 =>
    let v := (s.startIssue v0).2
    v.lane.isNone && v.exec p != 0 && s.copyFull v

/-- Signed 32-bit fields of a layout record. -/
def recStrides (b : List Byte) (off : Nat) : List Int := (List.range 4).map fun i => snat (fieldN b (off + 4 * i) 4) 32

/-- BCOPY (R213, R214). -/
def execBcopy (x : X1) (xr slot1 slot2 : BitVec 3) (conv : CopyConv) (mask : BitVec 8) (s : State) : Out :=
  let sb := x.sb.toNat
  if s.copyWaits x.p then .next s
  else
  s.issue { p := x.p, rs := runRegs x.sb 4, safe := false } fun s v ex =>
    if ex = 0 then .next (s.retire v v.t x.p.stall)
    else match s.ordered v with
    | none => .next s
    | some (s, v) =>
      let ctl := (v.t.regs.getS (sb + 3)).toNat
      let ez := nbits ctl 8 3
      if ctl / 2048 != 0 || nbits ctl 4 4 != 0 || 4 < ez || (ez != 0 && conv != .raw) then
        .next (s.haltV v { cause := .copyLayout })
      else
        let xp := v.t.regs.getX xr.toNat
        let gx := v.t.regs.getX (ctl % 8)
        if xp.kind != .spad || gx.kind == .none || gx.kind == .spad then .next (s.haltV v { cause := .copyXr })
        else
          let ro := (v.t.regs.getS (sb + 2)).toNat
          match formAddr gx 0 ro 64 false none 64 with
          | .error (c, a) => .next (s.haltV v { cause := c, addr := a })
          | .ok va =>
            match s.xlatReg (v.agent s) v.g.ctx v.sup .read gx va 64 with
            | (s, .halt c a) => .next ((s.noteWalk c a).haltV v { cause := c, addr := a })
            | (s, .fault l a) => .next (s.pageFaultV v ex ((lanesOf ex).map fun n => (n, a)) .read l)
            | (s, .ok ps) =>
              match s.readOwn v (v.agent s) (pasOf ps 64) (if ps.any Piece.prpt then some (s.teamOf v.g).grid else none) with
              | .error s => .next s
              | .ok s =>
              match s.errPieces ps 64 with
              | some e => .next ((s.noteRemote (pasOf ps 64)).haltV v { cause := e.halt, addr := va })
              | none =>
                let b := (pasOf ps 64).map (s.agentByte (v.agent s))
                let ext := (List.range 4).map fun i => fieldN b (2 * i) 2
                let soff := fieldN b 40 8
                let tag0 := fieldN b 48 1
                if ext.any (· == 0) || (b.drop 49).any (· != 0) || (conv == .raw && (soff != 0 || tag0 != 0)) then
                  .next (s.haltV v { cause := .copyLayout })
                else
                  s.enqueue v xp { s.newJob v with
                    conv := conv, toGlobal := ctl / 8 % 2 == 1, gx := gx, goff := (v.t.regs.getS sb).toNat
                    poff := (v.t.regs.getS (sb + 1)).toNat, esz := 2 ^ ez, ext := ext, gstr := recStrides b 8
                    pstr := recStrides b 24, tag0 := tag0, soff := soff, slot1 := slot1.toNat, slot2 := slot2.toNat }
                    mask.toNat x.p.stall

/-- Bytes of a BFILL element. -/
def fillBytes : FillSz → Nat
  | .b8 => 1
  | .b16 => 2
  | .b32 => 4
  | .b64 => 8

/-- BFILL (R230). -/
def execBfill (x : X1) (xr : BitVec 3) (sz : FillSz) (s : State) : Out :=
  let sb := x.sb.toNat
  if s.copyWaits x.p then .next s
  else
  s.issue { p := x.p, rs := runRegs x.sb 3, safe := false } fun s v ex =>
    if ex = 0 then .next (s.retire v v.t x.p.stall)
    else if v.t.held then .next s
    else
      let xp := v.t.regs.getX xr.toNat
      let w := (v.t.regs.getS (sb + 2)).toNat
      if xp.kind != .spad then .next (s.haltV v { cause := .copyXr })
      else if w % 65536 = 0 || w / 65536 % 65536 = 0 then .next (s.haltV v { cause := .copyLayout })
      else
        let n := fillBytes sz
        s.enqueue v xp { s.newJob v with
          fill := true, poff := (v.t.regs.getS sb).toNat, esz := n, val := v.t.regs.getS (sb + 1)
          ext := [w % 65536, w / 65536 % 65536, 1, 1], pstr := [(n : Int), snat (w / 2 ^ 32) 32, 0, 0], gstr := [0, 0, 0, 0] }
          0 x.p.stall

/-! ## Counters and slab status (R231 to R233) -/

/-- WAITC (R231): C and M with the acquire of R134. It waits with the threshold that it read at issue (R64). -/
def execWaitc (x : X1) (path : Path) (s : State) : Out :=
  s.issue { p := x.p, rs := [x.sb.toNat] } fun s v ex =>
    if ex = 0 then .next (s.retire v v.t x.p.stall)
    else
      let n := match v.t.wait with
        | .waitc pc n => if pc = v.t.pc then n else v.t.regs.getS x.sb.toNat
        | _ => v.t.regs.getS x.sb.toNat
      if n.toNat < v.t.count path then .next (s.setThr v.a { v.t with wait := .waitc v.t.pc n })
      else
        let s := if path == .c || path == .m then s.acquire (v.agent s) else s
        .next (s.retire v { v.t with wait := .none } x.p.stall)

/-- ICNT (R232). -/
def execIcnt (x : X1) (path : Path) (s : State) : Out :=
  s.issue { p := x.p, ws := [x.sb.toNat] } fun s v ex =>
    .next (s.done v x.p 8 (if ex = 0 then [] else [.s x.sb.toNat (BitVec.ofNat 64 (v.t.count path))]) 0)

/-- OWN of an owner. -/
def Owner.code : Owner → Nat
  | .t => 0
  | .c _ => 1
  | .m _ => 2

/-- SLBQ (R233). -/
def execSlbq (x : X1) (xr : BitVec 3) (s : State) : Out :=
  let sb := x.sb.toNat
  s.issue { p := x.p, rs := [sb + 1], ws := [sb] } fun s v ex =>
    if ex = 0 then .next (s.retire v v.t x.p.stall)
    else
      let xg := v.t.regs.getX xr.toNat
      if xg.kind != .spad then .next (s.haltV v { cause := .copyXr })
      else
        let win := (s.teamOf v.g).window
        let off := (v.t.regs.getS (sb + 1)).toNat
        match formAddr xg win.length off 1 false none 1 with
        | .error (c, a) => .next (s.haltV v { cause := c, addr := a })
        | .ok _ =>
          let p := winPlace win off
          let a := s.arr p.1
          let st := (a.ownerOf (slabOf p.2)).code + 4 * bnat a.rck + 8 * bnat a.deg + 256 * a.defer.length
          .next (s.done v x.p 8 [.s sb (BitVec.ofNat 64 st)] 0)

/-! ## The course of a copy (R220 to R229) -/

/-- Take a job off its engine, its slabs back to the threads, and lower C (R219, R221, R223, R226). -/
def State.endJob (s : State) (core : Nat) (j : Job) : State :=
  let s := s.modCore core fun c => { c with copyQ := c.copyQ.filter fun x => x.id != j.id }
  let s := (j.slabs.take j.taken).foldl (init := s) fun s x =>
    if (s.arr x.1).ownerOf x.2.1 == .c j.id then s.flip x.1 [x.2.1] .t else s
  let s := s.modGang j.gang fun g => { g with engFaults := g.engFaults.filter fun f => f.seq }
  s.modThr (.gang j.gang) fun t =>
    ({ t with flights := t.flights.map fun f => if f.id == j.id then { f with landed := true, wait := 0 } else f } : Thr).reap

/-- A copy ends by halting its gang. -/
def State.haltJob (s : State) (core : Nat) (j : Job) (c : Cause2) (addr : Word) : State :=
  let s := (s.endJob core j).noteWalk c addr
  s.haltGang j.gang c j.pc (((tget s.gangs j.gang).map Gang.active).getD 0) addr

/-- Put back a job. -/
def State.setJob (s : State) (core : Nat) (j : Job) : State :=
  s.modCore core fun c => { c with copyQ := c.copyQ.map fun x => if x.id == j.id then j else x }

/-- Take slabs in order, as far as none must be waited for: how many are held, or the array in reckoning mode met. -/
def State.takeSlabs (s : State) (own : Owner) : List (Nat × Nat × Nat) → Nat → State × Nat × Option (Nat × Nat × Nat)
  | [], n => (s, n, none)
  | x :: xs, n =>
    let a := s.arr x.1
    if a.rck then (s, n, some x)
    else if a.ownerOf x.2.1 == .t && !a.converting x.2.1 s.ps then (s.flip x.1 [x.2.1] own).takeSlabs own xs (n + 1)
    else (s, n, none)

/-- COPY_START (R220, R221). -/
def execCopyStart (core : Nat) (s : State) : Out :=
  match (s.core core).copyQ with
  | [] => .next s
  | j :: _ =>
    let ready := s.allDone j.gang j.earlier
    if j.started || !ready then .next s
    else
      match s.takeSlabs (.c j.id) (j.slabs.drop j.taken) j.taken with
      | (s, n, some _) => .next (s.haltJob core { j with taken := n } .modeFault 0)
      | (s, n, none) => .next (s.setJob core { j with taken := n, started := n == j.slabs.length })

/-- What reaching the global side gives; a unit that something is under way for is waited for (R125). -/
inductive GAcc where
  | ok (ps : List Piece)
  | halt (c : Cause2) (addr : Word)
  | fault (level : Nat) (va : Word)
  | wait
  deriving DecidableEq, Repr

/-- Translate n bytes at a global offset of a job; home forwards a read to an owner, who stays, and revokes one for a write
(R131, R132, R222). -/
def State.jobAddr (s : State) (core : Nat) (j : Job) (w : Want) (off : Int) (n : Nat) : State × GAcc :=
  match s.xlatReg (s.coreAgent core) j.ctx j.sup w j.gx (j.gx.base + offWord off) n with
  | (s, .ok ps) =>
    if w == .read then (if s.busyReads ps then (s.stirReads ps j.grid, .wait) else (s.readAt ps, .ok ps))
    else if s.busyPieces ps then (s.stirPieces ps j.grid, .wait) else (s, .ok ps)
  | (s, .halt c a) => (s, .halt c a)
  | (s, .fault l a) => (s, .fault l a)

/-- A source word that answered with an error: the HKC logs it, and the grid is told of one whose page asks for it (R188,
R224). -/
def State.noteSource (s : State) (j : Job) (va : Word) (pa : Option Nat) : State :=
  let s := s.logErr 8 va 0
  match pa with
  | some pa =>
    let pc := j.pc
    s.post { grid := j.grid, kind := 5, teamid := ((tget s.teams j.team).map Team.teamid).getD 0, pc := pc, data0 := BitVec.ofNat 64 pa }
  | none => s

/-- Read n bytes of the global side, each with whether its word answered with an error (R222, R224). -/
def State.jobGet (s : State) (core : Nat) (j : Job) (off : Int) (n : Nat) : State × Except GAcc (List (Byte × Bool)) :=
  match s.jobAddr core j .read off n with
  | (s, .ok ps) =>
    let bs := (List.range n).map fun i =>
      match pieceAt ps i with
      | some q => (s.peek q.1, (s.readErr q.1 q.2.cohg).isSome)
      | none => (0, true)
    (if bs.any Prod.snd then
      s.noteSource j (j.gx.base + offWord off) (if ps.any Piece.prpt then some (paAt ps 0) else none) else s, .ok bs)
  | (s, e) => (s, .error e)

/-- Read n bytes of the scratchpad side of a job, which no thread writes while the copy holds its slabs. -/
def State.jobPad (s : State) (j : Job) (off n : Nat) : List (Byte × Bool) :=
  let win := ((tget s.teams j.team).map Team.window).getD []
  (List.range n).map fun i => (s.spByte win (off + i), (s.spBad win (off + i) 1).isSome)

/-- Log a poisoned source word of the scratchpad side (R224). -/
def State.notePad (s : State) (j : Job) (off : Nat) (bs : List (Byte × Bool)) : State :=
  if bs.any Prod.snd then s.noteSource j (BitVec.ofNat 64 off) none else s

/-- Note a failed global write of a copy: a posted store error of the gang, logged (R224). -/
def State.jobPost (s : State) (j : Job) (remote : Bool) (va : Word) : State :=
  (s.modThr (.gang j.gang) fun t =>
    t.post (some { remote := remote, addr := va, flight := j.id, lane := j.lane })).logErr 7 va 0

/-- A byte that a beat writes to the global side: place, grain, virtual address, value, and whether its source was bad. -/
structure GlobByte where
  pa : Nat
  cohg : Nat
  va : Word
  val : Byte
  bad : Bool
  deriving DecidableEq, Repr

/-- Bytes for the global side, from their stretches. -/
def globBytes (ps : List Piece) (va : Word) (bs : List (Byte × Bool)) : List GlobByte :=
  ((List.range bs.length).zip bs).filterMap fun b =>
    (pieceAt ps b.1).map fun q => ⟨q.1, q.2.cohg, va + BitVec.ofNat 64 b.1, b.2.1, b.2.2⟩

/-- Write one word's bytes of a beat at home as a far store (R222); a bad source leaves the word Poisoned, and a store that fails is
posted (R224). -/
def State.putWord (j : Job) (s : State) (xs : List GlobByte) : State :=
  match xs with
  | [] => s
  | h :: _ =>
    let w := h.pa / 8
    let remote := pkgOf h.pa != s.pkg.toNat
    if s.remoteBad h.pa then s.jobPost j true h.va
    else if (s.entry (ukeyOf h.pa h.cohg)).ol then s.jobPost j remote h.va
    else
      let s := s.recall (8 * w) 8
      let full := (List.range 8).all fun i => xs.any fun x => x.pa == 8 * w + i
      let byte (i : Nat) : Byte := ((xs.reverse.find? fun x => x.pa == 8 * w + i).map GlobByte.val).getD 0
      let bad := xs.any GlobByte.bad
      let held := isPoisoned s h.pa && !full
      let s := if full then s.devWrite (8 * w) ((List.range 8).map byte)
        else if held then s else xs.foldl (init := s) fun s x => s.devWrite x.pa [x.val]
      if bad then setPoison s h.pa true else if held then s.jobPost j remote h.va else s

/-- Write a beat's bytes to the global side, word by word, and a word's later visits after its earlier ones (R212). -/
def State.putGlobal (s : State) (j : Job) (xs : List GlobByte) : State :=
  ((xs.map fun x => x.pa / 8).eraseDups).foldl (init := s) fun s w =>
    (visits GlobByte.pa (xs.filter fun x => x.pa / 8 == w)).foldl (State.putWord j) s

/-- Write bytes at window offsets, none of them twice; a bad source poisons the words written. -/
def State.engWrite (w : List Nat) (s : State) (xs : List (Nat × Byte × Bool)) : State :=
  let s := (s.spPut w (xs.map fun x => (x.1, x.2.1))).1
  (xs.filter fun x => x.2.2).foldl (init := s) fun s x =>
    let p := winPlace w x.1
    let a := s.arr p.1
    s.setArr p.1 { a with poison := mset false a.poison (p.2 / 8) true }

/-- Write bytes at window offsets for an engine, in a team's window and at the same places of other cores (R225), later visits
after earlier ones (R212). -/
def State.engPut (s : State) (wins : List (List Nat)) (xs : List (Nat × Byte × Bool)) : State :=
  wins.foldl (init := s) fun s w => (visits Prod.fst xs).foldl (State.engWrite w) s

/-- The windows a job writes. -/
def State.jobWins (s : State) (j : Job) : List (List Nat) :=
  let win := ((tget s.teams j.team).map Team.window).getD []
  win :: j.dests.map (winOn win)

/-- Pause a job at a page that is not present; its gang has a fault to take (R226). -/
def State.pauseJob (s : State) (core : Nat) (j : Job) (level : Nat) (va : Word) : State :=
  (s.setJob core { j with paused := true }).modGang j.gang fun g => { g with
    engFaults := g.engFaults ++ [{ seq := false, lane := j.lane, va := va, kind := if j.toGlobal then 1 else 0, level := level }] }

/-- What a job does when its global side cannot be reached: it pauses, or halts its gang (R226). -/
def State.jobStop (s : State) (core : Nat) (j : Job) : GAcc → State
  | .fault l a => s.pauseJob core j l a
  | .halt c a => s.haltJob core j c a
  | .ok _ | .wait => s

/-- Elements of one beat: at most 128 bytes of scratchpad-side data (R228). -/
def Job.perBeat (j : Job) (cs fs : Slot) : Nat :=
  if j.conv == .raw then 128 / j.esz
  else if j.codesGlobal then 128 / (fs.ef.bits / 8) else 1024 / cs.ef.bits

/-- Elements of a copy or fill. -/
def Job.elements (j : Job) : Nat := j.ex 0 * j.runs

/-- The scratchpad offset of element k. -/
def Job.pAt (j : Job) (k : Nat) : Nat := (j.offset j.poff j.pstr (k / j.ex 0) (k % j.ex 0)).toNat

/-- The global offset of element k. -/
def Job.gAt (j : Job) (k : Nat) : Int := j.offset j.goff j.gstr (k / j.ex 0) (k % j.ex 0)

/-- The offset of the codes of element k's run, on the code side (R217). -/
def Job.cAt (j : Job) (k : Nat) : Int :=
  if j.codesGlobal then j.offset j.goff j.gstr (k / j.ex 0) 0 else j.offset j.poff j.pstr (k / j.ex 0) 0

/-- A beat under way: the state, the job, and what it writes to the global side and to the scratchpad. -/
structure Beat where
  s : State
  j : Job
  gw : List GlobByte := []
  pw : List (Nat × Byte × Bool) := []
  deriving DecidableEq, Repr

/-- The beat with its element moved. -/
def Beat.moved (b : Beat) (s : State) (gw : List GlobByte) (pw : List (Nat × Byte × Bool)) : Beat × Option GAcc :=
  ({ s := s, j := { b.j with pos := b.j.pos + 1 }, gw := b.gw ++ gw, pw := b.pw ++ pw }, none)

/-- The beat stopped at its element. -/
def Beat.stopped (b : Beat) (s : State) (e : GAcc) : Beat × Option GAcc := ({ b with s := s }, some e)

/-- Bytes for the scratchpad side from an offset on. -/
def padBytes (off : Nat) (bs : List (Byte × Bool)) : List (Nat × Byte × Bool) :=
  ((List.range bs.length).zip bs).map fun b => (off + b.1, b.2)

/-- Write bytes of an element to the global side. -/
def Beat.put (b : Beat) (core : Nat) (off : Int) (bs : List (Byte × Bool)) : Except (State × GAcc) (State × List GlobByte) :=
  match b.s.jobAddr core b.j .write off bs.length with
  | (s, .ok ps) => .ok (s, globBytes ps (b.j.gx.base + offWord off) bs)
  | (s, e) => .error (s, e)

/-- One element of a RAW copy or a fill. -/
def Beat.raw (b : Beat) (core : Nat) : Beat × Option GAcc :=
  let j := b.j
  let po := j.pAt j.pos
  if j.fill then b.moved b.s [] (padBytes po ((List.range j.esz).map fun i => (wordByte j.val i, false)))
  else if j.toGlobal then
    let bs := b.s.jobPad j po j.esz
    match b.put core (j.gAt j.pos) bs with
    | .ok (s, gw) => b.moved (s.notePad j po bs) gw []
    | .error (s, e) => b.stopped s e
  else
    match b.s.jobGet core j (j.gAt j.pos) j.esz with
    | (s, .ok bs) => b.moved s [] (padBytes po bs)
    | (s, .error e) => b.stopped s e

/-- What QNT makes of a block of floats (R215, R224): codes, stream entry, saturations, and whether the block is bad. -/
def Job.quantise (j : Job) (cs fs : Slot) (k : Nat) (floats : List (Nat × Bool)) : List Nat × Nat × Nat × Bool :=
  let xs := floats.map fun f => fs.ef.fmt.decode f.1
  let bad := floats.any Prod.snd
  let sc := if bad then 0xFF else scaleOf cs.ef xs
  let es := xs.map fun x => encodeOf cs x sc
  (es.map Prod.fst, (j.tag0 + k) % 256 * 256 + sc, (es.filter Prod.snd).length, bad)

/-- A stream entry as bytes. -/
def entryBytes (e : Nat) : List (Byte × Bool) := [(BitVec.ofNat 8 e, false), (BitVec.ofNat 8 (e / 256), false)]

/-- One element of a QNT that reads the global side (R215 to R218): the codes and the entry of a block are written with its last
element. -/
def Beat.qntIn (b : Beat) (core : Nat) (cs fs : Slot) : Beat × Option GAcc :=
  let j := b.j
  let e := j.pos
  match b.s.jobGet core j (j.gAt e) (fs.ef.bits / 8) with
  | (s, .error x) => b.stopped s x
  | (s, .ok bs) =>
    let buf := (if e % cs.bl = 0 then [] else j.buf) ++ [(valOf (bs.map Prod.fst), bs.any Prod.snd)]
    if (e + 1) % cs.bl != 0 then { b with j := { j with buf := buf } }.moved s [] []
    else
      let d := j.quantise cs fs (e / cs.bl) buf
      let ws := cs.writeCodes (e % j.ex 0 + 1 - cs.bl) d.1 fun _ => 0
      let s := s.raiseSat j.grid j.codeNo 1 j.team j.pc d.2.2.1
      { b with j := { j with buf := [] } }.moved s []
        ((ws.map fun (w : Nat × Byte) => ((j.cAt e).toNat + w.1, w.2, d.2.2.2)) ++
          padBytes (j.soff + 2 * (e / cs.bl : Nat)).toNat (entryBytes d.2.1))

/-- One element of a QNT that writes the global side: those bytes of its code that no earlier element of the block has written,
and with the last element of a block the entry. -/
def Beat.qntOut (b : Beat) (core : Nat) (cs fs : Slot) : Beat × Option GAcc :=
  let j := b.j
  let e := j.pos
  let first := e / cs.bl * cs.bl
  let floats := (List.range cs.bl).map fun i =>
    let bs := b.s.jobPad j (j.pAt (first + i)) (fs.ef.bits / 8)
    (valOf (bs.map Prod.fst), bs.any Prod.snd)
  let d := j.quantise cs fs (e / cs.bl) floats
  let done := (List.range (e - first)).flatMap fun i => cs.wholeBytes ((first + i) % j.ex 0)
  let mine := (cs.wholeBytes (e % j.ex 0)).filter fun o => !done.contains o
  let ws := (cs.writeCodes (first % j.ex 0) d.1 fun _ => 0).filter fun w => mine.contains w.1
  let put (acc : Except (State × GAcc) (State × List GlobByte)) (w : Nat × Byte) :=
    match acc with
    | .error x => .error x
    | .ok (s, gw) =>
      match Beat.put { b with s := s } core (j.cAt e + (w.1 : Int)) [(w.2, d.2.2.2)] with
      | .error x => .error x
      | .ok (s, g) => .ok (s, gw ++ g)
  match ws.foldl put (.ok (b.s, [])) with
  | .error (s, x) => b.stopped s x
  | .ok (s, gw) =>
    if (e + 1) % cs.bl != 0 then b.moved s gw []
    else
      match Beat.put { b with s := s } core (j.soff + 2 * (e / cs.bl : Nat)) (entryBytes d.2.1) with
      | .error (s, x) => b.stopped s x
      | .ok (s, g) =>
        let s := if d.2.2.2 then s.noteSource j (offWord (j.cAt e)) none else s
        b.moved (s.raiseSat j.grid j.codeNo 1 j.team j.pc d.2.2.1) (gw ++ g) []

/-- The float of a DQT's element, from its code bytes and the block's entry (R215, R224). -/
def Job.dequantise (j : Job) (cs fs : Slot) (e : Nat) (byte : Nat → Byte × Bool) (ent : Nat × Bool) : List (Byte × Bool) :=
  let i := e % j.ex 0
  let x := decodeOf cs (cs.readCode (fun o => (byte o).1) i) (ent.1 % 256) fs.ef.fmt
  let bad := ent.2 || (cs.codeBytes i).any fun o => (byte o).2
  (List.range (fs.ef.bits / 8)).map fun k => (BitVec.ofNat 8 (x / 256 ^ k), bad)

/-- Whether a block's entry carries the wrong tag (R218, R219). -/
def Job.skewed (j : Job) (k : Nat) (ent : Nat × Bool) : Bool := !ent.2 && ent.1 / 256 != (j.tag0 + k) % 256

/-- One element of a DQT that writes the global side (R215 to R219). -/
def Beat.dqtOut (b : Beat) (core : Nat) (cs fs : Slot) : Beat × Option GAcc :=
  let j := b.j
  let e := j.pos
  let so := j.soff + 2 * (e / cs.bl : Nat)
  let eb := b.s.jobPad j so.toNat 2
  let ent := (valOf (eb.map Prod.fst), eb.any Prod.snd)
  if j.skewed (e / cs.bl) ent then b.stopped b.s (.halt .mxskew (offWord so))
  else
    let byte (o : Nat) : Byte × Bool := ((b.s.jobPad j ((j.cAt e).toNat + o) 1).head?).getD (0, true)
    let codes := (cs.codeBytes (e % j.ex 0)).map byte
    match b.put core (j.gAt e) (j.dequantise cs fs e byte ent) with
    | .ok (s, gw) =>
      let s := if e % cs.bl = 0 then s.notePad j so.toNat eb else s
      b.moved (s.notePad j (j.cAt e).toNat codes) gw []
    | .error (s, x) => b.stopped s x

/-- One element of a DQT that reads the global side: a block's entry is read with its first element. -/
def Beat.dqtIn (b : Beat) (core : Nat) (cs fs : Slot) : Beat × Option GAcc :=
  let j := b.j
  let e := j.pos
  let so := j.soff + 2 * (e / cs.bl : Nat)
  let go (s : State) (ent : Nat × Bool) : Beat × Option GAcc :=
    let b := { b with j := { j with buf := [ent] } }
    if j.skewed (e / cs.bl) ent then b.stopped s (.halt .mxskew (offWord so))
    else
      let r := (cs.codeBytes (e % j.ex 0)).foldl (init := (s, Except.ok ([] : List (Nat × Byte × Bool)))) fun acc o =>
        match acc with
        | (s, .error x) => (s, .error x)
        | (s, .ok l) =>
          match s.jobGet core j (j.cAt e + (o : Int)) 1 with
          | (s, .ok bs) => (s, .ok (l ++ bs.map fun x => (o, x)))
          | (s, .error x) => (s, .error x)
      match r with
      | (s, .error x) => b.stopped s x
      | (s, .ok l) =>
        let byte (o : Nat) : Byte × Bool := ((l.find? fun x => x.1 == o).map Prod.snd).getD (0, true)
        { b with j := { j with buf := if (e + 1) % cs.bl = 0 then [] else [ent] } }.moved s []
          (padBytes (j.pAt e) (j.dequantise cs fs e byte ent))
  match j.buf.head? with
  | some ent => go b.s ent
  | none =>
    match b.s.jobGet core j so 2 with
    | (s, .ok bs) => go s (valOf (bs.map Prod.fst), bs.any Prod.snd)
    | (s, .error x) => b.stopped s x

/-- Move elements until the beat ends or something stops it. -/
def Beat.run (b : Beat) (core : Nat) (cs fs : Slot) : Nat → Beat × Option GAcc
  | 0 => (b, none)
  | n + 1 =>
    let r := match b.j.conv, b.j.toGlobal with
      | .raw, _ => b.raw core
      | .qnt, false => b.qntIn core cs fs
      | .qnt, true => b.qntOut core cs fs
      | .dqt, false => b.dqtIn core cs fs
      | .dqt, true => b.dqtOut core cs fs
    match r with
    | (b, none) => b.run core cs fs n
    | r => r

/-- The bank cost of scratchpad bytes (R228, R229). -/
def beatCost (win : List Nat) (parts : List (Nat × Nat)) : Nat := spadCost (parts.flatMap fun p => spadParts win p.1 p.2)

/-- The scratchpad bytes of element k (R228). -/
def Job.padParts (j : Job) (cs fs : Slot) (k : Nat) : List (Nat × Nat) :=
  if j.conv == .raw then [(j.pAt k, j.esz)]
  else if j.codesGlobal then [(j.pAt k, fs.ef.bits / 8)]
  else (if j.conv == .qnt then cs.wholeBytes (k % j.ex 0) else cs.codeBytes (k % j.ex 0)).map fun o => ((j.cAt k).toNat + o, 1)

/-- One beat: the elements up to its end, then what they write. -/
def State.beat (s : State) (core : Nat) (j : Job) (cs fs : Slot) : State :=
  let n := j.perBeat cs fs
  let stop := Nat.min ((j.pos / n + 1) * n) j.elements
  let r := Beat.run { s := s, j := j } core cs fs (stop - j.pos)
  let b := r.1
  let s := (((b.s.putGlobal b.j b.gw).engPut (b.s.jobWins j) b.pw).setJob core b.j)
  match r.2 with
  | some e => s.jobStop core b.j e
  | none =>
    let win := ((tget s.teams j.team).map Team.window).getD []
    let first := j.pos / n * n
    let parts := ((List.range (stop - first)).flatMap fun i => j.padParts cs fs (first + i)).eraseDups
    s.bkconf (.gang j.gang) (beatCost win parts)

/-- COPY_BEAT (R228). -/
def execCopyBeat (core : Nat) (s : State) : Out :=
  match (s.core core).copyQ with
  | [] => .next s
  | j :: _ =>
    if !j.started || j.paused || j.elements ≤ j.pos then .next s
    else
      let gr := (tget s.grids j.grid).getD {}
      .next (s.beat core j ((gr.codeSlot j.codeNo).getD .none) ((gr.floatSlot j.floatNo).getD .none))

/-- COPY_COMPLETE (R223). -/
def execCopyComplete (core : Nat) (s : State) : Out :=
  match (s.core core).copyQ with
  | [] => .next s
  | j :: _ => if !j.started || j.paused || j.pos < j.elements then .next s else .next (s.endJob core j)

/-- Whether a gang can take an engine's page fault now: it is placed, in no handler for page faults, and at an issue boundary or in
a WAITC, BAR or MACQ (R226, R343). A copy's fault is also taken while the team is being stopped, in any wait and where the gang has
halted, for the copy completes first (R227, R454). -/
def State.canFault (s : State) (g : Gang) (f : EngFault) : Bool :=
  let t := s.teamOf g
  let draining := !f.seq && t.st != .running
  !t.cores.isEmpty && !g.ended && !g.inPf && (draining || !g.halted) &&
    match g.thr.wait with
    | .none | .bar _ | .waitc _ _ => true
    | _ => draining

/-- A gang takes the first page fault an engine has raised for it (R226, R343). -/
def State.takeEngFault (s : State) (u : Nat) : State :=
  match tget s.gangs u with
  | none => s
  | some g =>
    match g.engFaults with
    | [] => s
    | f :: rest =>
      if !s.canFault g f then s
      else if s.frameBusy g then s.stir (s.framePa g) 0x1000
      else
        let s := s.endMonitors (.gang u)
        let s := s.modGang u fun g =>
          let w := match g.thr.wait with | .waitu _ | .waitMerge _ | .rendezvous _ => Wait.none | w => w
          { g with engFaults := rest, thr := { g.thr with wait := w }, halted := false, pfHalted := g.halted }
        let s := if f.seq then s else
          let job (j : Job) : Job := if j.gang == u && j.paused then { j with inHandler := true } else j
          { s with cores := s.cores.map fun e => (e.1, { e.2 with copyQ := e.2.copyQ.map job }) }
        s.pageFault u (laneBit f.lane) [(f.lane, f.va)]
          (BitVec.ofNat 64 (f.kind + 16 * f.level + if f.seq then 512 else 256))

/-- COPY_PAGE_FAULT (R226): the gang of the copy that has paused takes the fault. -/
def execCopyPageFault (core : Nat) (s : State) : Out :=
  match (s.core core).copyQ with
  | [] => .next s
  | j :: _ =>
    let mine := ((tget s.gangs j.gang).map fun g => (g.engFaults.head?).any fun f => !f.seq).getD false
    if j.paused && !j.inHandler && mine then .next (s.takeEngFault j.gang) else .next s

end Sys2Proof.Machine
end

