-- ==== Sys2Proof/Machine/Approx.lean ====
section
/-!
DEFINITION. The seven approximate functions of R280. Each returns the free value of Config when that lies within the
bound the rule states, and the nearest binary32 number otherwise; the special inputs are the rule's. The bounds of
FEXP2, FLOG2, FSIN, FCOS and FTANH are enforced on fixed-point enclosures (assumption 10).
-/
namespace Sys2Proof.Machine

/-- π in units of 2^-400. -/
def piFix : Nat := 8112377246730971238862271351300894519161151600179265203591191037615230905373990498745523360926816815427566779727327576236
/-- ln 2 in units of 2^-240. -/
def ln2Fix : Nat := 1224685061431752149387114016819916847747660333428801675508466606222838698

/-- Fraction bits of the enclosures. -/
def fxP : Nat := 160

/-- Product of two fixed-point numbers. -/
def fxMul (a b : Int) : Int := a * b / (2 ^ fxP : Nat)

/-- exp of a fixed-point number of magnitude at most 1, by its series. -/
def fxExp (r : Int) : Nat → Nat → Int → Int → Int
  | 0, _, _, acc => acc
  | n + 1, k, term, acc => let t := fxMul term r / (k : Int); fxExp r n (k + 1) t (acc + t)

/-- 2^(k + f) with f in [0, 1): the fixed-point value of 2^f. -/
def fxExp2 (f : Int) : Int :=
  let l : Int := (ln2Fix / 2 ^ (240 - fxP) : Nat)
  fxExp (fxMul f l) 48 1 (2 ^ fxP : Nat) (2 ^ fxP : Nat)

/-- atanh(z) by its series, for z at most 1/3. -/
def fxAtanh (z2 : Int) : Nat → Nat → Int → Int → Int
  | 0, _, _, acc => acc
  | n + 1, k, p, acc => let p' := fxMul p z2; fxAtanh z2 n (k + 2) p' (acc + p' / (k : Int))

/-- log2 of f in [1, 2). -/
def fxLog2 (f : Int) : Int :=
  let one : Int := (2 ^ fxP : Nat)
  let z := (f - one) * one / (f + one)
  let a := fxAtanh (fxMul z z) 52 3 z z
  let l : Int := (ln2Fix / 2 ^ (240 - fxP) : Nat)
  2 * a * one / l

/-- sin by its series, for |r| at most π. -/
def fxSin (r2 : Int) : Nat → Nat → Int → Int → Int
  | 0, _, _, acc => acc
  | n + 1, k, p, acc =>
    let p' := -(fxMul p r2) / ((k * (k + 1) : Nat) : Int)
    fxSin r2 n (k + 2) p' (acc + p')

/-- A finite value scaled by 2^s, rounded down. -/
def fxOf (neg : Bool) (m : Nat) (e s : Int) : Int :=
  let k := e + s
  let x : Nat := if 0 ≤ k then m * 2 ^ k.toNat else m / 2 ^ (-k).toNat
  if neg then -(x : Int) else x

/-- The candidate if it lies within tol of g, both in units of 2^(n - fxP); otherwise the nearest number. -/
def pick (cand : Nat) (n g tol : Int) : Nat :=
  let near := (f32.round .rn (decide (g < 0)) g.natAbs (n - fxP)).bits
  match f32.decode cand with
  | .fin neg m e => if ((fxOf neg m e (fxP - n) - g).natAbs : Int) ≤ tol + 4 then cand else near
  | _ => near

/-- k ulp of a value g × 2^(n - fxP), in the same units (subnormal spacing at the bottom). -/
def ulps (k : Nat) (n g : Int) : Int :=
  let ex : Int := (bitLen g.natAbs : Int) - 1 - fxP + n
  let q : Int := (if ex < -126 then -126 else ex) - 23 - n + fxP
  if 0 ≤ q then (k * 2 ^ q.toNat : Nat) else 0

/-- Whether a mantissa is a power of two. -/
def isPow2 (m : Nat) : Bool := m != 0 && 2 ^ Nat.log2 m == m

/-- Flush a subnormal result without flags (R275, R280). -/
def quietFlush (ftz : Bool) (r : FRes) : FRes :=
  if ftz && f32.isSub r.bits then ⟨f32.zero (r.bits / 2 ^ 31 % 2 == 1), r.flags⟩ else r

/-- FRCP (R280). -/
def frcpVal (ftz : Bool) (a : Nat) : FRes :=
  quietFlush ftz <|
  match f32.flushIn ftz (f32.decode a) with
  | .nan s => ⟨f32.qnan, if s then flNV else 0⟩
  | .inf n => ⟨f32.zero n, 0⟩
  | .fin n m e =>
    if m = 0 then ⟨f32.inf n, flDZ⟩
    else
      let k := bitLen m
      let sc : Int := -(k : Int) - e
      let g0 : Int := ((2 ^ (k + fxP) / m : Nat) : Int)
      let g := if n then -g0 else g0
      let near := (f32.round .rn n g0.natAbs (sc - fxP)).bits
      if isPow2 m || near == f32.inf n then ⟨near, 0⟩
      else ⟨pick (Config.frcp (BitVec.ofNat 32 a)).toNat sc g (ulps 1 sc g), 0⟩

/-- FRSQ (R280). -/
def frsqVal (ftz : Bool) (a : Nat) : FRes :=
  quietFlush ftz <|
  match f32.flushIn ftz (f32.decode a) with
  | .nan s => ⟨f32.qnan, if s then flNV else 0⟩
  | .inf n => if n then ⟨f32.qnan, flNV⟩ else ⟨0, 0⟩
  | .fin n m e =>
    if m = 0 then ⟨f32.inf n, flDZ⟩
    else if n then ⟨f32.qnan, flNV⟩
    else
      let odd := (e % 2).toNat
      let m2 := m * 2 ^ odd
      let k := bitLen m2 / 2
      let x := 2 ^ (2 * fxP + 2 * k) / m2
      let g : Int := ((isqrt x (bitLen x / 2 + 1) 0 : Nat) : Int)
      let sc : Int := -((e - odd) / 2) - k
      ⟨pick (Config.frsq (BitVec.ofNat 32 a)).toNat sc g (ulps 1 sc g), 0⟩

/-- FEXP2 (R280). -/
def fexp2Val (ftz : Bool) (a : Nat) : FRes :=
  quietFlush ftz <|
  match f32.flushIn ftz (f32.decode a) with
  | .nan s => ⟨f32.qnan, if s then flNV else 0⟩
  | .inf n => if n then ⟨0, 0⟩ else ⟨f32.inf false, 0⟩
  | .fin n m e =>
    let x := fxOf n m e fxP
    let one : Int := (2 ^ fxP : Nat)
    let k := x / one
    let f := x % one
    if 128 ≤ k then ⟨f32.inf false, flOF⟩
    else
      let k := if k < -400 then -400 else k
      let g := if f = 0 then one else fxExp2 f
      if f = 0 && decide (-149 ≤ k) then ⟨(f32.round .rn false 1 k).bits, 0⟩
      else ⟨pick (Config.fexp2 (BitVec.ofNat 32 a)).toNat k g (ulps 2 k g), 0⟩

/-- FLOG2 (R280). -/
def flog2Val (ftz : Bool) (a : Nat) : FRes :=
  quietFlush ftz <|
  match f32.flushIn ftz (f32.decode a) with
  | .nan s => ⟨f32.qnan, if s then flNV else 0⟩
  | .inf n => if n then ⟨f32.qnan, flNV⟩ else ⟨f32.inf false, 0⟩
  | .fin n m e =>
    if m = 0 then ⟨f32.inf true, flDZ⟩
    else if n then ⟨f32.qnan, flNV⟩
    else
      let k := bitLen m
      let ex : Int := (k : Int) - 1 + e
      if isPow2 m then ⟨(f32.ofInt .rn ex).bits, 0⟩
      else
        let f : Int := ((m * 2 ^ fxP / 2 ^ (k - 1) : Nat) : Int)
        let g := ex * (2 ^ fxP : Nat) + fxLog2 f
        let tol : Int := if ex = 0 || ex = -1 then ((2 ^ (fxP - 22) : Nat) : Int) else ulps 2 0 g
        ⟨pick (Config.flog2 (BitVec.ofNat 32 a)).toNat 0 g tol, 0⟩

/-- An argument reduced to [-π, π), in units of 2^-fxP. -/
def reducePi (neg : Bool) (m : Nat) (e : Int) : Int :=
  let x := fxOf neg m e 400
  let tp : Int := 2 * piFix
  let r := (x + piFix) % tp - piFix
  r / (2 ^ (400 - fxP) : Nat)

/-- FSIN (R280). -/
def fsinVal (ftz : Bool) (a : Nat) : FRes :=
  quietFlush ftz <|
  match f32.flushIn ftz (f32.decode a) with
  | .nan s => ⟨f32.qnan, if s then flNV else 0⟩
  | .inf _ => ⟨f32.qnan, flNV⟩
  | .fin n m e =>
    if m = 0 then ⟨f32.zero n, 0⟩
    else
      let r := reducePi n m e
      let g := fxSin (fxMul r r) 40 2 r r
      ⟨pick (Config.fsin (BitVec.ofNat 32 a)).toNat 0 g (2 ^ (fxP - 22) : Nat), 0⟩

/-- FCOS (R280). -/
def fcosVal (ftz : Bool) (a : Nat) : FRes :=
  quietFlush ftz <|
  match f32.flushIn ftz (f32.decode a) with
  | .nan s => ⟨f32.qnan, if s then flNV else 0⟩
  | .inf _ => ⟨f32.qnan, flNV⟩
  | .fin n m e =>
    let r := reducePi n m e
    let one : Int := (2 ^ fxP : Nat)
    let g := fxSin (fxMul r r) 40 1 one one
    ⟨pick (Config.fcos (BitVec.ofNat 32 a)).toNat 0 g (2 ^ (fxP - 22) : Nat), 0⟩

/-- FTANH (R280). -/
def ftanhVal (ftz : Bool) (a : Nat) : FRes :=
  quietFlush ftz <|
  match f32.flushIn ftz (f32.decode a) with
  | .nan s => ⟨f32.qnan, if s then flNV else 0⟩
  | .inf n => ⟨if n then 0xBF800000 else 0x3F800000, 0⟩
  | .fin n m e =>
    if m = 0 then ⟨f32.zero n, 0⟩
    else
      let one : Int := (2 ^ fxP : Nat)
      let y := fxOf false m (if 40 < e then 40 else e) fxP
      let g0 :=
        if 64 * one ≤ y then one
        else
          let l : Int := (ln2Fix / 2 ^ (240 - fxP) : Nat)
          let z := 2 * y * one / l
          let u := fxExp2 (z % one) * (2 ^ (z / one).toNat : Nat)
          one - 2 * one * one / (u + one)
      let g := if n then -g0 else g0
      let tol : Int := max (ulps 2 0 g) ((2 ^ (fxP - 24) : Nat) : Int)
      ⟨pick (Config.ftanh (BitVec.ofNat 32 a)).toNat 0 g tol, 0⟩

end Sys2Proof.Machine
end

