-- ==== Sys2Proof/Machine/FloatOps.lean ====
section
/-!
DEFINITION. The F32, packed half, DOT4 and conversion instructions (R275 to R284).
-/
namespace Sys2Proof.Machine

/-- A two-source F32 instruction (R275, R277). -/
def State.flt3 (s : State) (f : FFn) (lat : Nat) (o : R3) (g : FVal → FVal → FRes) : Out :=
  s.alu o.p o.ixs lat o.d false false [(o.a, .f32), (o.b, .f32)] false fun xs =>
    fOut f (g (fIn f.ftz (warg xs 0)) (fIn f.ftz (warg xs 1)))

/-- FADD (R277). -/
def execFadd (f : FFn) (o : R3) (s : State) : Out := s.flt3 f 4 o fun a b => f32.add f.rm a b
/-- FSUB (R277). -/
def execFsub (f : FFn) (o : R3) (s : State) : Out := s.flt3 f 4 o fun a b => f32.add f.rm a b.negate
/-- FMUL (R277). -/
def execFmul (f : FFn) (o : R3) (s : State) : Out := s.flt3 f 4 o fun a b => f32.mul f.rm a b

/-- FFMA (R277). -/
def execFfma (f : FFn) (o : R4) (s : State) : Out :=
  s.alu o.p o.ixs 4 o.d false false [(o.a, .f32), (o.b, .f32), (o.c, .f32)] false fun xs =>
    fOut f (f32.fma f.rm (fIn f.ftz (warg xs 0)) (fIn f.ftz (warg xs 1)) (fIn f.ftz (warg xs 2)))

/-- FMIN (R277). -/
def execFmin (ftz : Bool) (o : R3) (s : State) : Out := s.flt3 ⟨false, ftz, .rn⟩ 4 o (f32.minMax false)
/-- FMAX (R277). -/
def execFmax (ftz : Bool) (o : R3) (s : State) : Out := s.flt3 ⟨false, ftz, .rn⟩ 4 o (f32.minMax true)

/-- FCMP (R278): never flushes. -/
def execFcmp (c : FCond) (o : R3) (s : State) : Out :=
  s.alu o.p o.ixs 4 o.d false false [(o.a, .f32), (o.b, .f32)] false fun xs =>
    let r := fcmpVal c (fIn false (warg xs 0)) (fIn false (warg xs 1))
    (bword r.1, r.2)

/-- FCLASS (R279). -/
def execFclass (o : R3) (s : State) : Out :=
  s.alu o.p o.ixs 4 o.d false false [(o.a, .f32), (o.b, .u32)] false fun xs =>
    (bword ((warg xs 1).getLsbD (f32.classOf ((warg xs 0).toNat % 2 ^ 32))), 0)

/-- A one-source function of R280. -/
def State.approx (s : State) (sat ftz : Bool) (o : R2) (g : Bool → Nat → FRes) : Out :=
  s.alu o.p o.ixs 12 o.d false false [(o.a, .f32)] false fun xs =>
    fOut ⟨sat, false, .rn⟩ (g ftz ((warg xs 0).toNat % 2 ^ 32))

/-- FRCP (R280). -/
def execFrcp (sat ftz : Bool) (o : R2) (s : State) : Out := s.approx sat ftz o frcpVal
/-- FRSQ (R280). -/
def execFrsq (sat ftz : Bool) (o : R2) (s : State) : Out := s.approx sat ftz o frsqVal
/-- FEXP2 (R280). -/
def execFexp2 (sat ftz : Bool) (o : R2) (s : State) : Out := s.approx sat ftz o fexp2Val
/-- FLOG2 (R280). -/
def execFlog2 (sat ftz : Bool) (o : R2) (s : State) : Out := s.approx sat ftz o flog2Val
/-- FSIN (R280). -/
def execFsin (sat ftz : Bool) (o : R2) (s : State) : Out := s.approx sat ftz o fsinVal
/-- FCOS (R280). -/
def execFcos (sat ftz : Bool) (o : R2) (s : State) : Out := s.approx sat ftz o fcosVal
/-- FTANH (R280). -/
def execFtanh (sat ftz : Bool) (o : R2) (s : State) : Out := s.approx sat ftz o ftanhVal

/-- FSQRT (R277). -/
def execFsqrt (f : FFn) (o : R2) (s : State) : Out :=
  s.alu o.p o.ixs 12 o.d false false [(o.a, .f32)] false fun xs => fOut f (f32.sqrt f.rm (fIn f.ftz (warg xs 0)))

/-- FDIV (R277). -/
def execFdiv (f : FFn) (o : R3) (s : State) : Out := s.flt3 f 24 o fun a b => f32.div f.rm a b

/-- FLDX (R277): B is read as one I32 (R260). -/
def execFldx (f : FFn) (o : R3) (s : State) : Out :=
  s.alu o.p o.ixs 4 o.d false false [(o.a, .f32), (o.b, .u32)] false fun xs =>
    fOut f (f32.ldx f.rm (fIn f.ftz (warg xs 0)) (snat (warg xs 1).toNat 32))

/-- FRND (R277). -/
def execFrnd (f : FFn) (o : R2) (s : State) : Out :=
  s.alu o.p o.ixs 4 o.d false false [(o.a, .f32)] false fun xs => fOut f (f32.rint f.rm (fIn f.ftz (warg xs 0)))

/-- The read kind of a packed operand. -/
def hrd (bf : Bool) : Rd := if bf then .bf16 else .f16

/-- HADD2 (R281). -/
def execHadd2 (h : HFn) (o : R3) (s : State) : Out :=
  s.alu o.p o.ixs 4 o.d false false [(o.a, hrd h.bf), (o.b, hrd h.bf)] false
    (packed h.bf h.sat fun f xs => f.add h.rm (arg xs 0) (arg xs 1))

/-- HMUL2 (R281). -/
def execHmul2 (h : HFn) (o : R3) (s : State) : Out :=
  s.alu o.p o.ixs 4 o.d false false [(o.a, hrd h.bf), (o.b, hrd h.bf)] false
    (packed h.bf h.sat fun f xs => f.mul h.rm (arg xs 0) (arg xs 1))

/-- HFMA2 (R281). -/
def execHfma2 (h : HFn) (o : R4) (s : State) : Out :=
  s.alu o.p o.ixs 4 o.d false false [(o.a, hrd h.bf), (o.b, hrd h.bf), (o.c, hrd h.bf)] false
    (packed h.bf h.sat fun f xs => f.fma h.rm (arg xs 0) (arg xs 1) (arg xs 2))

/-- HMIN2 (R281). -/
def execHmin2 (sat bf : Bool) (o : R3) (s : State) : Out :=
  s.alu o.p o.ixs 4 o.d false false [(o.a, hrd bf), (o.b, hrd bf)] false
    (packed bf sat fun f xs => f.minMax false (arg xs 0) (arg xs 1))

/-- HMAX2 (R281). -/
def execHmax2 (sat bf : Bool) (o : R3) (s : State) : Out :=
  s.alu o.p o.ixs 4 o.d false false [(o.a, hrd bf), (o.b, hrd bf)] false
    (packed bf sat fun f xs => f.minMax true (arg xs 0) (arg xs 1))

/-- Byte j of a value, signed or not (R282). -/
def byteVal (signed : Bool) (x : Word) (j : Nat) : Int :=
  if signed then snat (nbits x.toNat (8 * j) 8) 8 else ((nbits x.toNat (8 * j) 8 : Nat) : Int)

/-- DOT4 (R282). -/
def execDot4 (sat bs as : Bool) (o : R4) (s : State) : Out :=
  s.alu o.p o.ixs 6 o.d false true [(o.a, .u32), (o.b, .u32), (o.c, .u32)] false fun xs =>
    let sum := (List.range 4).foldl (init := ityVal .i32 (warg xs 2)) fun acc j =>
      acc + byteVal as (warg xs 0) j * byteVal bs (warg xs 1) j
    (ityResult .i32 sat sum, 0)

/-- Whether a conversion's result is of a signed integer type (R283). -/
def cvtSigned : CvtOp → Bool
  | .i32F32 | .i64F32 | .i8I32 | .i16I32 => true
  | _ => false

/-- How a conversion reads its source. -/
def cvtRd : CvtOp → Rd
  | .f32F16 => .f16
  | .f32Bf16 => .bf16
  | .f32I64 | .f32N64 => .u64
  | .i32F32 | .n32F32 | .i64F32 | .n64F32 | .f16F32 | .bf16F32 => .f32
  | _ => .u32

/-- A float result as a word. -/
def fres (r : FRes) : Word × FFlags := (BitVec.ofNat 64 r.bits, r.flags)

/-- An integer result as a word of n bits, sign-extended above where `v` destinations keep the bits zero. -/
def ires (n : Nat) (r : Int × FFlags) : Word × FFlags := (BitVec.ofNat 64 (wrapNat r.1 n), r.2)

/-- The value of a conversion (R283). -/
def cvtVal (op : CvtOp) (rd : RMode) (x : Word) : Word × FFlags :=
  let f := f32.decode (x.toNat % 2 ^ 32)
  match op with
  | .f32I32 => fres (f32.ofInt rd (ityVal .i32 x))
  | .f32N32 => fres (f32.ofInt rd (ityVal .n32 x))
  | .f32I64 => fres (f32.ofInt rd (ityVal .i64 x))
  | .f32N64 => fres (f32.ofInt rd (ityVal .n64 x))
  | .i32F32 => ires 32 (toIntClamp rd f (ityLo .i32) (ityHi .i32))
  | .n32F32 => ires 32 (toIntClamp rd f (ityLo .n32) (ityHi .n32))
  | .i64F32 => ires 64 (toIntClamp rd f (ityLo .i64) (ityHi .i64))
  | .n64F32 => ires 64 (toIntClamp rd f (ityLo .n64) (ityHi .n64))
  | .f16F32 => fres (f16.convert rd f)
  | .bf16F32 => fres (bf16.convert rd f)
  | .f32F16 => fres (f32.convert .rn (f16.decode (x.toNat % 65536)))
  | .f32Bf16 => fres (f32.convert .rn (bf16.decode (x.toNat % 65536)))
  | .i8I32 => ires 8 (clampInt (ityVal .i32 x) (-128) 127, 0)
  | .i16I32 => ires 16 (clampInt (ityVal .i32 x) (-32768) 32767, 0)
  | .n8I32 => ires 8 (clampInt (ityVal .i32 x) 0 255, 0)
  | .n16I32 => ires 16 (clampInt (ityVal .i32 x) 0 65535, 0)

/-- The bits of a narrow result of a signed type in an s register: sign-extended to 64 bits (R283). -/
def cvtForS (op : CvtOp) (x : Word) : Word :=
  match op with
  | .i8I32 => (x.setWidth 8 : BitVec 8).signExtend 64
  | .i16I32 => (x.setWidth 16 : BitVec 16).signExtend 64
  | _ => x

/-- CVT (R283). -/
def execCvt (op : CvtOp) (rd : RMode) (o : R2) (s : State) : Out :=
  s.alu o.p o.ixs 4 o.d (op.grpD == 2) (cvtSigned op) [(o.a, cvtRd op)] false fun xs =>
    let r := cvtVal op rd (warg xs 0)
    (if isS o.d then cvtForS op r.1 else r.1, r.2)

/-- The value of CVTP (R284): the two codes, and the kept half of D for the FP8 codes. -/
def cvtpVal (op : CvtpOp) (hi : Bool) (rd : RMode) (a b d : Word) : Word × FFlags :=
  let fa := f32.decode (a.toNat % 2 ^ 32)
  let fb := f32.decode (b.toNat % 2 ^ 32)
  let pair (w : Nat) (x y : FRes) : Nat × FFlags := (x.bits + 2 ^ w * y.bits, x.flags ||| y.flags)
  let narrow (r : Nat × FFlags) : Word × FFlags :=
    (BitVec.ofNat 64 (if hi then d.toNat % 65536 + 65536 * r.1 else d.toNat % 2 ^ 32 / 65536 * 65536 + r.1), r.2)
  let full (r : Nat × FFlags) : Word × FFlags := (BitVec.ofNat 64 r.1, r.2)
  match op with
  | .f16x2 => full (pair 16 (f16.convert rd fa) (f16.convert rd fb))
  | .bf16x2 => full (pair 16 (bf16.convert rd fa) (bf16.convert rd fb))
  | .e4m3x2 => narrow (pair 8 (fp8 true rd fa) (fp8 true rd fb))
  | .e5m2x2 => narrow (pair 8 (fp8 false rd fa) (fp8 false rd fb))

/-- CVTP (R284); the FP8 codes read D as a source (R8). -/
def execCvtp (op : CvtpOp) (hi : Bool) (rd : RMode) (o : R3) (s : State) : Out :=
  s.alu o.p o.ixs 4 o.d false false
    ([(o.a, .f32), (o.b, .f32)] ++ (if op.narrow then [(o.d, .u32)] else [])) op.narrow fun xs =>
      cvtpVal op hi rd (warg xs 0) (warg xs 1) (warg xs 2)

end Sys2Proof.Machine
end

