-- ==== Sys2Proof/Machine/Groups.lean ====
section
/-!
DEFINITION. Sample groups: the descriptor, FORKG, deposits, GBAR, GCAN, the close and its statistics, and the group timer
(R420 to R437).
-/
namespace Sys2Proof.Machine

/-! ## The descriptor (R420, R421) -/

/-- The header of a group descriptor; `ok` says that R425's checks on it pass. -/
structure GDesc where
  g : Nat
  gmin : Nat
  tmo : Nat
  eps : Nat
  state : Nat
  ndep : Nat
  ncan : Nat
  tused : Nat
  tmpl : Word
  parent : Word
  pq : Word
  ok : Bool
  deriving DecidableEq, Repr

/-- A header from its 64 bytes. -/
def GDesc.ofBytes (b : List Byte) : GDesc :=
  let g := fieldN b 0 2
  let gmin := fieldN b 2 2
  let eps := fieldN b 8 4
  let st := fieldN b 12 1
  { g := g, gmin := gmin, tmo := fieldN b 4 4, eps := eps, state := st, ndep := fieldN b 24 2, ncan := fieldN b 26 2,
    tused := fieldN b 28 4, tmpl := fieldW b 32, parent := fieldW b 40, pq := fieldW b 48,
    ok := fieldN b 56 8 == 0 && decide (1 ≤ g) && decide (g ≤ 256) && decide (1 ≤ gmin) && decide (gmin ≤ g) &&
      decide (eps < 0x7F800000) && decide (st ≤ 2) }

/-- The place of slot i. -/
def slotOff (i : Nat) : Nat := 64 + 16 * i

/-- Slot states (R421). -/
def sstRun : Nat := 1
/-- A finite reward. -/
def sstDep : Nat := 2
/-- A reward that is not finite. -/
def sstInv : Nat := 3
/-- Cancelled. -/
def sstCan : Nat := 4
/-- No deposit at close. -/
def sstMiss : Nat := 5

/-- The open group whose header stands at an address. -/
def State.groupAt (s : State) (pa : Nat) : Option (Nat × GroupTimer) := s.groups.find? fun e => e.2.pa == pa

/-- Every stretch of a descriptor: as FORKG translated it, or else those at hand (assumption 50). -/
def State.groupPieces (s : State) (ps : List Piece) : List Piece :=
  match s.groupAt (paAt ps 0) with
  | some t => t.2.pieces
  | none => ps

/-- Read an n-byte field of a descriptor. -/
def State.gGet (s : State) (ps : List Piece) (off n : Nat) : Nat := valOf ((List.range n).map fun j => s.peek (paAt ps (off + j)))

/-- Write an n-byte field of a descriptor, where it is translated. -/
def State.gPut (s : State) (ps : List Piece) (off n x : Nat) : State :=
  if (pieceAt ps off).isSome then s.putFieldW ps off n x else s

/-! ## The close (R431, R432) -/

/-- An F32 sum under RNE. -/
def fAdd (a b : Nat) : Nat := (f32.add .rn (f32.decode a) (f32.decode b)).bits
/-- An F32 difference under RNE. -/
def fSub (a b : Nat) : Nat := (f32.add .rn (f32.decode a) (f32.decode b).negate).bits
/-- An F32 product under RNE. -/
def fMul (a b : Nat) : Nat := (f32.mul .rn (f32.decode a) (f32.decode b)).bits
/-- An F32 quotient under RNE. -/
def fDiv (a b : Nat) : Nat := (f32.div .rn (f32.decode a) (f32.decode b)).bits
/-- An F32 square root under RNE. -/
def fSqrt (a : Nat) : Nat := (f32.sqrt .rn (f32.decode a)).bits
/-- Whether an F32 pattern is finite. -/
def fFinite (a : Nat) : Bool := decide (a % 2 ^ 31 < 0x7F800000)

/-- What a close writes: STATUS, MEAN, SIGMA, and the advantages of valid slots (none: every ADV is the NaN). -/
structure CloseStats where
  status : Nat
  mean : Nat
  sigma : Nat
  adv : Option (List Nat)
  deriving DecidableEq, Repr

/-- The statistics of R432 over the valid rewards in sibling order. -/
def closeStats (gmin eps : Nat) (rs : List Nat) : CloseStats :=
  let n := rs.length
  let nan := 0x7FC00000
  if n < gmin then ⟨3, nan, nan, none⟩
  else
    let e := if eps = 0 then 0x35800000 else eps
    let fn := (f32.ofInt .rn (n : Int)).bits
    let sum := rs.foldl fAdd 0
    let mu := fDiv sum fn
    let ds := rs.map fun r => fSub r mu
    let q := ds.foldl (fun q d => fAdd q (fMul d d)) 0
    let var := fDiv q fn
    let sg := fSqrt var
    let den := fAdd sg e
    if !(fFinite sum && fFinite var && fFinite den) then ⟨4, mu, sg, none⟩
    else if rs.all (fun r => some r == rs.head?) || var % 2 ^ 31 = 0 then ⟨2, mu, sg, some (rs.map fun _ => 0)⟩
    else ⟨1, mu, sg, some (ds.map fun d => fDiv d den)⟩

/-- Whole microseconds a group has run (R420). -/
def GroupTimer.us (t : GroupTimer) (ps : Nat) : Nat := (t.used + if t.paused then 0 else ps - t.since) / 1000000

/-- TUSED at a moment: at most TMO, at which the group closes (R420, R431). -/
def GroupTimer.tused (t : GroupTimer) (tmo ps : Nat) : Nat := if tmo = 0 then t.us ps else Nat.min tmo (t.us ps)

/-- Close a group (R431): slots, statistics, STATE, then the parent. -/
def State.closeGroup (s : State) (e : Env) (grid : Nat) (desc : Word) (ps : List Piece) : State :=
  let d := GDesc.ofBytes ((List.range 64).map fun j => s.peek (paAt ps j))
  let tm := s.groupAt (paAt ps 0)
  let s := match tm with | some t => s.gPut ps 28 4 (t.2.tused d.tmo s.ps) | none => s
  let ids := (List.range d.g).filter fun i => (pieceAt ps (slotOff i)).isSome
  let s := ids.foldl (init := s) fun s i =>
    if s.gGet ps (slotOff i + 8) 1 = sstRun then s.gPut ps (slotOff i + 8) 1 sstMiss else s
  let valid := ids.filter fun i => s.gGet ps (slotOff i + 8) 1 == sstDep
  let st := closeStats d.gmin d.eps (valid.map fun i => s.gGet ps (slotOff i) 4)
  let nan := 0x7FC00000
  let s := ids.foldl (init := s) fun s i =>
    let sst := s.gGet ps (slotOff i + 8) 1
    match st.adv with
    | none => s.gPut ps (slotOff i + 4) 4 nan
    | some as =>
      match ((valid.zip as).find? fun x => x.1 == i) with
      | some x => s.gPut ps (slotOff i + 4) 4 x.2
      | none => if sst = 0 then s else s.gPut ps (slotOff i + 4) 4 nan
  let s := s.gPut ps 16 4 st.mean
  let s := s.gPut ps 20 4 st.sigma
  let s := s.gPut ps 14 2 valid.length
  let s := s.gPut ps 13 1 st.status
  let s := s.gPut ps 12 1 2
  let (e, grid, s) := match tm with
    | some t => ({ e with ctx := t.2.ctx, sup := t.2.sup }, t.2.grid, { s with groups := tdel s.groups t.1 })
    | none => (e, grid, s)
  if d.parent = 0 then s else s.startCont e grid desc d.parent d.pq true

/-- A group whose time is over closes before a deposit or a cancellation that comes later (R431). -/
def State.closeDue (s : State) (ps : List Piece) : State :=
  match s.groupAt (paAt ps 0) with
  | none => s
  | some t =>
    let ps := t.2.pieces
    let tmo := s.gGet ps 4 4
    if s.gGet ps 12 1 = 1 && tmo != 0 && decide (tmo ≤ t.2.us s.ps) then
      s.closeGroup { agent := s.coreAgent 0, ctx := t.2.ctx, sup := t.2.sup } t.2.grid t.2.desc ps
    else s

/-- A commit of a sibling at its group's home (R427, R429): its slot's CGEN rises, and a reward is deposited if the group
is open and the slot still runs; the last deposit closes the group. -/
def State.deposit (s : State) (e : Env) (grid : Nat) (desc : Word) (ps : List Piece) (sib : Nat) (reward : Option Nat) : State :=
  let ps := s.groupPieces ps
  let s := s.closeDue ps
  let o := slotOff sib
  let s := s.gPut ps (o + 12) 4 ((s.gGet ps (o + 12) 4 + 1) % 2 ^ 32)
  match reward with
  | none => s
  | some r =>
    if s.gGet ps 12 1 != 1 || s.gGet ps (o + 8) 1 != sstRun then s
    else
      let s := s.gPut ps o 4 r
      let s := s.gPut ps (o + 8) 1 (if fFinite r then sstDep else sstInv)
      let n := s.gGet ps 24 2 + 1
      let s := s.gPut ps 24 2 n
      if n + s.gGet ps 26 2 = s.gGet ps 0 2 then s.closeGroup e grid desc ps else s

/-- GROUP_TIMEOUT (R420, R431): TUSED follows the time, and at TMO the group closes. -/
def execGroupTimeout (n : Nat) (s : State) : Out :=
  match tget s.groups n with
  | none => .next s
  | some t =>
    let ps := t.pieces
    if s.busyPieces ps then .next (s.stirPieces ps t.grid)
    else
      let s := s.recallAt ps
      if s.gGet ps 12 1 != 1 then .next { s with groups := tdel s.groups n }
      else
      let us := t.tused (s.gGet ps 4 4) s.ps
      let s := if s.gGet ps 28 4 = us % 2 ^ 32 then s else s.gPut ps 28 4 us
      .next (s.closeDue ps)

/-! ## FORKG (R425, R426) -/

/-- Translate several runs of addresses. -/
def State.tMany (s : State) (v : View) (w : Want) : List (Word × Nat) → (State → List (List Piece) → Res) → Res
  | [], k => k s []
  | (a, n) :: rest, k => s.tPlace v w a n 1 fun s ps => s.tMany v w rest fun s qs => k s (ps :: qs)

/-- The bytes FORKG writes into the header from STATE on (R426). -/
def openBytes : List Byte := [1, 0] ++ List.replicate 18 0

/-- A slot as FORKG leaves it. -/
def slotBytes : List Byte := List.replicate 8 0 ++ [1] ++ List.replicate 7 0

/-- A sibling's record. -/
def Rec.sibling (r : Rec) (i : Nat) (fbase desc : Word) : Rec :=
  { r with frame := fbase + BitVec.ofNat 64 (i * r.flen), grp := true, sibx := i, args := r.args.take 3 ++ [desc] }

/-- The queue after a push. -/
def QDesc.pushed (q : QDesc) : QDesc := { q with free := q.free - 1, items := q.items + 1, tail := q.tail + 1 }

/-- What FORKG writes for sibling i (R426): its frame, copied from the template's as it stands then, its record, its slot. -/
def State.forkOne (r : Rec) (fbase recb desc : Word) (sps fps rps dps : List Piece) (s : State) (i : Nat) : State :=
  let at_ (ps : List Piece) (o n : Nat) : List Piece :=
    (List.range n).filterMap fun j => (pieceAt ps (o + j)).map fun q => { q.2 with off := j, n := 1, pa := q.1 }
  let s := if r.flen = 0 then s
    else s.writePieces (at_ fps (i * r.flen) r.flen) (s.readPieces sps r.flen)
  let s := s.writePieces (at_ rps (64 * i) 64) (r.sibling i fbase desc).bytes
  (List.range 16).foldl (init := s) fun s j => s.gPut dps (slotOff i + j) 1 ((slotBytes[j]?).getD 0).toNat

/-- The effect of FORKG in its action phase (R426). -/
def State.forkAll (s : State) (v : View) (d : GDesc) (r : Rec) (desc recb fbase : Word) (q : QDesc) (qps : List Piece)
    (dps rps fps sps : List Piece) (slots : List (List Piece)) (hook : Option (List Piece)) : State :=
  let s := (List.range d.g).foldl (State.forkOne r fbase recb desc sps fps rps dps) s
  let s := (List.range 20).foldl (init := s) fun s j => s.gPut dps (12 + j) 1 ((openBytes[j]?).getD 0).toNat
  let y := ((List.range d.g).zip slots).foldl (init := (s, q)) fun acc e =>
    let ra := recb + BitVec.ofNat 64 (64 * e.1)
    (acc.1.pushAt qps e.2 hook acc.2 (r.sibling e.1 fbase desc).bytes (some (ra, none)), acc.2.pushed)
  let t : GroupTimer :=
    { desc := desc, pa := paAt dps 0, pieces := dps, ctx := v.g.ctx, sup := v.sup, grid := (s.teamOf v.g).grid, since := s.ps }
  let s := y.1
  { s with groups := tput s.groups s.fresh t, fresh := s.fresh + 1 }

/-- FORKG: once its checks have passed it waits for its release, and then only STATE and FREE still decide (R425). -/
def execForkg (x : X1) (s : State) : Out :=
  let sb := x.sb.toNat
  s.once { p := x.p, rs := runRegs x.sb 4, ws := [sb + 4] } false fun s v _ =>
    let desc := v.t.regs.getS sb
    let recb := v.t.regs.getS (sb + 1)
    let fbase := v.t.regs.getS (sb + 2)
    let queue := v.t.regs.getS (sb + 3)
    let acting := v.t.wait == .acting
    let act (s : State) (k : State → Res) : Res :=
      (s.modThr v.a fun t => { t with wait := .acting }).tRelease v k
    let done (s : State) (n : Nat) : Res :=
      .done ((s.putS v.a (sb + 4) (BitVec.ofNat 64 n)).modThr v.a fun t => { t with wait := .none })
    s.tAddr v .rmw desc 64 64 fun s hps => s.tRead v hps 64 desc fun s hb =>
      let d := GDesc.ofBytes hb
      if d.tmpl.toNat % 64 != 0 then .halt s { cause := .align, addr := d.tmpl }
      else if recb.toNat % 64 != 0 then .halt s { cause := .align, addr := recb }
      else if !d.ok && !(acting && decide (2 < d.state)) then .halt s { cause := .groupDesc }
      else
        s.tAddr v .read d.tmpl 64 1 fun s tps => s.tRead v tps 64 d.tmpl fun s tb =>
          s.tQueue v queue fun s q qps =>
            let r := Rec.ofBytes tb
            let grid := if q.kind = 1 then s.liveGrid q.grid else none
            if recReserved tb || r.join || r.grp || (r.ganged && !r.idem) ||
                grid.any (fun g => !r.shapeOk g.width g.vallot) then .halt s { cause := .taskRecord }
            else if r.sys && !v.sup then .halt s { cause := .privilege }
            else if grid.isNone then .halt s { cause := .queueBind }
            else
              let status (s : State) (n : Nat) : Res := act s fun s => s.whenFree v (hps ++ qps) fun s => done s n
              if d.state != 0 then status s 1
              else if q.free < d.g then status s 2
              else
                let frame (a : Word) (n : Nat) : List (Word × Nat) := if r.flen = 0 then [] else [(a, n)]
                s.tPlace v .rmw desc (64 + 16 * d.g) 1 fun s dps =>
                s.tPlace v .write recb (64 * d.g) 1 fun s rps =>
                s.tMany v .write (frame fbase (d.g * r.flen)) fun s fps =>
                s.tMany v .read (frame r.frame r.flen) fun s sps =>
                s.tMany v .write ((List.range d.g).map fun i => (q.slot (q.tail + i), 64)) fun s slots =>
                s.tHook v q fun s hook =>
                s.tRead v sps.flatten r.flen r.frame fun s _ =>
                act s fun s =>
                  s.whenFree v (qps ++ dps ++ rps ++ fps.flatten ++ slots.flatten ++ hook.getD []) fun s =>
                    let s := s.forkAll v d r desc recb fbase q qps dps rps fps.flatten sps.flatten slots hook
                    done (s.noSpin v) 0

/-! ## GBAR and GCAN (R430, R434, R435) -/

/-- The translated header and slot of a sibling: their pieces as one run of places. -/
def State.tSibling (s : State) (v : View) (w : Want) (k : State → List Piece → Res) : Res :=
  let desc := v.g.gdesc
  s.tAddr v w desc 64 64 fun s hps =>
    let o := slotOff v.g.sib.toNat
    s.tAddr v w (desc + BitVec.ofNat 64 o) 16 1 fun s sps =>
      k s (hps ++ sps.map fun p => { p with off := p.off + o })

/-- A GBAR that waits claims a monitor of its header's unit, as a WAITU does, where one is to be had (R141, R197, R430). -/
def State.watchHeader (s : State) (v : View) (ps : List Piece) : State :=
  match pieceAt ps 12 with
  | none => s
  | some q =>
    let k := ukeyOf q.1 q.2.cohg
    let u := s.unit k
    if u.monitors.any (fun m => m.actor == v.a) || !s.monFree k || s.setFull k then s
    else
      (s.setUnit k { u with monitors := u.monitors ++ [⟨v.a, v.agent s, 64, q.1, 1⟩] }).setEntry k
        { s.entry k with mon := true }

/-- GBAR (R430): it waits for the close, then acquires and returns the advantage and the status. The descriptor is read at its
home, with its units taken (R422). -/
def execGbar (x : X1) (s : State) : Out :=
  let sb := x.sb.toNat
  s.once { p := x.p, ws := [sb, sb + 1] } false fun s v _ =>
    if v.g.sib = 0xFFFFFFFF then .halt s { cause := .groupNone }
    else
      s.tSibling v .read fun s ps => s.whenFree v ps fun s =>
        let o := slotOff v.g.sib.toNat
        s.tRead v (ps.filter fun p => p.off < 64) 64 v.g.gdesc fun s _ =>
        s.tRead v ((ps.filter fun p => o ≤ p.off).map fun p => { p with off := p.off - o }) 16 (v.g.gdesc + BitVec.ofNat 64 o) fun s _ =>
          let st := s.gGet ps 12 1
          let sst := s.gGet ps (o + 8) 1
          if st = 1 && sst = sstRun then .halt (s.endMonitors v.a) { cause := .groupOrder }
          else if st = 1 then .wait (s.watchHeader v ps)
          else
            let s := (s.endMonitors v.a).acquire (v.agent s)
            let s := s.putS v.a sb (BitVec.ofNat 64 (s.gGet ps (o + 4) 4))
            .done (s.putS v.a (sb + 1) (BitVec.ofNat 64 (s.gGet ps 13 1 + 256 * sst + 65536 * s.gGet ps 14 2)))

/-- Mark the placed siblings of a group as cancelled (R435). -/
def State.cancelTeams (s : State) (pa : Nat) (ids : List Nat) : State :=
  { s with teams := s.teams.map fun e =>
      let ctx := ((tget s.grids e.2.grid).map Grid.ctx).getD 0
      let here := match s.walk ctx ((e.2.shape.args[3]?).getD 0) with
        | .leaf l => l.pa ((e.2.shape.args[3]?).getD 0) == pa
        | _ => false
      if e.2.shape.grp && ids.contains e.2.shape.sibx && here then (e.1, { e.2 with cancelled := true }) else e }

/-- GCAN (R434): a group whose time is over has closed before it (R431). -/
def execGcan (x : X1) (s : State) : Out :=
  let sb := x.sb.toNat
  s.once { p := x.p, rs := runRegs x.sb 2, ws := [sb + 2] } true fun s v _ =>
    let desc := v.t.regs.getS sb
    let idx := v.t.regs.getS (sb + 1)
    s.tAddr v .rmw desc 64 64 fun s hps => s.tRead v hps 64 desc fun s hb =>
      let d := GDesc.ofBytes hb
      if idx != BitVec.allOnes 64 && decide (d.g ≤ idx.toNat) then .halt s { cause := .groupDesc }
      else
        s.tPlace v .rmw desc (64 + 16 * d.g) 1 fun s ps =>
          s.tRelease v fun s =>
            s.whenFree v ps fun s =>
              let s := s.closeDue ps
              let named := if idx = BitVec.allOnes 64 then List.range d.g else [idx.toNat]
              let run := named.filter fun i => s.gGet ps (slotOff i + 8) 1 == sstRun
              let status (s : State) (n : Nat) : Res := .done (s.putS v.a (sb + 2) (BitVec.ofNat 64 n))
              if s.gGet ps 12 1 != 1 then status s 2
              else if run.isEmpty then status s 1
              else
                let s := run.foldl (init := s) fun s i =>
                  (s.gPut ps (slotOff i + 8) 1 sstCan).gPut ps (slotOff i + 4) 4 0x7FC00000
                let s := s.gPut ps 26 2 (d.ncan + run.length)
                let s := s.cancelTeams (paAt ps 0) run
                let s := if d.ndep + d.ncan + run.length = d.g then
                  s.closeGroup { agent := v.agent s, ctx := v.g.ctx, sup := v.sup, teamid := (s.teamOf v.g).teamid, pc := v.t.pc }
                    (s.teamOf v.g).grid desc ps else s
                status (s.noSpin v) 0

end Sys2Proof.Machine
end

