-- ==== Sys2Proof/Machine/Crypto.lean ====
section
/-!
DEFINITION. The algorithms that measured start-up names (R477, R479 to R481): SHA-512 and ECDSA on curve P-521, as their
public standards define them (assumption 72).
-/
namespace Sys2Proof.Machine

/-! ## Integer roots, by halving -/

/-- The largest x from r on, below r + 2 ^ b, whose k-th power is at most n; b is the number argument before r. -/
def iroot (k n : Nat) : Nat → Nat → Nat
  | 0, r => r
  | b + 1, r => if (r + 2 ^ b) ^ k ≤ n then iroot k n b (r + 2 ^ b) else iroot k n b r

/-- Whether no number from d on, below d + fuel, divides n. -/
def noDivisor (n d : Nat) : Nat → Bool
  | 0 => true
  | f + 1 => n % d != 0 && noDivisor n (d + 1) f

/-- The first m primes from n on. -/
def primesFrom (n : Nat) : Nat → Nat → List Nat
  | 0, _ => []
  | _ + 1, 0 => []
  | f + 1, m + 1 => if noDivisor n 2 (n - 2) then n :: primesFrom (n + 1) f m else primesFrom (n + 1) f (m + 1)

/-! ## SHA-512 -/

/-- The eighty round constants: fractional bits of the cube roots of the first eighty primes. -/
def shaK : List Word := (primesFrom 2 410 80).map fun p => BitVec.ofNat 64 (iroot 3 (p * 2 ^ 192) 68 0)

/-- The initial hash value: fractional bits of the square roots of the first eight primes. -/
def shaInit : List Word := (primesFrom 2 20 8).map fun p => BitVec.ofNat 64 (iroot 2 (p * 2 ^ 128) 68 0)

/-- A message padded to whole 128-byte blocks. -/
def shaPad (bs : List Byte) : List Byte :=
  let z := (239 - bs.length % 128) % 128
  bs ++ [0x80#8] ++ List.replicate z 0#8 ++ (bytesOf 16 (8 * bs.length)).reverse

/-- A big-endian word. -/
def beWord (bs : List Byte) : Word := BitVec.ofNat 64 (valOf bs.reverse)

/-- Extend a message schedule, held newest first, by n words. -/
def shaExtend : Nat → List Word → List Word
  | 0, w => w
  | n + 1, w =>
    let a := (w[14]?).getD 0
    let b := (w[1]?).getD 0
    let s0 := a.rotateRight 1 ^^^ a.rotateRight 8 ^^^ (a >>> 7)
    let s1 := b.rotateRight 19 ^^^ b.rotateRight 61 ^^^ (b >>> 6)
    shaExtend n (((w[15]?).getD 0 + s0 + (w[6]?).getD 0 + s1) :: w)

/-- The eight working variables. -/
structure Sha where
  a : Word
  b : Word
  c : Word
  d : Word
  e : Word
  f : Word
  g : Word
  h : Word
  deriving DecidableEq, Repr

/-- One round. -/
def Sha.round (x : Sha) (kw : Word) : Sha :=
  let s1 := x.e.rotateRight 14 ^^^ x.e.rotateRight 18 ^^^ x.e.rotateRight 41
  let ch := (x.e &&& x.f) ^^^ (~~~x.e &&& x.g)
  let t1 := x.h + s1 + ch + kw
  let s0 := x.a.rotateRight 28 ^^^ x.a.rotateRight 34 ^^^ x.a.rotateRight 39
  let maj := (x.a &&& x.b) ^^^ (x.a &&& x.c) ^^^ (x.b &&& x.c)
  ⟨t1 + s0 + maj, x.a, x.b, x.c, x.d + t1, x.e, x.f, x.g⟩

/-- The sum of two states. -/
def Sha.add (x y : Sha) : Sha := ⟨x.a + y.a, x.b + y.b, x.c + y.c, x.d + y.d, x.e + y.e, x.f + y.f, x.g + y.g, x.h + y.h⟩

/-- Absorb one 128-byte block. -/
def Sha.block (x : Sha) (bs : List Byte) : Sha :=
  let w := ((List.range 16).map fun j => beWord ((bs.drop (8 * j)).take 8)).reverse
  let ws := (shaExtend 64 w).reverse
  x.add ((shaK.zip ws).foldl (fun y kw => y.round (kw.1 + kw.2)) x)

/-- The state that a hash starts in. -/
def Sha.start : Sha :=
  let h (n : Nat) : Word := (shaInit[n]?).getD 0
  ⟨h 0, h 1, h 2, h 3, h 4, h 5, h 6, h 7⟩

/-- The digest of bytes as 64 bytes, the first byte lowest. -/
def sha512 (bs : List Byte) : BitVec 512 :=
  let m := shaPad bs
  let x := (List.range (m.length / 128)).foldl (fun x j => x.block ((m.drop (128 * j)).take 128)) Sha.start
  let out := [x.a, x.b, x.c, x.d, x.e, x.f, x.g, x.h].flatMap fun w => (bytesOf 8 w.toNat).reverse
  BitVec.ofNat 512 (valOf out)

/-- The bytes of a digest. -/
def digestBytes (d : BitVec 512) : List Byte := bytesOf 64 d.toNat

/-! ## The curve P-521 -/

/-- The field's prime. -/
def p521 : Nat := 2 ^ 521 - 1

/-- The coefficient b; the coefficient a is -3. -/
def p521b : Nat :=
  0x51953EB9618E1C9A1F929A21A0B68540EEA2DA725B99B315F3B8B489918EF109E156193951EC7E937B1652C0BD3BB1BF073573DF883D2C34F1EF451FD46B503F00
/-- The order of the base point. -/
def p521n : Nat :=
  0x1FFFFFFFFFFFFFFFFFFFFFFFFFFFFFFFFFFFFFFFFFFFFFFFFFFFFFFFFFFFFFFFFFA51868783BF2F966B7FCC0148F709A5D03BB5C9B8899C47AEBB6FB71E91386409
/-- The base point. -/
def p521g : Nat × Nat :=
  (0xC6858E06B70404E9CD9E3ECB662395B4429C648139053FB521F828AF606B4D3DBAA14B5E77EFE75928FE1DC127A2FFA8DE3348B3C1856A429BF97E7E31C2E5BD66,
   0x11839296A789A3BC0045C8A5FB42C7D1BD998F54449579B446817AFBD17273E662C97EE72995EF42640C550B9013FAD0761353C7086A272C24088BE94769FD16650)

/-- Powers modulo m, by squaring over the low bits of the exponent. -/
def powMod (m : Nat) : Nat → Nat → Nat → Nat
  | 0, _, _ => 1 % m
  | f + 1, x, e =>
    let r := powMod m f (x * x % m) (e / 2)
    if e % 2 = 1 then r * x % m else r

/-- The inverse modulo a prime. -/
def invMod (m x : Nat) : Nat := powMod m 521 (x % m) (m - 2)

/-- A difference modulo m. -/
def subMod (m x y : Nat) : Nat := (x + (m - y % m)) % m

/-- A point of the curve; none is the point at infinity. -/
abbrev EcPoint := Option (Nat × Nat)

/-- Whether coordinates lie on the curve. -/
def onCurve (q : Nat × Nat) : Bool :=
  decide (q.1 < p521) && decide (q.2 < p521) &&
    q.2 * q.2 % p521 == subMod p521 ((q.1 * q.1 % p521) * q.1 + p521b) (3 * q.1)

/-- The sum of two points. -/
def ecAdd : EcPoint → EcPoint → EcPoint
  | none, q => q
  | q, none => q
  | some (x, y), some (u, v) =>
    if x = u ∧ (y + v) % p521 = 0 then none
    else
      let l := if x = u then (3 * x * x + (p521 - 3)) * invMod p521 (2 * y) % p521
        else subMod p521 v y * invMod p521 (subMod p521 u x) % p521
      let w := subMod p521 (l * l) (x + u)
      some (w, subMod p521 (l * subMod p521 x w) y)

/-- A multiple of a point, over the low bits of the factor. -/
def ecMul : Nat → Nat → EcPoint → EcPoint
  | 0, _, _ => none
  | f + 1, k, q =>
    let r := ecMul f (k / 2) (ecAdd q q)
    if k % 2 = 1 then ecAdd q r else r

/-- The integer that a digest stands for. -/
def digestNat (d : BitVec 512) : Nat := valOf (digestBytes d).reverse

/-- A signature (r, s) over a digest with a private key and a nonce. -/
def ecSign (key nonce : Nat) (d : BitVec 512) : Nat × Nat :=
  let r := ((ecMul 521 nonce (some p521g)).map Prod.fst).getD 0 % p521n
  (r, invMod p521n nonce * (digestNat d + r * key) % p521n)

/-- Whether a signature over a digest verifies under a public point. -/
def ecVerify (q : Nat × Nat) (d : BitVec 512) (r s : Nat) : Bool :=
  decide (0 < r) && decide (r < p521n) && decide (0 < s) && decide (s < p521n) &&
    let w := invMod p521n s
    match ecAdd (ecMul 521 (digestNat d * w % p521n) (some p521g)) (ecMul 521 (r * w % p521n) (some q)) with
    | none => false
    | some (x, _) => x % p521n == r

/-- A number as n big-endian bytes. -/
def beBytes (n x : Nat) : List Byte := (bytesOf n x).reverse

/-- The 133 bytes of an uncompressed point (R479). -/
def pointBytes (q : Nat × Nat) : List Byte := 0x04#8 :: (beBytes 66 q.1 ++ beBytes 66 q.2)

end Sys2Proof.Machine
end

