-- ==== Sys2Proof/Machine/Reckoning.lean ====
section
/-!
DEFINITION. Matrix sequencers and charge-sharing arithmetic: MACQ, MREL, MSTAT, MLOOP, MLOOP.RES and the events of a run
(R318 to R352).
-/
namespace Sys2Proof.Machine

/-! ## Sequencers and progress records -/

/-- Sequencer q of a core. -/
def State.seq (s : State) (core q : Nat) : Seq := mget {} (s.core core).seqs q

/-- Put back a sequencer. -/
def State.setSeq (s : State) (core q : Nat) (x : Seq) : State :=
  s.modCore core fun c => { c with seqs := mset {} c.seqs q x }

/-- A progress record (R341) without the place within a row, which SRD gives while the run goes on. -/
def rprogWord (run pend : Bool) (cause step row : Nat) : Word :=
  BitVec.ofNat 64 (bnat run * 2 ^ 63 + bnat pend * 2 ^ 62 + cause % 256 * 2 ^ 48 + step % 256 * 2 ^ 40 + row % 256 * 2 ^ 32)

/-- Write RPROG of a gang. -/
def State.setRprog (s : State) (u q : Nat) (w : Word) : State := s.modGang u fun g => { g with rprog := mset 0 g.rprog q w }

/-- MACQ (R347). A gang that waits stands at the instruction, in the sequencer's queue. -/
def execMacq (p : Pre) (q : BitVec 2) (s : State) : Out :=
  s.issue { p := p, safe := false } fun s v ex =>
    if ex = 0 then .next (s.retire v v.t p.stall)
    else
      let core := v.g.core
      let sq := s.seq core q.toNat
      match sq.owner with
      | none => .next ((s.setSeq core q.toNat { sq with owner := some v.uid }).retire v v.t p.stall)
      | some o =>
        if o = v.uid then .next (s.retire v v.t p.stall)
        else if sq.queue.contains v.uid then .next s
        else .next (s.setSeq core q.toNat { sq with queue := sq.queue ++ [v.uid] })

/-- MREL (R347). -/
def execMrel (p : Pre) (q : BitVec 2) (s : State) : Out :=
  s.issue { p := p, safe := false } fun s v ex =>
    if ex = 0 then .next (s.retire v v.t p.stall)
    else
      let core := v.g.core
      let sq := s.seq core q.toNat
      if sq.owner != some v.uid then .next (s.retire v v.t p.stall)
      else if sq.run.any fun r => r.gang == v.uid then .next s
      else
        let sq := match sq.queue with
          | [] => { sq with owner := none }
          | n :: rest => { sq with owner := some n, queue := rest }
        .next ((s.setSeq core q.toNat sq).retire v v.t p.stall)

/-- MSTAT (R348). -/
def execMstat (x : X1) (q : BitVec 2) (s : State) : Out :=
  s.issue { p := x.p, ws := [x.sb.toNat] } fun s v ex =>
    let sq := s.seq v.g.core q.toNat
    let rp := mget 0 v.g.rprog q.toNat
    let w := bnat (sq.owner == some v.uid) + 2 * bnat (rp.getLsbD 63) + 4 * bnat (rp.getLsbD 62) + 8 * bnat sq.run.isSome +
      256 * (sq.queue.length % 256)
    .next (s.done v x.p 8 (if ex = 0 then [] else [.s x.sb.toNat (BitVec.ofNat 64 w)]) 0)

/-! ## Shapes and slots -/

/-- M, N and K of a shape (R329). -/
def shpDims : Shp → Nat × Nat × Nat
  | .shp0 => (16, 16, 16)
  | .shp1 => (16, 64, 64)
  | .shp2 => (16, 128, 128)
  | .shp3 => (16, 256, 256)
  | .shp4 => (32, 512, 256)
  | .shp5 => (64, 512, 256)
  | .shp6 => (64, 1024, 256)

/-- Repeats of a conversion (R322); EXACT has one. -/
def pmReps : PMode → Nat
  | .exact | .avg1 => 1
  | .avg2 => 2
  | .avg4 => 4
  | .avg8 => 8
  | .avg16 => 16

/-- Rods of an array by weight code (R240). -/
def rodsOf : EFmt → Nat
  | .t2 => 512
  | .i4 => 256
  | _ => 128

/-- Weight slices (R326). -/
def slicesOf : EFmt → Nat
  | .t2 => 1
  | .i4 => 4
  | _ => 8

/-- qa and qw (R327). -/
def fracOf : EFmt → Int
  | .i8 => 6
  | .i4 => 2
  | _ => 0

/-- R334 for the activation slot. -/
def Grid.actSlot (g : Grid) (n : Nat) : Option Slot := (g.codeSlot n).filter fun f => (f.ef == .i8 || f.ef == .i4) && f.bpl

/-- R334 for the weight slot. -/
def Grid.wtSlot (g : Grid) (n : Nat) : Option Slot :=
  (g.codeSlot n).filter fun f => (f.ef == .i8 || f.ef == .i4 || f.ef == .t2) && f.apl == 0

/-- Arrays of a step (R330). -/
def groupOf (n rods : Nat) : Nat := (n + rods - 1) / rods

/-- The segment length (R320). -/
def segLen (pm : PMode) (k bl : Nat) : Nat := if pm = .exact then Nat.min 32 k else Nat.min bl k

/-- Stream entries of a row (R332). -/
def rowEntries (k bl : Nat) : Nat := (k + bl - 1) / bl

/-- Bytes read of a plane word of an activation row: elements K to 63 of a block are not (R331). -/
def wordBytes (k : Nat) : Nat := (Nat.min k 64 + 7) / 8

/-- The first byte that a row reads, from its base, and the number of bytes up to its last: planes that APL leaves out at either
end are not read (R331, R351). -/
def rowSpan (k : Nat) (a : Slot) : Nat × Nat :=
  let lo := a.planes.foldl Nat.min 64
  let hi := a.planes.foldl Nat.max 0
  (8 * lo, ((k + 63) / 64 - 1) * (8 * a.ef.bits) + 8 * (hi - lo) + wordBytes k)

/-! ## MLOOP (R349 to R351) -/

/-- A span that must lie under a limit. -/
def boundCheck (limit : Nat) (s : Int × Int) : Option HaltWhy :=
  if s.1 < 0 then some { cause := .xrBound, addr := offWord s.1 }
  else if limit ≤ s.2.toNat then some { cause := .xrBound, addr := offWord s.2 } else none

/-- The first of a list of values that is no multiple of its alignment (R351). -/
def misaligned (xs : List (Word × Nat)) : Option HaltWhy :=
  (xs.find? fun x => x.1.toNat % x.2 != 0).map fun x => { cause := .align, addr := x.1 }

/-- The checks of R351 from the slots on, in order, and the run they allow. -/
def State.mloopRun (s : State) (v : View) (f : MLoopF) (res : Bool) : Except HaltWhy Run :=
  let sb := f.sb.toNat
  let gr := s.gridOf v.g
  let tm := s.teamOf v.g
  let rg (j : Nat) : Word := v.t.regs.getS (sb + j)
  let rp := (mget 0 v.g.rprog f.q.toNat).toNat
  let (m, n, k) := shpDims f.shp
  match gr.actSlot f.slot1.toNat, gr.wtSlot f.slot2.toNat with
  | some a, some w =>
    let ctl := (rg 4).toNat
    let cnt := ctl % 256
    let s0 := if res then nbits rp 40 8 else 0
    let m0 := if res then nbits rp 32 8 else 0
    if ctl / 256 != 0 || cnt = 0 || 32 < cnt then .error { cause := .mloopParam }
    else if res && (decide (cnt ≤ s0) || decide (m ≤ m0)) then .error { cause := .mloopParam }
    else
      let x := v.t.regs.getX f.xr.toNat
      if x.kind = .none then .error { cause := .xrNone }
      else
        match misaligned [(rg 0, 8), (rg 1, 8), (rg 2, 8), (rg 3, 4), (rg 5, 2)] with
        | some h => .error h
        | none =>
          let g := groupOf n (rodsOf w.ef)
          let first := f.first.toNat
          let win := tm.window
          if win.length < first + cnt * g then .error { cause := .arrayRange }
          else
            let named := (List.range (cnt * g)).map fun j => (first + j, (win[first + j]?).getD 0)
            match named.find? fun e => !(s.arr e.2).rck || (s.arr e.2).modeTeam != some v.g.team with
            | some e => .error { cause := .modeFault, addr := BitVec.ofNat 64 (e.1 * 0x8000) }
            | none =>
              let aoff : Int := (rg 0).toNat
              let ascl : Int := (rg 5).toNat
              let rows := spanOf (aoff + (rowSpan k a).1) [(cnt, (rg 2).toInt), (m, (rg 1).toInt)] (rowSpan k a).2
              let stream := (ascl, ascl + 2 * (cnt * m * rowEntries k a.bl : Nat) - 1)
              let coff := (rg 3).toNat
              let tile := ((coff : Int), (coff : Int) + 4 * (m * n : Nat) - 1)
              let spad := x.kind == .spad
              let arrays := if spad then some win.length else none
              let top := Nat.min (v.t.regs.getX 7).limit.toNat (win.length * 0x8000)
              match [spanCheck x.limit arrays rows, spanCheck x.limit arrays stream, boundCheck top tile].findSome? id with
              | some h => .error h
              | none =>
                let spans := (coff, tile.2.toNat) ::
                  (if spad then [(rows.1.toNat, rows.2.toNat), (stream.1.toNat, stream.2.toNat)] else [])
                .ok { id := 0, gang := v.uid, team := v.g.team, grid := tm.grid, shp := f.shp, pm := f.pm
                      slot1 := f.slot1.toNat, slot2 := f.slot2.toNat, first := first, ctx := v.g.ctx, sup := v.sup
                      ax := x, aoff := aoff, astr := (rg 1).toInt, ainc := (rg 2).toInt, coff := coff, ascl := ascl
                      cnt := cnt, pc := v.t.pc, lane := (lowest v.act).getD 0
                      earlier := s.undone v.uid, planes := a.planes, segs := k / segLen f.pm k a.bl, reps := pmReps f.pm
                      slabs := slabSet [win] spans, taken := 0, started := false, held := [], want := none
                      stepOn := false, step := s0, row := m0, stop := none }
  | _, _ => .error { cause := .slotFormat }

/-- MLOOP and MLOOP.RES (R344, R351); a full M counter is waited for before the checks (DESIGN CHOICE, assumption 122). -/
def State.mloop (s : State) (f : MLoopF) (res : Bool) : Out :=
  if s.fullAt f.p (fun _ => .m) then .next s
  else
  s.issue { p := f.p, rs := runRegs f.sb 6, safe := false } fun s v ex =>
    if ex = 0 then .next (s.retire v v.t f.p.stall)
    else
      let core := v.g.core
      let q := f.q.toNat
      let sq := s.seq core q
      if sq.owner != some v.uid then .next (s.haltV v { cause := .seqOwner })
      else if sq.run.isSome then .next s
      else if res && !(mget 0 v.g.rprog q).getLsbD 62 then .next (s.retire v v.t f.p.stall)
      else
        match s.mloopRun v f res with
        | .error h => .next (s.haltV v h)
        | .ok r =>
          let r := { r with id := s.fresh }
          let s := s.bump.setSeq core q { sq with run := some r }
          let s := s.setRprog v.uid q (rprogWord true false 0 r.step r.row)
          let s := s.fly v.a { id := r.id, path := .m, kind := .line, wait := 1, pc := v.t.pc, sent := s.ps }
          .next (s.retire v ((s.thr? v.a).getD v.t) f.p.stall)

/-- MLOOP. -/
def execMloop (f : MLoopF) (s : State) : Out := s.mloop f false

/-- MLOOP.RES. -/
def execMloopRes (f : MLoopF) (s : State) : Out := s.mloop f true

/-! ## Stops (R342, R343) -/

/-- A run's window. -/
def State.runWin (s : State) (r : Run) : List Nat := ((tget s.teams r.team).map Team.window).getD []

/-- Put back a run. -/
def State.setRun (s : State) (core q : Nat) (r : Run) : State := s.setSeq core q { s.seq core q with run := some r }

/-- A run stops at the row it has reached: the record is written and its arrays are released. -/
def State.stopRun (s : State) (core q : Nat) (r : Run) (cause : Nat) : State :=
  (s.setRun core q { r with stop := some cause, held := [], want := none, stepOn := false }).setRprog r.gang q
    (rprogWord false (cause == 1 || cause == 2) cause r.step r.row)

/-- A run stops and halts its gang. -/
def State.haltRun (s : State) (core q : Nat) (r : Run) (cause : Nat) (c : Cause2) (addr : Word) : State :=
  (s.stopRun core q r cause).haltGang r.gang c r.pc (((tget s.gangs r.gang).map Gang.active).getD 0) addr

/-- Whether pre-emption, a swap or a halt stops the runs of a gang. -/
def State.stopDue (s : State) (r : Run) : Bool :=
  ((tget s.gangs r.gang).map Gang.halted).getD true || ((tget s.teams r.team).map fun t => t.st != .running).getD true

/-! ## Starts (R337, R338) -/

/-- SEQ_RUN_START (R337). -/
def execSeqRunStart (core q : Nat) (s : State) : Out :=
  match (s.seq core q).run with
  | none => .next s
  | some r =>
    let ready := s.allDone r.gang r.earlier
    if r.started || r.stop.isSome then .next s
    else if s.stopDue r then .next (s.stopRun core q r 2)
    else if !ready then .next s
    else
      match s.takeSlabs (.m r.id) (r.slabs.drop r.taken) r.taken with
      | (s, n, some x) => .next (s.haltRun core q { r with taken := n } 4 .modeFault (BitVec.ofNat 64 x.2.2))
      | (s, n, none) => .next (s.setRun core q { r with taken := n, started := n == r.slabs.length, rowFrom := s.ps })

/-- Every run of the machine. -/
def State.runs (s : State) : List Run := s.cores.flatMap fun c => c.2.seqs.filterMap fun e => e.2.run

/-- What taking a step's arrays gives: the run as it now stands, or the array that is not the team's to compute in. -/
inductive Take where
  | wait (r : Run)
  | done (r : Run)
  | bad (r : Run) (index : Nat)
  deriving DecidableEq, Repr

/-- Take arrays in ascending order; one that another step holds or asked for earlier is waited for (R338). -/
def State.takeArrays (s : State) (r : Run) : List (Nat × Nat) → Nat → Take
  | [], _ => .done { r with want := none }
  | (i, key) :: rest, fresh =>
    let no := match r.want with | some (k, n) => if k = key then n else fresh | none => fresh
    let others := s.runs.filter fun o => o.id != r.id
    let busy := others.any fun o =>
      o.held.contains key || (match o.want with | some (k, n) => k == key && decide (n < no) | none => false)
    if busy then .wait { r with want := some (key, no) }
    else if !(s.arr key).rck || (s.arr key).modeTeam != some r.team then .bad r i
    else s.takeArrays { r with held := r.held ++ [key], want := none } rest fresh

/-- The window places and arrays of a run's step that it does not hold yet. -/
def State.stepArrays (s : State) (r : Run) : List (Nat × Nat) :=
  let win := s.runWin r
  let w := (((tget s.grids r.grid).getD {}).wtSlot r.slot2).getD .none
  let g := groupOf (shpDims r.shp).2.1 (rodsOf w.ef)
  ((List.range g).map fun j => (r.first + r.step * g + j, (win[r.first + r.step * g + j]?).getD 0)).filter
    fun e => !r.held.contains e.2

/-- The groups of an array that holds `na` rods a step uses (R319). -/
def groupsUsed (w : EFmt) (na : Nat) : Nat := match w with | .t2 => (na + 255) / 256 | _ => 4

/-- The cycles of one activation row (R335). -/
def State.rowCycles (s : State) (r : Run) : Nat :=
  let gr := (tget s.grids r.grid).getD {}
  let a := (gr.actSlot r.slot1).getD .none
  let w := (gr.wtSlot r.slot2).getD .none
  let (_, n, k) := shpDims r.shp
  a.planes.length * (k / segLen r.pm k a.bl) * pmReps r.pm * 4 * groupsUsed w.ef (Nat.min n (rodsOf w.ef))

/-- The clock of the core that holds a step's arrays (R335). -/
def State.runClk (s : State) (r : Run) : Nat := s.clk (r.held.headD 0 / 16)

/-- The moment of a cycle of that clock. -/
def State.runPs (s : State) (r : Run) (n : Nat) : Nat := (s.island (islandOf (r.held.headD 0 / 16))).psOf n

/-- SEQ_STEP_START (R338); the step's first row ends after the fill of 12 cycles and its own cycles (R335), which
follow the step before it where no array has been waited for. -/
def execSeqStepStart (core q : Nat) (s : State) : Out :=
  match (s.seq core q).run with
  | none => .next s
  | some r =>
    if !r.started || r.stop.isSome || r.stepOn || r.cnt ≤ r.step then .next s
    else if s.stopDue r then .next (s.stopRun core q r 2)
    else
      match s.takeArrays r (s.stepArrays r) s.fresh with
      | .wait r' => .next (if r' = r then s else s.bump.setRun core q r')
      | .bad r i => .next (s.haltRun core q r 4 .modeFault (BitVec.ofNat 64 (i * 0x8000)))
      | .done r' =>
        let since := if r.want.isSome then s.ps else r.rowFrom
        let at_ := (s.island (islandOf (r'.held.headD 0 / 16))).cycles since
        .next (s.setRun core q { r' with stepOn := true, due := at_ + 12 + s.rowCycles r', rowFrom := since })

/-! ## Column sums and conversions (R318 to R324) -/

/-- The places in an array of the cell bits behind slice j of rod n in row k (R240). -/
def wPlaces (w : EFmt) (j k n : Nat) : List Nat :=
  match w with
  | .t2 => [128 * k + n / 8, 128 * k + 64 + n / 8]
  | _ => [128 * k + j * (rodsOf w / 8) + n / 8]

/-- The weight that slice j of rod n in row k contributes (R240, R318). -/
def wAt (w : EFmt) (a : Arr) (j k n : Nat) : Int :=
  match wPlaces w j k n with
  | [p, m] => (bnat ((a.byte p).getLsbD (n % 8)) : Int) - bnat ((a.byte m).getLsbD (n % 8))
  | [p] => bnat ((a.byte p).getLsbD (n % 8))
  | _ => 0

/-- The column sum of a segment (R318): `bits` is an activation plane, bit k for element k. -/
def colSum (w : EFmt) (a : Arr) (bits j k0 r n : Nat) : Int :=
  (List.range r).foldl (init := 0) fun acc i => if bits.testBit (k0 + i) then acc + wAt w a j (k0 + i) n else acc

/-- a / b rounded to the nearest integer, ties to even, for b > 0. -/
def rneDiv (a b : Int) : Int :=
  let q := a / b
  let r := a % b
  if b < 2 * r ∨ (2 * r = b ∧ q % 2 = 1) then q + 1 else q

/-- The silicon's deviation from the ideal code: −1, 0 or 1, free (R323). -/
def deviation (free : Nat) : Int := (Config.pick free % 3 : Nat) - 1

/-- n × Value(S), and the conversions that clamped (R321 to R324): the code delivered before the clamp is the ideal code plus the
free deviation. -/
def convertSum (pm : PMode) (t2 : Bool) (r free : Nat) (sum : Int) : Int × Nat :=
  if pm = .exact then (sum, 0)
  else
    let n : Int := pmReps pm
    let l : Int := Nat.max 1 (2 ^ bitLen r / 256)
    let lo : Int := if t2 then -128 else 0
    let hi : Int := if t2 then 127 else 255
    (List.range (pmReps pm)).foldl (init := ((0 : Int), 0)) fun acc (j : Nat) =>
      let ideal := clampInt (rneDiv (2 * n * sum + l * (2 * (j : Int) + 1 - n)) (2 * n * l)) lo hi
      let raw := ideal + deviation (free + j)
      (acc.1 + l * clampInt raw lo hi, acc.2 + bnat (decide (raw < lo) || decide (hi < raw)))

/-- n × Q of a segment and rod (R326), and the conversions that clamped. -/
def segmentQ (pm : PMode) (af w : EFmt) (a : Arr) (planes : List (Nat × Nat)) (k0 r free n : Nat) : Int × Nat :=
  let sl := slicesOf w
  let reps := pmReps pm
  let sgn (neg : Bool) (x : Int) : Int := if neg then -x else x
  ((List.range planes.length).zip planes).foldl (init := (0, 0)) fun acc p =>
    let i := p.2.1
    (List.range sl).foldl (init := acc) fun acc j =>
      let y := convertSum pm (w == .t2) r (free + (p.1 * sl + j) * reps) (colSum w a p.2.2 j k0 r n)
      let tau := decide (w ≠ .t2) && j + 1 == sl
      (acc.1 + sgn (i + 1 == af.bits) (2 ^ i * sgn tau (2 ^ j * y.1)), acc.2 + y.2)

/-- One add into C (R327): q × 2^e. -/
def railAdd (c sa sw : Nat) (q e : Int) : Nat × FFlags :=
  if sa = 0xFF || sw = 0xFF || (f32.decode c).isNan then (0x7FC00000, 0)
  else
    let r := f32.add .rn (f32.decode c) (.fin (decide (q < 0)) q.natAbs e)
    (r.bits, r.flags)

/-! ## Rows (R331, R332, R343, R352) -/

/-- What stops a run before a row, or makes it wait for a unit (R125). -/
inductive RowStop where
  | fault (level : Nat) (va : Word)
  | halt (cause : Nat) (c : Cause2) (addr : Word)
  | wait
  deriving DecidableEq, Repr

/-- Read n bytes at an offset of a run's activation side (R339). -/
def State.runRead (s : State) (core : Nat) (r : Run) (off : Int) (n : Nat) : State × Except RowStop (List Byte) :=
  if r.ax.kind == .spad then
    let win := s.runWin r
    match s.spBad win off.toNat n with
    | some o => (s, .error (.halt 5 .poison (BitVec.ofNat 64 o)))
    | none => (s, .ok ((List.range n).map fun j => s.spByte win (off.toNat + j)))
  else
    let va := r.ax.base + offWord off
    match s.xlatReg (s.coreAgent core) r.ctx r.sup .read r.ax va n with
    | (s, .halt c a) => (s.noteWalk c a, .error (.halt 5 c a))
    | (s, .fault l a) => (s, .error (.fault l a))
    | (s, .ok ps) =>
      if s.busyReads ps then (s.stirReads ps r.grid, .error .wait)
      else
        match s.errAt .read ps n with
        | some e => (s.noteRemote (pasOf ps n), .error (.halt 5 e.halt va))
        | none => (s.readAt ps, .ok (s.readPieces ps n))

/-- Read several stretches; the first that fails decides. -/
def State.runReads (s : State) (core : Nat) (r : Run) : List (Int × Nat) → State × Except RowStop (List (List Byte))
  | [] => (s, .ok [])
  | x :: xs =>
    match s.runRead core r x.1 x.2 with
    | (s, .error e) => (s, .error e)
    | (s, .ok b) =>
      match s.runReads core r xs with
      | (s, .error e) => (s, .error e)
      | (s, .ok bs) => (s, .ok (b :: bs))

/-- The activation planes and scales of a row: per plane its number and bits, and the scale of each stream entry. -/
structure RowData where
  planes : List (Nat × Nat)
  scales : List Nat
  deriving DecidableEq, Repr

/-- Read row `r.row` of step `r.step` and its stream entries, and check the tags (R331, R332). -/
def State.rowData (s : State) (core : Nat) (r : Run) (a : Slot) : State × Except RowStop RowData :=
  let (m, _, k) := shpDims r.shp
  let base : Int := r.aoff + r.step * r.ainc + r.row * r.astr
  let nblk := (k + 63) / 64
  let nb := rowEntries k a.bl
  let words := a.planes.flatMap fun i => (List.range nblk).map fun j => (base + (j * 8 * a.ef.bits + 8 * i : Nat), wordBytes k)
  let e0 := (r.step * m + r.row) * nb
  let ents := (List.range nb).map fun j => (r.ascl + (2 * (e0 + j) : Nat), 2)
  match s.runReads core r (words ++ ents) with
  | (s, .error e) => (s, .error e)
  | (s, .ok bs) =>
    let vals := bs.map valOf
    let es := vals.drop words.length
    match (List.range nb).find? fun j => (es[j]?).getD 0 / 256 != (e0 + j) % 256 with
    | some j => (s, .error (.halt 3 .mxskew (offWord (r.ascl + (2 * (e0 + j) : Nat)))))
    | none =>
      let planes := ((List.range a.planes.length).zip a.planes).map fun p =>
        (p.2, (List.range nblk).foldl (init := 0) fun acc j => acc + (vals[p.1 * nblk + j]?).getD 0 * 2 ^ (64 * j))
      (s, .ok { planes := planes, scales := es.map (· % 256) })

/-- The first poisoned place, as a window offset, among the weights, rod scales and C elements a row uses (R146). -/
def State.rowPoison (s : State) (r : Run) (w : EFmt) : Option Nat :=
  let (_, n, k) := shpDims r.shp
  let win := s.runWin r
  let rods := rodsOf w
  let g := groupOf n rods
  let arrays := (List.range g).map fun j => r.first + r.step * g + j
  let bad (off : Nat) : Bool := let p := winPlace win off; (s.arr p.1).bad p.2
  let cells := arrays.flatMap fun i => (List.range k).flatMap fun kk => (List.range (slicesOf w)).flatMap fun j =>
    (List.range ((Nat.min rods n + 7) / 8)).flatMap fun b => (wPlaces w j kk (8 * b)).map fun p => i * 0x8000 + p
  let scales := arrays.flatMap fun i => (List.range (Nat.min rods n)).map fun b => 0x800000 + i * 512 + b
  let tile := (List.range n).map fun c => r.coff + 4 * (r.row * n + c)
  (cells ++ scales ++ tile).find? bad

/-- One element of C with its adds in ascending segment order (R326 to R328): the bits, the flags, the clamps. -/
def elemAdds (r : Run) (a w : Slot) (arr : Arr) (d : RowData) (free rod c : Nat) : Nat × FFlags × Nat :=
  let k := (shpDims r.shp).2.2
  let len := segLen r.pm k a.bl
  let reps := pmReps r.pm
  let sw := (mget 0 arr.ram rod : Byte).toNat
  let per := d.planes.length * slicesOf w.ef * reps
  (List.range (k / len)).foldl (init := (c, 0, 0)) fun acc t =>
    let q := segmentQ r.pm a.ef w.ef arr d.planes (t * len) len (free + t * per) rod
    let sa := (d.scales[Nat.min (t * len / a.bl) (d.scales.length - 1)]?).getD 0
    let e : Int := (sa : Int) - 127 - fracOf a.ef + ((sw : Int) - 127 - fracOf w.ef) - (bitLen reps - 1 : Nat)
    let x := railAdd acc.1 sa sw q.1 e
    (x.1, acc.2.1 ||| x.2, acc.2.2 + q.2)

/-- Add a row into C, raise the gang's flags and the weight slot's saturation counter (R324, R327). -/
def State.rowAdd (s : State) (r : Run) (a w : Slot) (d : RowData) : State :=
  let (_, n, k) := shpDims r.shp
  let win := s.runWin r
  let rods := rodsOf w.ef
  let g := groupOf n rods
  let per := k / segLen r.pm k a.bl * d.planes.length * slicesOf w.ef * pmReps r.pm
  let es := (List.range n).map fun c =>
    let arr := s.arr ((win[r.first + r.step * g + c / rods]?).getD 0)
    let off := r.coff + 4 * (r.row * n + c)
    (off, elemAdds r a w arr d (s.free + c * per) (c % rods) (s.spNat win off 4))
  let s := (s.spPut win (es.flatMap fun e => (List.range 4).map fun b => (e.1 + b, BitVec.ofNat 8 (e.2.1 / 256 ^ b)))).1
  let fl := es.foldl (init := (0 : FFlags)) fun f e => f ||| e.2.2.1
  let s := s.modThr (.gang r.gang) fun t => { t with regs := t.regs.raise fl }
  let s := if r.pm = .exact then s else { s with free := s.free + n * per }
  s.raiseSat r.grid r.slot2 2 r.team r.pc (es.foldl (init := 0) fun x e => x + e.2.2.2)

/-- SEQ_ROW (R335, R352): one row read and added when its cycles are over, which follow those of the row before it; a row that waits
at home begins its cycles again from there. A stop that is due comes at its end (R343). -/
def execSeqRow (core q : Nat) (s : State) : Out :=
  match (s.seq core q).run with
  | none => .next s
  | some r =>
    if !r.stepOn || r.stop.isSome then .next s
    else if s.runClk r < r.due then .next s
    else
      let gr := (tget s.grids r.grid).getD {}
      let a := (gr.actSlot r.slot1).getD .none
      let w := (gr.wtSlot r.slot2).getD .none
      match s.rowData core r a with
      | (s, .error .wait) => .next (s.setRun core q { r with due := Nat.max r.due (s.runClk r) })
      | (s, .error (.halt n c ad)) => .next (if s.stopDue r then s.stopRun core q r 2 else s.haltRun core q r n c ad)
      | (s, .error (.fault l va)) =>
        .next (if s.stopDue r then s.stopRun core q r 2 else (s.stopRun core q r 1).modGang r.gang fun g => { g with
          engFaults := g.engFaults ++ [{ seq := true, lane := r.lane, va := va, kind := 0, level := l }] })
      | (s, .ok d) =>
        match s.rowPoison r w.ef with
        | some o => .next (if s.stopDue r then s.stopRun core q r 2 else s.haltRun core q r 5 .poison (BitVec.ofNat 64 o))
        | none =>
          let s := s.rowAdd r a w d
          let last := r.row + 1 == (shpDims r.shp).1
          let r := if last then { r with step := r.step + 1, row := 0, stepOn := false, held := [], rowFrom := s.runPs r r.due }
            else { r with row := r.row + 1, due := r.due + s.rowCycles r, rowFrom := s.runPs r r.due }
          let s := (s.setRun core q r).setRprog r.gang q (rprogWord true false 0 r.step r.row)
          .next (if r.stepOn && s.stopDue r then s.stopRun core q r 2 else s)

/-- SEQ_RUN_END (R339): a run that has stopped or has finished its last step gives back its slabs, and M falls. -/
def execSeqRunEnd (core q : Nat) (s : State) : Out :=
  match (s.seq core q).run with
  | none => .next s
  | some r =>
    if r.stop.isNone && (!r.started || decide (r.step < r.cnt)) then .next s
    else
      let s := s.setSeq core q { s.seq core q with run := none }
      let s := if r.stop.isNone then s.setRprog r.gang q (rprogWord false false 0 r.cnt 0) else s
      let s := (r.slabs.take r.taken).foldl (init := s) fun s x =>
        if (s.arr x.1).ownerOf x.2.1 == .m r.id then s.flip x.1 [x.2.1] .t else s
      .next (s.modThr (.gang r.gang) fun t =>
        ({ t with flights := t.flights.map fun f => if f.id == r.id then { f with landed := true, wait := 0 } else f } : Thr).reap)

end Sys2Proof.Machine
end

