-- ==== Sys2Proof/Machine/Teams.lean ====
section
/-!
DEFINITION. Team barriers (R403 to R407, R540), AMODE and MCAL (R253 to R257), COMMIT and GRWD (R413 to R415, R427 to
R429), power hints (R419), the end of demotions (R390, R417), and the end of gangs and teams (R388, R399).
-/
namespace Sys2Proof.Machine

/-! ## Teams -/

/-- The gangs of a team that have not ended, in ascending GANGID. -/
def State.alive (s : State) (t : Team) : List (Nat × Gang) :=
  t.gangs.filterMap fun u => match tget s.gangs u with | some g => if g.ended then none else some (u, g) | none => none

/-- A gang leaves a barrier n cycles after the last arrival, with the acquire of R540. -/
def State.freeGang (s : State) (u n : Nat) : State :=
  match tget s.gangs u with
  | none => s
  | some g =>
    let g := { g with thr := { g.thr with wait := .none }, pfWait := .none }
    (({ s with gangs := tput s.gangs u g }).acquire (s.coreAgent g.core)).hold u n

/-- A gang that waits at a barrier instruction goes on after it. -/
def State.leave (s : State) (u n : Nat) : State :=
  match s.viewOf (.gang u) with
  | none => s
  | some v =>
    let stall := s.stallAt v
    let s := s.modGang u fun g => { g with thr := g.thr.goto (g.thr.pc + 8), only := none }
    (s.freeGang u (n + stall.toNat))

/-! ## Named barriers -/

/-- The count that completes a phase (R404). -/
def State.barCount (s : State) (t : Team) (b : Nat) : Nat := ((mget {} t.bars b).set).getD (s.alive t).length

/-- Complete a phase whose arrivals have reached the count (R403). -/
def State.barCheck (s : State) (n b : Nat) : State :=
  match tget s.teams n with
  | none => s
  | some t =>
    let br := mget {} t.bars b
    if br.arrivals = 0 || br.arrivals < s.barCount t b then s
    else
      let s := s.modTeam n fun t => { t with bars := mset {} t.bars b { br with arrivals := 0, phase := br.phase + 1 } }
      (s.alive t).foldl (init := s) fun s g =>
        if g.2.thr.wait == .bar b || g.2.pfWait == .bar b then s.freeGang g.1 6 else s

/-- Count an arrival (R403). -/
def State.barArrive (s : State) (n b : Nat) : State :=
  (s.modTeam n fun t =>
    let br := mget {} t.bars b
    { t with bars := mset {} t.bars b { br with arrivals := br.arrivals + 1 } }).barCheck n b

/-- BAR (R406): the arrival completes the gang's release first; BAR.SYNC then waits. -/
def State.bar (s : State) (p : Pre) (b : BitVec 4) (sync : Bool) : Out :=
  s.issue { p := p, safe := false } fun s v ex =>
    if ex = 0 then .next (s.retire v v.t p.stall)
    else
      match s.release v with
      | .wait s => .next s
      | .halt h => .next (s.haltV v h)
      | .done s =>
        let t := if sync then { v.t with wait := .bar b.toNat } else v.t
        .next ((s.retire v t p.stall).barArrive v.g.team b.toNat)

/-- BAR.SYNC. -/
def execBarSync (p : Pre) (b : BitVec 4) (s : State) : Out := s.bar p b true

/-- BAR.ARRIVE. -/
def execBarArrive (p : Pre) (b : BitVec 4) (s : State) : Out := s.bar p b false

/-- BARINIT (R407). -/
def execBarinit (x : X1) (b : BitVec 4) (s : State) : Out :=
  s.issue { p := x.p, rs := [x.sb.toNat], safe := false } fun s v ex =>
    if ex = 0 then .next (s.retire v v.t x.p.stall)
    else
      let n := (v.t.regs.getS x.sb.toNat).toNat
      if n = 0 || 255 < n then .next (s.haltV v { cause := .barCount })
      else
        let s := s.modTeam v.g.team fun t =>
          { t with bars := mset {} t.bars b.toNat { mget {} t.bars b.toNat with set := some n } }
        .next ((s.retire v v.t x.p.stall).barCheck v.g.team b.toNat)

/-! ## Barriers a gang waits at: AMODE, COMMIT, GRWD -/

/-- A team barrier that the gang waits at until `finish` lets the team go (R540): the first execution checks and counts
the arrival, every later one looks again. -/
def State.teamBar (s : State) (u : Uses) (arrived : Team → Nat → Bool) (enter : State → View → Res)
    (finish : State → View → State) : Out :=
  s.issue { u with safe := false } fun s v ex =>
    if ex = 0 then .next (s.retire v v.t u.p.stall)
    else if arrived (s.teamOf v.g) v.g.gangid then .next (finish s v)
    else
      match enter s v with
      | .wait s => .next s
      | .halt s h => .next (s.haltV v h)
      | .fault s w l va => .next (s.pageFaultV v ex ((lanesOf ex).map fun j => (j, va)) w l)
      | .done s => .next (finish s v)

/-- Note what a gang waits in. -/
def State.waitIn (s : State) (u : Nat) (w : Wait) : State := s.modGang u fun g => { g with thr := { g.thr with wait := w } }

/-- Halt several gangs, each at its instruction. -/
def State.haltAll (s : State) (us : List Nat) (h : HaltWhy) : State :=
  us.foldl (init := s) fun s u => match s.viewOf (.gang u) with | some v => s.haltV v h | none => s

/-- Calibrate an array: whether it succeeds is the hardware's (assumption 51). -/
def State.calibrate (s : State) : State × Bool := (s.useFree, Config.pick s.free % 2 == 0)

/-- Whether a sequencer's step holds an array (R338). -/
def State.stepHolds (s : State) (key : Nat) : Bool :=
  s.cores.any fun c => c.2.seqs.any fun q => q.2.run.any fun r => r.held.contains key

/-- Whether every slab and the scale RAM of an array belong to the threads. -/
def Arr.allT (a : Arr) : Bool := a.owner.all fun e => e.2 == .t

/-- One array's switch (R253): none while it must wait, for its slabs or for a conversion (R315). Answers the state, whether it failed, entered and left. -/
def State.switchArray (s : State) (team key : Nat) (rck : Bool) : Option (State × Bool × Nat × Nat) :=
  let a := s.arr key
  if rck then
    if a.rck then some (s, false, 0, 0)
    else if !a.allT || a.conv.any (fun e => decide (s.ps < e.2)) then none
    else
      let s := s.applyDefer key
      if (s.arr key).deg then some (s, true, 0, 0)
      else
        let c := s.calibrate
        if c.2 then some (c.1.setArr key { c.1.arr key with rck := true, modeTeam := some team }, false, 1, 0)
        else some (c.1.setArr key { c.1.arr key with deg := true }, true, 1, 0)
  else if !a.rck then some (s, false, 0, 0)
  else if s.stepHolds key then none
  else some ((s.setArr key { a with rck := false, modeTeam := none }).applyDefer key, false, 0, 1)

/-- Switch the named arrays in ascending order, as far as none must be waited for. -/
def State.switchArrays (s : State) (n : Nat) : List Nat → State × Bool
  | [] => (s, true)
  | key :: rest =>
    match tget s.teams n with
    | none => (s, false)
    | some t =>
      match s.switchArray n key t.amode.rck with
      | none => (s, false)
      | some (s, fail, en, lf) =>
        (s.modTeam n fun t => { t with amode := { t.amode with
          pos := t.amode.pos + 1, fail := t.amode.fail || fail, entered := t.amode.entered + en,
          left := t.amode.left + lf } }).switchArrays n rest

/-- k[n] of every lane of a gang, on the carry pool too. -/
def State.setKAll (s : State) (u n : Nat) (b : Bool) : State :=
  let w := RegW.k n (BitVec.allOnes 64) (if b then BitVec.allOnes 64 else 0)
  let put (t : Thr) : Thr := { t with regs := t.regs.apply w, pend := t.pend.map (Pend.supersede [w]) }
  let s := s.modGang u fun g => { g with thr := put g.thr }
  { s with lanes := s.lanes.map fun e => if e.2.gang == u then (e.1, { e.2 with thr := put e.2.thr }) else e }

/-- Whether a gang runs the handler of a page fault that it has taken in a barrier's wait. -/
def Gang.handles (g : Gang) : Bool := g.inPf && g.thr.wait == .none

/-- The effect of AMODE once every gang has arrived (R253, R254). -/
def State.amodeTry (s : State) (n : Nat) : State :=
  match tget s.teams n with
  | none => s
  | some t =>
    let gs := s.alive t
    if gs.isEmpty || gs.any (fun g => g.2.handles) || !(gs.all fun g => t.amode.arrived.contains g.2.gangid) then s
    else
      let us := gs.map Prod.fst
      let a := t.amode
      let first := a.sel.first.toNat
      let count := a.sel.count.toNat
      let drop (s : State) : State := s.modTeam n fun t => { t with amode := {} }
      if a.bad then (drop s).haltAll us { cause := .amodeMismatch }
      else if count = 0 || t.window.length < first + count then (drop s).haltAll us { cause := .arrayRange }
      else
        let named := (List.range count).map fun j => (first + j, (t.window[first + j]?).getD 0)
        let foreign := if a.checked then none else
          named.find? fun k => (s.arr k.2).rck && (s.arr k.2).modeTeam != some n
        match foreign with
        | some k => (drop s).haltAll us { cause := .modeFault, addr := BitVec.ofNat 64 (k.1 * 0x8000) }
        | none =>
          let s := s.modTeam n fun t => { t with amode := { t.amode with checked := true } }
          let r := s.switchArrays n ((named.drop a.pos).map Prod.snd)
          if !r.2 then r.1
          else
            match tget r.1.teams n with
            | none => r.1
            | some t =>
              let cost := 6 + (if t.amode.entered = 0 then 0 else 1536) + 16 * t.amode.left
              us.foldl (init := drop r.1) fun s u => (s.setKAll u a.sel.kf.toNat t.amode.fail).leave u cost

/-- Whether lanes of a gang on the carry pool have scratchpad accesses that are not complete (R239). -/
def State.lanesReach (s : State) (u : Nat) : Bool :=
  s.lanes.any fun e => e.2.gang == u && e.2.thr.flights.any fun f => f.spad && !f.complete

/-- AMODE (R253): the arrival waits for the accesses of the gang's lanes on the carry pool as well (R239). -/
def State.amode (s : State) (p : Pre) (sel : ArrSel) (rck : Bool) : Out :=
  s.teamBar { p := p, wk := [sel.kf.toNat] } (fun t g => t.amode.arrived.contains g)
    (fun s v => s.tRelease v fun s =>
      if s.lanesReach v.uid then .wait s
      else
      let s := s.modTeam v.g.team fun t =>
        let a := t.amode
        let a := if a.arrived.isEmpty then { a with rck := rck, sel := sel } else
          { a with bad := a.bad || a.rck != rck || a.sel != sel }
        { t with amode := { a with arrived := a.arrived ++ [v.g.gangid] } }
      .done (s.waitIn v.uid .amode))
    (fun s v => s.amodeTry v.g.team)

/-- AMODE.STO. -/
def execAmodeSto (p : Pre) (sel : ArrSel) (s : State) : Out := s.amode p sel false

/-- AMODE.RCK. -/
def execAmodeRck (p : Pre) (sel : ArrSel) (s : State) : Out := s.amode p sel true

/-- MCAL (R255, R256). -/
def execMcal (p : Pre) (sel : ArrSel) (s : State) : Out :=
  s.issue { p := p, wk := [sel.kf.toNat], safe := false } fun s v ex =>
    if ex = 0 then .next (s.retire v v.t p.stall)
    else
      let win := (s.teamOf v.g).window
      let first := sel.first.toNat
      let count := sel.count.toNat
      if count = 0 || win.length < first + count then .next (s.haltV v { cause := .arrayRange })
      else
        let named := (List.range count).map fun j => (first + j, (win[first + j]?).getD 0)
        match named.find? fun k => (s.arr k.2).rck with
        | some k => .next (s.haltV v { cause := .modeFault, addr := BitVec.ofNat 64 (k.1 * 0x8000) })
        | none =>
          let r := named.foldl (init := (s, false)) fun acc k =>
            let c := acc.1.calibrate
            (c.1.setArr k.2 { c.1.arr k.2 with deg := !c.2 }, acc.2 || !c.2)
          let w := RegW.k sel.kf.toNat ex (if r.2 then ex else 0)
          let t := { v.t with regs := v.t.regs.apply w, pend := v.t.pend.map (Pend.supersede [w]) }
          .next ((r.1.retire v t p.stall).hold v.uid (1536 + p.stall.toNat))

/-! ## COMMIT and GRWD -/

/-- What the steps of COMMIT that follow the last arrival give (R413): they must wait, they stopped a gang, or they are
done. -/
inductive Commit where
  | wait (s : State)
  | stopped (s : State)
  | done (s : State)
  deriving DecidableEq, Repr

/-- Perform the held reductions of gangs in order, and go on once all are performed. -/
def State.performAll (s : State) (k : State → Commit) : List Nat → Commit
  | [] => k s
  | u :: us =>
    match s.performHeld u with
    | .wait s => .wait s
    | .halt h => .stopped (match s.viewOf (.gang u) with | some v => s.haltV v h | none => s)
    | .done s => s.performAll k us

/-- The read of the record at RECA that COMMIT makes (R413, R415): its faults and halts are the given thread's. -/
def State.commitRead (s : State) (n : Nat) (t : Team) (v : View) (us : List Nat) : Commit :=
  if t.reca = 0 then .done s
  else
    let v' := { v with g := { v.g with ctx := (s.gridOf v.g).ctx } }
    match s.deviceAddr v' .read t.reca 64 64 with
    | (s, .halt c a) => .stopped (s.haltV v { cause := c, addr := a })
    | (s, .fault l a) => .stopped (s.pageFaultV v v.act ((lanesOf v.act).map fun j => (j, a)) .read l)
    | (s, .ok ps) =>
      if s.busyReads ps then .wait (s.stirReads ps t.grid)
      else
        match s.errPieces ps 64 with
        | some e => .stopped ((s.noteRemote (pasOf ps 64)).haltV v { cause := e.halt, addr := t.reca })
        | none =>
          let s := s.readAt ps
          let b := s.readPieces ps 64
          let r := Rec.ofBytes b
          if recReserved b || r.gangs != t.shape.gangs || r.pair != t.shape.pair || r.arrays != t.shape.arrays then
            .stopped (s.haltAll us { cause := .taskRecord })
          else .done (s.modTeam n fun t => { t with restart := r })

/-- The steps of COMMIT after the last arrival (R413, R415): held reductions in ascending GANGID, then the record at RECA,
whose faults and halts the gang with the lowest GANGID takes. -/
def State.commitSteps (s : State) (n : Nat) : Commit :=
  match tget s.teams n with
  | none => .stopped s
  | some t =>
    let us := (s.alive t).map Prod.fst
    s.performAll (fun s =>
      match us.head?.bind fun u => s.viewOf (.gang u) with
      | none => .stopped s
      | some v => s.commitRead n t v us) us

/-- A gang arrives at a COMMIT or GRWD with the header and slot of its sibling's group translated and checked (R429); a commit
goes to what they were found to be. -/
def State.tGroup (s : State) (v : View) (k : State → Res) : Res :=
  if (s.teamOf v.g).shape.grp then
    s.tSibling v .rmw fun s ps => k (s.modGang v.uid fun g => { g with gplace := ps })
  else k s

/-- The thread whose group slot a team's commit updates: the gang with the lowest GANGID, if it is a sibling (R429). -/
def State.sibling (s : State) (t : Team) : Option View :=
  ((s.alive t).head?.bind fun g => s.viewOf (.gang g.1)).filter fun v => v.g.sib != 0xFFFFFFFF

/-- The environment of a sibling's group update. -/
def State.siblingEnv (s : State) (t : Team) (v : View) : Env :=
  { agent := v.agent s, ctx := v.g.ctx, sup := v.sup, grid := t.grid, teamid := t.teamid, pc := v.t.pc }

/-- What home answers a commit for its sibling's group: that it must wait, an error, or nothing (R144, R422). -/
def State.groupPlace (s : State) (t : Team) (v : View) : State × Except MemErr Bool :=
  let ps := s.groupPieces v.g.gplace
  if s.busyPieces ps then (s.stirPieces ps t.grid, .ok false)
  else
    match v.g.gplace.findSome? fun p => s.errPieces [{ p with off := 0 }] p.n with
    | some e => (s, .error e)
    | none => (s.recallAt ps, .ok true)

/-- A gang that halts at a COMMIT or GRWD has not arrived there: it executes it again when it goes on (R449). -/
def State.unarrive (s : State) (n : Nat) : State :=
  let out := s.gangs.filter fun e => e.2.team == n && e.2.halted && (e.2.thr.wait == .commit || e.2.thr.wait == .grwd)
  let gone (i : Nat) : Bool := out.any fun e => e.2.gangid == i
  (out.foldl (init := s) fun s e => s.waitIn e.1 .none).modTeam n fun t =>
    { t with commit := t.commit.filter fun i => !gone i, grwd := t.grwd.filter fun e => !gone e.1 }

/-- Complete a COMMIT or GRWD whose gangs have all arrived (R413, R427, R429): what the last step of its own is to the team, and
the reward. While a gang of the team runs its page-fault handler, or something is under way for the group, it waits; where home
answers for the group with an error, the gang whose sibling it is halts and nothing is committed. -/
def State.commitEnd (s : State) (n : Nat) (t : Team) (reward : Option Nat) (clear : Team → Team) : State :=
  let gs := s.alive t
  if gs.any fun g => g.2.handles then s
  else
    let act (s : State) (group : State → State) : State :=
      match s.commitSteps n with
      | .wait s => s
      | .stopped s => s.unarrive n
      | .done s => gs.foldl (init := (group s).modTeam n clear) fun s g => s.leave g.1 6
    match s.sibling t with
    | none => act s fun s => s
    | some v =>
      match s.groupPlace t v with
      | (s, .ok false) => s
      | (s, .error e) => ((s.noteRemote (v.g.gplace.map Piece.pa)).haltV v { cause := e.halt, addr := v.g.gdesc }).unarrive n
      | (s, .ok true) => act s fun s => s.deposit (s.siblingEnv t v) t.grid v.g.gdesc v.g.gplace v.g.sib.toNat reward

/-- Try to complete a COMMIT whose gangs have arrived. -/
def State.commitTry (s : State) (n : Nat) : State :=
  match tget s.teams n with
  | none => s
  | some t =>
    let gs := s.alive t
    if gs.isEmpty || !(gs.all fun g => t.commit.contains g.2.gangid) then s
    else s.commitEnd n t none fun t => { t with commit := [] }

/-- COMMIT (R413, R415). -/
def execCommit (p : Pre) (s : State) : Out :=
  s.teamBar { p := p } (fun t g => t.commit.contains g)
    (fun s v => s.tGroup v fun s => s.tRelease v fun s =>
      .done ((s.modTeam v.g.team fun t => { t with commit := t.commit ++ [v.g.gangid] }).waitIn v.uid .commit))
    (fun s v => s.commitTry v.g.team)

/-- The reward of the arriving gang with the lowest GANGID. -/
def firstReward (l : List (Nat × BitVec 32)) : Option Nat :=
  let low := l.foldl (init := 64) fun m e => Nat.min m e.1
  (l.find? fun e => e.1 == low).map fun e => e.2.toNat

/-- Try to complete a GRWD whose gangs have arrived (R427). -/
def State.grwdTry (s : State) (n : Nat) : State :=
  match tget s.teams n with
  | none => s
  | some t =>
    let gs := s.alive t
    if gs.isEmpty || !(gs.all fun g => t.grwd.any fun e => e.1 == g.2.gangid) then s
    else s.commitEnd n t (firstReward t.grwd) fun t => { t with grwd := [] }

/-- GRWD (R427 to R429). -/
def execGrwd (x : X1) (s : State) : Out :=
  s.teamBar { p := x.p, rs := [x.sb.toNat] } (fun t g => t.grwd.any fun e => e.1 == g)
    (fun s v =>
      if v.g.sib = 0xFFFFFFFF then .halt s { cause := .groupNone }
      else s.tGroup v fun s => s.tRelease v fun s =>
        let r : BitVec 32 := (v.t.regs.getS x.sb.toNat).setWidth 32
        .done ((s.modTeam v.g.team fun t => { t with grwd := t.grwd ++ [(v.g.gangid, r)] }).waitIn v.uid .grwd))
    (fun s v => s.grwdTry v.g.team)

/-! ## Hints and rankings -/

/-- PHINT (R419): a lane on the carry pool executes it as NOP. -/
def State.phint (s : State) (p : Pre) (h : Hint) : Out :=
  s.issue { p := p } fun s v ex =>
    let s := s.retire v v.t p.stall
    .next (if ex = 0 || v.lane.isSome then s else s.modGang v.uid fun g => { g with hint := h })

/-- PHINT.MEM. -/
def execPhintMem (p : Pre) (s : State) : Out := s.phint p .mem

/-- PHINT.CMP. -/
def execPhintCmp (p : Pre) (s : State) : Out := s.phint p .cmp

/-- PRIORITY_RESTORE (R390, R417): the 256 cycles of a low ranking are over. -/
def execPriorityRestore (u : Nat) (s : State) : Out :=
  match tget s.gangs u with
  | none => .fault .noAgent
  | some g =>
    let left (x : Option Nat) : Option Nat := x.filter fun t => decide (s.clk g.core < t)
    .next (s.modGang u fun g => { g with lowUntil := left g.lowUntil, yieldUntil := left g.yieldUntil })

/-! ## The end of gangs and teams (R388, R399, R442) -/

/-- Look again at every barrier of a team, after one of its gangs has ended (R404, R540). -/
def State.teamCheck (s : State) (n : Nat) : State :=
  let s := (List.range 16).foldl (init := s) fun s b => s.barCheck n b
  ((s.amodeTry n).commitTry n).grwdTry n

/-- Return a swap area to its pool as QPUSH returns an item (R442). -/
def State.returnArea (s : State) (ctx : BitVec 12) (area : Nat) : State := { s with areas := s.areas ++ [(ctx, area)] }

/-- Return one swap area, unless its pool queue is in use at home. -/
def State.returnOne (s : State) (x : BitVec 12 × Nat) : State :=
  let later (s : State) : State := { s with areas := s.areas ++ [x] }
  let e : Env := { agent := s.coreAgent 0, ctx := x.1, sup := true }
  match s.dstField 48 with
  | (s, .error _) => later s
  | (s, .ok q) =>
    if q = 0 then s
    else
    match s.eQueue e q with
    | (s, .bad) => s
    | (s, .busy) => later s
    | (s, .ok q qps) =>
      match s.ePush e q qps (bytesOf 8 x.2) none with
      | (s, .busy) => later s
      | (s, _) => s

/-- Return every swap area that can be. -/
def State.flushAreas (s : State) : State := s.areas.foldl State.returnOne { s with areas := [] }

/-- A gang leaves the sequencers' queues, and those it owns pass to the next gang or become free (R345, R347). -/
def State.dropSeqs (s : State) (u : Nat) : State :=
  let seq (q : Seq) : Seq :=
    let queue := q.queue.filter (· != u)
    if q.owner == some u then
      match queue with
      | [] => { q with owner := none, queue := [] }
      | n :: rest => { q with owner := some n, queue := rest }
    else { q with queue := queue }
  { s with cores := s.cores.map fun e =>
      (e.1, { e.2 with seqs := (e.2.seqs.map fun q => (q.1, seq q.2)).filter fun q => decide (q.2 ≠ {}) }) }

/-- Release the array set of a SHARE grid on a core that holds no team of it any more (R396, R399). -/
def State.sweepShare (s : State) : State :=
  let used (core grid : Nat) : Bool := s.teams.any fun t => t.2.grid == grid && t.2.cores.contains core
  let keep (core : Nat) (c : Core) : Core := { c with share := c.share.filter fun x => used core x.1 }
  { s with cores := s.cores.map fun e => (e.1, keep e.1 e.2) }

/-- Remove a team with its gangs, lanes and arrays' ties to it. -/
def State.forgetTeam (s : State) (n : Nat) : State :=
  match tget s.teams n with
  | none => s
  | some t =>
    let s := t.gangs.foldl State.dropSeqs s
    let s : State := { s with
      gangs := s.gangs.filter fun e => e.2.team != n
      lanes := s.lanes.filter fun e => !t.gangs.contains e.2.gang
      teams := tdel s.teams n }
    s.sweepShare

/-- The environment of a team's end, and the place of its join counter, if it has one (R399). -/
def State.joinPlace (s : State) (t : Team) : State × Env × Got :=
  let ctx := ((tget s.grids t.grid).map Grid.ctx).getD 0
  let e : Env := { agent := s.coreAgent ((t.cores.head?).getD 0), ctx := ctx, sup := t.shape.sys, grid := t.grid,
                   teamid := t.teamid }
  if t.shape.join then let r := s.eAddr e .rmw t.shape.jcnt 32 32; (r.1, e, r.2) else (s, e, .bad)

/-- End a team all of whose gangs have ended (R399), its join counter found. -/
def State.endTeam (s : State) (n : Nat) (t : Team) (e : Env) (join : Got) : State :=
  let under (s : State) : State := s.post { grid := t.grid, kind := 4, teamid := t.teamid, data0 := t.shape.jcnt }
  let s := s.forgetTeam n
  let s :=
    if !t.shape.join then s
    else match join with
      | .ok ps => let r := s.countDown e t.grid t.shape.jcnt ps 1; if r.2 then r.1 else under r.1
      | _ => under s
  s.returnArea e.ctx t.area

/-- Whether a run of a gang is active on a sequencer. -/
def State.hasRun (s : State) (u : Nat) : Bool :=
  s.cores.any fun c => c.2.seqs.any fun q => q.2.run.any fun r => r.gang == u

/-- Whether a copy of a gang is queued or running. -/
def State.hasCopy (s : State) (u : Nat) : Bool := s.cores.any fun c => c.2.copyQ.any fun j => j.gang == u

/-- GANG_END (R388): once every lane has exited, the gang waits for its runs and copies, releases its sequencers, completes
a release and gives up its slot; the last gang ends the team (R399). -/
def execGangEnd (u : Nat) (s : State) : Out :=
  match s.viewOf (.gang u) with
  | none => .fault .noAgent
  | some v =>
    let g := v.g
    let free := (s.teamOf g).st == .running
    if g.ended || g.halted || !free || g.exited &&& g.all != g.all || s.lanes.any (fun e => e.2.gang == u) then .next s
    else if s.hasRun u || s.hasCopy u then .next s
    else
      let s := s.dropSeqs u
      match s.release v with
      | .wait s => .next s
      | .halt h => .next (s.haltV v h)
      | .done s =>
        let n := g.team
        let t := s.teamOf g
        let out (s : State) : State := s.modGang u fun g => { g with ended := true, thr := { g.thr with wait := .none } }
        if (s.alive t).any fun x => x.1 != u then .next ((out s).teamCheck n)
        else
          match s.joinPlace t with
          | (s, _, .busy) => .next s
          | (s, e, join) => .next ((out s).endTeam n t e join)

end Sys2Proof.Machine
end

