-- ==== Sys2Proof/Machine/Swap.lean ====
section
/-!
DEFINITION. Pre-emption, the swap area and restore (R104, R248, R345, R379, R380, R414, R418, R437, R449 to R462).
-/
namespace Sys2Proof.Machine

/-! ## Who is placed where (R15, R22, R396) -/

/-- The placed gangs of a core that have not ended. -/
def State.placedOn (s : State) (core : Nat) : List (Nat × Gang) :=
  s.gangs.filter fun e => e.2.core == core && !e.2.ended && !(s.teamOf e.2).cores.isEmpty

/-- The physical address of the group descriptor of a sibling. -/
def State.groupOf (s : State) (t : Team) : Option Nat :=
  let desc := (t.shape.args[3]?).getD 0
  if !t.shape.grp then none
  else match s.walk (((tget s.grids t.grid).map Grid.ctx).getD 0) desc with
    | .leaf l => some (l.pa desc)
    | _ => none

/-! ## Choosing a team for pre-emption (R437, R453) -/

/-- Whether a team is a sibling of an open group that is pre-empted as a whole. -/
def State.wholeGroup (s : State) (t : Team) : Option Nat :=
  if !t.shape.ganged then none
  else (s.groupOf t).filter fun pa => s.peek (pa + 12) == 1

/-- Begin to pre-empt a team: with its whole group where R437 says so, else alone. `discard` asks for a discard of an
idempotent team (R453). Nothing happens to a team that does not run (R457). -/
def State.preempt (s : State) (n : Nat) (discard : Bool) : State :=
  match tget s.teams n with
  | none => s
  | some t =>
    if t.st != .running then s
    else
      match s.wholeGroup t with
      | some pa =>
        let mine (x : Team) : Bool := x.st == .running && s.wholeGroup x == some pa
        { s with
          teams := s.teams.map fun e => if mine e.2 then (e.1, { e.2 with st := .discarding }) else e
          groups := s.groups.map fun e =>
            if e.2.pa == pa && !e.2.paused then
              (e.1, { e.2 with used := e.2.used + (s.ps - e.2.since), since := s.ps, paused := true })
            else e }
      | none => s.modTeam n fun t => { t with st := if discard && t.shape.idem then .discarding else .swapping }

/-! ## Blocked teams (R418) -/

/-- Whether an instruction has left its gang where it stood. -/
def stuck (u : Nat) (before : Gang) (o : Out) : Bool :=
  match o with
  | .next s => match tget s.gangs u with
    | some g => g.thr.pc == before.thr.pc && !g.halted && g.inPf == before.inPf && g.inEmu == before.inEmu
    | none => false
  | _ => false

/-- The counter that an instruction would raise at issue, with its guard (R172, R205, R207). -/
def Thr.raises (t : Thr) : Instr → Option (Pre × Path)
  | .ld m | .st m | .bpk m | .bpx m => some (m.p, if (t.regs.getX m.xr.toNat).kind = .spad then .s else .g)
  | .lda a | .sta a => some (a.p, if (t.regs.getX a.xr.toNat).kind = .spad then .s else .g)
  | .cwb m | .icinv m => some (m.p, .g)
  | .pgtake x => some (x.p, .g)
  | .atom _ a | .acas a | .mcas _ a => some (a.p, .a)
  | .red _ a => if a.ord = .cmt then none else some (a.p, .a)
  | .qpop x => some (x.p, .a)
  | .mloop f | .mloopRes f => some (f.p, .m)
  | _ => none

/-- Whether a gang is blocked (R418). -/
def State.blockedGang (s : State) (u : Nat) : Bool :=
  match s.viewOf (.gang u) with
  | none => false
  | some v =>
    let waits := match v.t.wait with
      | .bar _ | .amode | .commit | .grwd | .waitu _ | .waitc _ _ | .waitMerge _ => true
      | _ => false
    if waits then true
    else if v.act = 0 then v.g.jw != 0
    else if v.t.atHdr then false
    else
      let s' := { s with cur := some (.gang u) }
      let try_ (o : Out) : Bool := stuck u v.g o
      match ((tget v.t.fbuf v.t.pc.toNat).orElse fun _ => s.prefetch v v.t.pc).map decode with
      | some (.ok (.macq p q)) => try_ (execMacq p q s')
      | some (.ok (.gbar x)) => try_ (execGbar x s')
      | some (.ok (.bcopy x _ _ _ _ _)) | some (.ok (.bfill x _ _)) => s'.copyWaits x.p
      | some (.ok i) => (v.t.raises i).any fun r => s'.fullAt r.1 fun _ => r.2
      | _ => false

/-- Whether a team is blocked (R418). -/
def State.blockedTeam (s : State) (t : Team) : Bool := (s.alive t).all fun g => s.blockedGang g.1

/-! ## Draining (R227, R454) -/

/-- Deferred writes that a flight of an actor still waits for. -/
def State.deferOf (s : State) (a : Actor) (id : Nat) : Nat :=
  (s.arrays.flatMap fun e => e.2.defer.filter fun d => d.flight == some (a, id)).length

/-- What a request does that home performs for an actor's atomic or reduction, or its store. -/
def Req.atomicOf : Req → Option Actor
  | .farAtomic a _ _ _ _ _ _ _ _ => a
  | .red a _ _ _ _ _ _ _ _ => some a
  | _ => none

/-- The actor of a store that a request performs at home. -/
def Req.storeOf : Req → Option Actor
  | .farStore a _ _ _ _ _ => a
  | .plane a _ _ _ _ _ _ _ => some a
  | _ => none

/-- Whether an atomic or reduction of an actor is on its way to home: such a one completes, even where its task is
discarded (R454). -/
def State.atomicSent (s : State) (a : Actor) : Bool :=
  s.net.any (fun m => match m.body with | .req r => r.req.atomicOf == some a | _ => false) ||
    s.home.any fun h => h.2.queue.any fun r => r.req.atomicOf == some a

/-- Whether an actor has drained: MCAS ended, and every access complete but for what stands in a deferral queue; where its
work is discarded, what was sent to home as an atomic is performed. -/
def State.quiet (s : State) (a : Actor) (discard : Bool) (t : Thr) : Bool :=
  !(discard && s.atomicSent a) &&
  t.flights.all fun f =>
    f.complete || f.path == .c || f.path == .m ||
      (f.mcas.isNone && (discard || (decide (0 < s.deferOf a f.id) && decide (f.wait ≤ s.deferOf a f.id))))

/-- The lanes of a team on the carry pool. -/
def State.lanesOfTeam (s : State) (t : Team) : List (Nat × LaneCtx) := s.lanes.filter fun e => t.gangs.contains e.2.gang

/-- A copy paused at a page ends where it stands if its gang has halted in the handler for it, or in a handler for another page
(assumption 64): no RETS of that gang can come. A gang that has halted elsewhere takes the fault and runs the handler (R227,
R454). -/
def State.endHaltedCopies (s : State) (t : Team) : State :=
  s.cores.foldl (init := s) fun s c =>
    match c.2.copyQ with
    | j :: _ =>
      if t.gangs.contains j.gang && j.paused && ((tget s.gangs j.gang).any fun g => g.halted && g.inPf) then s.endJob c.1 j else s
    | [] => s

/-- Whether a team barrier has every arrival it waits for. -/
def State.barrierFull (s : State) (t : Team) : Bool :=
  let ids := (s.alive t).map fun g => g.2.gangid
  !ids.isEmpty && (ids.all t.amode.arrived.contains || ids.all t.commit.contains ||
    ids.all fun i => t.grwd.any fun e => e.1 == i)

/-- Whether every engine and access of a team has drained, and no gang has still a page fault to take that stopped its run (R343). -/
def State.drained (s : State) (t : Team) (discard : Bool) : Bool :=
  t.gangs.all (fun u => !s.hasCopy u && !s.hasRun u &&
    ((tget s.gangs u).map fun g => s.quiet (.gang u) discard g.thr && (discard || !g.engFaults.head?.any (s.canFault g))).getD true) &&
    (s.lanesOfTeam t).all fun e => s.quiet (.lane e.1) discard e.2.thr

/-! ## Writing the swap area (R458 to R460, R462) -/

/-- Zeros. -/
def zeros (n : Nat) : List Byte := List.replicate n 0#8

/-- A 64-bit field. -/
def wd (n : Nat) : List Byte := bytesOf 8 n

/-- Code of a wait in a gang block. -/
def Wait.code : Wait → Nat
  | .bar b => 16 + 256 * b
  | .amode => 32
  | .commit => 48
  | .grwd => 64
  | _ => 0

/-- The wait of a code, for the barrier waits. -/
def Wait.ofCode (n : Nat) : Wait :=
  match nbits n 4 4 with
  | 1 => .bar (nbits n 8 4)
  | 2 => .amode
  | 3 => .commit
  | 4 => .grwd
  | _ => .none

/-- Code of a power hint. -/
def Hint.code : Hint → Nat
  | .none => 0
  | .mem => 1
  | .cmp => 2

/-- The hint of a code. -/
def Hint.ofCode : Nat → Hint
  | 1 => .mem
  | 2 => .cmp
  | _ => .none

/-- Eight translation registers of 32 bytes (R460). -/
def xBytes (r : Regs) : List Byte := (List.range 8).flatMap fun n =>
  let x := r.getX n
  wbytes x.base ++ wbytes x.limit ++ wbytes x.attrs ++ wbytes 0

/-- Index registers i1 to i3 in eight bytes. -/
def iBytes (r : Regs) : List Byte := ((List.range 3).flatMap fun n => bytesOf 2 (r.getI (n + 1)).toNat) ++ zeros 2

/-- The four counters and flags (R460). -/
def cntBytes (r : Regs) : List Byte := wd r.fpflags.toNat ++ wd r.bkconf.toNat ++ wd r.modez.toNat ++ wd r.polmis.toNat

/-- A gang block (R460). -/
def Gang.block (g : Gang) (regoff : Nat) : List Byte :=
  let r := g.thr.regs
  let w := if g.thr.wait.code = 0 then g.pfWait.code else g.thr.wait.code
  wbytes g.thr.pc ++ wbytes g.thr.hdra ++ wd (bnat g.sup + 2 * bnat g.inEmu + 4 * bnat g.inPf + w) ++
  wbytes g.dmask ++ wbytes g.jw ++ wbytes g.exited ++
  wd (g.stack.length + g.spilled * 2 ^ 16 + g.cmtLog.length * 2 ^ 32) ++ iBytes r ++
  ((List.range 64).flatMap fun n => wbytes (r.getS n)) ++ xBytes r ++ cntBytes r ++
  ((List.range 4).flatMap fun q => wbytes (mget 0 g.rprog q)) ++
  wbytes g.halt.cause ++ wbytes g.halt.pc ++ wbytes g.halt.mask ++ wbytes g.halt.addr ++
  wbytes g.emu.op ++ wbytes g.emu.pc ++ wbytes g.emu.fn ++ wbytes g.emu.d ++ wbytes g.emu.a ++ wbytes g.emu.b ++
  wbytes g.emu.c ++ wd g.ctx.toNat ++ wd (regoff + g.hint.code * 2 ^ 32) ++
  ((List.range 7).flatMap fun n => wbytes (r.getK (n + 1))) ++ wbytes (if g.inEmu then g.ehdra else 0) ++ zeros 984 ++
  ((List.range 16).flatMap fun n => ((g.stack[n]?).map Entry.bytes).getD (zeros 64)) ++
  ((List.range 64).flatMap fun l => wbytes (mget 0 g.jpc l)) ++ zeros 512

/-- Code of a lane's state in its saved context. -/
def LaneSt.code : LaneSt → Nat
  | .ejected => 0
  | .waiting => 1
  | .detached => 2
  | .parked => 3

/-- A saved carry-pool context (R460). -/
def LaneCtx.block (lc : LaneCtx) (gangid : Nat) : List Byte :=
  let r := lc.thr.regs
  let k := (List.range 7).foldl (init := 0) fun m n => m + bnat (hasLane (r.getK (n + 1)) lc.lane) * 2 ^ n
  wd (gangid + 256 * lc.lane + 65536 * lc.st.code) ++ wbytes lc.thr.pc ++ wbytes lc.rejoin ++ cntBytes r ++ wd k ++
  ((List.range 64).flatMap fun n => bytesOf 4 (r.getV n lc.lane).toNat) ++
  ((List.range 64).flatMap fun n => wbytes (r.getS n)) ++ iBytes r ++ xBytes r ++ wbytes lc.thr.hdra ++ zeros 944

/-- The parts of a lane in a deferral entry; an access of the uniform pipe has the place of lane 0 (assumption 64). -/
def DefEntry.partsOf (e : DefEntry) (l : Nat) : List (Nat × List Byte) :=
  (e.lanes.filter fun x => x.1 % 64 == l).map Prod.snd

/-- The two parts of an access that crosses a slab as one saved place and data: of a BPK the planes of both. -/
def joinParts (i : Instr) (p q : Nat × List Byte) : Nat × List Byte :=
  match i with
  | .bpk _ =>
    let pend (d : List Byte) : Nat := valOf ((d.drop 4).take 4)
    (p.1, p.2.take 4 ++ bytesOf 4 (pend p.2 ||| (pend q.2 <<< ((q.1 - p.1) / 8))) ++ p.2.drop 8)
  | _ => (p.1, p.2 ++ q.2)

/-- The inverse of `joinParts`: `n` bytes of the array belong to the first part, `len` of data to a store's. -/
def splitParts (i : Instr) (n len : Nat) (x : Nat × List Byte) : List (Nat × List Byte) :=
  match i with
  | .bpk _ =>
    let pend := valOf ((x.2.drop 4).take 4)
    let v := valOf (x.2.take 4)
    let k := n / 8
    [(x.1, x.2.take 4 ++ bytesOf 4 (pend % 2 ^ k) ++ x.2.drop 8),
     (x.1 + n, bytesOf 4 (v / 2 ^ k) ++ bytesOf 4 (pend / 2 ^ k) ++ x.2.drop 8)]
  | _ => [(x.1, x.2.take len), (x.1 + n, x.2.drop len)]

/-- A deferral entry (R460): each lane's place in the array and its data. -/
def DefEntry.block (e : DefEntry) (gangid : Nat) : List Byte :=
  let m := e.lanes.foldl (init := (0 : Mask)) fun m l => m ||| laneBit (l.1 % 64)
  wbytes e.word ++ wd gangid ++ wbytes m ++ (List.range 64).flatMap fun l =>
    let put (x : Nat × List Byte) : List Byte := wd x.1 ++ (x.2 ++ zeros 16).take 16
    match e.partsOf l with
    | p :: q :: _ => put (joinParts e.instr p q)
    | p :: _ => put p
    | [] => zeros 24

/-- The register image of a gang: register by register, lane by lane. -/
def Gang.image (g : Gang) : List Byte :=
  (List.range g.vallot).flatMap fun r => (List.range g.width).flatMap fun l => bytesOf 4 (g.thr.regs.getV r l).toNat

/-- REGOFF of a team's gangs, one after another in the register image. -/
def regOffs (gs : List Gang) : List Nat :=
  (gs.foldl (init := (([] : List Nat), 0x80000)) fun acc g => (acc.1 ++ [acc.2], acc.2 + 4 * g.width * g.vallot)).1

/-- STATE of a team block. -/
def TeamSt.code : TeamSt → Nat
  | .swapped => 1
  | .halted => 2
  | _ => 0

/-- A barrier of a team block. -/
def Bar.bytes (b : Bar) (alive : Nat) : List Byte :=
  wd ((b.set.getD alive) % 256 + bnat b.set.isSome * 256 + b.arrivals % 256 * 2 ^ 16 + b.phase % 2 ^ 32 * 2 ^ 32)

/-- The GANGID that owns sequencer q of a core, among the gangs of a team; 0xFF for none. -/
def State.seqOwnerId (s : State) (t : Team) (core : Option Nat) (q : Nat) : Nat :=
  match core with
  | none => 0xFF
  | some c =>
    match (s.seq c q).owner with
    | some u => if t.gangs.contains u then ((tget s.gangs u).map Gang.gangid).getD 0xFF else 0xFF
    | none => 0xFF

/-- The operands of an AMODE in progress: MODE3, IMM8a, IMM8b, IMM8c. -/
def AmodeSt.bytes (a : AmodeSt) : List Byte :=
  if a.arrived.isEmpty then zeros 8
  else bytesOf 1 a.arrived.length ++ bytesOf 1 (bnat a.rck) ++ bytesOf 1 a.sel.first.toNat ++ bytesOf 1 a.sel.count.toNat ++
    bytesOf 1 a.sel.kf.toNat ++ zeros 3

/-- The team block (R459). -/
def State.teamBlock (s : State) (n : Nat) (t : Team) (st : TeamSt) : List Byte :=
  let alive := (s.alive t).length
  let h := t.haltRec
  let arr := (List.range 32).flatMap fun j =>
    match t.window[j]? with
    | none => zeros 8
    | some k =>
      let a := s.arr k
      wd (bnat a.rck + 2 * bnat a.deg + 4 * bnat (a.modeTeam == some n) + 256 * a.defer.length)
  let seqs := (List.range 4).flatMap fun q =>
    wd (s.seqOwnerId t t.cores.head? q + if t.shape.pair then 256 * s.seqOwnerId t (t.cores[1]?) q else 0)
  t.restart.bytes ++ wbytes t.reca ++ wbytes t.teamid ++ wbytes (((tget s.grids t.grid).map Grid.launch).getD 0) ++
  wd (st.code + 256 * (s.lanesOfTeam t).length) ++
  ((List.range 16).flatMap fun b => (mget {} t.bars b).bytes alive) ++
  t.amode.bytes ++ wd t.commit.length ++ wd t.grwd.length ++ wd 0 ++
  wbytes h.regs.cause ++ wbytes h.regs.pc ++ wbytes h.regs.mask ++ wbytes h.regs.addr ++
  bytesOf 1 h.gangid ++ bytesOf 1 h.halts ++ bytesOf 2 h.core ++ zeros 4 ++ wd h.time ++
  (if h.halts = 0 then zeros 16 else wbytes t.teamid ++ wbytes t.reca) ++ arr ++ seqs

/-- A team that starts in an area runs (R459). -/
def State.zeroState (s : State) (area : Nat) : State := s.devWrite (area + 0x58) (wd 0)

/-- Write bytes to memory directly; the registrations of the area have been recalled. -/
def State.areaWrite (s : State) (pa : Nat) (bs : List Byte) : State := { s with mem := memWrite s.mem pa bs }

/-- Make the regions of a swap area but the fault frames zero, and bring their units home. -/
def State.clearArea (s : State) (area : Nat) : State :=
  let inside (a : Nat) : Bool :=
    (decide (area ≤ a) && decide (a < area + 0x21000)) || (decide (area + 0x41000 ≤ a) && decide (a < area + 0x800000))
  let s := s.registry.foldl (init := s) fun s e =>
    if decide (area < unitBase e.1 + unitSize e.1) && decide (unitBase e.1 < area + 0x800000) then s.recallUnit e.1 else s
  { s with mem := s.mem.filter fun c => !inside c.1, poison := s.poison.filter fun c => !inside (8 * c.1) }

/-- Poison the words of the area that hold poisoned registers, cells and scale bytes (R462). -/
def State.areaPoison (s : State) (pas : List Nat) : State := pas.foldl (init := s) fun s a => setPoison s a true

/-- Save a gang: its block, its registers, its log. -/
def State.saveGang (s : State) (area : Nat) (g : Gang) (off : Nat) : State :=
  let s := s.areaWrite (area + 0x1000 + 0x1000 * g.gangid) (g.block off)
  let s := s.areaWrite (area + off) g.image
  let s := s.areaWrite (area + 0x600000 + 0x10000 * g.gangid) (g.cmtLog.flatMap CmtEntry.bytes)
  s.areaPoison ((g.thr.regs.vp.filter fun e => e.1 / 64 < g.vallot && e.1 % 64 < g.width).map
    fun e => area + off + 4 * (e.1 / 64 * g.width + e.1 % 64))

/-- Save window array j: cells, scale RAM, deferral queue. -/
def State.saveArray (s : State) (area j key : Nat) : State :=
  let a := s.arr key
  let s := s.areaWrite (area + 0x180000 + 0x8000 * j) (a.bytes 0 0x8000)
  let s := s.areaWrite (area + 0x280000 + 0x200 * j) (a.bytes cellBytes 0x200)
  let s := (List.range a.defer.length).foldl (init := s) fun s e =>
    match a.defer[e]? with
    | none => s
    | some d => s.areaWrite (area + 0x300000 + 0x10000 * j + 0x800 * e) (d.block (((tget s.gangs d.gang).map Gang.gangid).getD 0))
  s.areaPoison (a.poison.map fun e =>
    if 8 * e.1 < cellBytes then area + 0x180000 + 0x8000 * j + 8 * e.1 else area + 0x280000 + 0x200 * j + (8 * e.1 - cellBytes))

/-- A thread as it is kept with a swapped team: results landed, in flight only what stands in a deferral queue (R247),
only a barrier's wait kept. -/
def Thr.parkedAway (t : Thr) : Thr :=
  let t := t.landAll
  let w := match t.wait with
    | .bar b => Wait.bar b
    | .amode => .amode
    | .commit => .commit
    | .grwd => .grwd
    | _ => .none
  let again := match t.wait with | .waitMerge _ | .rendezvous _ => true | _ => false
  let kept := (t.flights.filter fun f => !f.complete && !f.engine).map fun f => { f with aside := true }
  { t with flights := kept, pend := [], fbuf := [], wait := w, atHdr := t.atHdr || again }

/-- Take the gangs and lanes of a team out of every monitor and sequencer. -/
def State.letGo (s : State) (t : Team) : State :=
  let s := t.gangs.foldl (init := s) fun s u => (s.endMonitors (.gang u)).dropSeqs u
  (s.lanesOfTeam t).foldl (init := s) fun s e => s.endMonitors (.lane e.1)

/-- Save a drained team into its area (R449, R454, R458): it leaves its cores, arrays and sequencers. Of a demotion the cycles
still to come are kept (R417). -/
def State.saveTeam (s : State) (n : Nat) (st : TeamSt) : State :=
  match tget s.teams n with
  | none => s
  | some t =>
    let quieten (s : State) : State :=
      let away (g : Gang) : Gang := ({ g with
        thr := g.thr.parkedAway, yieldUntil := none
        lowUntil := (g.lowUntil.map fun t => t - s.clk g.core).filter fun n => n != 0 } : Gang).sync
      { s with
        gangs := s.gangs.map fun e => if e.2.team == n then (e.1, away e.2) else e
        lanes := s.lanes.map fun e => if t.gangs.contains e.2.gang then (e.1, { e.2 with thr := e.2.thr.parkedAway }) else e }
    let share := ((tget s.grids t.grid).map Grid.share).getD false
    let s := quieten s
    let gs := (s.alive t).map Prod.snd
    let s := s.clearArea t.area
    let s := s.areaWrite t.area (s.teamBlock n t st)
    let s := (gs.zip (regOffs gs)).foldl (init := s) fun s g => s.saveGang t.area g.1 g.2
    let lanes := s.lanesOfTeam t
    let s := (List.range lanes.length).foldl (init := s) fun s i =>
      match lanes[i]? with
      | none => s
      | some e =>
        let pa := t.area + 0x41000 + 0x800 * i
        (s.areaWrite pa (e.2.block (((tget s.gangs e.2.gang).map Gang.gangid).getD 0))).areaPoison
          ((e.2.thr.regs.vp.filter fun x => x.1 % 64 == e.2.lane).map fun x => pa + 0x40 + 4 * (x.1 / 64))
    let s := if share then s else (List.range t.window.length).foldl (init := s) fun s j =>
      s.saveArray t.area j ((t.window[j]?).getD 0)
    let due := t.gangs.flatMap fun u => match tget s.gangs u with
      | none => []
      | some g => ((List.range 4).filter fun q => (s.seq g.core q).owner == some u || t.seqDue.contains (u, q)).map fun q => (u, q)
    let queues := if share then [] else t.window.map fun k => (s.arr k).defer
    let s := s.letGo t
    let s := if share then s else
      { s with arrays := s.arrays.map fun e => if t.window.contains e.1 then (e.1, { e.2 with defer := [] }) else e }
    let s := { s with lanes := s.lanes.filter fun e => !t.gangs.contains e.2.gang }
    (s.modTeam n fun t => { t with
      st := st, cores := [], window := [], savedLanes := lanes, savedDefer := queues, seqDue := due }).sweepShare

/-! ## The end of a pre-emption (R414, R418, R437, R449, R455) -/

/-- The die of a team. -/
def Team.die (t : Team) : Nat := (t.cores.head?).getD 0 / 128

/-- Whether a record is that of a sibling of the group of another record. -/
def sameGroup (a b : Rec) : Bool := a.grp && a.ganged && b.grp && b.ganged && a.args[3]? == b.args[3]?

/-- Put a discarded sibling's record on a list: ahead of every other record, in ascending sibling index (R437). -/
def insGanged (r : DieRec) : List DieRec → List DieRec
  | [] => [r]
  | x :: xs => if sameGroup r.record x.record && decide (x.record.sibx < r.record.sibx) then x :: insGanged r xs else r :: x :: xs

/-- Put a record on a die's list (R398). -/
def State.requeue (s : State) (die : Nat) (r : DieRec) (front : Bool) : State :=
  let d := (tget s.dies die).getD {}
  { s with dies := tput s.dies die { d with list := if front then insGanged r d.list else d.list ++ [r] } }

/-- Drop a team's state (R169, R248, R414), and its stores still pending in L1 caches or on their way to home (R454). -/
def State.dropTeam (s : State) (n : Nat) (t : Team) : State :=
  let s := s.letGo t
  let ctxs := (s.lanesOfTeam t).map Prod.fst
  let mine (a : Actor) : Bool := match a with | .gang u => t.gangs.contains u | .lane c => ctxs.contains c
  let cache (c : L1) : L1 := { c with pend := c.pend.filter fun p => !mine p.actor }
  let arr (a : Arr) : Arr := { a with defer := a.defer.filter fun d => d.team != n }
  let lives (r : Req) : Bool := !r.storeOf.any mine
  let unit (h : HomeUnit) : HomeUnit := { h with queue := h.queue.filter fun r => lives r.req }
  let s : State := { s with
    l1 := s.l1.map (fun e => (e.1, cache e.2))
    arrays := s.arrays.map (fun e => (e.1, arr e.2))
    net := s.net.filter fun m => match m.body with | .req r => lives r.req | _ => true
    home := s.home.map (fun e => (e.1, unit e.2)) }
  s.forgetTeam n

/-- A drained team is discarded: Restart goes back on the die's list, and the swap area to its pool (R414, R442, R455). -/
def State.discardTeam (s : State) (n : Nat) : State :=
  match tget s.teams n with
  | none => s
  | some t =>
    let ctx := ((tget s.grids t.grid).map Grid.ctx).getD 0
    let s := s.dropTeam n t
    let s := s.requeue t.die { grid := t.grid, record := t.restart, reca := t.reca, teamid := t.teamid } t.shape.ganged
    s.returnArea ctx t.area

/-- TEAM_SAVED (R449, R454): once a team has drained it is saved, halted or discarded. -/
def execTeamSaved (n : Nat) (s : State) : Out :=
  match tget s.teams n with
  | none => .fault .noAgent
  | some t =>
    if t.st != .swapping && t.st != .halting && t.st != .discarding then .next s
    else
      let discard := t.st == .discarding
      let s := if discard then s else (s.endHaltedCopies t).teamCheck n
      match tget s.teams n with
      | none => .next s
      | some t =>
        if !discard && s.barrierFull t then .next s
        else if !s.drained t discard then .next s
        else if !discard && s.lockedOver t.area 0x800000 then .next (s.stir t.area 0x800000)
        else if discard then .next (s.discardTeam n)
        else if t.st == .halting then
          let s := s.saveTeam n .halted
          .next { s with notices := s.notices ++ [⟨t.area, t.haltRec.regs.cause⟩] }
        else
          let die := t.die
          let s := s.saveTeam n .swapped
          .next (s.requeue die { grid := t.grid, record := t.restart, reca := t.reca, teamid := t.teamid, area := some t.area, team := n } false)

/-! ## Restore (R104, R345, R380, R456, R462) -/

/-- Translation registers from their 32-byte images; a FRAME register is translated again from its virtual base (R104). -/
def State.xRestore (s : State) (ctx : BitVec 12) (sup : Bool) (old : Regs) (bs : List Byte) (off : Nat) : Map XReg :=
  (List.range 8).foldl (init := ([] : Map XReg)) fun m n =>
    let o := off + 32 * n
    let x := XReg.ofWords (fieldW bs o) (fieldW bs (o + 8)) (fieldW bs (o + 16))
    let va := (old.getX n).va
    mset {} m n (if x.kind = .frame then s.xlatFrame ctx sup va x.limit x.w64 x.ro else { x with va := if x.kind = .virt then x.base else 0 })

/-- s registers from an image. -/
def sRestore (bs : List Byte) (off : Nat) : Map Word :=
  (List.range 64).foldl (init := ([] : Map Word)) fun m n => mset 0 m n (fieldW bs (off + 8 * n))

/-- Index registers from an image. -/
def iRestore (bs : List Byte) (off : Nat) : Map (BitVec 16) :=
  (List.range 3).foldl (init := ([] : Map (BitVec 16))) fun m n => mset 0 m (n + 1) (BitVec.ofNat 16 (fieldN bs (off + 2 * n) 2))

/-- The four counters from an image. -/
def Regs.cntRestore (r : Regs) (bs : List Byte) (off : Nat) : Regs :=
  { r with fpflags := BitVec.ofNat 5 (fieldN bs off 8), bkconf := BitVec.ofNat 32 (fieldN bs (off + 8) 8)
           modez := BitVec.ofNat 32 (fieldN bs (off + 16) 8), polmis := BitVec.ofNat 32 (fieldN bs (off + 24) 8) }

/-- v registers from an image, with the poisoned ones. -/
def State.vRestore (s : State) (pa vallot width : Nat) (bs : List Byte) (r : Regs) : Regs :=
  (List.range vallot).foldl (init := { r with v := [], vp := [] }) fun r n =>
    (List.range width).foldl (init := r) fun r l =>
      let o := 4 * (n * width + l)
      let r := r.setV n l (BitVec.ofNat 32 (fieldN bs o 4))
      if isPoisoned s (pa + o) then { r with vp := mset false r.vp (vkey n l) true } else r

/-- The header word of a saved thread's block: the one it travels with, or the word now at a changed HDRA (R29, R450). -/
def State.hdrRestore (s : State) (g : Gang) (uid : Nat) (t : Thr) (hdra : Word) : Word :=
  if hdra = t.hdra then t.hdr
  else
    let v : View := { a := .gang uid, t := t, act := 0, g := g, uid := uid, lane := none, ctxNo := 0, now := 0 }
    (s.prefetch v hdra).getD 0

/-- The x0 that a fault frame holds, translated again where it is a FRAME register (R104): what the frame gets, and the
register. -/
def State.frameX0 (s : State) (g : Gang) (pa : Nat) : State × XReg :=
  let bs := s.peekBytes (pa + 0x8A8) 24
  let x := XReg.ofWords (fieldW bs 0) (fieldW bs 8) (fieldW bs 16)
  if g.inPf && x.kind == .frame && g.pfX0.kind == .frame then
    let x := s.xlatFrame g.pfX0.ctx g.pfSup g.pfX0.va x.limit x.w64 x.ro
    (s.areaWrite (pa + 0x8A8) (wbytes x.base ++ wbytes x.limit ++ wbytes x.attrs), x)
  else (s, g.pfX0)

/-- A gang from its block, over what it was (R450, R460); it is the youngest in age (R416). A PC outside its block is met at
the resumption (R29). -/
def State.gangRestore (s : State) (uid area : Nat) (g : Gang) : Gang :=
  let pa := area + 0x1000 + 0x1000 * g.gangid
  let bs := s.peekBytes pa 0x1000
  let w (o : Nat) : Word := fieldW bs o
  let mode := fieldN bs 0x10 8
  let sup := mode % 2 == 1
  let inPf := mode / 4 % 2 == 1
  let cnts := fieldN bs 0x30 8
  let ctx : BitVec 12 := BitVec.ofNat 12 (fieldN bs 0x3D8 8)
  let regoff := fieldN bs 0x3E0 4
  let regs : Regs := { g.thr.regs with
    k := (List.range 7).foldl (init := ([] : Map Mask)) fun m n => mset 0 m (n + 1) (w (0x3E8 + 8 * n))
    s := sRestore bs 0x40, i := iRestore bs 0x38, x := s.xRestore ctx sup g.thr.regs bs 0x240 }
  let regs := regs.cntRestore bs 0x340
  let img := s.peekBytes (area + regoff) (4 * g.width * g.vallot)
  let regs := s.vRestore (area + regoff) g.vallot g.width img regs
  let hdr := s.hdrRestore g uid g.thr (w 8)
  let wait := Wait.ofCode mode
  let thr := ({ g.thr with regs := regs, wait := if inPf then .none else wait } : Thr).resume (w 0) (w 8) hdr
  let log := (List.range g.cmtLog.length).map fun j =>
    let e := (g.cmtLog[j]?).getD { pa := 0, cohg := 0, spad := false, op := .add, b64 := false, val := 0 }
    let a := s.peekNat (area + 0x600000 + 0x10000 * g.gangid + 16 * j) 8
    { e with pa := a % 2 ^ 52, op := (AOp.ofBits (BitVec.ofNat 4 (a / 2 ^ 52))).getD e.op, b64 := a / 2 ^ 56 % 2 == 1
             val := BitVec.ofNat 64 (s.peekNat (area + 0x600000 + 0x10000 * g.gangid + 16 * j + 8) 8) }
  { g with
     thr := thr, dmask := w 0x18, jw := w 0x20, exited := w 0x28
     stack := (List.range (cnts % 256)).map fun n => Entry.ofBytes ((bs.drop (0x800 + 64 * n)).take 64)
     spilled := cnts / 2 ^ 16 % 2 ^ 16
     jpc := (List.range 64).foldl (init := ([] : Map Word)) fun m l => mset 0 m l (w (0xC00 + 8 * l))
     sup := sup, inEmu := mode / 2 % 2 == 1, inPf := inPf, pfWait := if inPf then wait else .none
     rprog := (List.range 4).foldl (init := ([] : Map Word)) fun m q => mset 0 m q (w (0x360 + 8 * q))
     halt := { cause := w 0x380, pc := w 0x388, mask := w 0x390, addr := w 0x398 }
     emu := { op := w 0x3A0, pc := w 0x3A8, fn := w 0x3B0, d := w 0x3B8, a := w 0x3C0, b := w 0x3C8, c := w 0x3D0 }
     ctx := ctx, hint := Hint.ofCode (fieldN bs 0x3E4 4 % 4), ehdra := w 0x420, cmtLog := log
     halted := false, deadSince := none, only := if thr.atHdr || w 0 != g.thr.pc then none else g.only, age := s.fresh }

/-- A lane context from its block, over what it was. -/
def State.laneRestore (s : State) (pa : Nat) (g : Gang) (uid : Nat) (lc : LaneCtx) : LaneCtx :=
  let bs := s.peekBytes pa 0x800
  let k := fieldN bs 0x38 8
  let bit := laneBit lc.lane
  let regs : Regs := { lc.thr.regs with
    k := [], s := sRestore bs 0x140, i := iRestore bs 0x340, x := s.xRestore g.ctx (if g.inPf then g.pfSup else g.sup) lc.thr.regs bs 0x348, vp := [] }
  let regs := (List.range 7).foldl (init := regs) fun r n => r.setK (n + 1) bit (if k / 2 ^ n % 2 = 1 then bit else 0)
  let regs := regs.cntRestore bs 0x18
  let regs := (List.range 64).foldl (init := regs) fun r n =>
    { r with v := mset 0 r.v (vkey n lc.lane) (BitVec.ofNat 32 (fieldN bs (0x40 + 4 * n) 4))
             vp := mset false r.vp (vkey n lc.lane) (isPoisoned s (pa + 0x40 + 4 * n)) }
  let hdra := fieldW bs 0x448
  let thr := ({ lc.thr with regs := regs } : Thr).resume (fieldW bs 8) hdra (s.hdrRestore g uid lc.thr hdra)
  let thr := if lc.st == .waiting || lc.st == .parked then { thr with hdr := s.hdrRestore g uid lc.thr hdra } else thr
  { lc with thr := thr, rejoin := fieldW bs 0x10, held := [], acqDue := true }

/-- Give a saved lane a context of the cluster, or take it back into its gang (R380): its posted errors and the deferred
writes it still waits for go with it. -/
def State.laneBack (s : State) (core : Nat) (lc : LaneCtx) : State :=
  match s.freeCtx core with
  | c :: _ =>
    let t := { lc.thr with next := s.ps }
    { s with lanes := tput s.lanes c { lc with thr := t } }
  | [] =>
    let s := s.modGang lc.gang fun g => { g with thr := { g.thr with flights := g.thr.flights ++ lc.thr.flights } }
    let lc := { lc with thr := { lc.thr with flights := [] } }
    match lc.st with
    | .parked =>
      s.whole lc.gang fun s =>
        let first := ((tget s.gangs lc.gang).map fun g => g.stack.isEmpty).getD false
        let s := s.modGang lc.gang fun g =>
          { g with
            thr := ({ g.thr with regs := mergeRegs (hdrLive lc.thr.hdr) lc g.thr.regs } : Thr).post lc.thr.postErr
            dmask := g.dmask &&& ~~~laneBit lc.lane
            stack := ⟨lc.thr.pc, none, laneBit lc.lane, 0, lc.thr.pc, lc.thr.hdr⟩ :: g.stack }
        if first then s.switchTop lc.gang else s
    | _ =>
      let c := s.fresh + 65536
      let s := { s with lanes := tput s.lanes c lc }
      s.earlyReturn c

/-- A deferral entry from the area, over what it was: word, gang, places and data are the area's (R456). -/
def State.deferRestore (s : State) (pa : Nat) (t : Team) (old : DefEntry) : DefEntry :=
  let bs := s.peekBytes pa 0x618
  let word := fieldW bs 0
  let gid := fieldN bs 8 8
  let gang := (t.gangs.find? fun u => (tget s.gangs u).any fun g => g.gangid == gid).getD old.gang
  let i := match decode word with | .ok i => i | .error _ => old.instr
  let mask := fieldW bs 0x10
  let lanes := (old.lanes.map Prod.fst).eraseDups.flatMap fun l =>
    let k := l % 64
    let x := (fieldN bs (0x18 + 24 * k) 8, (bs.drop (0x20 + 24 * k)).take 16)
    if !hasLane mask k then []
    else match old.partsOf k with
      | p :: q :: _ => (splitParts old.instr (q.1 - p.1) p.2.length x).map fun y =>
          (l, y.1, y.2.take (if y.1 = x.1 then p.2.length else q.2.length))
      | p :: _ => [(l, x.1, x.2.take p.2.length)]
      | [] => []
  { old with word := word, gang := gang, instr := i, lanes := lanes
             flight := old.flight.bind fun f => (s.flightActor f.2).map fun a => (a, f.2) }

/-- A restored window array (R250, R456): its contents from the area, calibrated again if it computed; what was deferred is
applied where the threads own it again (R246). -/
def State.arrayRestore (s : State) (n area j key : Nat) (queue : List DefEntry) : State :=
  let st := s.peekNat (area + 0x140 + 8 * j) 8
  let fill (m : Map Byte) (bs : List Byte) : Map Byte :=
    ((List.range bs.length).zip bs).foldl (init := m) fun m e => mset 0 m e.1 e.2
  let cpa := area + 0x180000 + 0x8000 * j
  let rpa := area + 0x280000 + 0x200 * j
  let bad := ((List.range 4096).filter fun w => isPoisoned s (cpa + 8 * w)) ++
    (((List.range 64).filter fun w => isPoisoned s (rpa + 8 * w)).map fun w => 4096 + w)
  let a : Arr := { cells := fill [] (s.peekBytes cpa 0x8000), ram := fill [] (s.peekBytes rpa 0x200)
                   poison := bad.foldl (init := ([] : Map Bool)) fun m w => mset false m w true
                   deg := st / 2 % 2 == 1, defer := queue }
  if st % 2 = 0 then (s.setArr key a).applyDefer key
  else
    let c := s.calibrate
    if c.2 then c.1.setArr key { a with rck := true, modeTeam := if st / 4 % 2 = 1 then some n else none }
    else (c.1.setArr key { a with deg := true }).applyDefer key

/-- The first poisoned word among the blocks that may hold none (R462). -/
def State.areaBad (s : State) (area : Nat) (gs : List Gang) (lanes defs : List Nat) : Option Nat :=
  let words (pa n : Nat) : List Nat := (List.range (n / 8)).map fun w => pa + 8 * w
  let all := words area 0x1000 ++ gs.flatMap (fun g => words (area + 0x1000 + 0x1000 * g.gangid) 0x1000) ++
    lanes.flatMap (fun i => words (area + 0x41000 + 0x800 * i) 0x800) ++ defs.flatMap (fun pa => words pa 0x618) ++
    gs.flatMap fun g => words (area + 0x600000 + 0x10000 * g.gangid) (16 * g.cmtLog.length)
  all.find? fun pa => isPoisoned s pa

/-- Barriers from a team block. -/
def barsRestore (bs : List Byte) (old : Map Bar) : Map Bar :=
  (List.range 16).foldl (init := old) fun m b =>
    let w := fieldN bs (0x60 + 8 * b) 8
    mset {} m b { set := if w / 256 % 2 = 1 then some (w % 256) else none, arrivals := w / 2 ^ 16 % 256, phase := w / 2 ^ 32 }

/-- Re-enter the queues of the sequencers the team owned, in ascending q (R345). -/
def State.seqBack (s : State) (due : List (Nat × Nat)) : State :=
  ((List.range 4).flatMap fun q => due.filter fun d => d.2 == q).foldl (init := s) fun s d =>
    match tget s.gangs d.1 with
    | none => s
    | some g =>
      let sq := s.seq g.core d.2
      match sq.owner with
      | none => s.setSeq g.core d.2 { sq with owner := some d.1 }
      | some _ => s.setSeq g.core d.2 { sq with queue := sq.queue ++ [d.1] }

/-- Whether a restored team still waits for a sequencer. -/
def State.seqWaits (s : State) (t : Team) : Bool :=
  t.seqDue.any fun d => match tget s.gangs d.1 with | none => false | some g => (s.seq g.core d.2).owner != some d.1

/-- The spill area of a gang slot (R397). -/
def Grid.spillArea (g : Grid) (core slot : Nat) : Word :=
  g.spillb + BitVec.ofNat 64 (0x10000 * ((g.spillsz + 1023) / 1024) * (64 * core + slot))

/-- Restore a saved team on cores, with gang slots and arrays chosen for it (R456): `seats` gives core and slot by GANGID. Its
cores then hold no word older than what the team has seen (R157). -/
def State.restoreTeam (s : State) (n : Nat) (cores : List Nat) (seats : List (Nat × Nat)) (window : List Nat) : State :=
  match tget s.teams n with
  | none => s
  | some t =>
    let area := t.area
    let s := s.readOver area 0x800000
    let gr := (tget s.grids t.grid).getD {}
    let bs := s.peekBytes area 0x260
    let gs := t.gangs.filterMap fun u => match tget s.gangs u with
      | some g => if g.ended then none else some (u, g)
      | none => none
    let defs := (List.range t.savedDefer.length).flatMap fun j =>
      (List.range ((t.savedDefer[j]?).getD []).length).map fun e => area + 0x300000 + 0x10000 * j + 0x800 * e
    let bad := s.areaBad area (gs.map Prod.snd) (List.range t.savedLanes.length) defs
    -- registers, stacks and modes; then the place, x7 and the spill area of the new slot
    let s := gs.foldl (init := s) fun s g =>
      let x0 := s.frameX0 g.2 (s.framePa g.2)
      let s := x0.1
      let g0 := { s.gangRestore g.1 area g.2 with pfX0 := x0.2 }
      let seat := (seats[g.2.gangid]?).getD (0, 0)
      let x7 : XReg := { kind := .spad, base := 0, limit := BitVec.ofNat 64 (0x800000 + 0x200 * window.length) }
      let thr := { g0.thr with regs := g0.thr.regs.setX 7 x7, next := s.clkUp seat.1 }
      let g0 := { g0 with
        thr := thr, core := seat.1, slot := seat.2, lowUntil := g0.lowUntil.map fun n => s.clk seat.1 + n }
      let s := { s.bump with gangs := tput s.gangs g.1 g0 }
      let s := match s.unspill g.1 with | .ok s => s | .error _ => s
      s.modGang g.1 fun g =>
        if g.spilled = 0 then { g with spwBase := gr.spillArea seat.1 seat.2, spwSize := gr.spillsz } else g
    let lanes := (List.range 64).flatMap fun l =>
      ((List.range t.savedLanes.length).zip t.savedLanes).filter fun e => e.2.2.lane == l
    let restart := Rec.ofBytes (bs.take 64)
    let s := s.modTeam n fun t => { t with
      st := .running, cores := cores, window := window, restart := restart, reca := fieldW bs 0x40, teamid := fieldW bs 0x48
      bars := barsRestore bs t.bars, lastIssue := s.ps, savedLanes := [], savedDefer := [] }
    let s := lanes.foldl (init := s) fun s e =>
      match tget s.gangs e.2.2.gang with
      | none => s
      | some g => s.laneBack g.core (s.laneRestore (area + 0x41000 + 0x800 * e.1) g e.2.2.gang e.2.2)
    let s := gs.foldl (init := s) fun s g => State.respill s s g.1
    let s := if gr.share then s else (List.range window.length).foldl (init := s) fun s j =>
      let old := (t.savedDefer[j]?).getD []
      let queue := ((List.range old.length).zip old).map fun e =>
        s.deferRestore (area + 0x300000 + 0x10000 * j + 0x800 * e.1) t e.2
      s.arrayRestore n area j ((window[j]?).getD 0) queue
    let s := cores.foldl (init := s) fun s c => s.acquire (s.coreAgent c)
    let s := s.seqBack t.seqDue
    let s := s.zeroState area
    match bad, gs with
    | some pa, g :: _ => s.haltGang g.1 .poison g.2.thr.pc g.2.active (BitVec.ofNat 64 pa)
    | _, _ => s

end Sys2Proof.Machine
end

