-- ==== Sys2Proof/Machine/Place.lean ====
section
/-!
DEFINITION. Dispatch: where a record can be placed, the state a team starts in, the dispatch units and the pushes of a launch
(R392, R395 to R398, R418, R442, R456, R542).
-/
namespace Sys2Proof.Machine

/-! ## Room on a core (R22, R395, R396) -/

/-- The gang slots of an issue unit that are taken, and the register-file bytes they hold. -/
def State.unitLoad (s : State) (core unit : Nat) : List Nat × Nat :=
  let gs := ((s.placedOn core).map Prod.snd).filter fun g => g.slot % 4 == unit
  (gs.map Gang.slot, gs.foldl (init := 0) fun n g => n + g.width * g.vallot * 4)

/-- Free gang slots for gangs of a core by GANGID, or none: the lowest free slot of each gang's issue unit. -/
def State.seatsOn (s : State) (core width vallot : Nat) : List Nat → List (Nat × Nat) → Option (List (Nat × Nat))
  | [], acc => some acc
  | g :: gs, acc =>
    let u := g % 4
    let (taken, bytes) := s.unitLoad core u
    let mine := (acc.filter fun e => e.2 % 4 == u).map Prod.snd
    let n := taken.length + mine.length
    if 16 ≤ n || 131072 < bytes + (mine.length + 1) * width * vallot * 4 then none
    else
      match ((List.range 16).map fun j => 4 * j + u).find? fun k => !taken.contains k && !mine.contains k with
      | none => none
      | some k => s.seatsOn core width vallot gs (acc ++ [(g, k)])

/-- The arrays of a core that no placed team and no SHARE set holds, in ascending physical number. -/
def State.freeArrays (s : State) (core : Nat) : List Nat :=
  ((List.range 16).map fun j => 16 * core + j).filter fun k =>
    !(s.teams.any fun t => t.2.window.contains k) && !((s.core core).share.any fun x => x.2.contains k)

/-- The arrays a team of a grid gets on a core, in ascending physical number (R234), and those of them that are newly allotted
(R396). -/
def State.arraysOn (s : State) (core grid : Nat) (share : Bool) (n : Nat) : Option (List Nat × List Nat) :=
  let set := if share then (tget (s.core core).share grid).getD [] else []
  let new := (s.freeArrays core).take (n - set.length)
  let mine := (set ++ new).take n
  if set.length + new.length < n then none
  else some (((List.range 16).map fun j => 16 * core + j).filter mine.contains, new)

/-- A seat on one core: slots by GANGID, the window's arrays there, and the new ones. -/
structure Seat where
  core : Nat
  gangs : List (Nat × Nat)
  arrays : List Nat
  new : List Nat
  deriving DecidableEq, Repr

/-- Whether gangs and arrays of a shape fit a core. -/
def State.seat (s : State) (core : Nat) (gr : Grid) (grid : Nat) (gs : List Nat) (arrays : Nat) : Option Seat :=
  match s.seatsOn core gr.width gr.vallot gs [], s.arraysOn core grid gr.share arrays with
  | some q, some a => some { core := core, gangs := q, arrays := a.1, new := a.2 }
  | _, _ => none

/-- Every place on a die that a shape fits; for a team in a handler with carry-pool lanes, only where a context is free for
each (R380, assumption 61). -/
def State.places (s : State) (die : Nat) (gr : Grid) (grid : Nat) (r : Rec) (ctxs : Nat) : List (List Seat) :=
  let room (core : Nat) : Bool := ctxs == 0 || decide (ctxs ≤ (s.freeCtx core).length)
  if r.pair then
    (List.range 64).filterMap fun i =>
      let c := 128 * die + 2 * i
      let first := (r.arrays + 1) / 2
      match s.seat c gr grid (r.gangsOn false) first, s.seat (c + 1) gr grid (r.gangsOn true) (r.arrays - first) with
      | some a, some b => if room c then some [a, b] else none
      | _, _ => none
  else
    (List.range 128).filterMap fun i =>
      match s.seat (128 * die + i) gr grid (r.gangsOn false) r.arrays with
      | some a => if room (128 * die + i) then some [a] else none
      | none => none

/-- Allot the arrays of seats: the new ones in storage mode, thread-owned, DEG clear (R250), a SHARE set extended. -/
def State.allot (s : State) (gr : Grid) (grid : Nat) (seats : List Seat) : State :=
  seats.foldl (init := s) fun s q =>
    let s := q.new.foldl (init := s) fun s k =>
      let a := s.arr k
      s.setArr k { a with owner := [], rck := false, deg := false, modeTeam := none, defer := [] }
    if gr.share then
      let old := (tget (s.core q.core).share grid).getD []
      s.modCore q.core fun c => { c with share := tput c.share grid (old ++ q.new) }
    else s

/-! ## A team as it starts (R101, R259, R355, R397) -/

/-- The registers of a gang at placement. -/
def State.startRegs (s : State) (gr : Grid) (r : Rec) (reca : Word) (arrays : Nat) : Regs :=
  let ss := (List.range 4).foldl (init := mset 0 [] 0 reca) fun m j => mset 0 m (1 + j) ((r.args[j]?).getD 0)
  let x6 : XReg := if r.flen = 0 then { w64 := true } else s.xlatFrame gr.ctx r.sys r.frame (BitVec.ofNat 64 r.flen) true false
  let x7 : XReg := { kind := .spad, base := 0, limit := BitVec.ofNat 64 (0x800000 + 0x200 * arrays) }
  { s := mset 0 ss 5 r.frame, x := mset {} (mset {} (mset {} [] 0 xAll) 6 x6) 7 x7 }

/-- A gang at placement. -/
def State.startGang (s : State) (gr : Grid) (r : Rec) (reca : Word) (team uid gangid core slot arrays : Nat) : Gang :=
  { thr := { regs := s.startRegs gr r reca arrays, pc := r.hdr, hdra := r.hdr, next := s.clkUp core }
    team := team, gangid := gangid, core := core, slot := slot, width := gr.width, vallot := gr.vallot
    stack := [⟨r.hdr, none, fullMask gr.width, 0, r.hdr, 0⟩], sup := r.sys, ctx := gr.ctx
    spwBase := gr.spillArea core slot, spwSize := gr.spillsz, age := uid
    sib := if r.grp then BitVec.ofNat 32 r.sibx else 0xFFFFFFFF
    gdesc := if r.grp then (r.args[3]?).getD 0 else 0 }

/-- Whether a sibling's slot has been cancelled (R435). -/
def State.slotCancelled (s : State) (gr : Grid) (r : Rec) : Bool :=
  r.grp &&
    match s.walk gr.ctx (((r.args[3]?).getD 0) + BitVec.ofNat 64 (slotOff r.sibx + 8)) with
    | .leaf l => s.peek (l.pa (((r.args[3]?).getD 0) + BitVec.ofNat 64 (slotOff r.sibx + 8))) == BitVec.ofNat 8 sstCan
    | _ => false

/-- The slots of seats in order of GANGID: core and slot. -/
def seatList (seats : List Seat) : List (Nat × Nat) := seats.flatMap fun q => q.gangs.map fun g => (q.core, g.2)

/-- Place a record as a new team (R397). Its cores then hold no word older than what its start follows (R157, R402). -/
def State.startTeam (s : State) (gr : Grid) (grid : Nat) (r : Rec) (reca teamid : Word) (seats : List Seat) (area : Nat) : State :=
  let s := s.allot gr grid seats
  let window := seats.flatMap Seat.arrays
  let n := s.fresh
  let all := seatList seats
  let uids := (List.range all.length).map fun j => n + 1 + j
  let gangs := ((List.range all.length).zip all).map fun e =>
    (n + 1 + e.1, s.startGang gr r reca n (n + 1 + e.1) e.1 e.2.1 e.2.2 window.length)
  let t : Team :=
    { grid := grid, teamid := teamid, reca := reca, restart := r, shape := r, cores := seats.map Seat.core, gangs := uids
      window := window, area := area, lastIssue := s.ps, cancelled := s.slotCancelled gr r }
  let s : State := { s with
    gangs := gangs.foldl (init := s.gangs) fun m g => tput m g.1 g.2
    teams := tput s.teams n t
    fresh := n + 1 + all.length }
  let s := s.zeroState area
  (seats.map Seat.core).foldl (init := s) fun s c =>
    s.acquire (s.coreAgent c)

/-! ## The swap-area pool (R442) -/

/-- What taking a swap area gives: none is left, the pool is in use at home, or the area. -/
inductive AreaTake where
  | none
  | wait (s : State)
  | area (s : State) (a : Nat)
  deriving DecidableEq, Repr

/-- Take a swap area for a team of a grid. -/
def State.takeArea (s : State) (ctx : BitVec 12) : AreaTake :=
  let e : Env := { agent := s.coreAgent 0, ctx := ctx, sup := true }
  match s.dstField 48 with
  | (_, .error _) => .none
  | (s, .ok q) =>
    if q = 0 then .none
    else
      match s.eQueue e q with
      | (_, .bad) => .none
      | (s, .busy) => .wait s
      | (s, .ok d qps) =>
        match s.poolTake e d qps with
        | (s', some a) =>
          if s'.lockedOver (a.toNat + 0x58) 8 then .wait (s.stir (a.toNat + 0x58) 8) else .area s' a.toNat
        | (_, Option.none) => .none

/-! ## What a dispatch unit serves next (R398) -/

/-- Context numbers a saved team needs where a gang of it is in a handler. -/
def State.ctxNeed (s : State) (n : Nat) : Nat :=
  match tget s.teams n with
  | none => 0
  | some t =>
    if t.gangs.any fun u => (tget s.gangs u).any fun g => g.inEmu || g.inPf then t.savedLanes.length else 0

/-- What serving gives: nothing to do, a record that finds no room, a queue or pool that is in use at home, or the state after
one record. -/
inductive Serve where
  | idle
  | stuck
  | wait (s : State)
  | done (s : State)
  deriving DecidableEq, Repr

/-- After a placement, the timer of a group that was pre-empted runs on once no sibling waits to be placed again (R437). -/
def State.timersOn (s : State) : State :=
  let waits (pa : Nat) : Bool :=
    (s.dies.any fun d => d.2.list.any fun r =>
      r.record.ganged && s.groupOf { grid := r.grid, shape := r.record } == some pa) ||
    s.teams.any fun t => t.2.st == .discarding && s.groupOf t.2 == some pa
  { s with groups := s.groups.map fun e =>
      if e.2.paused && !waits e.2.pa then (e.1, { e.2 with paused := false, since := s.ps }) else e }

/-- Place the first record of a die's list. -/
def State.serveList (s : State) (die : Nat) (r : DieRec) : Serve :=
  let gr := (tget s.grids r.grid).getD {}
  let pop (s : State) : State :=
    let d := (tget s.dies die).getD {}
    { s with dies := tput s.dies die { d with list := d.list.drop 1 } }
  let shape := match r.area with | some _ => ((tget s.teams r.team).map Team.shape).getD r.record | none => r.record
  match s.places die gr r.grid shape (if r.area.isSome then s.ctxNeed r.team else 0) with
  | [] => .stuck
  | p :: ps =>
    let (s, seats) := s.choose p (p :: ps)
    match r.area with
    | some _ =>
      let s := (pop s).allot gr r.grid seats
      .done (s.restoreTeam r.team (seats.map Seat.core) (seatList seats) (seats.flatMap Seat.arrays))
    | none =>
      match s.takeArea gr.ctx with
      | .none => .stuck
      | .wait s => .wait s
      | .area s a => .done ((pop s).startTeam gr r.grid r.record r.reca r.teamid seats a).timersOn

/-- Take the item at the head of a DISP queue, QPOP and QFREE at once: the values carried beside it (R542). -/
def State.takeItem (s : State) (q : QDesc) (qps : List Piece) : State × Word × Option Nat :=
  let pa := paAt qps 0
  let side := s.sides.find? fun x => x.desc == pa && x.item == q.head
  let s := ((s.putFieldW qps 36 4 (q.items - 1)).putFieldW qps 16 8 (q.head + 1)).putFieldW qps 32 4 (q.free + 1)
  ({ s with sides := s.sides.filter fun x => !(x.desc == pa && x.item == q.head) },
    (side.map Side.reca).getD 0, side.bind Side.teamNo)

/-- Try the queue of a live grid for a die. -/
def State.serveQueue (s : State) (die grid : Nat) (gr : Grid) : Serve :=
  let e : Env := { agent := s.coreAgent 0, ctx := gr.ctx, sup := true, grid := grid }
  match s.eQueue e gr.dq with
  | (_, .bad) => .idle
  | (s, .busy) => .wait s
  | (s, .ok q qps) =>
    if q.kind != 1 || q.grid != grid || !(q.dmask.testBit die && gr.dmask.getLsbD die) || q.items = 0 then .idle
    else
      let slot := q.slot q.head
      match s.eAddr e .read slot 64 1 with
      | (_, .bad) => .idle
      | (s, .busy) => .wait s
      | (s, .ok ps) =>
        let b := s.readPieces ps 64
        let r := Rec.ofBytes b
        if recReserved b || !r.shapeOk gr.width gr.vallot then
          let y := s.takeItem q qps
          .done (y.1.post { grid := grid, kind := 3, data0 := slot })
        else
          match s.places die gr grid r 0 with
          | [] => .stuck
          | p :: cs =>
            let (s, seats) := s.choose p (p :: cs)
            match s.takeArea gr.ctx with
            | .none => .stuck
            | .wait s => .wait s
            | .area s a =>
              let (s, reca, no) := s.takeItem q qps
              let (s, tid) := match no with
                | some t => (s, t)
                | none =>
                  ({ s with grids := tmod s.grids grid fun g => { g with nextTeam := g.nextTeam + 1 } }, gr.nextTeam)
              .done (s.startTeam gr grid r reca (BitVec.ofNat 64 tid) seats a)

/-- Try queues in turn. -/
def State.serveQueues (s : State) (die : Nat) : List (Nat × Grid) → Bool → Serve
  | [], stuck => if stuck then .stuck else .idle
  | g :: gs, stuck =>
    match s.serveQueue die g.1 g.2 with
    | .idle => s.serveQueues die gs stuck
    | .stuck => s.serveQueues die gs true
    | .wait s => .wait s
    | .done s =>
      let d := (tget s.dies die).getD {}
      .done { s with dies := tput s.dies die { d with rr := g.1 } }

/-- The live grids in round-robin order after the one a die served last. -/
def State.gridsFrom (s : State) (rr : Nat) : List (Nat × Grid) :=
  (s.grids.filter fun g => decide (rr < g.1)) ++ s.grids.filter fun g => decide (g.1 ≤ rr)

/-- What a die's dispatch unit does next. -/
def State.serve1 (s : State) (die : Nat) : Serve :=
  let d := (tget s.dies die).getD {}
  if d.gated || d.gating || 8 ≤ die then .idle
  else
    match d.list with
    | r :: _ => s.serveList die r
    | [] => s.serveQueues die (s.gridsFrom d.rr) false

/-- DISPATCH_PLACE (R398): one record placed, restored or dropped. -/
def execDispatchPlace (die : Nat) (s : State) : Out :=
  match s.serve1 die with
  | .done s | .wait s => .next s
  | .idle | .stuck => .next s

/-! ## The pushes of a launch (R392, R542) -/

/-- The record of team t of a launch. -/
def Grid.launchRec (g : Grid) (t : Nat) : Rec :=
  { g.shape with frame := g.frameb + BitVec.ofNat 64 (g.flen * t), hdr := g.hdr, flen := g.flen, args := g.args }

/-- Write and push the next record of a launch, if its queue has a free slot: answers whether a record has been dealt with. A
record that cannot be written or pushed is left out and logged (assumption 62). -/
def State.launchNext (s : State) (n : Nat) : State × Bool :=
  match tget s.grids n with
  | none => (s, false)
  | some g =>
    if g.teams ≤ g.pushed then (s, false)
    else
      let e : Env := { agent := s.coreAgent 0, ctx := g.ctx, sup := true, grid := n }
      let va := g.recb + BitVec.ofNat 64 (64 * g.pushed)
      let counted (s : State) : State := { s with grids := tmod s.grids n fun g => { g with pushed := g.pushed + 1 } }
      let bad (s : State) : State × Bool := ((counted s).logErr 9 va 0, true)
      match s.eQueue e g.dq with
      | (s, .bad) => bad s
      | (s, .busy) => (s, false)
      | (s, .ok q qps) =>
        if q.free = 0 then (s, false)
        else
          match s.eAddr e .write va 64 1 with
          | (s, .bad) => bad s
          | (s, .busy) => (s, false)
          | (s, .ok ps) =>
            let bs := (g.launchRec g.pushed).bytes
            let s := s.writePieces ps bs
            match s.ePush e q qps bs (some (va, some g.pushed)) with
            | (s, .ok) => (counted s, true)
            | (s, .busy) => (s, false)
            | (s, _) => bad s

/-- Push records of a launch as long as its queue takes them. -/
def State.launchFill (s : State) (n : Nat) : Nat → State
  | 0 => s
  | k + 1 => match s.launchNext n with
    | (s, false) => s
    | (s, true) => s.launchFill n k

/-- LAUNCH_PUSH (R392). -/
def execLaunchPush (n : Nat) (s : State) : Out :=
  .next (s.launchNext n).1

/-! ## The forward-progress swap (R418) -/

/-- FORWARD_PROGRESS_SWAP: a core that has issued nothing for 4096 cycles while its die holds a record without room swaps
out its blocked team whose last issue is oldest. -/
def execForwardProgressSwap (core : Nat) (s : State) : Out :=
  let here := s.teams.filter fun t => t.2.cores.contains core
  let quiet := decide ((s.core core).lastIssue + 4096 ≤ s.clk core)
  if !quiet || here.any fun t => t.2.st != .running then .next s
  else if !(match s.serve1 (core / 128) with | .stuck => true | _ => false) then .next s
  else
    let blocked := here.filter fun t => s.blockedTeam t.2
    match blocked with
    | [] => .next s
    | b :: bs =>
      let pick := bs.foldl (init := b) fun m t => if t.2.lastIssue < m.2.lastIssue then t else m
      .next (s.preempt pick.1 false)

end Sys2Proof.Machine
end

