-- ==== Sys2Proof/Machine/Power.lean ====
section
/-!
DEFINITION. Islands, droop and sag, and the gating and powering of dies (R483 to R492).
-/
namespace Sys2Proof.Machine

/-! ## Clocks of islands (R483, R486, R488) -/

/-- A die's record. -/
def State.dieOf (s : State) (d : Nat) : Die := (tget s.dies d).getD {}

/-- Put a die's record. -/
def State.setDie (s : State) (d : Nat) (x : Die) : State := { s with dies := tput s.dies d x }

/-- A cluster's record. -/
def State.cluster (s : State) (c : Nat) : Cluster := (tget s.clusters c).getD {}

/-- The clock of an island of a die in a state. -/
def State.stateMhz (s : State) (i : Nat) (st : IslandSt) : Nat :=
  match st with
  | .nominal => Nat.max 300 ((s.dieOf (i / 64)).ceiling - 25 * (s.cluster (i / 4)).sag)
  | .near => 300
  | .gated => 0

/-- The clock an island runs at: the lower of two in a transition, and stretched in a droop, by how much the spec leaves
open (assumption 73). -/
def State.islandMhz (s : State) (i : Nat) (x : Island) : Nat :=
  let b := match x.toward with
    | none => s.stateMhz i x.st
    | some t => Nat.min (s.stateMhz i x.st) (s.stateMhz i t)
  let c := s.cluster (i / 4)
  if c.droop && b != 0 then 1 + c.stretch % b else b

/-- The supply point of an island of a die in a state (R483). -/
def State.statePoint (s : State) (i : Nat) (st : IslandSt) : Supply :=
  match st with
  | .nominal => .forCeiling (s.dieOf (i / 64)).ceiling
  | .near => .near
  | .gated => .off

/-- The voltage of a supply point, in mV (R483): which one the HKC sets for a ceiling is its own choice within the range. -/
def Supply.mv : Supply → Nat
  | .forCeiling c => 420 + Nat.min (Config.nominalMv c).toNat 530
  | .near => 420
  | .off => 0

/-- Let an island run at the clock and the supply point it should have from a moment on; CLK keeps its count (R492). -/
def State.retuneAt (s : State) (ps i : Nat) : State :=
  let x := s.island i
  let y : Island := { x with clk := x.cycles ps, since := ps, mhz := s.islandMhz i x, point := s.statePoint i x.st }
  { s with islands := tput s.islands i y }

/-- Let an island run so from now on. -/
def State.retune (s : State) (i : Nat) : State := s.retuneAt s.ps i

/-- Change an island and let it run at its clock. -/
def State.modIsland (s : State) (i : Nat) (f : Island → Island) : State :=
  ({ s with islands := tput s.islands i (f (s.island i)) } : State).retune i

/-- Start a transition of an island (R486). -/
def State.towards (s : State) (i : Nat) (t : IslandSt) : State :=
  s.modIsland i fun x => { x with toward := some t, until_ := s.ps + 2000000 }

/-- Begin to count an island's issues afresh. -/
def Island.newWindow (x : Island) (ps : Nat) : Island := { x with busyFrom := ps, busyClk := x.cycles ps, issued := 0 }

/-- Begin to count an island's issues afresh. -/
def State.newWindow (s : State) (i : Nat) : State := { s with islands := tput s.islands i ((s.island i).newWindow s.ps) }

/-- Count the cycles of an issue of a core's issue units for its island (R19, R484, R485). -/
def State.countIssue (s : State) (core cycles : Nat) : State :=
  let x := s.island (islandOf core)
  { s with islands := tput s.islands (islandOf core) { x with issued := x.issued + cycles } }

/-! ## Entering and leaving NEAR (R484 to R487) -/

/-- The gangs resident on an island. -/
def State.onIsland (s : State) (i : Nat) : List Gang :=
  ((s.placedOn (2 * i)) ++ s.placedOn (2 * i + 1)).map Prod.snd

/-- Whether a window of an island is over, and the cycles it had (R492). -/
def Island.window (x : Island) (ps len : Nat) : Option Nat :=
  if ps < x.busyFrom + len then none else some (x.cycles ps - x.busyClk)

/-- Whether at least half of an island's gangs have a nonzero G counter (R484). -/
def State.halfBusy (s : State) (i : Nat) : Bool :=
  let gs := s.onIsland i
  decide (gs.length ≤ 2 * (gs.filter fun g => g.thr.count .g != 0).length)

/-- The window of a NOMINAL island holds only time in which at least half of its gangs had a nonzero G counter, before a step and
after it (R484). -/
def State.watchIslands (s before : State) : State :=
  let idle (i : Nat) : Bool := !s.halfBusy i || !before.halfBusy i
  if s.islands.any fun e => e.2.st == .nominal && e.2.busyFrom != s.ps && idle e.1 then
    { s with islands := s.islands.map fun e => if e.2.st == .nominal && idle e.1 then (e.1, e.2.newWindow s.ps) else e }
  else s

/-- ISLAND_ENTER_NEAR (R484): eight issue units count together, so that fewer than one cycle in eight of theirs is fewer
issues than cycles of the window (assumption 74). -/
def execIslandEnterNear (i : Nat) (s : State) : Out :=
  let x := s.island i
  let policy := (s.dieOf (i / 64)).policy
  if 512 ≤ i || x.st != .nominal || x.toward.isSome || policy = 2 then .next s
  else if policy = 3 then .next (s.towards i .near)
  else
    let gs := s.onIsland i
    if gs.any (fun g => g.hint == .mem) && !gs.any fun g => g.hint == .cmp then .next (s.towards i .near)
    else if policy != 0 then .next s
    else
      match x.window s.ps 10000000 with
      | none => .next s
      | some cyc =>
        if x.issued < cyc && s.halfBusy i then .next (s.towards i .near) else .next (s.newWindow i)

/-- ISLAND_LEAVE_NEAR (R485); a window that has become far longer than its microsecond is begun again. -/
def execIslandLeaveNear (i : Nat) (s : State) : Out :=
  let x := s.island i
  let policy := (s.dieOf (i / 64)).policy
  if 512 ≤ i || x.st != .near || x.toward.isSome || policy = 3 then .next s
  else
    let gs := s.onIsland i
    if policy = 2 || gs.any fun g => g.hint == .cmp then .next (s.towards i .nominal)
    else
      match x.window s.ps 1000000 with
      | none => .next s
      | some cyc =>
        if 2 * cyc ≤ x.issued && s.ps < x.busyFrom + 2000000 && !gs.any fun g => g.hint == .mem then .next (s.towards i .nominal)
        else .next (s.newWindow i)

/-- ISLAND_TRANSITION_DONE (R486): the new state and its clock hold from the end of the transition on. -/
def execIslandTransitionDone (i : Nat) (s : State) : Out :=
  let x := s.island i
  match x.toward with
  | none => .next s
  | some t =>
    if s.ps < x.until_ then .next s
    else
      let at_ := Nat.max x.since x.until_
      let x := { x with clk := x.cycles at_, since := at_, st := t, toward := none }
      .next (({ s with islands := tput s.islands i (x.newWindow at_) } : State).retuneAt at_ i)

/-! ## Droop and sag (R488) -/

/-- Change a cluster and let its four islands run at their clocks. -/
def State.modCluster (s : State) (c : Nat) (f : Cluster → Cluster) : State :=
  (List.range 4).foldl (init := ({ s with clusters := tput s.clusters c (f (s.cluster c)) } : State)) fun s j =>
    s.retune (4 * c + j)

/-- DROOP (R488). -/
def execDroop (c : Nat) (s : State) : Out :=
  if 128 ≤ c || (s.cluster c).droop then .next s
  else
    let k := Config.pick s.free
    .next (s.useFree.modCluster c fun x => { x with droop := true, onset := s.clk (8 * c), stretch := k })

/-- The charge injection of a droop from one cycle to another: at most 64 cycles in any 1024 (R488). -/
def Cluster.inject (x : Cluster) (now : Nat) : Cluster :=
  let recent := x.injected.filter fun e => decide (x.onset < e.1 + e.2 + 1024)
  let used := recent.foldl (fun n e => n + e.2) 0
  let n := Nat.min (now - x.onset) (64 - used)
  { x with droop := false, injected := if n = 0 then recent else recent ++ [(x.onset, n)] }

/-- DROOP_END (R488). -/
def execDroopEnd (c : Nat) (s : State) : Out :=
  if !(s.cluster c).droop then .next s
  else .next (s.modCluster c fun x => x.inject (s.clk (8 * c)))

/-- SAG (R488): a step of 25 MHz down, or up again. -/
def execSag (c : Nat) (up : Bool) (s : State) : Out :=
  if 128 ≤ c then .next s
  else .next (s.modCluster c fun x => { x with sag := if up then x.sag - 1 else x.sag + 1 })

/-! ## Gating and powering dies (R489 to R491) -/

/-- Whether an address of this package is homed on a die. -/
def State.homedOn (s : State) (d pa : Nat) : Bool := pkgOf pa == s.pkg.toNat && dieOfPa pa == d

/-- The die of an agent of this package: of its core, or of its SLC's cluster (R122). -/
def agentDie (a : Nat) : Nat := if a % 4096 < 1024 then a % 4096 / 128 else (a % 4096 - 1024) / 128

/-- Whether an agent stands on a die of this package. -/
def State.agentOn (s : State) (d a : Nat) : Bool := s.localAgent a && agentDie a == d

/-- Where a record of a gated die's list goes (R490). -/
def State.newDie (s : State) (r : DieRec) : Option Nat :=
  let mask := ((tget s.grids r.grid).map Grid.dmask).getD 0
  (List.range 8).find? fun d => mask.getLsbD d && !(s.dieOf d).gated && !(s.dieOf d).gating

/-- Move the records of gated dies' lists to powered dies (R490); those of discarded siblings go ahead there too (R437). -/
def State.moveRecords (s : State) : State :=
  (List.range 8).foldl (init := s) fun s d =>
    let x := s.dieOf d
    if !x.gated then s
    else
      let stay := x.list.filter fun r => (s.newDie r).isNone
      let go := x.list.filterMap fun r => (s.newDie r).map fun t => (t, r)
      go.foldl (init := s.setDie d { x with list := stay }) fun s e =>
        s.setDie e.1 { s.dieOf e.1 with list := 
            if e.2.record.ganged && e.2.area.isNone then insGanged e.2 (s.dieOf e.1).list else (s.dieOf e.1).list ++ [e.2] }

/-- Merge what a die's partial buffer holds (R139, R489). -/
def State.mergeDie (s : State) (d : Nat) : State :=
  ((s.partials.filter fun p => p.die == d).flatMap fun p => p.vals.map Prod.fst).foldl (init := s) fun s a =>
    (List.range 3).foldl (init := s) fun s g => s.merge (ukeyOf a g)

/-- Revoke the registrations of the units homed on a die and end its monitors (R489). -/
def State.emptyHome (s : State) (d : Nat) : State :=
  let s := ((s.registry.map Prod.fst).filter fun k => s.homedOn d (unitBase k)).foldl State.recallUnit s
  ((s.home.map Prod.fst).filter fun k => s.homedOn d (unitBase k)).foldl (init := s) fun s k =>
    let s := (s.unit k).monitors.foldl (init := s) fun s m => s.wakeOne m.actor
    let s := (s.unit k).pmons.foldl (init := s) fun s m => s.send (.ack none m.agent m.lane none 0)
    (s.setUnit k { s.unit k with monitors := [], pmons := [] }).endMon k

/-- The caches of a die's own agents give up what they own, and are empty (assumption 75). -/
def State.emptyCaches (s : State) (d : Nat) : State :=
  let s := (s.l1.filter fun e => s.agentOn d e.1).foldl (init := s) fun s e => e.2.owned.foldl State.recallUnit s
  let cache (c : L1) : L1 := { ways := c.ways, cnt := c.cnt, cntOrder := c.cntOrder, cntLast := c.cntLast, epoch := c.epoch + 1 }
  { s with
    l1 := s.l1.map fun e => if s.agentOn d e.1 then (e.1, cache e.2) else e
    front := s.front.filter fun e => !s.agentOn d e.1 }

/-- Whether something is under way for a unit homed on a die, or one that its agents own (R125). -/
def State.dieBusy (s : State) (d : Nat) : Bool :=
  let owned := (s.l1.filter fun e => s.agentOn d e.1).flatMap fun e => e.2.owned
  let here (k : Nat) : Bool := s.homedOn d (unitBase k)
  (s.home.any fun e => here e.1 && !e.2.still) ||
    (s.registry.any fun e => here e.1 && e.2.owner.any fun a => !s.localAgent a) ||
    (s.net.any fun m => m.body.unit.any here) || owned.any fun k => s.lockedOver (unitBase k) (unitSize k)

/-- Revoke the registrations that agents of other packages hold of a die's units (R131, R489). -/
def State.stirDie (s : State) (d : Nat) : State :=
  (s.registry.filter fun e => s.homedOn d (unitBase e.1)).foldl (init := s) fun s e => s.stir (unitBase e.1) (unitSize e.1)

/-- Set the state of a die's islands. -/
def State.dieIslands (s : State) (d : Nat) (st : IslandSt) : State :=
  (List.range 64).foldl (init := s) fun s j => s.modIsland (64 * d + j) fun x => { x with st := st, toward := none }

/-- The islands of a die that leaves reset count CLK and their activity from there (R262, R490). -/
def State.freshIslands (s : State) (d : Nat) : State :=
  (List.range 64).foldl (init := s) fun s j =>
    ({ s with islands := tput s.islands (64 * d + j) { since := s.ps, busyFrom := s.ps } } : State).retune (64 * d + j)

/-- DIE_GATING (R489, R490): pre-empt the die's teams; once they have gone, merge, revoke, wake, write back and gate. -/
def execDieGating (d : Nat) (s : State) : Out :=
  let x := s.dieOf d
  if !x.gating then .next s
  else
    let here := s.teams.filter fun t => t.2.cores.any fun c => c / 128 == d
    if !here.isEmpty then .next (here.foldl (init := s) fun s t => s.preempt t.1 true)
    else if s.dieBusy d then .next (s.stirDie d)
    else
      let s := ((s.mergeDie d).emptyHome d).emptyCaches d
      let s := s.setDie d { s.dieOf d with gating := false, gated := true }
      .next (s.dieIslands d .gated).moveRecords

/-- A gated die is powered again, its clusters reset (R490). -/
def State.powerUp (s : State) (d : Nat) : State :=
  let s := s.setDie d { s.dieOf d with gated := false }
  let arr (a : Arr) : Arr := { a with owner := [], rck := false, deg := false, modeTeam := none, defer := [] }
  let s : State := { s with
    arrays := s.arrays.map fun e => if e.1 / 2048 == d then (e.1, arr e.2) else e
    l1 := s.l1.map fun e => if s.agentOn d e.1 then (e.1, { epoch := e.2.epoch }) else e
    cores := s.cores.filter fun e => e.1 / 128 != d
    units := s.units.filter fun e => e.1 / 512 != d
    clusters := s.clusters.filter fun e => e.1 / 16 != d }
  (s.freshIslands d).moveRecords

end Sys2Proof.Machine
end

