-- ==== Sys2Proof/Machine/Host.lean ====
section
/-!
DEFINITION. The host attachment: packets, RMA, the command unit and its commands (R466 to R474, R541), measured start-up,
identity, attestation and firmware (R476 to R482).
-/
namespace Sys2Proof.Machine

/-! ## Replies (R466, R468) -/

/-- Send a reply. -/
def State.answerTo (s : State) (ep : BitVec 128) (b : ReplyBody) : State := { s with replies := s.replies ++ [⟨ep, b⟩] }

/-- The command or RMA operation of the step has completed. -/
def State.closeOp (s : State) : State :=
  { s with waiting := match s.op with | some k => tdel s.waiting k | none => s.waiting, op := none }

/-- The command or RMA operation of the step is outstanding: begun, with a number to go on with, or not yet begun. It is looked at
again later; one that has just arrived gets a number of its own. -/
def State.keepOp (s : State) (i : Instr) (n : Option Nat) : State :=
  match s.op with
  | some k => { s with waiting := tput s.waiting k (i, n), op := none }
  | none => { s with waiting := tput s.waiting s.fresh (i, n), fresh := s.fresh + 1 }

/-- A command or RMA operation that has begun waits. -/
def State.openOp (s : State) (i : Instr) (n : Nat) : State := s.keepOp i (some n)

/-- The number with which the operation that the step takes up again goes on, once it has begun. -/
def State.begun (s : State) : Option Nat := (s.op.bind fun k => tget s.waiting k).bind Prod.snd

/-- The port over whose ROD an outstanding command arrived (R469). -/
def rodOf (i : Instr) : Option (BitVec 4) :=
  match i with
  | .winopen c | .winclose c | .launch c | .halt c | .resume c | .kill c | .strd c | .stwr c | .evdrain c | .power c | .setdst c
  | .domain c | .l1partSet c | .l1partRead c | .endpoints c | .identity c | .attest c | .fwstage c | .fwcommit c | .logrd c
  | .gridend c | .unknownOpc c => c.rod
  | _ => none

/-- Whether a command arrived over ROD behind one of the same port that has still to complete (R469, assumption 112). -/
def State.behindRod (s : State) (c : HostCmd) : Bool :=
  c.rod.isSome && s.waiting.any fun w => rodOf w.2.1 == c.rod && s.op.all fun k => decide (w.1 < k)

/-- UNSUPPORTED_FEATURE_PACKET (R466). -/
def execUnsupportedFeaturePacket (ep : BitVec 128) (tag : Word) (s : State) : Out :=
  .next (({ s with hkc := { s.hkc with unsupported := s.hkc.unsupported + 1 } } : State).answerTo ep (.unsupported tag))

/-! ## RMA (R467, R471) -/

/-- The window a key names, if it names one. -/
def keyWindow (key : Word) : Option Nat :=
  if 0x100 ≤ key.toNat ∧ key.toNat < 0x110 then some (key.toNat - 0x100) else none

/-- The domain physical address of an RMA operation of n bytes, or the transport's error. -/
def State.rmaAddr (s : State) (ep : BitVec 128) (key : Word) (off n : Nat) : Except RmaErr Nat :=
  if !s.hosts.contains ep then .error .access
  else
    match keyWindow key with
    | none => .error .invalidKey
    | some w =>
      match tget s.windows w with
      | none => .error .transport
      | some x => if x.len < off + n then .error .transport else .ok (x.base + off)

/-- Whether a unit of an address has lost its owner, or the address cannot be served at all (R89, R90, R145). -/
def State.noHome (s : State) (pa : Nat) : Bool :=
  (s.paHalt pa).isSome || s.remoteBad pa || (List.range 3).any fun g => (s.entry (ukeyOf pa g)).ol

/-- Bytes cut where 32-byte units begin. -/
def unitChunks (pa : Nat) (bs : List Byte) : Nat → List (Nat × List Byte)
  | 0 => []
  | f + 1 =>
    let n := 32 - pa % 32
    match bs with
    | [] => []
    | _ => (pa, bs.take n) :: unitChunks (pa + n) (bs.drop n) f

/-- Perform the far stores of an RMA write; answers whether one failed (R147, R471). -/
def State.rmaStore (s : State) (pa : Nat) (bs : List Byte) : State × Bool :=
  (unitChunks pa bs (bs.length / 32 + 2)).foldl (init := (s, false)) fun acc c =>
    if acc.1.noHome c.1 then (acc.1, true)
    else
      let s := acc.1.recall c.1 c.2.length
      (s.devWrite c.1 c.2, acc.2 || (s.storeHome c.1 c.2).2)

/-- RMA_WRITE (R471). -/
def execRmaWrite (ep : BitVec 128) (key : Word) (off : Nat) (bytes : List Byte) (s : State) : Out :=
  let i := Instr.rmaWrite ep key off bytes
  match s.rmaAddr ep key off bytes.length with
  | .error e => .next (s.closeOp.answerTo ep (.rmaError e))
  | .ok pa =>
    if s.lockedOver pa bytes.length then .next ((s.stir pa bytes.length).openOp i 0)
    else
      let r := s.rmaStore pa bytes
      let s := r.1.closeOp
      if r.2 then .next ((s.logErr 10 (BitVec.ofNat 64 pa) 0).answerTo ep (.rmaError .transport))
      else .next (s.answerTo ep (.rma []))

/-- RMA_READ (R471): home merges what it has to and forwards to owners, who stay (R132, R139). -/
def execRmaRead (ep : BitVec 128) (key : Word) (off len : Nat) (s : State) : Out :=
  let i := Instr.rmaRead ep key off len
  match s.rmaAddr ep key off len with
  | .error e => .next (s.closeOp.answerTo ep (.rmaError e))
  | .ok pa =>
    if s.readBusy pa len then .next ((s.stirRead pa len).openOp i 0)
    else
      let s := (s.readOver pa len).closeOp
      if (List.range len).any fun j => s.noHome (pa + j) || (s.peekWord ((pa + j) / 8)).2 then
        .next ((s.logErr 10 (BitVec.ofNat 64 pa) 0).answerTo ep (.rmaError .transport))
      else .next (s.answerTo ep (.rma (s.peekBytes pa len)))

/-! ## Measurement (R476 to R478) -/

/-- Measure a component, if the log has room (R477). -/
def State.measure (s : State) (comp svn : Nat) (d : BitVec 512) : Option State :=
  if 256 ≤ s.hkc.mlog.length then none
  else some { s with hkc := { s.hkc with
    m := sha512 (digestBytes s.hkc.m ++ digestBytes d), mlog := s.hkc.mlog ++ [⟨comp, svn, d⟩] } }

/-- Measure components in order, as long as the log has room; answers whether all were. -/
def State.measureAll (s : State) : List (Nat × Nat × List Byte) → State × Bool
  | [] => (s, true)
  | c :: cs =>
    match s.measure c.1 c.2.1 (sha512 c.2.2) with
    | none => (s, false)
    | some s => s.measureAll cs

/-- The security version of an image (R481). -/
def imageSvn (img : List Byte) : Nat := fieldN img 64 8

/-- What is wrong with an image: the REASON of FWCOMMIT (R481). -/
def imageBad (fusedMin : Nat) (img : List Byte) : Option Nat :=
  let be (o : Nat) : Nat := valOf ((img.drop o).take 66).reverse
  if !ecVerify Config.vendorKey (sha512 (img.take 124)) (be 124) (be 190) then some 124
  else if digestBytes (sha512 (img.drop 256)) != img.take 64 then some 0
  else if imageSvn img < fusedMin then some 64 else none

/-- The package's number changed from one to another: its memory answers to the new number (R474). -/
def rekey (old new pa : Nat) : Nat :=
  if pkgOf pa = old then pa - old * 2 ^ 47 + new * 2 ^ 47
  else if pkgOf pa = new then pa - new * 2 ^ 47 + old * 2 ^ 47 else pa

/-- Give the package a number: its memory, its registry and its agents' counters keep what they hold (R474). -/
def State.renumber (s : State) (n : BitVec 5) : State :=
  if n = s.pkg then s
  else
    let o := s.pkg.toNat
    let s := (s.registry.map Prod.fst).foldl State.recallUnit s
    let f := rekey o n.toNat
    let agent (a : Nat) : Nat := if a / 4096 = o then a % 4096 + 4096 * n.toNat else a
    let cache (c : L1) : L1 := { ways := c.ways, cnt := c.cnt, cntOrder := c.cntOrder, cntLast := c.cntLast, epoch := c.epoch + 1 }
    { s with
      pkg := n
      mem := s.mem.foldl (fun m c => memSetByte m (f c.1) c.2) []
      poison := s.poison.foldl (fun m c => mset false m (f (8 * c.1) / 8) c.2) []
      registry := s.registry.foldl (fun m e => tput m (f (unitBase e.1) * 4 + e.1 % 4) e.2) []
      l1 := s.l1.foldl (fun m e => tput m (agent e.1) (cache e.2)) []
      front := []
      sides := s.sides.map fun x => { x with desc := f x.desc } }

/-- Start-up (R476, R482): an installed image that passes its checks is started, else the one before; what is started raises the
fused minimum to its version; the stages are measured and run in order, then the configuration; a log without room stops start-up. -/
def State.startUp (s : State) : State :=
  let start := match s.hkc.installed with
    | some img => if (imageBad s.hkc.fusedMin img).isNone then some img else none
    | none => none
  let img := (start.or s.hkc.image).getD Config.factory
  let svn := imageSvn img
  let k : Hkc := { s.hkc with
    image := start.or s.hkc.image, installed := none, fusedMin := Nat.max s.hkc.fusedMin svn }
  let stages := Config.stages img
  let comps := ((List.range stages.length).zip stages).map fun e => (if e.1 = 0 then 1 else 2, svn, e.2)
  let conf := (3, 0, Config.deviceConfig s.hosts s.dst s.pkg.toNat s.members.toNat)
  let r := ({ s with hkc := { k with m := 0, mlog := [], started := false } } : State).measureAll (comps ++ [conf])
  { r.1 with hkc := { r.1.hkc with started := r.2 } }

/-- RESET (R476, R482): everything but memory, the fuses, the installed images and the outside world's own record is as
right after reset; then start-up runs. -/
def execReset (s : State) : Out :=
  let m := s.renumber 0
  .next ({ State.reset with
    mem := m.mem, poison := m.poison, replies := s.replies, notices := s.notices, inputs := s.inputs, fresh := s.fresh
    free := s.free
    hkc := { image := s.hkc.image, installed := s.hkc.installed, fusedMin := s.hkc.fusedMin } } : State).startUp

/-! ## The command unit (R467 to R469, R541) -/

/-- OPC of a command. -/
def cmdOpc (c : HostCmd) : Nat := ((c.words[0]?).getD 0).toNat % 65536

/-- STATUS as the command carries it. -/
def cmdStatus (c : HostCmd) : Nat := ((c.words[0]?).getD 0).toNat / 65536 % 65536

/-- LEN of a command. -/
def cmdLen (c : HostCmd) : Nat := ((c.words[0]?).getD 0).toNat / 2 ^ 32

/-- CID of a command. -/
def cmdCid (c : HostCmd) : Word := (c.words[1]?).getD 0

/-- The reserved bytes of the header. -/
def cmdReserved (c : HostCmd) : Word := (c.words[3]?).getD 0

/-- The operand bytes. -/
def cmdBody (c : HostCmd) : List Byte :=
  let b := (c.words.drop 4).flatMap wbytes
  (b ++ List.replicate ((cmdLen c) - b.length) 0#8).take (cmdLen c)

/-- The least and the greatest LEN of a command (R541). -/
def lenRange (opc : Nat) : Nat × Nat :=
  match opc with
  | 0x01 | 0x07 | 0x09 => (24, 24)
  | 0x03 | 0x04 | 0x0C | 0x13 => (16, 16)
  | 0x08 => (17, 4096)
  | 0x0A | 0x0D => (32, 32)
  | 0x0E => (8, 72)
  | 0x0F => (0, 0)
  | 0x10 => (64, 64)
  | 0x11 => (9, 4096)
  | _ => (8, 8)

/-- What carrying out a command gives: a reply, or a wait with a number to remember. -/
inductive CmdRes where
  | reply (s : State) (status : Nat) (reason : Nat) (data : List Byte)
  | wait (s : State) (n : Nat)
  deriving DecidableEq, Repr

/-- A reply without result bytes. -/
def CmdRes.done (s : State) : CmdRes := .reply s 0 0 []

/-- STATUS 1 with the offset of the first invalid operand. -/
def CmdRes.bad (s : State) (off : Nat) : CmdRes := .reply s 1 off []

/-- STATUS 2. -/
def CmdRes.state (s : State) : CmdRes := .reply s 2 0 []

/-- Admit a command's endpoint (R467, R476): the status that turns it away, or the state with it on the list. -/
def State.entered (s : State) (ep : BitVec 128) : Except Nat State :=
  if s.hosts.isEmpty then
    if !s.hkc.started then .ok { s with hosts := [ep] }
    else
      match s.measure 3 0 (sha512 (bytesOf 16 ep.toNat)) with
      | none => .error 2
      | some s => .ok { s with hosts := [ep] }
  else if s.hosts.contains ep then .ok s else .error 3

/-- Reply to a command. -/
def State.reply (s : State) (i : Instr) (c : HostCmd) (status reason : Nat) (data : List Byte) : State :=
  s.closeOp.answerTo c.ep (.command (cmdOpc c) status (cmdCid c) (BitVec.ofNat 64 reason) data)

/-- Reply, or wait. -/
def State.finish (s : CmdRes) (i : Instr) (c : HostCmd) : State :=
  match s with
  | .reply s st r d => s.reply i c st r d
  | .wait s n => s.openOp i n

/-- The checks that a new command passes before its operands are looked at: the endpoint, start-up, the header and LEN, in
that order (assumption 76). Where it passes them: the state in which it is carried out. -/
def State.cmdReady (s : State) (i : Instr) (c : HostCmd) (opc : Nat) : Except Out State :=
  if (cmdOpc c) != opc then .error (.next s)
  else
    match s.entered c.ep with
    | .error st => .error (.next (s.reply i c st 0 []))
    | .ok s =>
      if !s.hkc.started && !(opc == 0x0F || opc == 0x10 || opc == 0x13) then .error (.next (s.reply i c 2 0 []))
      else if (cmdStatus c) != 0 || (cmdReserved c) != 0 then .error (.next (s.reply i c 1 0 []))
      else if (cmdLen c) < (lenRange opc).1 || (lenRange opc).2 < (cmdLen c) then
        .error (.next (s.reply i c 1 (Nat.min (cmdLen c) (lenRange opc).1) []))
      else .ok s

/-- A command from its arrival to its reply; one behind another of its port waits its turn (R469), and one that waits once it has
begun goes on with `again`. -/
def State.command (s : State) (i : Instr) (c : HostCmd) (opc : Nat) (run : State → List Byte → CmdRes)
    (again : State → Nat → CmdRes) : Out :=
  if cmdOpc c == opc && s.behindRod c then .next (s.keepOp i none)
  else
  match s.begun with
  | some n => .next (State.finish (again s n) i c)
  | none =>
    match s.cmdReady i c opc with
    | .error o => o
    | .ok s => .next (State.finish (run s (cmdBody c)) i c)

/-- A command that never waits. -/
def State.command1 (s : State) (i : Instr) (c : HostCmd) (opc : Nat) (run : State → List Byte → CmdRes) : Out :=
  s.command i c opc run fun s _ => .done s

/-- UNKNOWN_OPC (R468). -/
def execUnknownOpc (c : HostCmd) (s : State) : Out :=
  let i := Instr.unknownOpc c
  if 1 ≤ (cmdOpc c) && (cmdOpc c) ≤ 0x14 then .next s
  else if s.behindRod c then .next (s.keepOp i none)
  else
    match s.entered c.ep with
    | .error st => .next (s.reply i c st 0 [])
    | .ok s => .next (s.reply i c (if s.hkc.started then 4 else 2) 0 [])

/-- A fixed operand. -/
def opnd (b : List Byte) (off : Nat) : Nat := fieldN b off 8

/-! ## Windows (R470, R471) -/

/-- WINOPEN. -/
def execWinopen (c : HostCmd) (s : State) : Out :=
  s.command1 (.winopen c) c 0x01 fun s b =>
    let w := opnd b 0
    if 16 ≤ w then .bad s 0
    else if opnd b 8 % 4096 != 0 || 2 ^ 52 ≤ opnd b 8 then .bad s 8
    else if opnd b 16 % 4096 != 0 then .bad s 16
    else if (tget s.windows w).isSome then .state s
    else .reply { s with windows := tput s.windows w { base := opnd b 8, len := opnd b 16 } } 0 0 (bytesOf 8 (0x100 + w))

/-- Whether an RMA operation on a window has still to complete. -/
def State.windowBusy (s : State) (w : Nat) : Bool :=
  s.waiting.any fun x => match x.2.1 with
    | .rmaWrite _ key _ _ | .rmaRead _ key _ _ => keyWindow key == some w
    | _ => false

/-- WINCLOSE, once the window's operations have completed. -/
def execWinclose (c : HostCmd) (s : State) : Out :=
  let close (s : State) (w : Nat) : CmdRes :=
    if s.windowBusy w then .wait s w else .done { s with windows := tdel s.windows w }
  s.command (.winclose c) c 0x02
    (fun s b =>
      let w := opnd b 0
      if 16 ≤ w then .bad s 0 else if (tget s.windows w).isNone then .state s else close s w)
    close

/-! ## Grids and teams (R392, R393, R449, R450, R470, R472) -/

/-- The lowest byte of a launch record that holds a nonzero reserved field or value (R391). -/
def launchReserved (b : List Byte) : Option Nat :=
  let byte (n : Nat) : Nat := fieldN b n 1
  let bad (n : Nat) : Bool :=
    if n = 33 then byte n / 16 != 0
    else if n = 34 then decide (2 < byte n)
    else if n = 36 then byte n / 8 != 0
    else if n = 37 then decide (8 < byte n)
    else if n = 81 then byte n / 16 != 0
    else if n = 39 ∨ n = 74 ∨ n = 75 ∨ (82 ≤ n ∧ n < 88) ∨ (120 ≤ n ∧ n < 128) then byte n != 0
    else false
  (List.range 128).find? bad

/-- The grid a launch record describes. -/
def gridOfRecord (va : Word) (b : List Byte) (ctx : BitVec 12) (dqPa : Nat) : Grid :=
  let sh := fieldN b 32 2
  let fl := fieldN b 36 1
  { launch := va, hdr := fieldW b 0, recb := fieldW b 8, frameb := fieldW b 16, flen := fieldN b 24 4, teams := fieldN b 28 4
    shape := { gangs := sh % 32, pair := sh / 32 % 2 == 1, arrays := sh / 64 % 64, idem := fl / 2 % 2 == 1 }
    width := 16 * 2 ^ fieldN b 34 1, vallot := 8 * fieldN b 35 1, sbchk := fl % 2 == 1, share := fl / 4 % 2 == 1
    ejdef := fieldN b 37 1, dmask := BitVec.ofNat 8 (fieldN b 38 1), emuh := fieldW b 40, evq := fieldW b 48, dq := fieldW b 56
    spillb := fieldW b 64, spillsz := fieldN b 72 2, rjt := fieldN b 76 4, ctx := ctx
    args := (List.range 4).map fun j => fieldW b (88 + 8 * j)
    slots := (List.range 8).foldl (fun m n => mset 0 m n (BitVec.ofNat 128 (fieldN b (128 + 16 * n) 16))) []
    satc := [], nextTeam := fieldN b 28 4, pushed := 0, dqPa := dqPa }

/-- The lowest free entry of the grid table (R393). -/
def State.freeGrid (s : State) : Option Nat :=
  ((List.range 1023).map fun n => n + 1).find? fun n => (tget s.grids n).isNone

/-- The reply to a launch once every record has been pushed. -/
def State.launchDone (s : State) (n : Nat) : CmdRes :=
  match tget s.grids n with
  | none => .reply s 0 0 (bytesOf 8 n)
  | some g => if g.pushed < g.teams then .wait s n else .reply s 0 0 (bytesOf 8 n)

/-- Whether a launch's event queue is one, or is in use at home (R392). -/
def State.evqOk (s : State) (e : Env) (evq : Word) : State × Option Bool :=
  if evq = 0 then (s, some true)
  else match s.eQueue e evq with
    | (s, .ok x _) => (s, some (x.kind == 3 && x.esz == 64))
    | (s, .bad) => (s, some false)
    | (s, .busy) => (s, none)

/-- Check a launch record, in the order of R392, and launch it. -/
def State.launch (s0 : State) (b : List Byte) : CmdRes :=
  let va : Word := BitVec.ofNat 64 (opnd b 0)
  if 4096 ≤ opnd b 8 then .bad s0 8
  else
    let ctx : BitVec 12 := BitVec.ofNat 12 (opnd b 8)
    let e : Env := { agent := s0.coreAgent 0, ctx := ctx, sup := true }
    match s0.eAddr e .read va 256 256 with
    | (s, .bad) => .reply s 1 (2 ^ 64 - 1) []
    | (s, .busy) => .wait s 0
    | (s, .ok ps) =>
      let r := s.readPieces ps 256
      let g := gridOfRecord va r ctx 0
      match launchReserved r with
      | some off => .bad s off
      | none =>
        if g.teams = 0 || 2 ^ 24 < g.teams then .bad s 28
        else if g.dmask = 0 then .bad s 38
        else if g.vallot = 0 || 256 < g.vallot then .bad s 35
        else
          match s.eQueue e g.dq with
          | (s, .bad) => .bad s 56
          | (s, .busy) => .wait s 0
          | (s, .ok q qps) =>
            if q.kind != 1 then .bad s 56
            else
              match s.evqOk e g.evq with
              | (s, none) => .wait s 0
              | (s, some false) => .bad s 48
              | (s, some true) =>
              if !g.shape.shapeOk g.width g.vallot then .bad s 32
              else if fieldN r 80 2 != ctx.toNat then .bad s 80
              else if (s.liveGrid q.grid).isSome then .state s
              else
                match s.freeGrid with
                | none => .state s
                | some n =>
                  let s := s.putFieldW qps 42 2 n
                  let s := { s with grids := tput s.grids n { g with dqPa := paAt qps 0 } }
                  (s.launchFill n g.teams).launchDone n

/-- LAUNCH. -/
def execLaunch (c : HostCmd) (s : State) : Out :=
  s.command (.launch c) c 0x03 State.launch fun s n => if n = 0 then s.launch (cmdBody c) else s.launchDone n

/-- The teams that a launch record's address and a TEAMID name, in one of some states. -/
def State.named (s : State) (b : List Byte) (sts : List TeamSt) : List (Nat × Team) :=
  s.teams.filter fun t => sts.contains t.2.st && (opnd b 8 == 2 ^ 64 - 1 || t.2.teamid.toNat == opnd b 8) &&
    ((tget s.grids t.2.grid).map fun g => g.launch.toNat == opnd b 0).getD false

/-- The reply to HALT once every halt record is written. -/
def State.haltDone (s : State) (b : List Byte) : CmdRes := if (s.named b [.halting]).isEmpty then .done s else .wait s 0

/-- HALT: each named running team halts through its gang of the lowest GANGID (assumption 77); one that is being pre-empted runs
still (R457, R459). -/
def execHalt (c : HostCmd) (s : State) : Out :=
  s.command (.halt c) c 0x04
    (fun s b =>
      let ts := s.named b [.running, .swapping, .discarding]
      if ts.isEmpty then .state s
      else
        (ts.foldl (init := s) fun s t =>
          match s.alive t.2 with
          | [] => s
          | g :: _ => s.haltGang g.1 .host g.2.thr.pc g.2.active 0).haltDone b)
    fun s _ => s.haltDone (cmdBody c)

/-- The halted team that a swap-area address names. -/
def State.haltedAt (s : State) (area : Nat) : Option (Nat × Team) :=
  s.teams.find? fun t => t.2.st == .halted && t.2.area == area

/-- The range of an area operand, then the halted team there. -/
def State.withHalted (s : State) (b : List Byte) (k : Nat → Team → CmdRes) : CmdRes :=
  if 2 ^ 52 ≤ opnd b 0 then .bad s 0
  else match s.haltedAt (opnd b 0) with
    | none => .state s
    | some t => k t.1 t.2

/-- RESUME (R450): the team goes on its die's list as a swapped team does (assumption 78). -/
def execResume (c : HostCmd) (s : State) : Out :=
  s.command1 (.resume c) c 0x05 fun s b => s.withHalted b fun n t =>
    let s := s.modTeam n fun t => { t with st := .swapped, haltRec := {} }
    let r : DieRec := { grid := t.grid, record := t.restart, reca := t.reca, teamid := t.teamid, area := some t.area, team := n }
    .done (s.requeue (t.haltRec.core / 128) r false).moveRecords

/-- KILL (R442, R450). -/
def execKill (c : HostCmd) (s : State) : Out :=
  s.command1 (.kill c) c 0x06 fun s b => s.withHalted b fun n t =>
    let ctx := ((tget s.grids t.grid).map Grid.ctx).getD 0
    .done ((s.dropTeam n t).returnArea ctx t.area)

/-- A command that may have to wait before it has done anything, and then begins again. -/
def State.command2 (s : State) (i : Instr) (c : HostCmd) (opc : Nat) (run : State → List Byte → CmdRes) : Out :=
  s.command i c opc run fun s _ => run s (cmdBody c)

/-- STRD. -/
def execStrd (c : HostCmd) (s : State) : Out :=
  s.command2 (.strd c) c 0x07 fun s b =>
    if 2 ^ 52 ≤ opnd b 0 then .bad s 0
    else if 0x800000 ≤ opnd b 8 then .bad s 8
    else if 4096 < opnd b 16 || 0x800000 < opnd b 8 + opnd b 16 then .bad s 16
    else s.withHalted b fun _ t =>
      let pa := t.area + opnd b 8
      let n := opnd b 16
      if s.readBusy pa n then .wait (s.stirRead pa n) 0
      else
        let s := s.readOver pa n
        .reply s 0 0 (s.peekBytes pa n)

/-- STWR. -/
def execStwr (c : HostCmd) (s : State) : Out :=
  s.command2 (.stwr c) c 0x08 fun s b =>
    if 2 ^ 52 ≤ opnd b 0 then .bad s 0
    else if 0x800000 < opnd b 8 + (b.length - 16) then .bad s 8
    else s.withHalted b fun _ t =>
      let pa := t.area + opnd b 8
      if s.lockedOver pa (b.length - 16) then .wait (s.stir pa (b.length - 16)) 0 else .done (s.devWrite pa (b.drop 16))

/-- GRIDEND (R393). -/
def execGridend (c : HostCmd) (s : State) : Out :=
  s.command2 (.gridend c) c 0x14 fun s b =>
    let n := opnd b 0
    match s.liveGrid n with
    | none => .bad s 0
    | some g =>
      if s.teams.any (fun t => t.2.grid == n) || s.dies.any (fun d => d.2.list.any fun r => r.grid == n) ||
          decide (g.pushed < g.teams) then .state s
      else
        let s := s.flushPosts
        if s.lockedOver (g.dqPa + 42) 2 then .wait (s.stir (g.dqPa + 42) 2) 0
        else if s.posts.any fun p => p.grid == n then .wait s 0
        else
        let s := s.devWrite (g.dqPa + 42) [0, 0]
        .done { s with grids := tdel s.grids n }

/-! ## Event queues (R412, R470) -/

/-- The records at the head of an event queue, as far as their slots can be read now. -/
def State.takeRecords (s : State) (e : Env) (q : QDesc) : Nat → Nat → State × List (List Byte)
  | 0, _ => (s, [])
  | n + 1, i =>
    match s.eAddr e .read (q.slot i) q.esz 1 with
    | (s, .ok ps) =>
      let r := s.takeRecords e q n (i + 1)
      (r.1, s.readPieces ps q.esz :: r.2)
    | (s, _) => (s, [])

/-- EVDRAIN: records taken as QPOP takes them and their slots freed as QFREE frees them. -/
def State.evdrain (s0 : State) (b : List Byte) : CmdRes :=
  if 64 < opnd b 8 then .bad s0 8
  else if 4096 ≤ opnd b 16 then .bad s0 16
  else
    let e : Env := { agent := s0.coreAgent 0, ctx := BitVec.ofNat 12 (opnd b 16), sup := true }
    match s0.eQueue e (BitVec.ofNat 64 (opnd b 0)) with
    | (s, .bad) => .bad s 0
    | (s, .busy) => .wait s 0
    | (s, .ok q qps) =>
      if q.kind != 3 then .bad s 0
      else
        let r := s.takeRecords e q (Nat.min (opnd b 8) q.items) q.head
        let n := r.2.length
        let s := r.1.putFieldW qps 36 4 (q.items - n)
        let s := s.putFieldW qps 16 8 (q.head + n)
        let s := s.putFieldW qps 32 4 (q.free + n)
        .reply s 0 0 r.2.flatten

/-- EVDRAIN. -/
def execEvdrain (c : HostCmd) (s : State) : Out :=
  s.command2 (.evdrain c) c 0x09 State.evdrain

/-! ## Power (R487, R489, R490) -/

/-- The reply to POWER once no die of a mask is being gated any more. -/
def State.powerDone (s : State) (mask : Nat) : CmdRes :=
  if (List.range 8).any fun d => mask.testBit d && (s.dieOf d).gating then .wait s mask else .done s

/-- POWER. -/
def execPower (c : HostCmd) (s : State) : Out :=
  s.command (.power c) c 0x0A
    (fun s b =>
      let sel := opnd b 0
      let ceil := opnd b 8
      let pol := opnd b 16
      let pw := opnd b 24
      let dies := List.range 8
      let down := dies.filter fun d => pw != 0 && !pw.testBit d && !(s.dieOf d).gated
      let up := dies.filter fun d => pw.testBit d && (s.dieOf d).gated
      if 256 ≤ sel then .bad s 0
      else if sel != 0 && (ceil < 300 || 1100 < ceil || ceil % 25 != 0) then .bad s 8
      else if sel != 0 && 3 < pol then .bad s 16
      else if 256 ≤ pw then .bad s 24
      else if s.registry.any (fun e => e.2.ol && down.any fun d => s.homedOn d (unitBase e.1)) then .state s
      else
        let s := (dies.filter sel.testBit).foldl (init := s) fun s d =>
          (List.range 64).foldl (init := s.setDie d { s.dieOf d with ceiling := ceil, policy := pol }) fun s j =>
            s.retune (64 * d + j)
        let s := up.foldl State.powerUp s
        let s := down.foldl (init := s) fun s d => s.setDie d { s.dieOf d with gating := true }
        s.powerDone (down.foldl (fun m d => m + 2 ^ d) 0))
    State.powerDone

/-! ## Configuration (R150, R151, R467, R470, R474, R476) -/

/-- Measure a configuration command's operand bytes and let it take effect (R476). -/
def State.configure (s : State) (b : List Byte) (f : State → State) : CmdRes :=
  match s.measure 3 0 (sha512 b) with
  | none => .state s
  | some s => .done (f s)

/-- SETDST. -/
def execSetdst (c : HostCmd) (s : State) : Out :=
  s.command1 (.setdst c) c 0x0B fun s b =>
    if opnd b 0 % 64 != 0 || 2 ^ 52 ≤ opnd b 0 then .bad s 0
    else if !s.grids.isEmpty then .state s
    else s.configure b fun s => { s with dst := opnd b 0 }

/-- DOMAIN. What is still under way for units of the package ends first (R125). -/
def execDomain (c : HostCmd) (s : State) : Out :=
  s.command2 (.domain c) c 0x0C fun s b =>
    if 32 ≤ opnd b 0 then .bad s 0
    else if 2 ^ 32 ≤ opnd b 8 then .bad s 8
    else if !s.grids.isEmpty then .state s
    else if s.lockedOver 0 (2 ^ 52) then .wait (s.stir 0 (2 ^ 52)) 0
    else s.configure b fun s => { s.renumber (BitVec.ofNat 5 (opnd b 0)) with members := BitVec.ofNat 32 (opnd b 8) }

/-- ENDPOINTS. -/
def execEndpoints (c : HostCmd) (s : State) : Out :=
  s.command1 (.endpoints c) c 0x0E fun s b =>
    let n := opnd b 0
    if (b.length - 8) % 16 != 0 then .bad s 8
    else if 4 < n then .bad s 0
    else if b.length != 8 + 16 * n then .bad s 8
    else s.configure b fun s => { s with hosts := (List.range n).map fun i => BitVec.ofNat 128 (fieldN b (8 + 16 * i) 16) }

/-- The checks of L1PART, and what it does to the L1 of a core's agent. -/
def State.l1part (s : State) (b : List Byte) (k : Nat → BitVec 12 → CmdRes) : CmdRes :=
  if 1024 ≤ opnd b 0 then .bad s 0
  else if 4096 ≤ opnd b 8 then .bad s 8
  else if 1 < opnd b 16 then .bad s 16
  else if 2 ^ 24 ≤ opnd b 24 || (opnd b 16 == 1 && opnd b 24 != 0) then .bad s 24
  else k (4096 * s.pkg.toNat + opnd b 0) (BitVec.ofNat 12 (opnd b 8))

/-- L1PART with action 0: the way mask of a context (R151). -/
def State.setWays (s : State) (b : List Byte) (agent : Nat) (ctx : BitVec 12) : CmdRes :=
  let c := s.l1Of agent
  .done (s.setL1 agent { c with ways := mset 0xFFFFFF#24 c.ways ctx.toNat (BitVec.ofNat 24 (opnd b 24)) })

/-- L1PART with action 1: the counters of a context, FILLS first (R150). -/
def State.readCounters (s : State) (agent : Nat) (ctx : BitVec 12) : CmdRes :=
  let x := s.lineCounters agent ctx.toNat
  .reply s 0 0 (bytesOf 8 x.fills ++ bytesOf 8 x.xhits ++ bytesOf 8 x.wbchg ++ bytesOf 8 x.displ)

/-- L1PART_SET: an L1PART whose action is not 1. -/
def execL1partSet (c : HostCmd) (s : State) : Out :=
  if (cmdOpc c) = 0x0D && (c.words[6]?).getD 0 = 1 then .next s
  else s.command1 (.l1partSet c) c 0x0D fun s b => s.l1part b (s.setWays b)

/-- L1PART_READ: an L1PART whose action is 1. -/
def execL1partRead (c : HostCmd) (s : State) : Out :=
  if (cmdOpc c) = 0x0D && (c.words[6]?).getD 0 != 1 then .next s
  else s.command1 (.l1partRead c) c 0x0D fun s b => s.l1part b s.readCounters

/-! ## Identity, attestation, firmware, log (R478 to R482) -/

/-- The identity key's public point (R479). -/
def identityPoint : Nat × Nat := (ecMul 521 Config.identityKey (some p521g)).getD (0, 0)

/-- IDENTITY. -/
def execIdentity (c : HostCmd) (s : State) : Out :=
  s.command1 (.identity c) c 0x0F fun s _ => .reply s 0 0 (pointBytes identityPoint)

/-- The 200 signed bytes of a quote (R480); SEQ counts the quotes before it (assumption 111). -/
def quoteBytes (s : State) (nonce : List Byte) : List Byte :=
  digestBytes s.hkc.m ++ nonce ++ bytesOf 4 s.hkc.mlog.length ++ bytesOf 1 s.pkg.toNat ++ List.replicate 3 0#8 ++
    bytesOf 8 s.hkc.quotes ++ List.replicate 56 0#8

/-- ATTEST: the nonce of the signature is the HKC's own (assumption 71). -/
def execAttest (c : HostCmd) (s : State) : Out :=
  s.command1 (.attest c) c 0x10 fun s b =>
    let q := quoteBytes s b
    let sig := ecSign Config.identityKey (1 + Config.pick s.free % (p521n - 1)) (sha512 q)
    let s := { s.useFree with hkc := { s.hkc with quotes := s.hkc.quotes + 1 } }
    .reply s 0 0 (q ++ beBytes 66 sig.1 ++ beBytes 66 sig.2)

/-- FWSTAGE. -/
def execFwstage (c : HostCmd) (s : State) : Out :=
  s.command1 (.fwstage c) c 0x11 fun s b =>
    let o := opnd b 0
    let bs := b.drop 8
    if 2 ^ 26 < o + bs.length then .bad s 0
    else
      let st := ((List.range bs.length).zip bs).foldl (fun m e => mset (0 : Byte) m (o + e.1) e.2) s.hkc.stage
      .done { s with hkc := { s.hkc with stage := st } }

/-- FWCOMMIT: the image is installed if its signature, digest and version pass, in that order (assumption 79). -/
def execFwcommit (c : HostCmd) (s : State) : Out :=
  s.command1 (.fwcommit c) c 0x12 fun s b =>
    let n := opnd b 0
    if n < 256 || 2 ^ 26 < n then .bad s 0
    else
      let img := (List.range n).map fun j => mget (0 : Byte) s.hkc.stage j
      match imageBad s.hkc.fusedMin img with
      | some r => .bad s r
      | none =>
        match s.measure 4 (imageSvn img) (sha512 img) with
        | none => .state s
        | some s => .done { s with hkc := { s.hkc with installed := some img } }

/-- The 128 bytes of a log entry (R478). -/
def Measured.bytes (e : Measured) (i : Nat) : List Byte :=
  bytesOf 4 i ++ bytesOf 4 e.comp ++ bytesOf 8 e.svn ++ List.replicate 48 0#8 ++ digestBytes e.digest

/-- LOGRD. -/
def execLogrd (c : HostCmd) (s : State) : Out :=
  s.command1 (.logrd c) c 0x13 fun s b =>
    if 256 ≤ opnd b 0 then .bad s 0
    else if opnd b 8 = 0 || 32 < opnd b 8 then .bad s 8
    else
      .reply s 0 0 ((List.range (opnd b 8)).flatMap fun j =>
        match s.hkc.mlog[opnd b 0 + j]? with
        | some e => e.bytes (opnd b 0 + j)
        | none => [])

end Sys2Proof.Machine
end

