-- ==== Sys2Proof/Machine/LaneOps.lean ====
section
/-!
DEFINITION. The predicate and lane instructions (R285 to R292).
-/
namespace Sys2Proof.Machine

/-- A two-source predicate instruction (R285). -/
def State.pred3 (s : State) (o : R3) (g : Bool → Bool → Bool) : Out :=
  s.alu o.p o.ixs 4 o.d false false [(o.a, .u32), (o.b, .u32)] false fun xs =>
    (bword (g (warg xs 0 != 0) (warg xs 1 != 0)), 0)

/-- KAND (R285). -/
def execKand (o : R3) (s : State) : Out := s.pred3 o fun a b => a && b
/-- KOR (R285). -/
def execKor (o : R3) (s : State) : Out := s.pred3 o fun a b => a || b
/-- KXOR (R285). -/
def execKxor (o : R3) (s : State) : Out := s.pred3 o fun a b => a != b

/-- KNOT (R285). -/
def execKnot (o : R2) (s : State) : Out :=
  s.alu o.p o.ixs 4 o.d false false [(o.a, .u32)] false fun xs => (bword (warg xs 0 == 0), 0)

/-- KSET (R285): a v source sets where it is nonzero, any other source gives its bit LANE. -/
def execKset (o : R2) (s : State) : Out :=
  match o.a with
  | .v _ _ => s.alu o.p o.ixs 4 o.d false false [(o.a, .u32)] false fun xs => (bword (warg xs 0 != 0), 0)
  | _ =>
    s.issue { p := o.p, ixs := o.ixs, rd := [(o.a, 1)], wr := [(o.d, 1)] } fun s v ex =>
      .next (s.done v o.p 4
        ((lanesOf ex).flatMap fun l =>
          v.dest o.ixs false false o.d l (bword ((v.read s o.ixs .u64 o.a l).getLsbD l))) 0)

/-- Write one gathered value: once to an s destination, or to every participating lane (R57, R288). -/
def View.gather (v : View) (ixs : BitVec 2) (wide signed : Bool) (d : Opd) (ex : Mask) (x : Word) : List RegW :=
  if ex = 0 then []
  else if isS d then v.dest ixs true false d 0 (if wide || !signed then x else (x.setWidth 32 : BitVec 32).signExtend 64)
  else (lanesOf ex).flatMap fun l => v.dest ixs wide signed d l x

/-- The lanes of a mask in which k[A] is 1. -/
def View.kOf (v : View) (a : Opd) : Mask :=
  match a with
  | .k n => v.t.regs.getK n.toNat
  | _ => 0

/-- KBAL (R288): its v pair at width 64 is checked before predication. -/
def execKbal (o : R2) (s : State) : Out :=
  match s.view with
  | none => .fault .noAgent
  | some v =>
    let pair := decide (v.g.width = 64) && !isS o.d
    let odd := match o.d with | .v n _ => n.getLsbD 0 | _ => false
    if pair && odd then
      let (s, v) := s.startIssue v
      .next (s.emulate v ((encode (.kbal o)).getD 0) 7 0)
    else
      s.issue { p := o.p, ixs := o.ixs, rd := [(o.a, 1)], wr := [(o.d, if pair then 2 else 1)] } fun s v ex =>
        .next (s.done v o.p 8 (v.gather o.ixs pair false o.d ex (v.kOf o.a &&& ex)) 0)

/-- The value of VOTE (R288). -/
def voteVal (fn : VoteFn) (k ex : Mask) : Bool :=
  match fn with
  | .any => k &&& ex != 0
  | .all => k &&& ex == ex
  | .uni => k &&& ex == ex || k &&& ex == 0

/-- VOTE (R288). -/
def execVote (fn : VoteFn) (o : R2) (s : State) : Out :=
  s.issue { p := o.p, ixs := o.ixs, rd := [(o.a, 1)], wr := [(o.d, 1)], safe := false } fun s v ex =>
    .next (s.done v o.p 8 (v.gather o.ixs false false o.d ex (bword (voteVal fn (v.kOf o.a) ex))) 0)

/-- The largest power of two not above n, for n at least 1. -/
def pow2Below (n : Nat) : Nat := 2 ^ Nat.log2 n

/-- The source lane of SHFL (R287). -/
def shflLane (mode : ShflMode) (width l b c : Nat) : Nat :=
  let g := pow2Below (Nat.min (Nat.max c 1) width)
  let base := l - l % g
  let j : Int := match mode with
    | .idx => base + (b % g : Nat)
    | .up => (l : Int) - b
    | .down => (l : Int) + b
    | .xor => (l ^^^ b : Nat)
  if (base : Int) ≤ j ∧ j < base + g then j.toNat else l

/-- SHFL (R286, R287). -/
def execShfl (w64 : Bool) (mode : ShflMode) (o : R4) (s : State) : Out :=
  let g := if w64 then 2 else 1
  s.issue { p := o.p, ixs := o.ixs, rd := [(o.a, g), (o.b, 1), (o.c, 1)], wr := [(o.d, g)], safe := false }
    fun s v ex =>
      .next (s.done v o.p 8
        ((lanesOf ex).flatMap fun l =>
          let j := shflLane mode v.g.width l (v.read s o.ixs .u32 o.b l).toNat (v.read s o.ixs .u32 o.c l).toNat
          v.dest o.ixs w64 false o.d l (v.read s o.ixs (wrd w64) o.a j)) 0)

/-- One step of GRED and GSCAN (R289). -/
def gstep (op : GOp) (ty : ITy) (a b : Word) : Word × FFlags :=
  let fa := f32.decode (a.toNat % 2 ^ 32)
  let fb := f32.decode (b.toNat % 2 ^ 32)
  match op with
  | .add => (ityResult ty false (ityVal ty a + ityVal ty b), 0)
  | .min => (if ityVal ty a ≤ ityVal ty b then a else b, 0)
  | .max => (if ityVal ty a ≤ ityVal ty b then b else a, 0)
  | .and => (a &&& b, 0)
  | .or => (a ||| b, 0)
  | .xor => (a ^^^ b, 0)
  | .fadd => fres (f32.add .rn fa fb)
  | .fmin => fres (f32.minMax false fa fb)
  | .fmax => fres (f32.minMax true fa fb)

/-- The first participant's source as a result (R289). -/
def gfirst (op : GOp) (a : Word) : Word × FFlags :=
  if op.float then
    match f32.decode (a.toNat % 2 ^ 32) with
    | .nan sg => (0x7FC00000, if sg then flNV else 0)
    | _ => (a, 0)
  else (a, 0)

/-- The combinations over participants in ascending lane order, with the flags raised so far. -/
def gscanVals (op : GOp) (ty : ITy) (src : Nat → Word) (ls : List Nat) : List (Nat × Word) × FFlags :=
  let r := ls.foldl (init := (([] : List (Nat × Word)), (none : Option Word), (0 : FFlags))) fun acc l =>
    let x := match acc.2.1 with
      | none => gfirst op (src l)
      | some a => gstep op ty a (src l)
    (acc.1 ++ [(l, x.1)], some x.1, acc.2.2 ||| x.2)
  (r.1, r.2.2)

/-- GRED (R289). -/
def execGred (op : GOp) (ty : ITy) (o : R2) (s : State) : Out :=
  s.issue { p := o.p, ixs := o.ixs, rd := [(o.a, ty.grp)], wr := [(o.d, ty.grp)], safe := false } fun s v ex =>
    let r := gscanVals op ty (fun l => v.read s o.ixs (ityRd ty) o.a l) (lanesOf ex)
    let x := (r.1.getLast?.map Prod.snd).getD 0
    .next (s.done v o.p 12 (v.gather o.ixs ty.wide (ty.signed && !op.float) o.d ex x) r.2)

/-- GSCAN (R289). -/
def execGscan (op : GOp) (ty : ITy) (o : R2) (s : State) : Out :=
  s.issue { p := o.p, ixs := o.ixs, rd := [(o.a, ty.grp)], wr := [(o.d, ty.grp)], safe := false } fun s v ex =>
    let r := gscanVals op ty (fun l => v.read s o.ixs (ityRd ty) o.a l) (lanesOf ex)
    .next (s.done v o.p 12 (r.1.flatMap fun e => v.dest o.ixs ty.wide ty.signed o.d e.1 e.2) r.2)

/-- RDLANE (R286, R290). -/
def execRdlane (o : R3) (s : State) : Out :=
  s.issue { p := o.p, ixs := o.ixs, rd := [(o.a, 1), (o.b, 1)], wr := [(o.d, 1)], safe := false } fun s v ex =>
    let l := (v.read s o.ixs .u32 o.b 0).toNat % v.g.width
    .next (s.done v o.p 8
      (if ex = 0 then [] else v.dest o.ixs false false o.d 0 (v.read s o.ixs .u32 o.a l)) 0)

/-- The lanes of a gang that are on the carry pool: ejected, detached or parked. -/
def State.away (s : State) (u : Nat) : Mask :=
  (s.lanes.filter fun e => e.2.gang == u).foldl (init := (0 : Mask)) fun m e => m ||| laneBit e.2.lane

/-- WRLANE (R290). -/
def execWrlane (o : R3) (s : State) : Out :=
  s.issue { p := o.p, ixs := o.ixs, rd := [(o.a, 1), (o.b, 1)], wr := [(o.d, 1)], safe := false } fun s v ex =>
    let l := (v.read s o.ixs .u32 o.b 0).toNat % v.g.width
    .next (s.done v o.p 8
      (if ex = 0 || hasLane (s.away v.uid ||| v.g.exited) l then []
       else v.dest o.ixs false false o.d l (v.read s o.ixs .u32 o.a 0)) 0)

/-- IXW (R292): once, on the uniform pipe. -/
def execIxw (p : Pre) (i : BitVec 2) (a : Opd) (imm : BitVec 24) (s : State) : Out :=
  s.issue { p := p, rd := [(a, 1)], wi := [i.toNat] } fun s v ex =>
    let x : BitVec 16 := (v.read s 0 .u64 a 0).setWidth 16 + imm.setWidth 16
    .next (s.done v p 4 (if ex = 0 then [] else [.i i.toNat x]) 0)

end Sys2Proof.Machine
end

