-- ==== Sys2Proof/Machine/SpecialRegs.lean ====
section
/-!
DEFINITION. SRD and SWR and the special registers of R262 to R268.
-/
namespace Sys2Proof.Machine

/-- TEAMDIM (R262). -/
def teamDim (t : Team) : Word := BitVec.ofNat 64 (t.gangs.length % 256) ||| (if t.shape.pair then 0x100 else 0)

/-- A gang's run on a sequencer. -/
def State.runOf (s : State) (u q : Nat) : Option Run :=
  s.cores.findSome? fun c => c.2.seqs.findSome? fun e => if e.1 == q then e.2.run.filter fun r => r.gang == u else none

/-- PLANE, SEG and REP of a row in progress (R341, assumption 59): a plane that the run reads, a segment below K / r that does not
fall while the row lasts (R328), a repeat below those of its mode. -/
def Run.rowPlace (r : Run) (now q : Nat) : Word :=
  let f (j : Nat) : Nat := (Config.rowPlace (r.rowFrom + 1000 * j) r.gang q).toNat
  let n := (now - r.rowFrom) / 1000
  let seg := (List.range (n + 1)).foldl (init := 0) fun m j => Nat.max m (f j / 16 % 16 % Nat.max r.segs 1)
  let plane := (r.planes[f n / 256 % Nat.max r.planes.length 1]?).getD 0
  BitVec.ofNat 64 (plane % 16 * 256 + seg * 16 + f n % 16 % Nat.max r.reps 1)

/-- RPROGq as SRD reads it. -/
def View.readRprog (s : State) (v : View) (q : Nat) : Word :=
  let x := mget 0 v.g.rprog q
  if x.getLsbD 63 then x ||| ((s.runOf v.uid q).map fun r => r.rowPlace s.ps q).getD 0 else x

/-- The value of a special register as a lane reads it (R262, R266). -/
def View.srd (s : State) (v : View) (r : SpReg) (lane : Nat) : Word :=
  let tm := s.teamOf v.g
  let gr := s.gridOf v.g
  match r with
  | .lane => BitVec.ofNat 64 lane
  | .width => BitVec.ofNat 64 v.g.width
  | .gangid => BitVec.ofNat 64 v.g.gangid
  | .teamid => tm.teamid
  | .vallot => BitVec.ofNat 64 v.g.vallot
  | .teamdim => teamDim tm
  | .griddim => BitVec.ofNat 64 gr.teams
  | .sib => zx64 v.g.sib
  | .gdesc => v.g.gdesc
  | .evt => gr.evq
  | .spw => (v.g.spwBase &&& ~~~0xFFFF#64) ||| BitVec.ofNat 64 (v.g.spwSize % 65536)
  | .clk => BitVec.ofNat 64 v.now
  | .time => BitVec.ofNat 64 s.time
  | .fpflags => zx64 v.t.regs.fpflags
  | .bkconf => zx64 v.t.regs.bkconf
  | .modez => zx64 v.t.regs.modez
  | .polmis => zx64 v.t.regs.polmis
  | .satc n => zx64 (mget 0 gr.satc n.toNat)
  | .emuop => v.g.emu.op
  | .emupc => v.g.emu.pc
  | .emufn => v.g.emu.fn
  | .emud => v.g.emu.d
  | .emua => v.g.emu.a
  | .emub => v.g.emu.b
  | .emuc => v.g.emu.c
  | .rprog q => v.readRprog s q.toNat
  | .ctx => zx64 v.g.ctx
  | .fmask => v.g.fmask
  | .fva => mget 0 v.g.fva lane
  | .fcause => v.g.fcause
  | .hcause => v.g.halt.cause
  | .hpc => v.g.halt.pc
  | .hmask => v.g.halt.mask
  | .haddr => v.g.halt.addr

/-- SRD (R267): supervisor numbers halt in user mode (R70). -/
def execSrd (p : Pre) (ixs : BitVec 2) (d : Opd) (r : SpReg) (s : State) : Out :=
  match s.view with
  | none => .fault .noAgent
  | some v =>
    if r.supervisor && !v.sup then .next (s.haltV v { cause := .privilege })
    else
      s.issue { p := p, ixs := ixs, wr := [(d, if r.wide then 2 else 1)] } fun s v ex =>
        .next (s.done v p 4
          (if ex = 0 then []
           else if isS d then v.dest ixs true false d 0 (v.srd s r (uniLane ex))
           else (lanesOf ex).flatMap fun l => v.dest ixs r.wide false d l (v.srd s r l)) 0)

/-- Whether SWR may write a value to RPROGq (R346): the gang's run on q has ended, and RUN, PLANE, SEG, REP and the reserved
bits are zero. -/
def State.rprogOk (s : State) (u q : Nat) (x : Word) : Bool :=
  x &&& 0xBF000000FFFFFFFF#64 == 0 &&
    !s.cores.any fun c => c.2.seqs.any fun e => e.1 == q && e.2.run.any fun r => r.gang == u

/-- The register SWR writes (R268): counters and flags of the thread itself (R266), SATC of the grid, RPROG and CTX of
the gang. -/
def State.swr (s : State) (v : View) (r : SpReg) (x : Word) : State × Thr :=
  let rg := v.t.regs
  match r with
  | .fpflags => (s, { v.t with regs := { rg with fpflags := x.setWidth 5 } })
  | .bkconf => (s, { v.t with regs := { rg with bkconf := x.setWidth 32 } })
  | .modez => (s, { v.t with regs := { rg with modez := x.setWidth 32 } })
  | .polmis => (s, { v.t with regs := { rg with polmis := x.setWidth 32 } })
  | .satc n =>
    ({ s with grids := tmod s.grids (s.teamOf v.g).grid fun g =>
        { g with satc := mset 0 g.satc n.toNat (x.setWidth 32) } }, v.t)
  | .rprog q =>
    (if s.rprogOk v.uid q.toNat x then s.modGang v.uid fun g => { g with rprog := mset 0 g.rprog q.toNat x } else s, v.t)
  | .ctx => (s.modGang v.uid fun g => { g with ctx := x.setWidth 12 }, v.t)
  | _ => (s, v.t)

/-- SWR (R268): once, with the value of the lowest executing lane. A constant source, which R268 names, is read as well; R56's
table and the form's own line admit v and s, so the decoder sends a word with one to emulation (assumption 98). -/
def execSwr (p : Pre) (ixs : BitVec 2) (a : Opd) (r : SpReg) (s : State) : Out :=
  match s.view with
  | none => .fault .noAgent
  | some v =>
    if r.supervisor && !v.sup then .next (s.haltV v { cause := .privilege })
    else
      s.issue { p := p, ixs := ixs, rd := [(a, if r.wide then 2 else 1)] } fun s v ex =>
        if ex = 0 then .next (s.retire v v.t p.stall)
        else
          let x := v.read s ixs (if r.wide then .u64 else .u32) a (uniLane ex)
          let (s, t) := s.swr v r x
          .next (s.retire v t p.stall)

end Sys2Proof.Machine
end

