-- ==== Sys2Proof/Machine/Dispatch.lean ====
section
/-!
DEFINITION. The dispatcher: one arm for each constructor of Instr, a direct call of its meaning.
-/
namespace Sys2Proof.Machine

def exec (i : Instr) (s : State) : Host.Outcome State Fault Refusal :=
  match i with
  | .nop p => Sys2Proof.Machine.execNop p s
  | .bra stall off => Sys2Proof.Machine.execBra stall off s
  | .brcDiv stall bn bk off => Sys2Proof.Machine.execBrcDiv stall bn bk off s
  | .brcAny stall bn bk off => Sys2Proof.Machine.execBrcAny stall bn bk off s
  | .brcAll stall bn bk off => Sys2Proof.Machine.execBrcAll stall bn bk off s
  | .brx stall a off => Sys2Proof.Machine.execBrx stall a off s
  | .call stall a off => Sys2Proof.Machine.execCall stall a off s
  | .ret stall a => Sys2Proof.Machine.execRet stall a s
  | .exit stall => Sys2Proof.Machine.execExit stall s
  | .gjoin stall off => Sys2Proof.Machine.execGjoin stall off s
  | .yield stall => Sys2Proof.Machine.execYield stall s
  | .bkpt p code => Sys2Proof.Machine.execBkpt p code s
  | .trapu p code => Sys2Proof.Machine.execTrapu p code s
  | .retu stall => Sys2Proof.Machine.execRetu stall s
  | .iadd sat ty o => Sys2Proof.Machine.execIadd sat ty o s
  | .isub sat ty o => Sys2Proof.Machine.execIsub sat ty o s
  | .imul ty o => Sys2Proof.Machine.execImul ty o s
  | .imulh ty o => Sys2Proof.Machine.execImulh ty o s
  | .imad sat ty o => Sys2Proof.Machine.execImad sat ty o s
  | .imin ty o => Sys2Proof.Machine.execImin ty o s
  | .imax ty o => Sys2Proof.Machine.execImax ty o s
  | .iabs sat ty o => Sys2Proof.Machine.execIabs sat ty o s
  | .icmp cond ty o => Sys2Proof.Machine.execIcmp cond ty o s
  | .idiv rem ty o => Sys2Proof.Machine.execIdiv rem ty o s
  | .lea ty o => Sys2Proof.Machine.execLea ty o s
  | .iaddi ty o => Sys2Proof.Machine.execIaddi ty o s
  | .imuli ty o => Sys2Proof.Machine.execImuli ty o s
  | .icmpi cond ty p ixs d a imm => Sys2Proof.Machine.execIcmpi cond ty p ixs d a imm s
  | .movi zx o => Sys2Proof.Machine.execMovi zx o s
  | .movk part o => Sys2Proof.Machine.execMovk part o s
  | .and w64 o => Sys2Proof.Machine.execAnd w64 o s
  | .or w64 o => Sys2Proof.Machine.execOr w64 o s
  | .xor w64 o => Sys2Proof.Machine.execXor w64 o s
  | .andn w64 o => Sys2Proof.Machine.execAndn w64 o s
  | .shl w64 o => Sys2Proof.Machine.execShl w64 o s
  | .shr w64 o => Sys2Proof.Machine.execShr w64 o s
  | .sra w64 o => Sys2Proof.Machine.execSra w64 o s
  | .rot w64 o => Sys2Proof.Machine.execRot w64 o s
  | .bfe signed w64 o => Sys2Proof.Machine.execBfe signed w64 o s
  | .bfi w64 o => Sys2Proof.Machine.execBfi w64 o s
  | .popc w64 o => Sys2Proof.Machine.execPopc w64 o s
  | .clz w64 o => Sys2Proof.Machine.execClz w64 o s
  | .brev w64 o => Sys2Proof.Machine.execBrev w64 o s
  | .sel w64 o => Sys2Proof.Machine.execSel w64 o s
  | .mov w64 o => Sys2Proof.Machine.execMov w64 o s
  | .logi op o => Sys2Proof.Machine.execLogi op o s
  | .fadd f o => Sys2Proof.Machine.execFadd f o s
  | .fsub f o => Sys2Proof.Machine.execFsub f o s
  | .fmul f o => Sys2Proof.Machine.execFmul f o s
  | .ffma f o => Sys2Proof.Machine.execFfma f o s
  | .fmin ftz o => Sys2Proof.Machine.execFmin ftz o s
  | .fmax ftz o => Sys2Proof.Machine.execFmax ftz o s
  | .fcmp cond o => Sys2Proof.Machine.execFcmp cond o s
  | .fclass o => Sys2Proof.Machine.execFclass o s
  | .frcp sat ftz o => Sys2Proof.Machine.execFrcp sat ftz o s
  | .frsq sat ftz o => Sys2Proof.Machine.execFrsq sat ftz o s
  | .fsqrt f o => Sys2Proof.Machine.execFsqrt f o s
  | .fdiv f o => Sys2Proof.Machine.execFdiv f o s
  | .fexp2 sat ftz o => Sys2Proof.Machine.execFexp2 sat ftz o s
  | .flog2 sat ftz o => Sys2Proof.Machine.execFlog2 sat ftz o s
  | .fsin sat ftz o => Sys2Proof.Machine.execFsin sat ftz o s
  | .fcos sat ftz o => Sys2Proof.Machine.execFcos sat ftz o s
  | .hadd2 h o => Sys2Proof.Machine.execHadd2 h o s
  | .hmul2 h o => Sys2Proof.Machine.execHmul2 h o s
  | .hfma2 h o => Sys2Proof.Machine.execHfma2 h o s
  | .hmin2 sat bf o => Sys2Proof.Machine.execHmin2 sat bf o s
  | .hmax2 sat bf o => Sys2Proof.Machine.execHmax2 sat bf o s
  | .dot4 sat bs as o => Sys2Proof.Machine.execDot4 sat bs as o s
  | .ftanh sat ftz o => Sys2Proof.Machine.execFtanh sat ftz o s
  | .fldx f o => Sys2Proof.Machine.execFldx f o s
  | .cvt op rm o => Sys2Proof.Machine.execCvt op rm o s
  | .cvtp op hi rm o => Sys2Proof.Machine.execCvtp op hi rm o s
  | .frnd f o => Sys2Proof.Machine.execFrnd f o s
  | .kand o => Sys2Proof.Machine.execKand o s
  | .kor o => Sys2Proof.Machine.execKor o s
  | .kxor o => Sys2Proof.Machine.execKxor o s
  | .knot o => Sys2Proof.Machine.execKnot o s
  | .kbal o => Sys2Proof.Machine.execKbal o s
  | .kset o => Sys2Proof.Machine.execKset o s
  | .shfl w64 mode o => Sys2Proof.Machine.execShfl w64 mode o s
  | .vote fn o => Sys2Proof.Machine.execVote fn o s
  | .gred op ty o => Sys2Proof.Machine.execGred op ty o s
  | .gscan op ty o => Sys2Proof.Machine.execGscan op ty o s
  | .rdlane o => Sys2Proof.Machine.execRdlane o s
  | .wrlane o => Sys2Proof.Machine.execWrlane o s
  | .ixw p ix a imm => Sys2Proof.Machine.execIxw p ix a imm s
  | .srd p ixs d r => Sys2Proof.Machine.execSrd p ixs d r s
  | .swr p ixs a r => Sys2Proof.Machine.execSwr p ixs a r s
  | .ld m => Sys2Proof.Machine.execLd m s
  | .st m => Sys2Proof.Machine.execSt m s
  | .bpk m => Sys2Proof.Machine.execBpk m s
  | .bpx m => Sys2Proof.Machine.execBpx m s
  | .pfch m => Sys2Proof.Machine.execPfch m s
  | .xlat x xr => Sys2Proof.Machine.execXlat x xr s
  | .cwb m => Sys2Proof.Machine.execCwb m s
  | .icinv m => Sys2Proof.Machine.execIcinv m s
  | .fbar p => Sys2Proof.Machine.execFbar p s
  | .fence p ord => Sys2Proof.Machine.execFence p ord s
  | .atom op a => Sys2Proof.Machine.execAtom op a s
  | .acas a => Sys2Proof.Machine.execAcas a s
  | .red op a => Sys2Proof.Machine.execRed op a s
  | .mcas n a => Sys2Proof.Machine.execMcas n a s
  | .lda a => Sys2Proof.Machine.execLda a s
  | .sta a => Sys2Proof.Machine.execSta a s
  | .waitu eq a => Sys2Proof.Machine.execWaitu eq a s
  | .bcopy x xr slot1 slot2 conv mask => Sys2Proof.Machine.execBcopy x xr slot1 slot2 conv mask s
  | .bfill x xr sz => Sys2Proof.Machine.execBfill x xr sz s
  | .waitc x path => Sys2Proof.Machine.execWaitc x path s
  | .icnt x path => Sys2Proof.Machine.execIcnt x path s
  | .slbq x xr => Sys2Proof.Machine.execSlbq x xr s
  | .amodeSto p sel => Sys2Proof.Machine.execAmodeSto p sel s
  | .amodeRck p sel => Sys2Proof.Machine.execAmodeRck p sel s
  | .macq p q => Sys2Proof.Machine.execMacq p q s
  | .mrel p q => Sys2Proof.Machine.execMrel p q s
  | .mloop f => Sys2Proof.Machine.execMloop f s
  | .mloopRes f => Sys2Proof.Machine.execMloopRes f s
  | .mstat x q => Sys2Proof.Machine.execMstat x q s
  | .mcal p sel => Sys2Proof.Machine.execMcal p sel s
  | .mxscl x xr slot => Sys2Proof.Machine.execMxscl x xr slot s
  | .qcvt x xr slot => Sys2Proof.Machine.execQcvt x xr slot s
  | .dqcvt x xr slot => Sys2Proof.Machine.execDqcvt x xr slot s
  | .barSync p b => Sys2Proof.Machine.execBarSync p b s
  | .barArrive p b => Sys2Proof.Machine.execBarArrive p b s
  | .barinit x b => Sys2Proof.Machine.execBarinit x b s
  | .spawn x => Sys2Proof.Machine.execSpawn x s
  | .qpush x => Sys2Proof.Machine.execQpush x s
  | .qpop x => Sys2Proof.Machine.execQpop x s
  | .qfree x => Sys2Proof.Machine.execQfree x s
  | .jdec x => Sys2Proof.Machine.execJdec x s
  | .commit p => Sys2Proof.Machine.execCommit p s
  | .forkg x => Sys2Proof.Machine.execForkg x s
  | .grwd x => Sys2Proof.Machine.execGrwd x s
  | .gbar x => Sys2Proof.Machine.execGbar x s
  | .gcan x => Sys2Proof.Machine.execGcan x s
  | .evpost x => Sys2Proof.Machine.execEvpost x s
  | .phintMem p => Sys2Proof.Machine.execPhintMem p s
  | .phintCmp p => Sys2Proof.Machine.execPhintCmp p s
  | .pgmap x => Sys2Proof.Machine.execPgmap x s
  | .pgunmap x => Sys2Proof.Machine.execPgunmap x s
  | .tlbinv x => Sys2Proof.Machine.execTlbinv x s
  | .pgtake x => Sys2Proof.Machine.execPgtake x s
  | .rets p => Sys2Proof.Machine.execRets p s
  | .pclr x => Sys2Proof.Machine.execPclr x s
  | .orclm x => Sys2Proof.Machine.execOrclm x s
  | .haltg x => Sys2Proof.Machine.execHaltg x s
  | .headerArrive a => Sys2Proof.Machine.execHeaderArrive a s
  | .laneMerge ctx => Sys2Proof.Machine.execLaneMerge ctx s
  | .rjtDetach gang => Sys2Proof.Machine.execRjtDetach gang s
  | .rendezvousTimeout gang => Sys2Proof.Machine.execRendezvousTimeout gang s
  | .earlyReturn ctx => Sys2Proof.Machine.execEarlyReturn ctx s
  | .rejoinDeadlock gang => Sys2Proof.Machine.execRejoinDeadlock gang s
  | .groupTimeout group => Sys2Proof.Machine.execGroupTimeout group s
  | .groupParentPushRetry n => Sys2Proof.Machine.execGroupParentPushRetry n s
  | .joinPushRetry n => Sys2Proof.Machine.execJoinPushRetry n s
  | .dispatchPlace die => Sys2Proof.Machine.execDispatchPlace die s
  | .launchPush grid => Sys2Proof.Machine.execLaunchPush grid s
  | .gangEnd gang => Sys2Proof.Machine.execGangEnd gang s
  | .forwardProgressSwap core => Sys2Proof.Machine.execForwardProgressSwap core s
  | .teamSaved team => Sys2Proof.Machine.execTeamSaved team s
  | .priorityRestore gang => Sys2Proof.Machine.execPriorityRestore gang s
  | .copyStart core => Sys2Proof.Machine.execCopyStart core s
  | .copyBeat core => Sys2Proof.Machine.execCopyBeat core s
  | .copyComplete core => Sys2Proof.Machine.execCopyComplete core s
  | .copyPageFault core => Sys2Proof.Machine.execCopyPageFault core s
  | .seqRunStart core q => Sys2Proof.Machine.execSeqRunStart core q s
  | .seqStepStart core q => Sys2Proof.Machine.execSeqStepStart core q s
  | .seqRow core q => Sys2Proof.Machine.execSeqRow core q s
  | .seqRunEnd core q => Sys2Proof.Machine.execSeqRunEnd core q s
  | .pageWalk agent ctx va => Sys2Proof.Machine.execPageWalk agent ctx va s
  | .loadDataLand a flight => Sys2Proof.Machine.execLoadDataLand a flight s
  | .registrationRequest m => Sys2Proof.Machine.execRegistrationRequest m s
  | .registrationGrant m => Sys2Proof.Machine.execRegistrationGrant m s
  | .homeFill m => Sys2Proof.Machine.execHomeFill m s
  | .forwardedLoad m => Sys2Proof.Machine.execForwardedLoad m s
  | .revocation m => Sys2Proof.Machine.execRevocation m s
  | .writeBack m => Sys2Proof.Machine.execWriteBack m s
  | .farStore m => Sys2Proof.Machine.execFarStore m s
  | .farAtomic m => Sys2Proof.Machine.execFarAtomic m s
  | .storeAck m => Sys2Proof.Machine.execStoreAck m s
  | .mcasLock m => Sys2Proof.Machine.execMcasLock m s
  | .waituWake m => Sys2Proof.Machine.execWaituWake m s
  | .waituPoll a => Sys2Proof.Machine.execWaituPoll a s
  | .waituTimeout a => Sys2Proof.Machine.execWaituTimeout a s
  | .ownerLost unit => Sys2Proof.Machine.execOwnerLost unit s
  | .ownerLostNotice m => Sys2Proof.Machine.execOwnerLostNotice m s
  | .remoteTimeout m => Sys2Proof.Machine.execRemoteTimeout m s
  | .lateAnswer m => Sys2Proof.Machine.execLateAnswer m s
  | .linkDown port => Sys2Proof.Machine.execLinkDown port s
  | .rmaWrite ep key off bytes => Sys2Proof.Machine.execRmaWrite ep key off bytes s
  | .rmaRead ep key off len => Sys2Proof.Machine.execRmaRead ep key off len s
  | .winopen c => Sys2Proof.Machine.execWinopen c s
  | .winclose c => Sys2Proof.Machine.execWinclose c s
  | .launch c => Sys2Proof.Machine.execLaunch c s
  | .halt c => Sys2Proof.Machine.execHalt c s
  | .resume c => Sys2Proof.Machine.execResume c s
  | .kill c => Sys2Proof.Machine.execKill c s
  | .strd c => Sys2Proof.Machine.execStrd c s
  | .stwr c => Sys2Proof.Machine.execStwr c s
  | .evdrain c => Sys2Proof.Machine.execEvdrain c s
  | .power c => Sys2Proof.Machine.execPower c s
  | .dieGating die => Sys2Proof.Machine.execDieGating die s
  | .setdst c => Sys2Proof.Machine.execSetdst c s
  | .domain c => Sys2Proof.Machine.execDomain c s
  | .l1partSet c => Sys2Proof.Machine.execL1partSet c s
  | .l1partRead c => Sys2Proof.Machine.execL1partRead c s
  | .endpoints c => Sys2Proof.Machine.execEndpoints c s
  | .identity c => Sys2Proof.Machine.execIdentity c s
  | .attest c => Sys2Proof.Machine.execAttest c s
  | .fwstage c => Sys2Proof.Machine.execFwstage c s
  | .fwcommit c => Sys2Proof.Machine.execFwcommit c s
  | .logrd c => Sys2Proof.Machine.execLogrd c s
  | .gridend c => Sys2Proof.Machine.execGridend c s
  | .reset => Sys2Proof.Machine.execReset s
  | .islandEnterNear island => Sys2Proof.Machine.execIslandEnterNear island s
  | .islandLeaveNear island => Sys2Proof.Machine.execIslandLeaveNear island s
  | .islandTransitionDone island => Sys2Proof.Machine.execIslandTransitionDone island s
  | .droop cluster => Sys2Proof.Machine.execDroop cluster s
  | .sag cluster up => Sys2Proof.Machine.execSag cluster up s
  | .softError site => Sys2Proof.Machine.execSoftError site s
  | .unsupportedFeaturePacket ep tag => Sys2Proof.Machine.execUnsupportedFeaturePacket ep tag s
  | .unknownOpc c => Sys2Proof.Machine.execUnknownOpc c s
  | .instructionCacheFill a line => Sys2Proof.Machine.execInstructionCacheFill a line s
  | .icinvRemovalAck a flight => Sys2Proof.Machine.execIcinvRemovalAck a flight s
  | .droopEnd cluster => Sys2Proof.Machine.execDroopEnd cluster s

end Sys2Proof.Machine
end

