-- ==== Sys2Proof/Machine/Schedule.lean ====
section
/-!
DEFINITION. One thread's next instruction (R19, R27, R70, R199, R416), and the order in which the model lets the machine's
events and threads go on where nothing prescribes one (assumption 3).
-/
namespace Sys2Proof.Machine

/-! ## One thread (R70, R418, R435, R454) -/

/-- Whether a gang's copy has paused and its handler is still to run or running (R226, R454). -/
def State.pausedCopy (s : State) (u : Nat) : Bool :=
  s.cores.any fun c => c.2.copyQ.any fun j => j.gang == u && j.paused

/-- Whether a thread may issue: it has not stopped, its team runs and owns the sequencers it had (R345), or it is in a
handler that a drain waits for, because its copy has paused or it holds up a team barrier that every gang has reached (R454), and it
stands in no wait that only an event ends. A gang in a team barrier looks at
it again. -/
def State.mayIssue (s : State) (v : View) : Bool :=
  let t := s.teamOf v.g
  let held := match v.g.pfWait with
    | .amode | .commit | .grwd => s.barrierFull t
    | _ => false
  let drain := v.lane.isNone && v.g.inPf && (s.pausedCopy v.uid || held)
  let runs := match v.lane, (tget s.lanes v.ctxNo).map LaneCtx.st with
    | none, _ => true
    | some _, some .ejected | some _, some .detached => true
    | some _, _ => false
  let wait := match v.t.wait with
    | .bar _ | .waitu _ | .waitMerge _ => false
    | _ => true
  !v.g.halted && !v.g.ended && runs && wait && ((t.st == .running && !s.seqWaits t) || drain)

/-- A word that stands in a block at width 64 is a KBAL whose destination pair is odd (R288). -/
def kbalOdd (w : Word) (width : Nat) : Bool :=
  opByte w == 0x64#8 && width == 64 &&
    match clsOf (unpackR w).d with
    | .v => (unpackR w).d.getLsbD 0
    | _ => false

/-- A word that is no instruction the thread can execute: supervisor words in user mode halt (R70), from a lane after it has
returned early where they are ejection-unsafe (R368); the others enter emulation (R71). -/
def State.rejectWord (s : State) (w : Word) (cause : Nat) : Out :=
  match s.view with
  | none => .fault .noAgent
  | some v0 =>
    let (s, v) := s.startIssue v0
    if opByte w != 0xFF#8 && privileged w && !v.sup then
      .next (if v.lane.isSome && supervisorOp (opByte w) then s.earlyReturn v.ctxNo else s.haltV v { cause := .privilege })
    else .next (s.emulate v w cause 0)

/-- Execute a fetched word (R70). -/
def State.runWord (s : State) (v : View) (w : Word) : Out :=
  if opByte w == 0xFF#8 then s.rejectWord w 6
  else if privileged w && !v.sup then s.rejectWord w 0
  else
    match decode w with
    | .ok i => exec i s
    | .error .guard => s.rejectWord w (if kbalOdd w v.g.width then 7 else 8)
    | .error c => s.rejectWord w c.num

/-- A thread that has left a word has issued it; one that stands there still holds it (R203) and waits in it (R416). -/
def State.dropWord (s : State) (v : View) : State :=
  let pc := v.t.pc
  s.modThr v.a fun t =>
    if t.pc = pc then { t with tried := some (s.clk v.g.core) } else { t with fbuf := tdel t.fbuf pc.toNat, tried := none }

/-- A thread fetches the word at its PC and executes it. -/
def State.fetchRun (s : State) (v : View) : Out :=
  match s.fetch v v.t.pc with
  | (s, .halt c a) => .next (s.haltV v { cause := c, addr := a })
  | (s, .fault l) => .next (s.fetchFault v v.t.pc l)
  | (s, .word w) =>
    let t := { v.t with fbuf := tput v.t.fbuf v.t.pc.toNat w }
    match (s.setThr v.a t).runWord { v with t := t } w with
    | .next s => .next (s.dropWord v)
    | o => o

/-- A team that issues owns the sequencers it had before a swap (R345). -/
def State.ownsSeqs (s : State) (n : Nat) : State :=
  s.modTeam n fun t => if t.st == .running then { t with seqDue := [] } else t

/-- The thread's step without the work around it: the first engine fault it can take, the end of a cancelled sibling, what a
gang without an active lane does (R360, R374), a header to be read (R29) or met, or a word. -/
def State.threadStep (s : State) (v : View) : Out :=
  let cancelled := (s.teamOf v.g).cancelled && !v.g.halted && !v.g.ended
  if v.lane.isNone && v.g.engFaults.head?.any (s.canFault v.g) then .next (s.takeEngFault v.uid)
  else if cancelled && v.lane.isSome then .next ((s.endMonitors v.a).dropLane v.ctxNo)
  else if cancelled && (v.t.wait != .none || v.t.tried.isSome || s.blockedGang v.uid) then
    .next ((s.endMonitors v.a).cancelGang v.uid)
  else if !s.mayIssue v then .next s
  else
    let s := (s.ownsSeqs v.g.team).atIssue v
    if v.lane.isNone && v.act = 0 && (v.g.stack.isEmpty || !v.t.atHdr) then .next (s.settleGang v.uid)
    else if v.t.atHdr then s.arriveHeader v.a
    else if !isHdr v.t.hdr then s.loadHeader v
    else s.fetchRun v

/-- A gang whose wait has just ended is ready from now on (R416). -/
def State.freed (s before : State) : State :=
  let ended (e : Nat × Gang) : Bool := e.2.thr.wait == .none && (tget before.gangs e.1).any fun g => g.thr.wait != .none
  if s.gangs.any ended then
    { s with gangs := s.gangs.map fun e =>
        if ended e then (e.1, { e.2 with thr := { e.2.thr with next := Nat.max e.2.thr.next (s.clk e.2.core) } }) else e }
  else s

/-- What follows every event and every thread's step: events and swap areas go into their queues, requests at home that only
waited for room in the registry go on (R124), and every WAITU is judged (R196). A step that has read what its home could not
answer yet is put off: home asks the owner, and the step is tried again (assumption 114). -/
def State.wrapUp (s before : State) : State :=
  match s.unread with
  | some p => before.stirRead p.1 p.2
  | none =>
    let tried (s t : State) : State := match t.unread with | none => t | some p => s.stirRead p.1 p.2
    let s := (tried s s.flushPosts.flushAreas).settleHome
    (((tried s s.settleWaits).forget).freed before).watchIslands before

/-- Count an issue on a gang's island (R484) where a step has issued. -/
def State.counted (s before : State) (v : View) : State :=
  let issued := v.lane.isNone && mget 0 s.units (unitOf v.g) != mget 0 before.units (unitOf v.g)
  if issued then s.countIssue v.g.core (if v.g.width = 64 then 2 else 1) else s

/-- A thread's step: spilled stack entries return before it and leave again after it (R377, R378). -/
def State.issueThread (s : State) (a : Actor) : Out :=
  let s : State := { s with cur := some a }
  match s.viewOf a with
  | none => .fault .noAgent
  | some v =>
    let o := s.withStack v.uid fun s =>
      match s.viewOf a with
      | none => .fault .noAgent
      | some v => s.threadStep v
    match o with
    | .next s' => .next ((s'.counted s v).wrapUp s)
    | o => o

/-- An event, or an instruction of the current thread. -/
def State.runEvent (s : State) (i : Instr) : Out :=
  match exec i s with
  | .next t => .next (t.wrapUp s)
  | o => o

/-- An outstanding command or RMA operation is taken up again. -/
def State.runOp (s : State) (k : Nat) : Out :=
  match tget s.waiting k with
  | none => .next s
  | some w =>
    match ({ s with op := some k } : State).runEvent w.1 with
    | .next t => .next { t with op := none }
    | o => o

/-! ## The model's own order (assumption 3) -/

/-- The event that takes a message up. -/
def msgEvent (m : Msg) : Instr :=
  match m.body with
  | .req r =>
    match r.req with
    | .reg _ => .registrationRequest m.id
    | .fill _ _ _ _ _ | .watch _ _ _ _ _ => .homeFill m.id
    | .farStore _ _ _ _ _ _ | .plane _ _ _ _ _ _ _ _ => .farStore m.id
    | .farAtomic _ _ _ _ _ _ _ _ _ | .red _ _ _ _ _ _ _ _ _ => .farAtomic m.id
    | .lock _ _ | .peer .lock | .peer .unlock => .mcasLock m.id
    | .peer (.watch _ _ _) | .peer .unwatch | .peer .orclm => .homeFill m.id
    | .peer (.pclr _ _) => .farStore m.id
  | .grant _ _ _ _ | .denied _ _ => .registrationGrant m.id
  | .revoke _ _ => .revocation m.id
  | .forward _ _ => .forwardedLoad m.id
  | .writeBack _ _ _ => .writeBack m.id
  | .ack _ _ _ _ _ => .storeAck m.id
  | .wake _ => .waituWake m.id
  | .lost _ _ => .ownerLostNotice m.id
  | .late => .lateAnswer m.id

/-- The threads. -/
def State.actors (s : State) : List Actor :=
  (s.gangs.map fun e => Actor.gang e.1) ++ s.lanes.map fun e => Actor.lane e.1

/-- The events of a thread: landings, and the end of its waits. -/
def threadEvents (a : Actor) (t : Thr) : List Instr :=
  (t.flights.filterMap fun f =>
    if f.landed || f.wait != 0 then none
    else match f.kind with
      | .write => none
      | .line => some (.icinvRemovalAck a f.id)
      | _ => some (.loadDataLand a f.id)) ++
  match t.wait with
  | .waitu _ => [.waituPoll a, .waituTimeout a]
  | _ => []

/-- Whether an island's clock may be due for a look: its policy holds it NEAR, a gang on it holds a hint, or a window of
activity is over (R484, R485). -/
def State.islandLook (s : State) (i : Nat) : Bool :=
  let x := s.island i
  x.toward.isNone && ((s.dieOf (i / 64)).policy == 2 && x.st == .near || (s.dieOf (i / 64)).policy == 3 ||
    decide (x.busyFrom + 1000000 ≤ s.ps) ||
    s.gangs.any fun g => islandOf g.2.core == i && g.2.hint != .none)

/-- The events that may be due, in the order in which the model tries them. -/
def State.events (s : State) : List Instr :=
  (if !s.hkc.started && s.hkc.mlog.isEmpty then [Instr.reset] else []) ++
  s.net.map msgEvent ++
  (s.gangs.flatMap fun e => threadEvents (.gang e.1) e.2.thr) ++
  (s.lanes.flatMap fun e => threadEvents (.lane e.1) e.2.thr ++ [.laneMerge e.1, .earlyReturn e.1]) ++
  (s.cores.flatMap fun c =>
    (if c.2.copyQ.isEmpty then [] else [.copyStart c.1, .copyBeat c.1, .copyComplete c.1, .copyPageFault c.1]) ++
    c.2.seqs.flatMap fun q =>
      [.seqRunStart c.1 q.1, .seqStepStart c.1 q.1, .seqRow c.1 q.1, .seqRunEnd c.1 q.1]) ++
  (s.gangs.flatMap fun e =>
    [.gangEnd e.1, .rjtDetach e.1, .rendezvousTimeout e.1, .rejoinDeadlock e.1, .priorityRestore e.1]) ++
  (s.teams.map fun e => .teamSaved e.1) ++
  (s.grids.map fun e => .launchPush e.1) ++
  (s.groups.map fun e => .groupTimeout e.1) ++
  (s.retries.map fun e => if e.2.group then .groupParentPushRetry e.1 else .joinPushRetry e.1) ++
  ((List.range 8).flatMap fun d => [.dieGating d, .dispatchPlace d]) ++
  (s.cores.map fun c => .forwardProgressSwap c.1) ++
  (s.home.map fun e => .ownerLost e.1) ++
  (s.openReqs.map fun r => .remoteTimeout r.id) ++
  (s.islands.flatMap fun i => [.islandTransitionDone i.1]) ++
  ((List.range 512).filter s.islandLook).flatMap fun i => [.islandEnterNear i, .islandLeaveNear i]

/-- Whether a step has done more than use free values, fill caches of translations and words, or name a thread. -/
def moved (s s' : State) : Bool := decide ({ s' with free := s.free, front := s.front, cur := s.cur } ≠ s)

/-- The first of some steps that does anything. -/
def firstMove (s : State) : List (State → Out) → Option Out
  | [] => none
  | f :: fs =>
    match f s with
    | .next s' => if moved s s' then some (.next s') else firstMove s fs
    | _ => firstMove s fs

/-- The cycle from which a gang has been ready, as its distance, the last cycle in which it waited in its instruction, and its
rankings tell (R416). -/
def Gang.readyFrom (g : Gang) : Nat :=
  Nat.max (Nat.max g.thr.next (g.thr.tried.getD 0)) (Nat.max (g.lowUntil.getD 0) (g.yieldUntil.getD 0))

/-- When a thread can issue next, and its rank among those of one moment (R390, R416, R417): gangs that have been ready for 32
cycles, the longest first, so that each of the 16 of a unit issues within 64; then the others by age; demoted and yielded gangs
last. -/
def State.issueKey (s : State) (a : Actor) : List Nat :=
  match s.viewOf a with
  | none => []
  | some v =>
    let late := decide (v.g.readyFrom + 32 ≤ v.now)
    let low := v.g.lowUntil.isSome || v.g.yieldUntil.isSome
    let rank := if v.lane.isSome then [1] else if late then [0, v.g.readyFrom] else if low then [2] else [1]
    Nat.max s.ps (s.issuePs v) :: rank ++ [v.g.age]

/-- Whether one key comes before another. -/
def keyLe : List Nat → List Nat → Bool
  | a :: as, b :: bs => decide (a < b) || (a == b && keyLe as bs)
  | [], _ => true
  | _, _ => false

/-- Insert by key. -/
def insertKey (x : List Nat × Actor) : List (List Nat × Actor) → List (List Nat × Actor)
  | [] => [x]
  | y :: ys => if keyLe x.1 y.1 then x :: y :: ys else y :: insertKey x ys

/-- The threads in the order in which they can issue. -/
def State.byIssue (s : State) : List Actor :=
  (s.actors.foldr (fun a l => insertKey (s.issueKey a, a) l) []).map Prod.snd

/-- The moments to come at which something has to happen: scratchpad data lands (R238), a row ends (R335), an island's transition
(R486), a push is tried again (R402). -/
def State.dues (s : State) : List Nat :=
  let lands (core : Nat) (t : Thr) : List Nat :=
    t.flights.filterMap fun f => if f.landed || f.due = 0 then none else some ((s.island (islandOf core)).psOf f.due)
  ((s.gangs.flatMap fun e => lands e.2.core e.2.thr) ++
    (s.lanes.flatMap fun e => match tget s.gangs e.2.gang with | some g => lands g.core e.2.thr | none => []) ++
    (s.runs.filterMap fun r => if r.stepOn then some (s.runPs r r.due) else none) ++
    (s.islands.filterMap fun i => if i.2.toward.isSome then some i.2.until_ else none) ++
    s.retries.map fun r => r.2.due).filter fun d => decide (s.ps < d)

/-- The first of them before a moment, or that moment. -/
def State.nextPs (s : State) (ps : Nat) : Nat := s.dues.foldl Nat.min ps

/-- A thread's step where nothing is due before it. -/
def State.issueNext (s : State) (a : Actor) : Out :=
  let at_ := match s.viewOf a with | some v => Nat.max s.ps (s.issuePs v) | none => s.ps
  if s.nextPs at_ < at_ then .next { s with ps := s.nextPs at_ } else s.issueThread a

/-- What happens next where nothing prescribes it: the first event that is due, else the first thread that can issue, else a
nanosecond passes. -/
def State.auto (s : State) : Out :=
  match firstMove s ((s.events.map fun i s => s.runEvent i) ++ s.waiting.map fun w s => s.runOp w.1) with
  | some o => o
  | none =>
    match firstMove s (s.byIssue.map fun a s => s.issueNext a) with
    | some o => o
    | none => .next { s with ps := s.nextPs (s.ps + 1000) }

/-- What the schedule prescribes next, or the model's own order. -/
def State.happen (s : State) : Out :=
  match s.inputs with
  | [] => s.auto
  | h :: rest =>
    let s : State := { s with inputs := rest }
    match h with
    | .event i => s.runEvent i
    | .issue a => s.issueThread a
    | .again k => s.runOp k
    | .elapse n => .next { s with ps := s.ps + n }
    | .msg b => .next (s.send b)

/-! ## A word as a thread's next instruction -/

/-- The header of the block that `placeWord` stands in: LEN 255, a conditional block. -/
def probeHdr : Word := 0xFFFF010000000000

/-- A state with a new gang of a new team in supervisor mode whose next word is `w`, and that gang's issue as the next thing
that happens (assumption 5). -/
def State.placeWord (s : State) (w : Word) : State :=
  let u := s.fresh
  let thr : Thr :=
    { pc := 0x1008, hdra := 0x1000, hdr := probeHdr, atHdr := false, fbuf := [(0x1000, probeHdr), (0x1008, w)] }
  let g : Gang :=
    { thr := thr, team := u, vallot := 256, stack := [⟨0x1008, none, fullMask 16, 0, 0x1000, probeHdr⟩], sup := true, age := u }
  { s with
    gangs := tput s.gangs u g
    teams := tput s.teams u { grid := u + 1024, gangs := [u], cores := [0] }
    grids := tput s.grids (u + 1024) { vallot := 256, teams := 1, pushed := 1 }
    hkc := { s.hkc with started := true }
    fresh := s.fresh + 1
    inputs := [.issue (.gang u)] }

end Sys2Proof.Machine
end

