-- ==== Sys2Proof/Machine/Step.lean ====
section
/-!
DEFINITION. The step of the machine: the next thing that happens.
-/
namespace Sys2Proof.Machine

/-- One step: what `inputs` prescribes next, or else an event that is due, or else the next instruction of a thread. -/
def step (s : State) : Host.Outcome State Fault Refusal := s.happen

/-- A state whose next step fetches and executes the word whose bits are `w` (assumption 5). -/
def State.withFetchWord (s : State) (nbits w : Nat) : State := s.placeWord (BitVec.ofNat 64 (w % 2 ^ nbits))

end Sys2Proof.Machine
end

