-- ==== Sys2Proof/WellFormed.lean ====
section
/-!
DEFINITION. The well-formed instructions: the operands, fields and runs that R36, R47 to R60 and the
instruction chapters allow, stated on the syntax. Device events and host commands are well formed as they stand.
-/
namespace Sys2Proof

/-- The guard (!k0) is reserved (R36). -/
def Pre.wf (p : Pre) : Bool := !(p.pn && p.pk == 0#3)

/-- The class of an operand. -/
def Opd.cls : Opd → Cls
  | .v _ _ => .v
  | .s _ => .s
  | .k _ => .k
  | .p _ => .p
  | .c _ => .c

/-- Whether an operand is an indexed v register (R51). -/
def Opd.indexed : Opd → Bool
  | .v _ ix => ix
  | _ => false

/-- An operand of an admitted class whose v group is aligned (R50, R55). -/
def Opd.ok (o : Opd) (adm : List Cls) (grp : Nat) : Bool :=
  adm.contains o.cls &&
  match o with
  | .v n _ => n.toNat % grp == 0
  | _ => true

/-- A nonzero IXS needs an indexed operand (R51). -/
def ixsWf (ixs : BitVec 2) (l : List Opd) : Bool := ixs == 0#2 || l.any Opd.indexed

/-- R55: an s destination has no v or k source. -/
def gatherWf (d : Opd) (srcs : List Opd) : Bool :=
  d.cls != .s || srcs.all fun o => o.cls != .v && o.cls != .k

/-- Destination classes. -/
abbrev admD : List Cls := [.v, .s]
/-- Source classes. -/
abbrev admS : List Cls := [.v, .s, .c, .p]
/-- Predicate class. -/
abbrev admK : List Cls := [.k]
/-- Offset classes. -/
abbrev admO : List Cls := [.v, .s, .c]

/-- Two operands. -/
def R2.wf (o : R2) (gather : Bool) (d a : List Cls × Nat) : Bool :=
  o.p.wf && ixsWf o.ixs [o.d, o.a] && o.d.ok d.1 d.2 && o.a.ok a.1 a.2 && (gather || gatherWf o.d [o.a])
/-- Three operands. -/
def R3.wf (o : R3) (gather : Bool) (d a b : List Cls × Nat) : Bool :=
  o.p.wf && ixsWf o.ixs [o.d, o.a, o.b] && o.d.ok d.1 d.2 && o.a.ok a.1 a.2 && o.b.ok b.1 b.2 &&
    (gather || gatherWf o.d [o.a, o.b])
/-- Four operands. -/
def R4.wf (o : R4) (gather : Bool) (d a b c : List Cls × Nat) : Bool :=
  o.p.wf && ixsWf o.ixs [o.d, o.a, o.b, o.c] && o.d.ok d.1 d.2 && o.a.ok a.1 a.2 && o.b.ok b.1 b.2 &&
    o.c.ok c.1 c.2 && (gather || gatherWf o.d [o.a, o.b, o.c])
/-- An arithmetic one-source instruction. -/
def R2.alu (o : R2) (gd ga : Nat) : Bool := o.wf false (admD, gd) (admS, ga)
/-- An arithmetic two-source instruction. -/
def R3.alu (o : R3) (gd ga gb : Nat) : Bool := o.wf false (admD, gd) (admS, ga) (admS, gb)
/-- An arithmetic three-source instruction. -/
def R4.alu (o : R4) (gd ga gb gc : Nat) : Bool := o.wf false (admD, gd) (admS, ga) (admS, gb) (admS, gc)
/-- A Format I arithmetic instruction. -/
def I2.alu (o : I2) (g : Nat) : Bool :=
  o.p.wf && ixsWf o.ixs [o.d, o.a] && o.d.ok admD g && o.a.ok admD g && gatherWf o.d [o.a]
/-- A Format I instruction of one operand. -/
def I1.wf (o : I1) : Bool := o.p.wf && ixsWf o.ixs [o.d] && o.d.ok admD 1
/-- Registers of a bit instruction. -/
def wgrp (w64 : Bool) : Nat := if w64 then 2 else 1
/-- A run of n registers does not pass s63 (R59). -/
def X1.wf (x : X1) (run : Nat) : Bool := x.p.wf && decide (x.sb.toNat + run ≤ 64)
/-- A Format M instruction. -/
def MF.wf (m : MF) (grp : Nat) (sDest : Bool) : Bool :=
  m.p.wf && ixsWf m.ixs [m.v, m.o] && m.v.ok admD grp && m.o.ok admO 1 &&
    (!sDest || m.v.cls != .s || m.o.cls != .v)
/-- A line instruction of Format M. -/
def MLineF.wf (m : MLineF) : Bool := m.p.wf && ixsWf m.ixs [m.o] && m.o.ok admO 1
/-- A Format A instruction. -/
def AF.wf (m : AF) (adm : List Cls) (grp : Nat) (sDest : Bool) : Bool :=
  m.p.wf && ixsWf m.ixs [m.v, m.o] && m.sz.ordered && m.v.ok adm grp && m.o.ok admO 1 &&
    (!sDest || m.v.cls != .s || m.o.cls != .v)

/-- The well-formed instructions. -/
def Instr.wf : Instr → Bool
  | .nop p | .fbar p | .commit p | .rets p | .phintMem p | .phintCmp p => p.wf
  | .bkpt p _ | .trapu p _ => p.wf
  | .bra _ _ | .brcDiv _ _ _ _ | .brcAny _ _ _ _ | .brcAll _ _ _ _ | .brx _ _ _ | .call _ _ _ | .ret _ _
  | .exit _ | .gjoin _ _ | .yield _ | .retu _ => true
  | .iadd _ t o | .isub _ t o => o.alu t.grp t.grp t.grp
  | .imul t o | .imulh t o | .imin t o | .imax t o => o.alu t.grp t.grp t.grp
  | .imad _ t o => o.alu t.grp t.grp t.grp t.grp
  | .iabs _ t o => t.signed && o.alu t.grp t.grp
  | .icmp _ t o => o.wf false (admK, 1) (admS, t.grp) (admS, t.grp)
  | .idiv _ t o => o.alu t.grp t.grp t.grp
  | .lea t o => o.alu t.grp t.grp t.grp 1
  | .iaddi t o | .imuli t o => o.alu t.grp
  | .icmpi _ t p ixs d a _ => p.wf && ixsWf ixs [d, a] && d.ok admK 1 && a.ok admD t.grp
  | .movi _ o => o.wf
  | .movk part o => o.wf && !(part == .h2 && o.d.cls == .v) && movkBits part (o.d.cls == .v) o.imm
  | .and w o | .or w o | .xor w o | .andn w o => o.alu (wgrp w) (wgrp w) (wgrp w)
  | .shl w o | .shr w o | .sra w o | .rot w o => o.alu (wgrp w) (wgrp w) 1
  | .bfe _ w o => o.alu (wgrp w) (wgrp w) 1 1
  | .bfi w o => o.alu (wgrp w) (wgrp w) (wgrp w) 1
  | .popc w o | .clz w o => o.alu 1 (wgrp w)
  | .brev w o | .mov w o => o.alu (wgrp w) (wgrp w)
  | .sel w o => o.wf false (admD, wgrp w) (admS, wgrp w) (admS, wgrp w) (admK, 1)
  | .logi _ o => o.alu 1
  | .fadd _ o | .fsub _ o | .fmul _ o | .fdiv _ o | .fldx _ o => o.alu 1 1 1
  | .ffma _ o => o.alu 1 1 1 1
  | .fmin _ o | .fmax _ o => o.alu 1 1 1
  | .fcmp _ o | .fclass o => o.wf false (admK, 1) (admS, 1) (admS, 1)
  | .frcp _ _ o | .frsq _ _ o | .fexp2 _ _ o | .flog2 _ _ o | .fsin _ _ o | .fcos _ _ o | .ftanh _ _ o => o.alu 1 1
  | .fsqrt _ o | .frnd _ o => o.alu 1 1
  | .hadd2 _ o | .hmul2 _ o => o.alu 1 1 1
  | .hfma2 _ o => o.alu 1 1 1 1
  | .hmin2 _ _ o | .hmax2 _ _ o => o.alu 1 1 1
  | .dot4 _ _ _ o => o.alu 1 1 1 1
  | .cvt op r o => (!op.fixed || r == .rn) && o.alu op.grpD op.grpA
  | .cvtp op hi _ o => (!hi || op.narrow) && o.alu 1 1 1
  | .kand o | .kor o | .kxor o => o.wf true (admK, 1) (admK, 1) (admK, 1)
  | .knot o => o.wf true (admK, 1) (admK, 1)
  | .kbal o | .vote _ o => o.wf true (admD, 1) (admK, 1)
  | .kset o => o.wf true (admK, 1) (admS, 1)
  | .shfl w _ o => o.wf true ([.v], wgrp w) ([.v], wgrp w) (admO, 1) (admO, 1)
  | .gred op t o => (!op.float || t == .i32) && o.wf true (admD, t.grp) ([.v], t.grp)
  | .gscan op t o => (!op.float || t == .i32) && o.wf true ([.v], t.grp) ([.v], t.grp)
  | .rdlane o => o.wf true ([.s], 1) ([.v], 1) ([.s, .c], 1)
  | .wrlane o => o.wf true ([.v], 1) ([.s, .c], 1) ([.s, .c], 1)
  | .ixw p _ a _ => p.wf && a.ok [.s, .c] 1
  | .srd p ixs d r =>
    p.wf && ixsWf ixs [d] && d.ok admD (wgrp r.wide) && !(r.laneScope && d.cls == .s)
  | .swr p ixs a r => p.wf && ixsWf ixs [a] && r.writable && a.ok admD (wgrp r.wide)
  | .ld m => m.wf m.sz.grp true && !(m.v.cls == .s && m.sz == .b128)
  | .st m => m.wf m.sz.grp false && !m.chk && !(m.v.cls == .s && m.sz == .b128)
  | .bpk m => m.wf 1 false && !m.chk && m.sz.plane
  | .bpx m => m.wf 1 true && m.sz.plane
  | .pfch m => m.wf
  | .cwb m | .icinv m => m.wf && m.pol == .page
  | .xlat x xr => x.wf 3 && decide (xr.toNat < 6)
  | .fence p o => p.wf && o != .pln && o != .cmt
  | .atom op a => a.wf admD a.sz.grp true && a.ord != .cmt && !(op.float && a.sz == .b64)
  | .acas a => a.wf [.v] (2 * a.sz.grp) false && a.ord != .cmt
  | .red op a => a.wf admD a.sz.grp false && !a.chk && op != .xchg && !(op.float && a.sz == .b64)
  | .mcas n a =>
    a.wf [.s] 1 false && a.sz == .b64 && a.ord == .sc && !a.chk && a.o.cls != .v &&
      decide (1 ≤ n.toNat ∧ n.toNat ≤ 8)
  | .lda a | .waitu _ a => a.wf admD a.sz.grp true && a.ord != .cmt
  | .sta a => a.wf admD a.sz.grp false && a.ord != .cmt && !a.chk
  | .bcopy x _ s1 s2 conv _ => x.wf 4 && (conv != .raw || (s1 == 0#3 && s2 == 0#3))
  | .bfill x _ _ => x.wf 3
  | .waitc x _ | .icnt x _ | .mstat x _ | .barinit x _ | .grwd x | .haltg x => x.wf 1
  | .slbq x _ => x.wf 2
  | .amodeSto p _ | .amodeRck p _ | .mcal p _ => p.wf
  | .macq p _ | .mrel p _ | .barSync p _ | .barArrive p _ => p.wf
  | .mloop f | .mloopRes f => f.p.wf && decide (f.sb.toNat + 6 ≤ 64)
  | .mxscl x _ _ | .qcvt x _ _ | .dqcvt x _ _ | .pgmap x => x.wf 4
  | .spawn x | .qpush x | .evpost x | .gcan x | .tlbinv x | .pclr x => x.wf 3
  | .qpop x | .qfree x | .jdec x | .gbar x | .pgunmap x | .pgtake x | .orclm x => x.wf 2
  | .forkg x => x.wf 5
  | .headerArrive _ | .laneMerge _ | .rjtDetach _ | .rendezvousTimeout _ | .earlyReturn _ | .rejoinDeadlock _
  | .groupTimeout _ | .groupParentPushRetry _ | .joinPushRetry _ | .dispatchPlace _ | .launchPush _ | .gangEnd _
  | .forwardProgressSwap _ | .teamSaved _ | .priorityRestore _ | .copyStart _ | .copyBeat _ | .copyComplete _
  | .copyPageFault _ | .seqRunStart _ _ | .seqStepStart _ _ | .seqRow _ _ | .seqRunEnd _ _ | .pageWalk _ _ _
  | .loadDataLand _ _ | .registrationRequest _ | .registrationGrant _ | .homeFill _ | .forwardedLoad _
  | .revocation _ | .writeBack _ | .farStore _ | .farAtomic _ | .storeAck _ | .mcasLock _ | .waituWake _
  | .waituPoll _ | .waituTimeout _ | .ownerLost _ | .ownerLostNotice _ | .remoteTimeout _ | .lateAnswer _
  | .linkDown _ | .rmaWrite _ _ _ _ | .rmaRead _ _ _ _ | .winopen _ | .winclose _ | .launch _ | .halt _
  | .resume _ | .kill _ | .strd _ | .stwr _ | .evdrain _ | .power _ | .dieGating _ | .setdst _ | .domain _
  | .l1partSet _ | .l1partRead _ | .endpoints _ | .identity _ | .attest _ | .fwstage _ | .fwcommit _ | .logrd _
  | .gridend _ | .reset | .islandEnterNear _ | .islandLeaveNear _ | .islandTransitionDone _ | .droop _ | .sag _ _
  | .softError _ | .unsupportedFeaturePacket _ _ | .unknownOpc _ | .instructionCacheFill _ _
  | .icinvRemovalAck _ _ | .droopEnd _ => true

end Sys2Proof
end

