-- ==== Sys2Proof/Safety.lean ====
section
/-!
DEFINITION. What counts as a safe run: every step answers a next state, and what must hold between steps.
-/
namespace Sys2Proof

open Machine

/-- The state after n steps, as long as every step answers one. -/
def runs : Nat → State → Option State
  | 0, s => some s
  | n + 1, s =>
    match step s with
    | .next s => runs n s
    | _ => none

/-- A state from which every run goes on: no step faults and none is refused. -/
def Safe (s : State) : Prop := ∀ n, ∃ t, runs n s = some t

/-- The memory is in canonical form: addresses strictly rising, no entry equal to what an unlisted address reads as. -/
def MemInv (s : State) : Prop := memWf s.mem = true

end Sys2Proof
end

