-- ==== Sys2Proof/Certificates/Slice0/Obligations.lean ====
section
/-!
DEFINITION. The statements for the provers. Each is a proposition about the model that formalises rules of the spec or
follows from them; its docstring names them. `Sys2Proof.Claims` holds the words the statements share.
-/
section Statements

open Sys2Proof Sys2Proof.Machine

/-! ## Encoding and the step -/

/-- R26 to R60: the word of a well-formed instruction decodes to that instruction, with every operand and field. -/
def Obligations.DecodeOfEncodeIsTheInstruction : Prop :=
  ∀ (i : Instr) (w : Word), i.wf = true → encode i = some w → decode w = .ok i

/-- R26 to R60, R70: a word the decoder accepts is the encoding of the well-formed instruction it gives, so the decoder drops
no bit and no two words stand for one instruction. -/
def Obligations.EncodeOfDecodeIsTheWord : Prop :=
  ∀ (w : Word) (i : Instr), decode w = .ok i → i.wf = true ∧ encode i = some w

/-- Words written out field by field from R35 to R47 decode to the instructions they stand for. -/
def Obligations.WordsDecodeAsTheSpecLaysThemOut : Prop :=
  -- Format R: OP STALL PN PK, IXS IXM FN, D A B C. IADD.I64 with SAT, s3 ← s1 + (−2), guard (!k5), STALL 3
  decode (0x10#8 ++ 3#4 ++ 1#1 ++ 5#3 ++ 0#2 ++ 0#4 ++ 0b000110#6 ++ 0b100000011#9 ++ 0b100000001#9 ++ 0b111111110#9 ++
      0#9) = .ok (.iadd true .i64 ⟨⟨3#4, true, 5#3⟩, 0#2, .s 3#6, .s 1#6, .c 0b111110#6⟩) ∧
  -- Format I: IXS IXD IXA, D A FN2 IMM24. LOGI.XOR v9, v[4 + i2], 0xABCDEF
  decode (0x2F#8 ++ 0#4 ++ 0#1 ++ 0#3 ++ 2#2 ++ 0#1 ++ 1#1 ++ 9#9 ++ 4#9 ++ 0b10#2 ++ 0xABCDEF#24) =
    .ok (.logi .xor ⟨⟨0#4, false, 0#3⟩, 2#2, .v 9#8 false, .v 4#8 true, 0xABCDEF#24⟩) ∧
  -- Format B: BN BK BF A OFF32. BRC.DIV (!k2), −3 words
  decode (0x02#8 ++ 1#4 ++ 0#1 ++ 0#3 ++ 1#1 ++ 2#3 ++ 0b000#3 ++ 0#9 ++ 0xFFFFFFFD#32) =
    .ok (.brcDiv 1#4 true 2#3 0xFFFFFFFD#32) ∧
  -- Format M: IXS IXV IXO, V XR O SZ POL CHK DISP16. LD.B64.KEEP with CHK, v10 ← x4[s7 − 8]
  decode (0x70#8 ++ 0#4 ++ 0#1 ++ 0#3 ++ 0#2 ++ 0#1 ++ 0#1 ++ 10#9 ++ 4#3 ++ 0b100000111#9 ++ 0b011#3 ++ 0b010#3 ++
      1#1 ++ 0xFFF8#16) =
    .ok (.ld ⟨⟨0#4, false, 0#3⟩, 0#2, .v 10#8 false, 4#3, .s 7#6, .b64, .keep, true, 0xFFF8#16⟩) ∧
  -- Format A: V XR O SZ ORD CHK AOP DISP12. RED.ADD.B32.CMT x2[v6], v5
  decode (0x82#8 ++ 0#4 ++ 0#1 ++ 0#3 ++ 0#2 ++ 0#1 ++ 0#1 ++ 5#9 ++ 2#3 ++ 6#9 ++ 0b010#3 ++ 0b101#3 ++ 0#1 ++
      0#4 ++ 0#12) =
    .ok (.red .add ⟨⟨0#4, false, 0#3⟩, 0#2, .v 5#8 false, 2#3, .v 6#8 false, .b32, .cmt, false, 0#12⟩) ∧
  -- Format X: XFN SB XR SLOT1 SLOT2 MODE3 IMM8a IMM8b IMM8c. WAITC on path M, threshold in s20
  decode (0x92#8 ++ 0#4 ++ 0#1 ++ 0#3 ++ 0#6 ++ 20#6 ++ 0#3 ++ 0#3 ++ 0#3 ++ 0b011#3 ++ 0#8 ++ 0#8 ++ 0#8) =
    .ok (.waitc ⟨⟨0#4, false, 0#3⟩, 20#6⟩ .m) ∧
  -- R70: a reserved opcode, a reserved field value, nonzero reserved bits, the guard (!k0)
  decode (0x0C#8 ++ 0#56) = .error .opcode ∧
  decode (0x02#8 ++ 0#4 ++ 0#1 ++ 0#3 ++ 0#1 ++ 0#3 ++ 3#3 ++ 0#9 ++ 0#32) = .error .value ∧
  decode (0x06#8 ++ 0#24 ++ 1#32) = .error .bits ∧
  decode (0x00#8 ++ 0#4 ++ 1#1 ++ 0#51) = .error .guard

/-- R19, R27, R70, R199: where the word fetched at the PC of the thread that issues next decodes to an instruction, the step
is the instruction's meaning at that state, once the cycle of issue has come, spilled stack entries have returned (R377)
and the word stands in the fetch buffer; afterwards the word leaves the buffer if the thread has left it, entries are spilled
again, the issue is counted (R485) and what is due is posted and served (R124, R196, R412). -/
def Obligations.StepRunsTheDecodedInstruction : Prop :=
  ∀ (s s0 s1 s2 s3 : State) (rest : List Happening) (u : Nat) (v0 v : View) (w : Word) (i : Instr),
    s.inputs = .issue (.gang u) :: rest →
    s0 = { s with inputs := rest, cur := some (.gang u) } → s0.viewOf (.gang u) = some v0 →
    s0.unspill u = .ok s1 → s1.viewOf (.gang u) = some v →
    v.g.engFaults = [] → (s1.teamOf v.g).cancelled = false → s1.mayIssue v = true → v.act ≠ 0 → v.t.atHdr = false →
    isHdr v.t.hdr = true → ((s1.ownsSeqs v.g.team).atIssue v).fetch v v.t.pc = (s2, .word w) →
    opByte w ≠ 0xFF#8 → (privileged w = true → v.sup = true) → decode w = .ok i →
    exec i (s2.setThr v.a { v.t with fbuf := tput v.t.fbuf v.t.pc.toNat w }) = .next s3 →
    step s = .next (((State.respill s0 (s3.dropWord v) u).counted s0 v0).wrapUp s0)

/-- Every instruction, event and command has a meaning: none is refused. -/
def Obligations.NoInstructionIsRefused : Prop :=
  ∀ (i : Instr) (s : State) (r : Refusal), exec i s ≠ .refused r

/-! ## Invariant and reset -/

/-- The memory's canonical form (addresses strictly rising, no entry that equals what an unlisted address reads as) is kept
by every step of the machine, whatever it is: an instruction, an event of the hardware or a command of the host. -/
def Obligations.StepKeepsMemoryCanonical : Prop :=
  ∀ s s' : State, MemInv s → step s = .next s' → MemInv s'

/-- The memory of the machine after reset is in canonical form. -/
def Obligations.ResetMemoryIsCanonical : Prop := MemInv State.reset

/-- R476, R465 and the model's choices for what the spec gives no reset value (assumptions 1 and 2): right after reset no
team, gang or lane exists, no grid is launched, no unit is owned, the host list is empty and start-up has not ended. -/
def Sys2Proof.Claims.ResetHoldsNothing : Prop :=
  State.reset.gangs = [] ∧ State.reset.lanes = [] ∧ State.reset.teams = [] ∧ State.reset.grids = [] ∧
  State.reset.registry = [] ∧ State.reset.l1 = [] ∧ State.reset.arrays = [] ∧ State.reset.windows = [] ∧
  State.reset.hkc.started = false ∧ State.reset.hkc.mlog = [] ∧ State.reset.ps = 0 ∧
  (∀ a, memByte State.reset.mem a = 0#8)

namespace Sys2Proof.Claims

/-! ## Words of the arithmetic rules, on bit vectors of the operation's width -/

/-- The low n bits of a word. -/
def lo (n : Nat) (x : Word) : BitVec n := x.setWidth n
/-- An n-bit value as a word. -/
def up {n : Nat} (x : BitVec n) : Word := x.setWidth 64

/-- The value where an exact signed result overflows: the end of the range it lies beyond. -/
def sEnd {n : Nat} (negative : Bool) : BitVec n := if negative then BitVec.intMin n else BitVec.intMax n

/-- A + B (R270). -/
def add {n : Nat} (signed sat : Bool) (a b : BitVec n) : BitVec n :=
  if sat && signed && a.saddOverflow b then sEnd a.msb
  else if sat && !signed && a.uaddOverflow b then BitVec.allOnes n
  else a + b

/-- A − B (R270). -/
def sub {n : Nat} (signed sat : Bool) (a b : BitVec n) : BitVec n :=
  if sat && signed && a.ssubOverflow b then sEnd a.msb
  else if sat && !signed && a.usubOverflow b then 0#n
  else a - b

/-- Whether A < B under a type's sign. -/
def less {n : Nat} (signed : Bool) (a b : BitVec n) : Bool := if signed then a.slt b else a.ult b

/-- |A| (R270). -/
def abs {n : Nat} (signed sat : Bool) (a : BitVec n) : BitVec n :=
  if signed then (if sat && a == BitVec.intMin n then BitVec.intMax n else if a.msb then -a else a) else a

/-- An n-bit value widened to m bits under a type's sign. -/
def widen {n : Nat} (signed : Bool) (m : Nat) (a : BitVec n) : BitVec m :=
  if signed then a.signExtend m else a.setWidth m

/-- The high n bits of the exact product (R270). -/
def mulh {n : Nat} (signed : Bool) (a b : BitVec n) : BitVec n :=
  (widen signed (2 * n) a * widen signed (2 * n) b).extractLsb' n n

/-- A × B + C, exact in 2n + 1 bits and clamped under SAT (R270). -/
def mad {n : Nat} (signed sat : Bool) (a b c : BitVec n) : BitVec n :=
  let x : BitVec (2 * n + 1) := widen signed _ a * widen signed _ b + widen signed _ c
  if sat && signed && x.slt (widen true _ (BitVec.intMin n)) then BitVec.intMin n
  else if sat && signed && (widen true _ (BitVec.intMax n)).slt x then BitVec.intMax n
  else if sat && !signed && (widen false _ (BitVec.allOnes n)).ult x then BitVec.allOnes n
  else x.setWidth n

/-- IDIV (R270, R271). -/
def div {n : Nat} (rem signed : Bool) (a b : BitVec n) : BitVec n :=
  if b = 0#n then (if rem then a else BitVec.allOnes n)
  else if rem then (if signed then a.srem b else a.umod b)
  else if signed then a.sdiv b else a.udiv b

/-- ICMP (R269). -/
def cmp {n : Nat} (c : ICond) (signed : Bool) (a b : BitVec n) : Bool :=
  match c with
  | .eq => a == b
  | .ne => a != b
  | .lt => less signed a b
  | .le => !less signed b a
  | .gt => less signed b a
  | .ge => !less signed a b

/-- The width of an integer type. -/
def bits (t : ITy) : Nat := if t.wide then 64 else 32

/-- How an operand of a width is read. -/
def rd (wide : Bool) : Rd := if wide then .u64 else .u32

/-- An instruction that passes its checks at issue computes: for each lane whose guard passes, or once on the uniform pipe,
`f` gives the result and the flags from the values of the sources, and the result is readable `lat` cycles later. -/
def Computes (i : Instr) (p : Pre) (ixs : BitVec 2) (lat : Nat) (d : Opd) (wide signed : Bool) (srcs : List (Opd × Rd))
    (keep : Bool) (f : List Word → Word × FFlags) : Prop :=
  ∀ (s s1 : State) (v : View) (ex : Mask), s.admits (aluUses p ixs d wide srcs keep) = .ok (s1, v, ex) →
    exec i s = .next (s1.aluEnd v ex p ixs lat d wide signed srcs f)

/-- An instruction of two sources of one integer type. -/
def Integer3 (i : Instr) (ty : ITy) (o : R3) (lat : Nat) (f : BitVec (bits ty) → BitVec (bits ty) → BitVec (bits ty)) : Prop :=
  Computes i o.p o.ixs lat o.d ty.wide ty.signed [(o.a, rd ty.wide), (o.b, rd ty.wide)] false fun xs =>
    (up (f (lo _ (warg xs 0)) (lo _ (warg xs 1))), 0)

end Sys2Proof.Claims

open Sys2Proof.Claims

/-! ## Integer instructions -/

/-- R61, R269, R270: IADD, ISUB, IMIN, IMAX and IABS give the exact sum, difference, least, greatest or absolute value mod
2^n, or clamped to the type's range under SAT, with latency 4 and no flag. -/
def Sys2Proof.Claims.IntegerSums : Prop :=
  ∀ (sat : Bool) (ty : ITy) (o : R3) (q : R2),
    Integer3 (.iadd sat ty o) ty o 4 (add ty.signed sat) ∧
    Integer3 (.isub sat ty o) ty o 4 (sub ty.signed sat) ∧
    Integer3 (.imin ty o) ty o 4 (fun a b => if less ty.signed b a then b else a) ∧
    Integer3 (.imax ty o) ty o 4 (fun a b => if less ty.signed a b then b else a) ∧
    Computes (.iabs sat ty q) q.p q.ixs 4 q.d ty.wide ty.signed [(q.a, rd ty.wide)] false fun xs =>
      (up (abs ty.signed sat (lo (bits ty) (warg xs 0))), 0)

/-- R61, R270, R271: IMUL, IMULH and IMAD give the low and high halves of the exact product and the exact product plus C (mod
2^n, or clamped under SAT), with latency 6; IDIV gives quotient or remainder truncated toward zero, with latency 40 or 72,
all ones or A where B = 0. -/
def Sys2Proof.Claims.IntegerProducts : Prop :=
  ∀ (sat rem : Bool) (ty : ITy) (o : R3) (q : R4),
    Integer3 (.imul ty o) ty o 6 (fun a b => a * b) ∧
    Integer3 (.imulh ty o) ty o 6 (mulh ty.signed) ∧
    (Computes (.imad sat ty q) q.p q.ixs 6 q.d ty.wide ty.signed
      [(q.a, rd ty.wide), (q.b, rd ty.wide), (q.c, rd ty.wide)] false fun xs =>
        (up (mad ty.signed sat (lo (bits ty) (warg xs 0)) (lo _ (warg xs 1)) (lo _ (warg xs 2))), 0)) ∧
    Integer3 (.idiv rem ty o) ty o (if ty.wide then 72 else 40) (div rem ty.signed)

/-- The integer sums and products.
It concludes that exec answers a next state for IADD, ISUB, IMUL, IMULH, IMAD, IMIN, IMAX, IABS, IDIV. -/
def Obligations.IntegerArithmetic : Prop :=
  Claims.IntegerSums ∧ Claims.IntegerProducts

/-- R270, R260: ICMP writes the comparison's truth to k[D]; LEA gives A + (B << (C mod 64)), C read as one 32-bit value. -/
def Sys2Proof.Claims.IntegerComparesAndAddresses : Prop :=
  ∀ (c : ICond) (ty : ITy) (o : R3) (q : R4),
    (Computes (.icmp c ty o) o.p o.ixs 4 o.d false false [(o.a, rd ty.wide), (o.b, rd ty.wide)] false fun xs =>
      (if cmp c ty.signed (lo (bits ty) (warg xs 0)) (lo _ (warg xs 1)) then 1 else 0, 0)) ∧
    (Computes (.lea ty q) q.p q.ixs 4 q.d ty.wide ty.signed [(q.a, rd ty.wide), (q.b, rd ty.wide), (q.c, .u32)] false
      fun xs => (up (lo (bits ty) (warg xs 0) + lo _ (warg xs 1) <<< ((warg xs 2).toNat % 64)), 0))

/-- R61, R272: the immediate forms, the immediate extended as each entry says: IADDI and IMULI mod 2^n, ICMPI's
comparison, MOVI's extension to the destination's width, MOVK's replaced bits with the others kept. -/
def Sys2Proof.Claims.ImmediateForms : Prop :=
  ∀ (ty : ITy) (o : I2) (c : ICond) (p : Pre) (ixs : BitVec 2) (d a : Opd) (imm : BitVec 21) (zx : Bool) (part : MovkPart)
    (q : I1),
    (Computes (.iaddi ty o) o.p o.ixs 4 o.d ty.wide ty.signed [(o.a, rd ty.wide)] false fun xs =>
      (up (lo (bits ty) (warg xs 0) + o.imm.signExtend _), 0)) ∧
    (Computes (.imuli ty o) o.p o.ixs 6 o.d ty.wide ty.signed [(o.a, rd ty.wide)] false fun xs =>
      (up (lo (bits ty) (warg xs 0) * o.imm.signExtend _), 0)) ∧
    (Computes (.icmpi c ty p ixs d a imm) p ixs 4 d false false [(a, rd ty.wide)] false fun xs =>
      (if cmp c ty.signed (lo (bits ty) (warg xs 0)) (imm.signExtend _) then 1 else 0, 0)) ∧
    (Computes (.movi zx q) q.p q.ixs 4 q.d (isS q.d) false [] false fun _ =>
      (if zx then q.imm.setWidth 64 else q.imm.signExtend 64, 0)) ∧
    (∃ g : Word → Word,
      (∀ old j, (g old).getLsbD j =
        match part with
        | .h0 => if j < 24 then q.imm.getLsbD j else old.getLsbD j
        | .h1 => if 24 ≤ j ∧ j < 48 then q.imm.getLsbD (j - 24) else old.getLsbD j
        | .h2 => if 48 ≤ j ∧ j < 64 then q.imm.getLsbD (j - 48) else old.getLsbD j) ∧
      Computes (.movk part q) q.p q.ixs 4 q.d (isS q.d) false [(q.d, rd (isS q.d))] true fun xs => (g (warg xs 0), 0))

/-- Compares, LEA and the immediate forms.
It concludes that exec answers a next state for ICMP, LEA, IADDI, IMULI, ICMPI, MOVI, MOVK. -/
def Obligations.IntegerComparesAndImmediates : Prop :=
  Claims.IntegerComparesAndAddresses ∧ Claims.ImmediateForms

/-- R274: LOGI (opcode 0x2F) writes A op ZeroExt(IMM24), FN2 naming op: 00 AND, 01 OR, 10 XOR, 11 ANDN; the width is 32 bits
with a v destination and 64 bits with an s destination.
It concludes that exec answers a next state for LOGI. -/
def Obligations.LogicalImmediates : Prop :=
  (∀ (w : Word) (op : LogiOp) (o : I2), decode w = .ok (.logi op o) →
    w.extractLsb' 56 8 = 0x2F#8 ∧ w.extractLsb' 0 24 = o.imm ∧
    w.extractLsb' 24 2 = (match op with | .and => 0b00#2 | .or => 0b01#2 | .xor => 0b10#2 | .andn => 0b11#2)) ∧
  ∀ (op : LogiOp) (o : I2),
    Computes (.logi op o) o.p o.ixs 4 o.d (isS o.d) false [(o.a, rd (isS o.d))] false fun xs =>
      let n := if isS o.d then 64 else 32
      let x : BitVec n := lo n (warg xs 0)
      let y : BitVec n := o.imm.setWidth n
      (up (match op with | .and => x &&& y | .or => x ||| y | .xor => x ^^^ y | .andn => x &&& ~~~y), 0)

namespace Sys2Proof.Claims

/-- The width of a bit instruction. -/
def wide (w64 : Bool) : Nat := if w64 then 64 else 32

/-- A bit instruction of two sources. -/
def Bitwise3 (i : Instr) (w64 : Bool) (o : R3) (f : BitVec (wide w64) → BitVec (wide w64) → BitVec (wide w64)) : Prop :=
  Computes i o.p o.ixs 4 o.d w64 false [(o.a, rd w64), (o.b, rd w64)] false fun xs =>
    (up (f (lo _ (warg xs 0)) (lo _ (warg xs 1))), 0)

/-- A shift or rotation, its count read as one 32-bit value (R260). -/
def Shift (i : Instr) (w64 : Bool) (o : R3) (f : BitVec (wide w64) → Nat → BitVec (wide w64)) : Prop :=
  Computes i o.p o.ixs 4 o.d w64 false [(o.a, rd w64), (o.b, .u32)] false fun xs =>
    (up (f (lo _ (warg xs 0)) (warg xs 1).toNat), 0)

/-- A bit instruction of one source. -/
def Bitwise2 (i : Instr) (w64 dwide : Bool) (o : R2) (f : BitVec (wide w64) → Word) : Prop :=
  Computes i o.p o.ixs 4 o.d dwide false [(o.a, rd w64)] false fun xs => (f (lo _ (warg xs 0)), 0)

end Sys2Proof.Claims

/-- R61, R273: the bitwise operations, the shifts (a count of n or more gives zero, or copies of the sign bit for SRA) and
the rotation by the count mod n, in 32 or 64 bits. -/
def Sys2Proof.Claims.BitwiseAndShifts : Prop :=
  ∀ (w : Bool) (o : R3),
    Bitwise3 (.and w o) w o (fun a b => a &&& b) ∧ Bitwise3 (.or w o) w o (fun a b => a ||| b) ∧
    Bitwise3 (.xor w o) w o (fun a b => a ^^^ b) ∧ Bitwise3 (.andn w o) w o (fun a b => a &&& ~~~b) ∧
    Shift (.shl w o) w o (fun a n => a <<< n) ∧ Shift (.shr w o) w o (fun a n => a >>> n) ∧
    Shift (.sra w o) w o (fun a n => a.sshiftRight n) ∧ Shift (.rot w o) w o (fun a n => a.rotateLeft n)

/-- R61, R273: BFE gives the q bits from p on, with zero or sign fill above; BFI puts the low q bits of B there; POPC and CLZ
count; BREV reverses; SEL chooses by k[C]; MOV copies. -/
def Sys2Proof.Claims.BitFieldsAndCounts : Prop :=
  ∀ (signed w : Bool) (o : R4) (q : R2),
    (Computes (.bfe signed w o) o.p o.ixs 4 o.d w false [(o.a, rd w), (o.b, .u32), (o.c, .u32)] false fun xs =>
      let a : BitVec (wide w) := lo _ (warg xs 0)
      let pos := (warg xs 1).toNat % 256
      let len := Nat.min ((warg xs 2).toNat % 256) (wide w)
      let x := if signed then a.sshiftRight pos else a >>> pos
      let y := x <<< (wide w - len)
      (up (if signed then y.sshiftRight (wide w - len) else y >>> (wide w - len)), 0)) ∧
    (∃ g : Word → Word → Nat → Nat → Word,
      (∀ a b p len j, (g a b p len).getLsbD j =
        (decide (j < wide w) && if p ≤ j ∧ j < p + len then b.getLsbD (j - p) else a.getLsbD j)) ∧
      Computes (.bfi w o) o.p o.ixs 4 o.d w false [(o.a, rd w), (o.b, rd w), (o.c, .u32)] false fun xs =>
        (g (warg xs 0) (warg xs 1) ((warg xs 2).toNat % 256) ((warg xs 2).toNat / 256 % 256), 0)) ∧
    Bitwise2 (.popc w q) w false q (fun a => BitVec.ofNat 64 ((List.range (wide w)).countP fun j => a.getLsbD j)) ∧
    Bitwise2 (.clz w q) w false q (fun a => up a.clz) ∧
    Bitwise2 (.brev w q) w w q (fun a => up a.reverse) ∧
    (Computes (.sel w o) o.p o.ixs 4 o.d w false [(o.a, rd w), (o.b, rd w), (o.c, .u32)] false fun xs =>
      (if warg xs 2 = 0 then warg xs 1 else warg xs 0, 0)) ∧
    (Computes (.mov w q) q.p q.ixs 4 q.d w false [(q.a, rd w)] false fun xs => (warg xs 0, 0))

/-- Bitwise operations, shifts, bit fields and counts.
It concludes that exec answers a next state for AND, OR, XOR, ANDN, SHL, SHR, SRA, ROT, BFE, BFI, POPC, CLZ, BREV,
SEL, MOV. -/
def Obligations.BitwiseInstructions : Prop :=
  Claims.BitwiseAndShifts ∧ Claims.BitFieldsAndCounts

/-! ## Floating-point instructions -/

namespace Sys2Proof.Claims

/-- A float instruction whose sources are all read as F32. -/
def Float (i : Instr) (p : Pre) (ixs : BitVec 2) (lat : Nat) (d : Opd) (srcs : List Opd) (f : List Word → Word × FFlags) :
    Prop :=
  Computes i p ixs lat d false false (srcs.map fun o => (o, Rd.f32)) false f

/-- A source as an F32 number, subnormals flushed where FTZ is set (R275). -/
def src (f : FFn) (xs : List Word) (j : Nat) : FVal := fIn f.ftz (warg xs j)

/-- A result after FTZ and SAT (R275, R276). -/
def res (f : FFn) (r : FRes) : Word × FFlags := fOut f r

end Sys2Proof.Claims

/-- R61, R275 to R277: the F32 operations act on their sources after FTZ, round once in their mode, and apply FTZ and SAT to
the result; FSQRT takes 12 cycles, FDIV 24, the others 4. -/
def Sys2Proof.Claims.FloatArithmetic : Prop :=
  ∀ (f : FFn) (ftz : Bool) (o : R3) (q : R4) (t : R2),
    Float (.fadd f o) o.p o.ixs 4 o.d [o.a, o.b] (fun xs => res f (f32.add f.rm (src f xs 0) (src f xs 1))) ∧
    Float (.fsub f o) o.p o.ixs 4 o.d [o.a, o.b] (fun xs => res f (f32.add f.rm (src f xs 0) (src f xs 1).negate)) ∧
    Float (.fmul f o) o.p o.ixs 4 o.d [o.a, o.b] (fun xs => res f (f32.mul f.rm (src f xs 0) (src f xs 1))) ∧
    Float (.ffma f q) q.p q.ixs 4 q.d [q.a, q.b, q.c]
      (fun xs => res f (f32.fma f.rm (src f xs 0) (src f xs 1) (src f xs 2))) ∧
    Float (.fdiv f o) o.p o.ixs 24 o.d [o.a, o.b] (fun xs => res f (f32.div f.rm (src f xs 0) (src f xs 1))) ∧
    Float (.fsqrt f t) t.p t.ixs 12 t.d [t.a] (fun xs => res f (f32.sqrt f.rm (src f xs 0))) ∧
    Float (.frnd f t) t.p t.ixs 4 t.d [t.a] (fun xs => res f (f32.rint f.rm (src f xs 0))) ∧
    Float (.fmin ftz o) o.p o.ixs 4 o.d [o.a, o.b]
      (fun xs => res ⟨false, ftz, .rn⟩ (f32.minMax false (src ⟨false, ftz, .rn⟩ xs 0) (src ⟨false, ftz, .rn⟩ xs 1))) ∧
    Float (.fmax ftz o) o.p o.ixs 4 o.d [o.a, o.b]
      (fun xs => res ⟨false, ftz, .rn⟩ (f32.minMax true (src ⟨false, ftz, .rn⟩ xs 0) (src ⟨false, ftz, .rn⟩ xs 1))) ∧
    Computes (.fldx f o) o.p o.ixs 4 o.d false false [(o.a, .f32), (o.b, .u32)] false
      (fun xs => res f (f32.ldx f.rm (src f xs 0) (lo 32 (warg xs 1)).toInt))

/-- R278, R279: FCMP and FCLASS write k[D] and never flush; FCLASS raises nothing. -/
def Sys2Proof.Claims.FloatCompares : Prop :=
  ∀ (c : FCond) (o : R3),
    Float (.fcmp c o) o.p o.ixs 4 o.d [o.a, o.b] (fun xs =>
      let r := fcmpVal c (f32.decode (lo 32 (warg xs 0)).toNat) (f32.decode (lo 32 (warg xs 1)).toNat)
      (if r.1 then 1 else 0, r.2)) ∧
    Computes (.fclass o) o.p o.ixs 4 o.d false false [(o.a, .f32), (o.b, .u32)] false (fun xs =>
      (if (warg xs 1).getLsbD (f32.classOf (lo 32 (warg xs 0)).toNat) then 1 else 0, 0))

/-- The F32 instructions.
It concludes that exec answers a next state for FADD, FSUB, FMUL, FFMA, FMIN, FMAX, FCMP, FCLASS, FSQRT, FDIV, FLDX,
FRND. -/
def Obligations.FloatInstructions : Prop :=
  Claims.FloatArithmetic ∧ Claims.FloatCompares

/-- R278: for numbers that are no NaN exactly one of LT, EQ and GT holds, LE is LT or EQ, GE is GT or EQ, NE is not EQ and
OR holds; with a NaN only NE and UN hold. NV is raised by a signalling NaN in every comparison, and by a quiet NaN in LT, LE,
GT and GE alone. -/
def Sys2Proof.Claims.FloatOrdering : Prop :=
  ∀ a b : FVal,
    let t (c : FCond) := (fcmpVal c a b).1
    (a.isNan = false → b.isNan = false →
      (t .lt || t .eq || t .gt) = true ∧ (t .lt && t .eq) = false ∧ (t .lt && t .gt) = false ∧ (t .eq && t .gt) = false ∧
      t .le = (t .lt || t .eq) ∧ t .ge = (t .gt || t .eq) ∧ t .ne = !t .eq ∧ t .un = false ∧ t .or = true) ∧
    ((a.isNan || b.isNan) = true →
      t .ne = true ∧ t .un = true ∧ t .or = false ∧ t .eq = false ∧ t .lt = false ∧ t .le = false ∧ t .gt = false ∧
      t .ge = false) ∧
    ∀ c, (fcmpVal c a b).2 =
      (if a = .nan true ∨ b = .nan true ∨
          ((a.isNan || b.isNan) = true ∧ (c = .lt ∨ c = .le ∨ c = .gt ∨ c = .ge)) then flNV else 0)

/-- R276, R277: an operation with a NaN source gives the format's quiet NaN and raises NV exactly where a source is signalling;
∞ − ∞, ∞ × 0, 0 / 0, ∞ / ∞ and the root of a negative number give it and raise NV; a finite nonzero number divided by
zero gives ∞ and raises DZ; FMIN and FMAX of one NaN give the other operand. -/
def Sys2Proof.Claims.FloatInvalidAndNaN : Prop :=
  ∀ (f : FFmt) (rm : RMode) (s n n' : Bool) (m : Nat) (e e' : Int) (x : FVal),
    (∀ r ∈ [f.add rm (.nan s) x, f.add rm x (.nan s), f.mul rm (.nan s) x, f.mul rm x (.nan s), f.div rm (.nan s) x,
        f.div rm x (.nan s)], r = ⟨f.qnan, if s = true ∨ x = .nan true then flNV else 0⟩) ∧
    f.sqrt rm (.nan s) = ⟨f.qnan, if s then flNV else 0⟩ ∧
    f.add rm (.inf n) (.inf !n) = ⟨f.qnan, flNV⟩ ∧
    f.mul rm (.inf n) (.fin n' 0 e) = ⟨f.qnan, flNV⟩ ∧ f.mul rm (.fin n' 0 e) (.inf n) = ⟨f.qnan, flNV⟩ ∧
    f.div rm (.fin n 0 e) (.fin n' 0 e') = ⟨f.qnan, flNV⟩ ∧ f.div rm (.inf n) (.inf n') = ⟨f.qnan, flNV⟩ ∧
    (0 < m → f.div rm (.fin n m e) (.fin n' 0 e') = ⟨f.inf (n != n'), flDZ⟩) ∧
    (0 < m → f.sqrt rm (.fin true m e) = ⟨f.qnan, flNV⟩) ∧
    f.sqrt rm (.fin true 0 e) = ⟨f.zero true, 0⟩ ∧
    (∀ mx, x.isNan = false → f.minMax mx (.nan s) x = ⟨f.bitsOf x, if s then flNV else 0⟩ ∧
      f.minMax mx x (.nan s) = ⟨f.bitsOf x, if s then flNV else 0⟩)

/-- R277: the sign of an exact zero sum. Two zeros of one sign give that zero in every mode; zeros of opposite signs, and
x + (−x), give +0, or −0 under RM; none raises a flag. -/
def Sys2Proof.Claims.ExactZeroSums : Prop :=
  ∀ (f : FFmt) (rm : RMode) (n : Bool) (m : Nat) (e e' : Int),
    f.add rm (.fin n 0 e) (.fin n 0 e') = ⟨f.zero n, 0⟩ ∧
    f.add rm (.fin n 0 e) (.fin (!n) 0 e') = ⟨f.zero (rm == .rm), 0⟩ ∧
    (0 < m → f.add rm (.fin n m e) (FVal.fin n m e).negate = ⟨f.zero (rm == .rm), 0⟩)

/-- What F32 comparisons and operations do with NaNs, infinities and zeros. -/
def Obligations.FloatSpecialCases : Prop :=
  Claims.FloatOrdering ∧ Claims.FloatInvalidAndNaN ∧ Claims.ExactZeroSums

/-- R275, R276: where m × 2^e has bits below 2^q, rounding to a multiple of 2^q takes a neighbour of the exact magnitude:
below it under RZ, on the side of the mode under RP and RM, the nearest under RN with ties to the even multiple; it is
inexact exactly where the multiple differs from the magnitude. -/
def Sys2Proof.Claims.RoundingTakesTheRightNeighbour : Prop :=
  ∀ (rm : RMode) (neg : Bool) (m k n : Nat) (e : Int) (nx : Bool),
    0 < k → roundAt rm neg m e (e + k) = (n, nx) →
    (nx = true ↔ n * 2 ^ k ≠ m) ∧
    n * 2 ^ k < m + 2 ^ k ∧ m < n * 2 ^ k + 2 ^ k ∧
    ((rm = .rz ∨ (rm = .rp ∧ neg = true) ∨ (rm = .rm ∧ neg = false)) → n * 2 ^ k ≤ m) ∧
    (((rm = .rp ∧ neg = false) ∨ (rm = .rm ∧ neg = true)) → m ≤ n * 2 ^ k) ∧
    (rm = .rn → 2 * m ≤ 2 * (n * 2 ^ k) + 2 ^ k ∧ 2 * (n * 2 ^ k) ≤ 2 * m + 2 ^ k ∧
      (2 * m = 2 * (n * 2 ^ k) + 2 ^ k ∨ 2 * (n * 2 ^ k) = 2 * m + 2 ^ k → n % 2 = 0))

/-- R276, R281: a finite number of a format, normal or subnormal, rounds to its own bits in every mode and raises no flag. -/
def Sys2Proof.Claims.RepresentableNumbersRoundToThemselves : Prop :=
  ∀ f ∈ [f32, f16, bf16], ∀ (rm : RMode) (b : Nat) (neg : Bool) (m : Nat) (e : Int),
    b < 2 ^ f.width → f.decode b = .fin neg m e → f.round rm neg m e = ⟨b, 0⟩

/-- R275: SAT keeps a result in [+0.0, +1.0], clamps every other, makes a NaN +0.0, and changes no flag. -/
def Sys2Proof.Claims.SatClampsToUnitInterval : Prop :=
  ∀ (b : Nat) (fl : FFlags), b < 2 ^ 32 →
    let y := f32.sat true ⟨b, fl⟩
    y.flags = fl ∧ y.bits ≤ 0x3F800000 ∧ (b ≤ 0x3F800000 → y.bits = b) ∧
    ((f32.decode b).isNan = true → y.bits = 0) ∧
    (0x3F800000 < b → b ≤ 0x7F800000 → y.bits = 0x3F800000) ∧
    (2 ^ 31 ≤ b → y.bits = 0)

/-- Rounding and SAT. -/
def Obligations.RoundingAndClamping : Prop :=
  Claims.RoundingTakesTheRightNeighbour ∧ Claims.RepresentableNumbersRoundToThemselves ∧ Claims.SatClampsToUnitInterval

/-- R61, R275, R280: FRCP, FRSQ, FEXP2, FLOG2, FSIN, FCOS and FTANH that pass their checks complete: the next state has their
result 12 cycles later, which is SAT applied to the value `f ftz a` of the source's bits. -/
def Sys2Proof.Claims.ApproximateFunctions : Prop :=
  ∀ (sat ftz : Bool) (o : R2) (s s1 : State) (v : View) (ex : Mask),
    let f32s (f : Bool → Nat → FRes) (xs : List Word) : Word × FFlags :=
      let r := f32.sat sat (f ftz (lo 32 (warg xs 0)).toNat)
      (BitVec.ofNat 64 r.bits, r.flags)
    let result (f : Bool → Nat → FRes) : State := s1.aluEnd v ex o.p o.ixs 12 o.d false false [(o.a, .f32)] (f32s f)
    s.admits (aluUses o.p o.ixs o.d false [(o.a, .f32)] false) = .ok (s1, v, ex) →
    exec (.frcp sat ftz o) s = .next (result frcpVal) ∧ exec (.frsq sat ftz o) s = .next (result frsqVal) ∧
    exec (.fexp2 sat ftz o) s = .next (result fexp2Val) ∧ exec (.flog2 sat ftz o) s = .next (result flog2Val) ∧
    exec (.fsin sat ftz o) s = .next (result fsinVal) ∧ exec (.fcos sat ftz o) s = .next (result fcosVal) ∧
    exec (.ftanh sat ftz o) s = .next (result ftanhVal)

/-- R280: the flags the seven functions can raise: never NX or UF; OF in FEXP2 alone; DZ in FRCP, FRSQ and FLOG2 at ±0 alone.
Every NaN gives 0x7FC0_0000, with NV for a signalling one; the root and the logarithm of a negative number that FTZ does not
flush give it with NV. It holds for every free value of the functions (assumption 10). -/
def Sys2Proof.Claims.ApproximateFunctionFlags : Prop :=
  ∀ (ftz : Bool) (a : Nat),
    (∀ g ∈ [frcpVal, frsqVal, fexp2Val, flog2Val, fsinVal, fcosVal, ftanhVal],
      (g ftz a).flags &&& (flNX ||| flUF) = 0 ∧
      ∀ s, f32.decode a = .nan s → g ftz a = ⟨0x7FC00000, if s then flNV else 0⟩) ∧
    (∀ g ∈ [frcpVal, frsqVal, flog2Val, fsinVal, fcosVal, ftanhVal], (g ftz a).flags &&& flOF = 0) ∧
    (∀ g ∈ [frcpVal, frsqVal, flog2Val],
      ((g ftz a).flags &&& flDZ ≠ 0 ↔ ∃ n e, f32.flushIn ftz (f32.decode a) = .fin n 0 e)) ∧
    (∀ g ∈ [frsqVal, flog2Val], ∀ m e, f32.flushIn ftz (f32.decode a) = .fin true m e → 0 < m →
      g ftz a = ⟨0x7FC00000, flNV⟩)

/-- The approximate functions and their flags.
It concludes that exec answers a next state for FRCP, FRSQ, FEXP2, FLOG2, FSIN, FCOS, FTANH. -/
def Obligations.ApproximateInstructions : Prop :=
  Claims.ApproximateFunctions ∧ Claims.ApproximateFunctionFlags

/-- R281: the packed operations act on both halves in the half's format and OR the flags; R282: DOT4 adds four products of
signed or unsigned bytes to C, exact, mod 2^32 or clamped to I32 under SAT. -/
def Sys2Proof.Claims.PackedHalvesAndDot4 : Prop :=
  ∀ (h : HFn) (sat bf bs as : Bool) (o : R3) (q : R4),
    let two (g : FFmt → List FVal → FRes) (sat bf : Bool) (xs : List Word) : Word × FFlags :=
      let fmt := if bf then bf16 else f16
      let lo16 := fmt.sat sat (g fmt (xs.map fun x => fmt.decode (x.extractLsb' 0 16).toNat))
      let hi16 := fmt.sat sat (g fmt (xs.map fun x => fmt.decode (x.extractLsb' 16 16).toNat))
      (BitVec.ofNat 64 (lo16.bits + 65536 * hi16.bits), lo16.flags ||| hi16.flags)
    let rd (bf : Bool) : Rd := if bf then .bf16 else .f16
    Computes (.hadd2 h o) o.p o.ixs 4 o.d false false [(o.a, rd h.bf), (o.b, rd h.bf)] false
      (two (fun f xs => f.add h.rm (arg xs 0) (arg xs 1)) h.sat h.bf) ∧
    Computes (.hmul2 h o) o.p o.ixs 4 o.d false false [(o.a, rd h.bf), (o.b, rd h.bf)] false
      (two (fun f xs => f.mul h.rm (arg xs 0) (arg xs 1)) h.sat h.bf) ∧
    Computes (.hfma2 h q) q.p q.ixs 4 q.d false false [(q.a, rd h.bf), (q.b, rd h.bf), (q.c, rd h.bf)] false
      (two (fun f xs => f.fma h.rm (arg xs 0) (arg xs 1) (arg xs 2)) h.sat h.bf) ∧
    Computes (.hmin2 sat bf o) o.p o.ixs 4 o.d false false [(o.a, rd bf), (o.b, rd bf)] false
      (two (fun f xs => f.minMax false (arg xs 0) (arg xs 1)) sat bf) ∧
    Computes (.hmax2 sat bf o) o.p o.ixs 4 o.d false false [(o.a, rd bf), (o.b, rd bf)] false
      (two (fun f xs => f.minMax true (arg xs 0) (arg xs 1)) sat bf) ∧
    Computes (.dot4 sat bs as q) q.p q.ixs 6 q.d false true [(q.a, .u32), (q.b, .u32), (q.c, .u32)] false (fun xs =>
      let byte (signed : Bool) (x : Word) (j : Nat) : BitVec 64 := widen signed 64 (x.extractLsb' (8 * j) 8)
      let prod (j : Nat) : BitVec 64 := byte as (warg xs 0) j * byte bs (warg xs 1) j
      let x : BitVec 64 := (lo 32 (warg xs 2)).signExtend 64 + prod 0 + prod 1 + prod 2 + prod 3
      (if sat && x.slt (-0x80000000#64) then 0x80000000 else if sat && (0x7FFFFFFF#64).slt x then 0x7FFFFFFF
       else up (lo 32 x), 0))

/-- R283: CVT converts as its code names; an integer that overflows or a NaN is clamped or 0 with NV; the narrow codes clamp
without a flag, and an s destination takes a signed result sign-extended to 64 bits, any other zero-extended. R284: CVTP packs
two conversions, the FP8 codes keeping the other half of D. -/
def Sys2Proof.Claims.Conversions : Prop :=
  ∀ (op : CvtOp) (rm : RMode) (o : R2) (cp : CvtpOp) (hi : Bool) (q : R3),
    (Computes (.cvt op rm o) o.p o.ixs 4 o.d (op == .i64F32 || op == .n64F32)
      (op == .i32F32 || op == .i64F32 || op == .i8I32 || op == .i16I32)
      [(o.a, match op with
        | .f32F16 => .f16 | .f32Bf16 => .bf16 | .f32I64 | .f32N64 => .u64
        | .i32F32 | .n32F32 | .i64F32 | .n64F32 | .f16F32 | .bf16F32 => .f32
        | _ => .u32)] false fun xs =>
      let x := warg xs 0
      let y : BitVec 32 := lo 32 x
      let ofFloat (r : FRes) : Word × FFlags := (BitVec.ofNat 64 r.bits, r.flags)
      let narrow (n : Nat) (signed : Bool) (a b : BitVec 32) : Word × FFlags :=
        let z : BitVec n := (if y.slt a then a else if b.slt y then b else y).setWidth n
        (if isS o.d && signed then z.signExtend 64 else z.setWidth 64, 0)
      let toInt (n : Nat) (a b : Int) : Word × FFlags :=
        let r := toIntClamp rm (f32.decode y.toNat) a b
        (up (BitVec.ofInt n r.1), r.2)
      match op with
      | .f32I32 => ofFloat (f32.ofInt rm y.toInt)
      | .f32N32 => ofFloat (f32.ofInt rm (y.toNat : Int))
      | .f32I64 => ofFloat (f32.ofInt rm x.toInt)
      | .f32N64 => ofFloat (f32.ofInt rm (x.toNat : Int))
      | .i32F32 => toInt 32 (-2147483648) 2147483647
      | .n32F32 => toInt 32 0 4294967295
      | .i64F32 => toInt 64 (-9223372036854775808) 9223372036854775807
      | .n64F32 => toInt 64 0 18446744073709551615
      | .f16F32 => ofFloat (f16.convert rm (f32.decode y.toNat))
      | .bf16F32 => ofFloat (bf16.convert rm (f32.decode y.toNat))
      | .f32F16 => ofFloat (f32.convert .rn (f16.decode (lo 16 x).toNat))
      | .f32Bf16 => ofFloat (f32.convert .rn (bf16.decode (lo 16 x).toNat))
      | .i8I32 => narrow 8 true (-128#32) 127#32
      | .i16I32 => narrow 16 true (-32768#32) 32767#32
      | .n8I32 => narrow 8 false 0#32 255#32
      | .n16I32 => narrow 16 false 0#32 65535#32) ∧
    (Computes (.cvtp cp hi rm q) q.p q.ixs 4 q.d false false
      ([(q.a, .f32), (q.b, .f32)] ++ (if cp == .e4m3x2 || cp == .e5m2x2 then [(q.d, .u32)] else []))
      (cp == .e4m3x2 || cp == .e5m2x2) fun xs =>
      let a := f32.decode (lo 32 (warg xs 0)).toNat
      let b := f32.decode (lo 32 (warg xs 1)).toNat
      let d := (lo 32 (warg xs 2)).toNat
      let pair (x y : FRes) : Word × FFlags := (BitVec.ofNat 64 (x.bits + 65536 * y.bits), x.flags ||| y.flags)
      let codes (e4 : Bool) : Word × FFlags :=
        let x := fp8 e4 rm a
        let y := fp8 e4 rm b
        let c := x.bits + 256 * y.bits
        (BitVec.ofNat 64 (if hi then d % 65536 + 65536 * c else d / 65536 * 65536 + c), x.flags ||| y.flags)
      match cp with
      | .f16x2 => pair (f16.convert rm a) (f16.convert rm b)
      | .bf16x2 => pair (bf16.convert rm a) (bf16.convert rm b)
      | .e4m3x2 => codes true
      | .e5m2x2 => codes false)

/-- The packed half-precision forms, DOT4 and the conversions.
It concludes that exec answers a next state for HADD2, HMUL2, HFMA2, HMIN2, HMAX2, DOT4, CVT, CVTP. -/
def Obligations.ConversionsAndPackedForms : Prop :=
  Claims.PackedHalvesAndDot4 ∧ Claims.Conversions

/-! ## Predicates, lanes and special registers -/

namespace Sys2Proof.Claims

/-- An instruction that passes its checks at issue retires with the register writes `w`, readable `lat` cycles later, and the
flags `fl`. -/
def Writes (i : Instr) (p : Pre) (u : Uses) (lat : Nat) (w : State → View → Mask → List RegW × FFlags) : Prop :=
  ∀ (s s1 : State) (v : View) (ex : Mask), s.admits u = .ok (s1, v, ex) →
    exec i s = .next (s1.done v p lat (w s1 v ex).1 (w s1 v ex).2)

/-- One value for every lane of a mask, or once for an s destination, which takes all its 64 bits (R57, R288). -/
def gathered (v : View) (ixs : BitVec 2) (pair signed : Bool) (d : Opd) (ex : Mask) (x : Word) : List RegW :=
  if ex = 0 then []
  else match d with
    | .s n => [.s n.toNat (if signed && !pair then (lo 32 x).signExtend 64 else x)]
    | d => (lanesOf ex).flatMap fun l => v.dest ixs pair signed d l x

/-- Lane by lane. -/
def perLane (v : View) (ixs : BitVec 2) (pair signed : Bool) (d : Opd) (ex : Mask) (f : Nat → Word) : List RegW :=
  (lanesOf ex).flatMap fun l => v.dest ixs pair signed d l (f l)

/-- The segment size of SHFL: the largest power of two not above min(max(C, 1), WIDTH) (R287). -/
def segment (width c : Nat) : Nat := ([64, 32, 16, 8, 4, 2].find? fun g => decide (g ≤ Nat.min (Nat.max c 1) width)).getD 1

/-- The source lane of SHFL: where the mode points inside the lane's segment, else the lane itself (R287). -/
def shuffled (mode : ShflMode) (width l b c : Nat) : Nat :=
  let g := segment width c
  let base := l / g * g
  let inside (j : Nat) : Nat := if base ≤ j ∧ j < base + g then j else l
  match mode with
  | .idx => base + b % g
  | .up => if b ≤ l then inside (l - b) else l
  | .down => inside (l + b)
  | .xor => inside (l ^^^ b)

/-- Only s operands with a register number and k operands are read by the gathering instructions. -/
def predOf (v : View) (a : Opd) : Mask := match a with | .k n => v.t.regs.getK n.toNat | _ => 0

end Sys2Proof.Claims

/-- R61, R285: the K group acts per lane on predicates; KSET sets where a v source is nonzero, and takes bit LANE of any
other source. -/
def Sys2Proof.Claims.PredicateInstructions : Prop :=
  ∀ (o : R3) (q : R2),
    let two (i : Instr) (g : Bool → Bool → Bool) : Prop :=
      Computes i o.p o.ixs 4 o.d false false [(o.a, .u32), (o.b, .u32)] false fun xs =>
        (if g (decide (warg xs 0 ≠ 0)) (decide (warg xs 1 ≠ 0)) then 1 else 0, 0)
    two (.kand o) (· && ·) ∧ two (.kor o) (· || ·) ∧ two (.kxor o) (· ^^ ·) ∧
    (Computes (.knot q) q.p q.ixs 4 q.d false false [(q.a, .u32)] false fun xs =>
      (if warg xs 0 = 0 then 1 else 0, 0)) ∧
    (∀ n ix, q.a = .v n ix → Computes (.kset q) q.p q.ixs 4 q.d false false [(q.a, .u32)] false fun xs =>
      (if warg xs 0 = 0 then 0 else 1, 0)) ∧
    ((∀ n ix, q.a ≠ .v n ix) →
      Writes (.kset q) q.p { p := q.p, ixs := q.ixs, rd := [(q.a, 1)], wr := [(q.d, 1)] } 4 fun s v ex =>
        (perLane v q.ixs false false q.d ex fun l => if (v.read s q.ixs .u64 q.a l).getLsbD l then 1 else 0, 0))

/-- R57, R61, R286 to R288: KBAL gathers k[A] of the executing lanes, VOTE their any, all or agreement, each once into an s
register or into every executing lane; SHFL reads the lane its mode names inside the segment. KBAL's odd v pair at width
64 enters emulation with cause 7 whatever its guard. -/
def Sys2Proof.Claims.BallotsVotesAndShuffles : Prop :=
  ∀ (o : R2) (fn : VoteFn) (w64 : Bool) (mode : ShflMode) (q : R4),
    (∀ (s s1 : State) (v0 v : View) (ex : Mask), s.view = some v0 →
      let pair := decide (v0.g.width = 64) && !isS o.d
      if pair = true ∧ (∃ n ix, o.d = .v n ix ∧ n.toNat % 2 = 1) then
        exec (.kbal o) s = .next ((s.startIssue v0).1.emulate (s.startIssue v0).2 ((encode (.kbal o)).getD 0) 7 0)
      else
        s.admits { p := o.p, ixs := o.ixs, rd := [(o.a, 1)], wr := [(o.d, if pair then 2 else 1)] } = .ok (s1, v, ex) →
        exec (.kbal o) s = .next (s1.done v o.p 8 (gathered v o.ixs pair false o.d ex (predOf v o.a &&& ex)) 0)) ∧
    (Writes (.vote fn o) o.p { p := o.p, ixs := o.ixs, rd := [(o.a, 1)], wr := [(o.d, 1)], safe := false } 8
      fun _ v ex =>
        let yes := (lanesOf ex).filter fun l => (predOf v o.a).getLsbD l
        let all := (lanesOf ex).length
        let r := match fn with
          | .any => decide (0 < yes.length)
          | .all => yes.length == all
          | .uni => yes.length == all || yes.length == 0
        (gathered v o.ixs false false o.d ex (if r then 1 else 0), 0)) ∧
    (∀ (s s1 : State) (v : View) (ex : Mask),
      s.admits { p := q.p, ixs := q.ixs, rd := [(q.a, wgrp w64), (q.b, 1), (q.c, 1)], wr := [(q.d, wgrp w64)],
                 safe := false } = .ok (s1, v, ex) → v.g.width ∈ [16, 32, 64] →
      exec (.shfl w64 mode q) s = .next (s1.done v q.p 8 (perLane v q.ixs w64 false q.d ex fun l =>
        v.read s1 q.ixs (rd w64) q.a
          (shuffled mode v.g.width l (v.read s1 q.ixs .u32 q.b l).toNat (v.read s1 q.ixs .u32 q.c l).toNat)) 0))

/-- R61, R289, R290, R292: GRED and GSCAN combine the executing lanes' values in ascending lane order, the total for all or
each lane's own prefix; RDLANE reads and WRLANE writes the lane B mod WIDTH, WRLANE not one that is on the carry
pool or has exited;
IXW writes A plus the immediate mod 2^16. -/
def Sys2Proof.Claims.ReductionsAndLaneMoves : Prop :=
  ∀ (op : GOp) (ty : ITy) (o : R2) (q : R3) (p : Pre) (i : BitVec 2) (a : Opd) (imm : BitVec 24),
    let u : Uses := { p := o.p, ixs := o.ixs, rd := [(o.a, ty.grp)], wr := [(o.d, ty.grp)], safe := false }
    (Writes (.gred op ty o) o.p u 12 fun s v ex =>
      let r := gscanVals op ty (fun l => v.read s o.ixs (rd ty.wide) o.a l) (lanesOf ex)
      (gathered v o.ixs ty.wide (ty.signed && !op.float) o.d ex ((r.1.getLast?.map Prod.snd).getD 0), r.2)) ∧
    (Writes (.gscan op ty o) o.p u 12 fun s v ex =>
      let r := gscanVals op ty (fun l => v.read s o.ixs (rd ty.wide) o.a l) (lanesOf ex)
      (r.1.flatMap fun e => v.dest o.ixs ty.wide ty.signed o.d e.1 e.2, r.2)) ∧
    (Writes (.rdlane q) q.p { p := q.p, ixs := q.ixs, rd := [(q.a, 1), (q.b, 1)], wr := [(q.d, 1)], safe := false } 8
      fun s v ex => (if ex = 0 then [] else
        v.dest q.ixs false false q.d 0 (v.read s q.ixs .u32 q.a ((v.read s q.ixs .u32 q.b 0).toNat % v.g.width)), 0)) ∧
    (Writes (.wrlane q) q.p { p := q.p, ixs := q.ixs, rd := [(q.a, 1), (q.b, 1)], wr := [(q.d, 1)], safe := false } 8
      fun s v ex =>
        let l := (v.read s q.ixs .u32 q.b 0).toNat % v.g.width
        let away := s.lanes.any fun e => e.2.gang == v.uid && e.2.lane == l
        let gone := v.g.exited.getLsbD l || (decide (l < 64) && away)
        (if ex = 0 ∨ gone = true then [] else v.dest q.ixs false false q.d l (v.read s q.ixs .u32 q.a 0), 0)) ∧
    (Writes (.ixw p i a imm) p { p := p, rd := [(a, 1)], wi := [i.toNat] } 4 fun s v ex =>
      (if ex = 0 then [] else [.i i.toNat (lo 16 (v.read s 0 .u64 a 0 + imm.signExtend 64))], 0))

/-- R289: over the integers the order does not matter: ADD gives the sum mod 2^n of the participants' values, the bitwise
operations their combination, and the prefix of the last participant is the total. -/
def Sys2Proof.Claims.IntegerReductionTotals : Prop :=
  ∀ (ty : ITy) (src : Nat → Word) (ls : List Nat), ls ≠ [] → (∀ l ∈ ls, src l = up (lo (bits ty) (src l))) →
    let total (op : GOp) : Word := ((gscanVals op ty src ls).1.getLast?.map Prod.snd).getD 0
    total .add = up ((ls.map fun l => lo (bits ty) (src l)).foldl (· + ·) 0) ∧
    total .or = (ls.map src).foldl (· ||| ·) 0 ∧
    total .xor = (ls.map src).foldl (· ^^^ ·) 0 ∧
    total .and = (ls.map src).foldl (· &&& ·) (BitVec.allOnes 64) ∧
    (∃ l ∈ ls, total .min = src l) ∧ (∀ l ∈ ls, ityVal ty (total .min) ≤ ityVal ty (src l)) ∧
    (∃ l ∈ ls, total .max = src l) ∧ (∀ l ∈ ls, ityVal ty (src l) ≤ ityVal ty (total .max)) ∧
    (gscanVals .add ty src ls).1.map Prod.fst = ls

/-- Predicates, ballots, votes, shuffles, reductions and lane moves.
It concludes that exec answers a next state for KAND, KOR, KXOR, KNOT, KBAL, KSET, SHFL, VOTE, GRED, GSCAN, RDLANE,
WRLANE, IXW. -/
def Obligations.PredicateAndLaneInstructions : Prop :=
  Claims.PredicateInstructions ∧ Claims.BallotsVotesAndShuffles ∧ Claims.ReductionsAndLaneMoves ∧ Claims.IntegerReductionTotals

/-- R262, R266 to R268, R70: SRD writes the register's value lane by lane (zero-extended into an s register), SWR the value
of the lowest executing lane, once; a supervisor-only number halts a user-mode gang with PRIVILEGE before anything else. -/
def Sys2Proof.Claims.SpecialRegisterMoves : Prop :=
  ∀ (p : Pre) (ixs : BitVec 2) (o : Opd) (r : SpReg) (s s1 : State) (v0 v : View) (ex : Mask), s.view = some v0 →
    (r.supervisor = true → v0.sup = false →
      exec (.srd p ixs o r) s = .next (s.haltV v0 { cause := .privilege }) ∧
      exec (.swr p ixs o r) s = .next (s.haltV v0 { cause := .privilege })) ∧
    ((r.supervisor = true → v0.sup = true) →
      (s.admits { p := p, ixs := ixs, wr := [(o, wgrp r.wide)] } = .ok (s1, v, ex) →
        exec (.srd p ixs o r) s = .next (s1.done v p 4 (
          if ex = 0 then []
          else match o with
            | .s n => [.s n.toNat (v.srd s1 r (uniLane ex))]
            | o => (lanesOf ex).flatMap fun l => v.dest ixs r.wide false o l (v.srd s1 r l)) 0)) ∧
      (s.admits { p := p, ixs := ixs, rd := [(o, wgrp r.wide)] } = .ok (s1, v, ex) →
        exec (.swr p ixs o r) s =
          if ex = 0 then .next (s1.retire v v.t p.stall)
          else
            let w := s1.swr v r (v.read s1 ixs (rd r.wide) o (uniLane ex))
            .next (w.1.retire v w.2 p.stall)))

/-- R264, R268: what SWR wrote, SRD reads, as wide as the register: five flag bits, the 32-bit counters and SATCn, the 12
bits of CTX, and RPROGq where R346 lets it be written. -/
def Sys2Proof.Claims.SpecialRegistersReadBack : Prop :=
  ∀ (s : State) (v : View) (g : Gang) (gr : Grid) (x : Word) (l : Nat), v.a = .gang v.uid → v.lane = none →
    tget s.gangs v.uid = some g → v.g = g → tget s.grids (s.teamOf g).grid = some gr →
    mapWf 0 gr.satc = true → mapWf 0 g.rprog = true →
    let after (r : SpReg) : Word :=
      let w := s.swr v r x
      let s' := w.1.setThr v.a w.2
      match s'.viewOf v.a with
      | some v' => v'.srd s' r l
      | none => 0
    after .fpflags = (x &&& 0x1F#64) ∧ after .bkconf = up (lo 32 x) ∧ after .modez = up (lo 32 x) ∧
    after .polmis = up (lo 32 x) ∧ after .ctx = (x &&& 0xFFF#64) ∧ (∀ n, after (.satc n) = up (lo 32 x)) ∧
    (∀ q, s.rprogOk v.uid q.toNat x = true → after (.rprog q) = x)

/-- SRD and SWR, and what is read back.
It concludes that exec answers a next state for SRD, SWR. -/
def Obligations.SpecialRegisters : Prop :=
  Claims.SpecialRegisterMoves ∧ Claims.SpecialRegistersReadBack

/-! ## Issue, results and frames of register instructions -/

/-- R36, R52, R64, R67, R461: the checks at issue of a gang's instruction. A v register at VALLOT or above halts with
VREG_BOUND; with the scoreboard on, a source not yet readable, or any register whose result is still in flight, halts with
SBCHK, whatever the guard passes (the model's choice, assumption 102: R64 speaks of no guard); a poisoned source halts with POISON_REG, its number in HADDR and the lanes in HMASK; otherwise the instruction acts
in the lanes whose guard passes. -/
def Sys2Proof.Claims.IssueChecks : Prop :=
  ∀ (s : State) (u : Uses) (v0 : View), s.view = some v0 → v0.lane = none →
    let s1 := (s.startIssue v0).1
    let v := (s.startIssue v0).2
    let ops := u.rd ++ u.wr
    let rd := u.reads v.t
    if v.g.vallot < v.t.vTop u.ixs ops then s.admits u = .error (.next (s1.haltV v { cause := .vregBound }))
    else if (s1.gridOf v.g).sbchk = true ∧ (v.t.pendingHit rd = true ∨ v.t.flightHit (rd ++ u.writes v.t) = true) then
      s.admits u = .error (.next (s1.haltV v { cause := .sbchk }))
    else
      match v.poisoned u (v.exec u.p) with
      | some (n, m) =>
        s.admits u = .error (.next (s1.haltV v { cause := .poisonReg, mask := some m, addr := BitVec.ofNat 64 n }))
      | none => s.admits u = .ok (s1, v, v.exec u.p)

namespace Sys2Proof.Claims

/-- The registers of a gang once every result of an instruction that has issued has landed. -/
def landed (s : State) (u : Nat) : Option Regs := (tget s.gangs u).map fun g => g.thr.landAll.regs

/-- A register file in canonical form. -/
def RegsWf (r : Regs) : Prop :=
  mapWf 0 r.v = true ∧ mapWf false r.vp = true ∧ mapWf 0 r.k = true ∧ mapWf 0 r.s = true ∧ mapWf 0 r.i = true

/-- Two register files read alike. -/
def SameRegs (a b : Regs) : Prop :=
  (∀ n l, a.getV n l = b.getV n l) ∧ (∀ n, a.getS n = b.getS n) ∧ (∀ n, a.getK n = b.getK n) ∧
  (∀ n, a.getI n = b.getI n) ∧ (∀ n, a.getX n = b.getX n)

end Sys2Proof.Claims

/-- R61, R264: an instruction that retires with register writes changes, once they have landed, those registers alone, raises
its flags, keeps what it has raised before, and goes on to the next word. -/
def Sys2Proof.Claims.ResultsReachTheirRegistersAlone : Prop :=
  ∀ (s : State) (v : View) (g : Gang) (p : Pre) (lat : Nat) (w : List RegW) (fl : FFlags), v.a = .gang v.uid → v.lane = none →
    tget s.gangs v.uid = some g →
    let s' := s.done v p lat w fl
    let old := v.t.landAll.regs
    landed s' v.uid = some { old.applyAll w with fpflags := old.fpflags ||| fl } ∧
    ((tget s'.gangs v.uid).map fun g' => g'.thr.pc) = some (v.t.pc + 8) ∧
    (∀ u, u ≠ v.uid → tget s'.gangs u = tget s.gangs u) ∧
    (∀ n l, (∀ x, RegW.v n l x ∉ w) → (old.applyAll w).getV n l = old.getV n l) ∧
    (∀ n, (∀ x, RegW.s n x ∉ w) → (old.applyAll w).getS n = old.getS n) ∧
    (∀ n, (∀ m x, RegW.k n m x ∉ w) → (old.applyAll w).getK n = old.getK n) ∧
    (∀ n, (∀ x, RegW.i n x ∉ w) → (old.applyAll w).getI n = old.getI n) ∧
    (∀ n, (old.applyAll w).getX n = old.getX n)

/-- R8, R50, R54: what a computed instruction writes. Per lane, a v destination takes the low 32 bits of that lane's result
(a pair the high ones above it) in exactly the lanes whose guard passes; on the uniform pipe an s destination takes it
once, sign- or zero-extended as its type says. -/
def Sys2Proof.Claims.DestinationsTakeTheResults : Prop :=
  ∀ (s : State) (v : View) (g : Gang) (ex : Mask) (p : Pre) (ixs : BitVec 2) (lat : Nat) (wide signed : Bool)
    (srcs : List (Opd × Rd)) (f : List Word → Word × FFlags) (r : Regs),
    v.a = .gang v.uid → v.lane = none → tget s.gangs v.uid = some g → RegsWf v.t.landAll.regs →
    (∀ n ix, landed (s.aluEnd v ex p ixs lat (.v n ix) wide signed srcs f) v.uid = some r →
      let val (l : Nat) : Word := (f (srcs.map fun o => v.read s ixs o.2 o.1 l)).1
      ∀ m l, l < 64 → r.getV m l =
        if ex.getLsbD l = true ∧ m = v.t.eff ixs n ix then lo 32 (val l)
        else if ex.getLsbD l = true ∧ wide = true ∧ m = v.t.eff ixs n ix + 1 then lo 32 (val l >>> 32)
        else v.t.landAll.regs.getV m l) ∧
    (∀ n, (∀ o ∈ srcs, (∃ x, o.1 = .s x) ∨ (∃ x, o.1 = .c x) ∨ (∃ x, o.1 = .p x)) → ex ≠ 0 →
      landed (s.aluEnd v ex p ixs lat (.s n) wide signed srcs f) v.uid = some r →
      let x : Word := (f (srcs.map fun o => v.read s ixs o.2 o.1 (uniLane ex))).1
      ∀ m, r.getS m =
        if m = n.toNat then (if wide then x else if signed then (lo 32 x).signExtend 64 else up (lo 32 x))
        else v.t.landAll.regs.getS m)

/-- R63, R64: without the scoreboard a register reads as before until the cycle its producer's latency names, and as the
producer's result from that cycle on; R65: however the landings are spread over time, once all have landed each register
holds the result issued last. -/
def Sys2Proof.Claims.ResultsLandAtTheirLatency : Prop :=
  ∀ (t : Thr) (now : Nat),
    ((∀ p ∈ t.pend, now < p.cycle) → (t.landDue now).regs = t.regs ∧ (t.landDue now).pend = t.pend) ∧
    ((∀ p ∈ t.pend, p.cycle ≤ now) → (t.landDue now).regs = t.landAll.regs ∧ (t.landDue now).pend = []) ∧
    (RegsWf t.regs → SameRegs (t.landDue now).landAll.regs t.landAll.regs)

/-- Where results go, and when. -/
def Obligations.ResultsReachTheirRegisters : Prop :=
  Claims.ResultsReachTheirRegistersAlone ∧ Claims.DestinationsTakeTheResults ∧ Claims.ResultsLandAtTheirLatency

/-- R61: a gang's result is readable its latency after the cycle of issue, one cycle later at width 64 (R63). R62: the next
instruction issues 1 + STALL cycles later, 2 + STALL at width 64. -/
def Sys2Proof.Claims.IssueDistance : Prop :=
  ∀ (s : State) (v : View) (g : Gang) (p : Pre) (lat : Nat) (w : List RegW) (fl : FFlags), v.a = .gang v.uid → v.lane = none →
    tget s.gangs v.uid = some g → w ≠ [] →
    ((tget (s.done v p lat w fl).gangs v.uid).map fun g' => (g'.thr.pend.getLast?, g'.thr.next)) =
      some (some ⟨if v.g.width = 64 then v.now + lat + 1 else v.now + lat, w⟩,
        v.now + (if v.g.width = 64 then 2 else 1) + p.stall.toNat)

/-- The checks at issue and when the next issue may come. -/
def Obligations.IssueChecksAndDistance : Prop :=
  Claims.IssueChecks ∧ Claims.IssueDistance

namespace Sys2Proof.Claims

/-- The instructions that work on registers alone. -/
def registerOnly : Instr → Bool
  | .iadd .. | .isub .. | .imul .. | .imulh .. | .imad .. | .imin .. | .imax .. | .iabs .. | .icmp .. | .idiv .. | .lea ..
  | .iaddi .. | .imuli .. | .icmpi .. | .movi .. | .movk .. | .and .. | .or .. | .xor .. | .andn .. | .shl .. | .shr ..
  | .sra .. | .rot .. | .bfe .. | .bfi .. | .popc .. | .clz .. | .brev .. | .sel .. | .mov .. | .logi .. | .fadd ..
  | .fsub .. | .fmul .. | .ffma .. | .fmin .. | .fmax .. | .fcmp .. | .fclass .. | .frcp .. | .frsq .. | .fsqrt ..
  | .fdiv .. | .fexp2 .. | .flog2 .. | .fsin .. | .fcos .. | .hadd2 .. | .hmul2 .. | .hfma2 .. | .hmin2 .. | .hmax2 ..
  | .dot4 .. | .ftanh .. | .fldx .. | .cvt .. | .cvtp .. | .frnd .. | .kand .. | .kor .. | .kxor .. | .knot .. | .kbal ..
  | .kset .. | .shfl .. | .vote .. | .gred .. | .gscan .. | .rdlane .. | .wrlane .. | .ixw .. | .srd .. | .nop .. => true
  | _ => false

/-- Nothing outside the threads of one gang has changed: no byte of memory or of an array, no unit, message, grid, queue or
device register, and no other gang. -/
def OthersKept (s s' : State) (u : Nat) : Prop :=
  (∀ a, memByte s'.mem a = memByte s.mem a) ∧ s'.poison = s.poison ∧ s'.registry = s.registry ∧ s'.home = s.home ∧
  s'.partials = s.partials ∧ s'.net = s.net ∧ s'.front = s.front ∧ s'.arrays = s.arrays ∧ s'.grids = s.grids ∧
  s'.dies = s.dies ∧ s'.islands = s.islands ∧ s'.retries = s.retries ∧ s'.groups = s.groups ∧ s'.windows = s.windows ∧
  s'.posts = s.posts ∧ s'.replies = s.replies ∧ s'.hkc = s.hkc ∧ s'.cur = s.cur ∧ s'.inputs = s.inputs ∧
  (∀ x, x ≠ u → tget s'.gangs x = tget s.gangs x)

end Sys2Proof.Claims

/-- The frame of every instruction that works on registers alone, whatever becomes of it (its result, a halt, an early
return or an emulation): memory, arrays, devices and other gangs are as before, and of its own gang the translation
registers, the rejoin-stack's counters and the sticky counters outside FPFLAGS keep their values unless a lane returns. -/
def Obligations.RegisterInstructionsTouchNothingElse : Prop :=
  ∀ (i : Instr) (s s' : State) (v : View), registerOnly i = true → s.view = some v → exec i s = .next s' →
    OthersKept s s' v.uid ∧
    (v.lane = none → (∀ o, i ≠ .kbal o) →
      ∀ g g', tget s.gangs v.uid = some g → tget s'.gangs v.uid = some g' →
        g'.thr.regs.x = g.thr.regs.x ∧ g'.thr.regs.bkconf = g.thr.regs.bkconf ∧ g'.thr.regs.modez = g.thr.regs.modez ∧
        g'.thr.regs.polmis = g.thr.regs.polmis ∧ g'.stack = g.stack ∧ g'.exited = g.exited ∧ g'.sup = g.sup ∧
        g'.emu = g.emu ∧ g'.ctx = g.ctx ∧ g'.fmask = g.fmask ∧ g'.fva = g.fva ∧ g'.rprog = g.rprog)

/-! ## Control flow, traps and halts -/

namespace Sys2Proof.Claims

/-- A guard-free instruction of Format B, or another with these uses, passes its checks. -/
def Admitted (s : State) (u : Uses) (s1 : State) (v : View) (ex : Mask) : Prop := s.admits u = .ok (s1, v, ex)

/-- A transfer to a target whose header passes R31 goes there; one that fails it halts at the transferring instruction, and
one whose page is absent faults as a fetch (R384). -/
def Transfers (i : Instr) (u : Uses) (stall : BitVec 4) (target : View → Word) (thr : View → Thr) : Prop :=
  ∀ (s s1 s2 : State) (v : View) (ex : Mask), Admitted s u s1 v ex →
    (∀ h, s1.checkTarget v (target v) = (s2, .ok h) →
      exec i s = .next ((s2.backward v (target v)).enterAt v (thr v) (target v) 3 stall)) ∧
    (∀ h, s1.checkTarget v (target v) = (s2, .halt h) → exec i s = .next (s2.haltV v h)) ∧
    (∀ l, s1.checkTarget v (target v) = (s2, .fault l) → exec i s = .next (s2.fetchFault v (target v) l))

end Sys2Proof.Claims

/-- R382, R384, R385, R386: NOP goes on to the next word; BRA, BRX, CALL and RET go to the target each names, CALL after it
has written the address of the next word to s[A]; BRC.ANY and BRC.ALL go where some, or every, active lane's condition holds,
and on to the next word otherwise. -/
def Sys2Proof.Claims.UniformTransfers : Prop :=
  ∀ (p : Pre) (stall : BitVec 4) (a : BitVec 6) (off : BitVec 32) (bn : Bool) (bk : BitVec 3),
    let rel (v : View) : Word := v.t.pc + 8 * off.signExtend 64
    let b : Uses := { p := preB stall }
    let tested : Uses := { p := preB stall, rk := [bk.toNat] }
    let cond (v : View) (l : Nat) : Bool := v.act.getLsbD l && ((v.t.regs.getK bk.toNat).getLsbD l != bn)
    (∀ s s1 v ex, Admitted s { p := p } s1 v ex → exec (.nop p) s = .next (s1.retire v v.t p.stall)) ∧
    Transfers (.bra stall off) b stall rel View.t ∧
    Transfers (.brx stall a off) { b with rs := [a.toNat] } stall
      (fun v => v.t.regs.getS a.toNat + 8 * off.signExtend 64) View.t ∧
    Transfers (.ret stall a) { b with rs := [a.toNat] } stall (fun v => v.t.regs.getS a.toNat) View.t ∧
    Transfers (.call stall a off) { b with ws := [a.toNat] } stall rel (fun v => { v.t with
      regs := v.t.regs.setS a.toNat (v.t.pc + 8)
      pend := v.t.pend.map (Pend.supersede [.s a.toNat (v.t.pc + 8)]) }) ∧
    (∀ s s1 s2 v ex h, Admitted s tested s1 v ex →
      let taken := s1.checkTarget v (rel v) = (s2, .ok h)
      ((∃ l, cond v l = true) → taken →
        exec (.brcAny stall bn bk off) s = .next ((s2.backward v (rel v)).enterAt v v.t (rel v) 3 stall)) ∧
      ((∀ l, cond v l = false) → exec (.brcAny stall bn bk off) s = .next (s1.retire v v.t stall)) ∧
      ((∀ l, v.act.getLsbD l = true → cond v l = true) → taken →
        exec (.brcAll stall bn bk off) s = .next ((s2.backward v (rel v)).enterAt v v.t (rel v) 3 stall)) ∧
      ((∃ l, v.act.getLsbD l = true ∧ cond v l = false) →
        exec (.brcAll stall bn bk off) s = .next (s1.retire v v.t stall)))

/-- R31, R384, R381: a transfer checks the header at its target and takes three cycles beside STALL: the thread then stands
at the target's header with its registers, stack and flights as they were; a target that is no multiple of 8, or whose word
is no header that passes R31, is a framing fault. -/
def Sys2Proof.Claims.TransfersArriveAtTheirTarget : Prop :=
  ∀ (s : State) (v : View) (t : Thr) (g : Gang) (target : Word) (stall : BitVec 4), v.a = .gang v.uid → v.lane = none →
    tget s.gangs v.uid = some g →
    let s' := (s.backward v target).enterAt v t target 3 stall
    (∃ g', tget s'.gangs v.uid = some g' ∧ g'.thr.pc = target ∧ g'.thr.atHdr = true ∧ g'.thr.regs = t.regs ∧
      g'.thr.flights = t.flights ∧ g'.stack = g.stack ∧
      g'.thr.next = v.now + 3 + stall.toNat + (if v.g.width = 64 then 1 else 0)) ∧
    (target.toNat % 8 ≠ 0 → s.checkTarget v target = (s, .halt { cause := .framing })) ∧
    (∀ s2 w, target.toNat % 8 = 0 → s.fetch v target = (s2, .word w) →
      s.checkTarget v target = (s2, if hdrOk w v.g.vallot then .ok w else .halt { cause := .framing }))

/-- Transfers of the whole gang.
It concludes that exec answers a next state for NOP, BRA, BRC_ANY, BRC_ALL, BRX, CALL, RET. -/
def Obligations.UniformControlFlow : Prop :=
  Claims.UniformTransfers ∧ Claims.TransfersArriveAtTheirTarget

namespace Sys2Proof.Claims

/-- The two sides of a BRC.DIV in the order of R358: the one with more lanes first, on equal counts the lower target. -/
def firstSide (a b : BrSide) : Bool :=
  decide ((lanesOf b.mask).length < (lanesOf a.mask).length) ||
    ((lanesOf b.mask).length == (lanesOf a.mask).length && decide (a.pc.toNat < b.pc.toNat))

end Sys2Proof.Claims

/-- R357, R358, R386, R387: a BRC.DIV of a gang goes on, or transfers, where its lanes agree, and halts outside a block of KIND
01. Where they disagree and nothing is ejected, the entry under both sides waits at the rejoin header with every lane (the
running top itself, or the entry that already waits there), and each side that does not start at the rejoin header gets an
entry of its own, the first side on top. Where the second side is no longer than the threshold of R362 (EJ where it is 1 to 8, the grid's
default where it is 0, none where it is 15), the gang is in user mode outside the handlers and enough contexts are free, its lanes
are ejected instead: the waiting entry holds them in EMASK and no longer in MASK, and no entry is pushed for them. -/
def Sys2Proof.Claims.DivergentBranches : Prop :=
  ∀ (stall : BitVec 4) (bn : Bool) (bk : BitVec 3) (off : BitVec 32) (s s1 s2 s3 : State) (v : View) (ex : Mask)
    (w tw : Word),
    Admitted s { p := preB stall, rk := [bk.toNat] } s1 v ex → v.lane = none → v.a = .gang v.uid →
    let i := Instr.brcDiv stall bn bk off
    let rj := v.t.hdra + hdrRj v.t.hdr
    let tgt := v.t.pc + 8 * off.signExtend 64
    let k := v.t.regs.getK bk.toNat
    let tk := v.act &&& (if bn then ~~~k else k)
    let fl := v.act &&& ~~~tk
    (hdrKind v.t.hdr ≠ 1 → exec i s = .next (s1.haltV v { cause := .divKind })) ∧
    (hdrKind v.t.hdr = 1 → s1.fetch v rj = (s2, .word w) → rj.toNat % 8 = 0 → isHdr w = true →
      (tk = 0 → exec i s = .next (s2.retire v v.t stall)) ∧
      (tk ≠ 0 → fl = 0 → s2.checkTarget v tgt = (s3, .ok tw) →
        exec i s = .next ((s3.backward v tgt).enterAt v v.t tgt 3 stall)) ∧
      (tk ≠ 0 → fl ≠ 0 → s2.checkTarget v tgt = (s3, .ok tw) → v.t.pc + 8 ≠ v.t.blockEnd →
        let T : BrSide := ⟨tk, tgt, tgt, tw⟩
        let F : BrSide := ⟨fl, v.t.pc + 8, v.t.hdra, v.t.hdr⟩
        let one := if firstSide T F then T else F
        let two := if firstSide T F then F else T
        let own (x : BrSide) : List Entry := if x.pc = rj then [] else [⟨x.pc, some rj, x.mask, 0, x.hdra, x.hdr⟩]
        let few : Prop := two.pc ≠ rj ∧ v.g.sup = false ∧ v.g.inEmu = false ∧ v.g.inPf = false ∧
          (lanesOf two.mask).length ≤ (s3.freeCtx v.g.core).length ∧ (lanesOf two.mask).length ≤
            (if hdrEj v.t.hdr = 15 then 0 else if hdrEj v.t.hdr = 0 then (s3.gridOf v.g).ejdef else hdrEj v.t.hdr)
        ∀ (top : Entry) (below : List Entry) (g : Gang), v.g.stack = below ++ [top] → tget s3.gangs v.uid = some g →
          (¬few → (top.rpc ≠ some rj → ∃ t g', exec i s = .next t ∧ tget t.gangs v.uid = some g' ∧
            g'.stack = below ++ [{ top with pc := rj, hdra := rj }] ++ own two ++ own one) ∧
          (top.rpc = some rj → (∃ e ∈ below, e.pc = rj) → ∃ t g', exec i s = .next t ∧ tget t.gangs v.uid = some g' ∧
            g'.stack = below ++ own two ++ own one)) ∧
          (few →
            let out (e : Entry) : Entry := { e with mask := e.mask &&& ~~~two.mask, emask := e.emask ||| two.mask }
            (top.rpc ≠ some rj → ∃ t g', exec i s = .next t ∧ tget t.gangs v.uid = some g' ∧
              g'.stack = below ++ [out { top with pc := rj, hdra := rj }] ++ own one ∧ t.lanes = (s3.eject v two rj).lanes) ∧
            (∀ b1 e b2, top.rpc = some rj → below = b1 ++ [e] ++ b2 → e.pc = rj → (∀ x ∈ b2, x.pc ≠ rj) →
              ∃ t g', exec i s = .next t ∧ tget t.gangs v.uid = some g' ∧
                g'.stack = b1 ++ [out e] ++ b2 ++ own one ∧ t.lanes = (s3.eject v two rj).lanes))))

/-- R357, R386, R387: where a BRC.DIV of a gang completes: in a block of KIND 01 whose rejoin header is fetched. No lane taken:
it goes on. Every lane taken, to a header that passes R31: the gang stands there. Both sides, the target's header in order and
the branch not the last word of its block: the gang's stack waits at the rejoin header. -/
def Sys2Proof.Claims.DivergentBranchesComplete : Prop :=
  ∀ (stall : BitVec 4) (bn : Bool) (bk : BitVec 3) (off : BitVec 32) (s s1 : State) (v : View) (ex : Mask) (w tw : Word)
    (g : Gang),
    Admitted s { p := preB stall, rk := [bk.toNat] } s1 v ex → v.lane = none → v.a = .gang v.uid →
    tget s1.gangs v.uid = some g → hdrKind v.t.hdr = 1 →
    let rj := v.t.hdra + hdrRj v.t.hdr
    let tgt := v.t.pc + 8 * off.signExtend 64
    let k := v.t.regs.getK bk.toNat
    let tk := v.act &&& (if bn then ~~~k else k)
    let fl := v.act &&& ~~~tk
    (s1.fetch v rj).2 = .word w → rj.toNat % 8 = 0 → isHdr w = true →
    (tk = 0 → ∃ t g', exec (.brcDiv stall bn bk off) s = .next t ∧ tget t.gangs v.uid = some g' ∧
      g'.thr.pc = v.t.pc + 8 ∧ g'.stack = g.stack) ∧
    (tgt.toNat % 8 = 0 → ((s1.fetch v rj).1.fetch v tgt).2 = .word tw → hdrOk tw v.g.vallot = true →
      (tk ≠ 0 → fl = 0 → ∃ t g', exec (.brcDiv stall bn bk off) s = .next t ∧ tget t.gangs v.uid = some g' ∧
        g'.thr.pc = tgt ∧ g'.thr.atHdr = true ∧ g'.stack = g.stack) ∧
      (tk ≠ 0 → fl ≠ 0 → v.t.pc + 8 ≠ v.t.blockEnd →
        (∃ top below, v.g.stack = below ++ [top] ∧ (top.rpc ≠ some rj ∨ ∃ e ∈ below, e.pc = rj)) →
        ∃ t g', exec (.brcDiv stall bn bk off) s = .next t ∧ tget t.gangs v.uid = some g' ∧ ∃ e ∈ g'.stack, e.pc = rj))

/-- R363, R364: an ejection: each lane of the side has a context of its own that was free (the lowest of them in order: the model's
choice, assumption 125), at the side's start, with the live registers of the gang as they stand once its results have landed
(R69), and zero counters; no other context, no gang and no memory changes. -/
def Sys2Proof.Claims.EjectionMovesLanesToTheCarryPool : Prop :=
  ∀ (s : State) (v : View) (side : BrSide) (rj : Word), (lanesOf side.mask).length ≤ (s.freeCtx v.g.core).length →
    let s' := s.eject v side rj
    (∀ l, l < 64 → side.mask.getLsbD l = true →
      ∃ c lc, c ∈ s.freeCtx v.g.core ∧ tget s'.lanes c = some lc ∧ lc.gang = v.uid ∧ lc.lane = l ∧ lc.rejoin = rj ∧
        lc.st = .ejected ∧ lc.thr.pc = side.pc ∧ lc.thr.hdr = side.hdr ∧
        (∀ r, r < hdrLive side.hdr → lc.thr.regs.getV r l = v.t.landAll.regs.getV r l) ∧ lc.thr.regs.fpflags = 0 ∧
        lc.thr.regs.bkconf = 0 ∧ lc.thr.regs.modez = 0 ∧ lc.thr.regs.polmis = 0) ∧
    (∀ c, c ∉ s.freeCtx v.g.core → tget s'.lanes c = tget s.lanes c) ∧ s'.gangs = s.gangs ∧ s'.mem = s.mem

/-- Divergent branches and ejection.
It concludes that exec answers a next state for BRC_DIV. -/
def Obligations.DivergenceAndEjection : Prop :=
  Claims.DivergentBranches ∧ Claims.DivergentBranchesComplete ∧ Claims.EjectionMovesLanesToTheCarryPool

/-- R388 to R390: EXIT and GJOIN of a gang take the active lanes out of every entry and note them as exited, or as waiting at
this address, and the stack settles; YIELD goes on and ranks the gang lowest for 256 cycles. An EXIT keeps its lanes exited
whatever the stack then does. -/
def Sys2Proof.Claims.ExitJoinAndYield : Prop :=
  ∀ (stall : BitVec 4) (off : BitVec 32) (s s1 : State) (v : View) (ex : Mask) (g : Gang), v.lane = none →
    v.a = .gang v.uid → tget s1.gangs v.uid = some g → g.spilled = 0 →
    let out (g : Gang) : List Entry := g.stack.map fun e => { e with mask := e.mask &&& ~~~v.act }
    (Admitted s { p := preB stall } s1 v ex →
      exec (.exit stall) s = .next (((s1.retire v v.t stall).modGang v.uid fun g =>
        { g with stack := out g, exited := g.exited ||| v.act }).settleGang v.uid) ∧
      (∀ t, exec (.exit stall) s = .next t →
        (tget t.gangs v.uid).map Gang.exited = some (g.exited ||| v.act)) ∧
      exec (.yield stall) s = .next ((s1.retire v v.t stall).modGang v.uid fun g =>
        { g with yieldUntil := some (v.now + 256) })) ∧
    (Admitted s { p := preB stall, safe := false } s1 v ex →
      exec (.gjoin stall off) s = .next (((s1.retire v v.t stall).modGang v.uid fun g =>
        { g with stack := out g, jw := g.jw ||| v.act
                 jpc := (lanesOf v.act).foldl (init := g.jpc) fun m l => mset 0 m l v.t.pc }).settleGang v.uid))

namespace Sys2Proof.Claims

/-- What a lane gives back to its gang (R369, R388, R266): every v register that it received at ejection or has written since, its
predicates, its flags, which are ORed, and its counters, which are added. Every other lane's registers stay. -/
def GivenBack (lc : LaneCtx) (old new : Regs) : Prop :=
  let own := lc.thr.landAll.regs
  (∀ r l, l < 64 → new.getV r l = if l = lc.lane ∧ r ∈ lc.got then own.getV r l else old.getV r l) ∧
  (∀ n, 1 ≤ n → n < 8 → new.getK n = (old.getK n &&& ~~~laneBit lc.lane) ||| (own.getK n &&& laneBit lc.lane)) ∧
  new.fpflags = old.fpflags ||| own.fpflags ∧ new.bkconf = old.bkconf + own.bkconf ∧
  new.modez = old.modez + own.modez ∧ new.polmis = old.polmis + own.polmis

end Sys2Proof.Claims

/-- R266, R368, R388, R390: the carry-pool forms. EXIT of a lane whose accesses are complete frees its context, gives its registers,
predicates, flags and counters back and marks it exited in its gang; YIELD there only goes on to the next word; GJOIN there is an
early return. -/
def Sys2Proof.Claims.PoolLaneExit : Prop :=
  (∀ (stall : BitVec 4) (s s1 : State) (v : View) (ex : Mask) (lc : LaneCtx) (g : Gang),
    Admitted s { p := preB stall } s1 v ex → v.lane = some lc.lane → tget s1.lanes v.ctxNo = some lc →
    tget s1.gangs lc.gang = some g →
    exec (.yield stall) s = .next (s1.retire v v.t stall) ∧
    (g.spilled = 0 → lc.thr.flights.all Flight.complete = true →
      ∃ t, exec (.exit stall) s = .next t ∧ (tget t.gangs lc.gang).map Gang.exited = some (g.exited ||| laneBit lc.lane) ∧
        (∀ below e, g.stack = below ++ [e] → ((e.mask ||| e.emask) &&& ~~~laneBit lc.lane ≠ 0) →
          t.lanes = tdel s1.lanes v.ctxNo ∧
          (RegsWf g.thr.regs → lc.lane < 64 → RegsWf lc.thr.landAll.regs →
            ∃ g', tget t.gangs lc.gang = some g' ∧ GivenBack lc g.thr.regs g'.thr.regs)))) ∧
  (∀ (stall : BitVec 4) (off : BitVec 32) (s : State) (v0 : View), s.view = some v0 → v0.lane ≠ none →
    exec (.gjoin stall off) s = .next (s.earlyReturn v0.ctxNo))

/-- EXIT, GJOIN and YIELD, on a gang and on the carry pool.
It concludes that exec answers a next state for EXIT, GJOIN, YIELD. -/
def Obligations.ExitsJoinsAndYields : Prop :=
  Claims.ExitJoinAndYield ∧ Claims.PoolLaneExit

/-- R443, R444, R445, R75, R36: where some active lane's guard passes, BKPT halts with those lanes and its code, and TRAPU
enters the emulation handler with cause 9, a lane of the carry pool returning early to its gang first (R370); where none passes both go on. RETU outside the handler halts; in it, the gang
goes on at EMUPC + 8 in the block that held it, with the mask it had at entry but for lanes that have left. -/
def Sys2Proof.Claims.TrapsAndTheirReturn : Prop :=
  ∀ (p : Pre) (code : BitVec 24) (stall : BitVec 4) (s s1 : State) (v : View) (ex : Mask) (g : Gang),
    tget s1.gangs v.uid = some g →
    (Admitted s { p := p } s1 v ex →
      (ex ≠ 0 → exec (.bkpt p code) s =
          .next (s1.haltGang v.uid .bkpt v.t.pc ex (code.setWidth 64)) ∧
        exec (.trapu p code) s = .next (s1.emulate v ((encode (.trapu p code)).getD 0) 9 p.stall)) ∧
      (v.lane ≠ none → ex ≠ 0 → exec (.trapu p code) s = .next (s1.earlyReturn v.ctxNo)) ∧
      (ex = 0 → exec (.bkpt p code) s = .next (s1.retire v v.t p.stall) ∧
        exec (.trapu p code) s = .next (s1.retire v v.t p.stall))) ∧
    (Admitted s { p := preB stall } s1 v ex →
      (v.lane ≠ none ∨ v.g.inEmu = false ∨ v.g.inPf = true →
        exec (.retu stall) s = .next (s1.haltV v { cause := .notInHandler })) ∧
      (v.lane = none → v.g.inEmu = true → v.g.inPf = false →
        ∃ t g', exec (.retu stall) s = .next t ∧ tget t.gangs v.uid = some g' ∧
          g'.thr.pc = v.g.emu.pc + 8 ∧ g'.thr.hdra = v.g.ehdra ∧ g'.inEmu = false ∧ g'.thr.regs = v.t.regs ∧
          (inBlock (v.g.emu.pc + 8) v.g.ehdra v.g.ehdr = true → g'.thr.hdr = v.g.ehdr) ∧
          (∀ st e, v.g.stack.take (v.g.emuDepth - v.g.spilled) = st ++ [e] →
            g'.stack = st ++ [{ e with mask := v.g.emuMask &&& ~~~(v.g.exited ||| v.g.jw ||| v.g.dmask) }])))

/-- R71, R73, R76, R78: entry to the emulation handler. The gang goes to EMUH with its active mask and registers unchanged;
EMUOP holds the word, EMUPC its address, EMUFN the opcode and the cause; inside a handler it halts with EMU_NEST instead,
and with ILLEGAL where no handler is named. -/
def Sys2Proof.Claims.EmulationEntry : Prop :=
  ∀ (s : State) (v : View) (word : Word) (cause : Nat) (stall : BitVec 4) (g : Gang), v.lane = none → v.a = .gang v.uid →
    tget s.gangs v.uid = some g → { v.g with thr := g.thr } = g → g.halted = false → s.lanesAt v.uid v.t.pc = [] →
    cause < 10 →
    let emuh := (s.gridOf g).emuh
    let s' := s.emulate v word cause stall
    ((g.inEmu = true ∨ g.inPf = true) → s' = s.haltV v { cause := .emuNest }) ∧
    (g.inEmu = false → g.inPf = false → emuh = 0 → s' = s.haltV v { cause := .illegal }) ∧
    (g.inEmu = false → g.inPf = false → emuh ≠ 0 →
      ∃ g', tget s'.gangs v.uid = some g' ∧ g'.thr.pc = emuh ∧ g'.thr.atHdr = true ∧
        g'.thr.regs = g.thr.regs ∧ g'.stack = g.stack ∧ g'.inEmu = true ∧ g'.emuMask = v.act ∧
        g'.ehdra = v.t.hdra ∧ g'.ehdr = v.t.hdr ∧ g'.emu.op = word ∧ g'.emu.pc = v.t.pc ∧
        g'.emu.fn.extractLsb' 0 8 = opByte word ∧ g'.emu.fn.extractLsb' 24 8 = BitVec.ofNat 8 cause ∧ s'.mem = s.mem)

/-- Traps, emulation and the return from them.
It concludes that exec answers a next state for BKPT, TRAPU, RETU. -/
def Obligations.TrapsAndEmulation : Prop :=
  Claims.TrapsAndTheirReturn ∧ Claims.EmulationEntry

/-- R70: what becomes of a word that a gang meets inside a block, at the cycle of its issue. A header word enters emulation
with cause 6; a privileged word of a gang in user mode halts it before any other check; a word that fails a check of decoding
enters emulation with that check's number; any other is executed. -/
def Sys2Proof.Claims.WordsThatFailTheirChecks : Prop :=
  ∀ (s s1 : State) (v v1 : View) (w : Word), s.view = some v → v.lane = none → s.startIssue v = (s1, v1) →
    (opByte w = 0xFF#8 → s.runWord v w = .next (s1.emulate v1 w 6 0)) ∧
    (opByte w ≠ 0xFF#8 → privileged w = true → v.g.sup = false →
      s.runWord v w = .next (s1.haltV v1 { cause := .privilege })) ∧
    (opByte w ≠ 0xFF#8 → (privileged w = true → v.g.sup = true) →
      (∀ i, decode w = .ok i → s.runWord v w = exec i s) ∧
      (∀ c, decode w = .error c → c ≠ .guard → s.runWord v w = .next (s1.emulate v1 w c.num 0)))

/-- R449, R450, R451: a halt writes HCAUSE, HPC, HMASK and HADDR of its gang and stops it. The team's first halt makes the
halt record; a later one sets bit 8 (SECOND) of its own gang's HCAUSE and only counts in the record. Other gangs, memory and
the threads' registers stay as they are. -/
def Sys2Proof.Claims.HaltsSaveTheirCause : Prop :=
  ∀ (s : State) (u : Nat) (c : Cause2) (pc : Word) (m : Mask) (ad : Word) (g : Gang) (tm : Team),
    tget s.gangs u = some g → tget s.teams g.team = some tm →
    let s' := s.haltGang u c pc m ad
    let again := tm.st = .halting ∨ tm.st = .halted
    (∃ g', tget s'.gangs u = some g' ∧ g'.halted = true ∧ g'.halt.pc = pc ∧ g'.halt.mask = m ∧ g'.halt.addr = ad ∧
      g'.thr = g.thr ∧ g'.stack = g.stack ∧
      (¬again → g'.halt.cause = c.code) ∧ (again → g'.halt.cause = (c.code ||| 0x100#64))) ∧
    (∃ t', tget s'.teams g.team = some t' ∧
      (¬again → t'.st = .halting ∧ t'.haltRec = ⟨⟨c.code, pc, m, ad⟩, g.gangid, 1, g.core, s.time⟩) ∧
      (again → t'.st = tm.st ∧ t'.haltRec = { tm.haltRec with halts := tm.haltRec.halts + 1 })) ∧
    (∀ x, x ≠ u → tget s'.gangs x = tget s.gangs x) ∧ s'.mem = s.mem ∧ s'.lanes = s.lanes ∧ s'.arrays = s.arrays

/-- Words that fail their checks, and what a halt saves. -/
def Obligations.IllegalWordsAndHalts : Prop :=
  Claims.WordsThatFailTheirChecks ∧ Claims.HaltsSaveTheirCause

/-- R30, R31, R353, R359: a gang that stands at a header whose checks pass, with its lanes at home and none to meet, begins the
block: the header is in force and the next word is the first of it. A header that fails its checks is a framing fault at
its own address. -/
def Sys2Proof.Claims.HeadersBeginTheirBlock : Prop :=
  ∀ (s s1 : State) (v : View) (w : Word) (top : Entry) (below : List Entry) (g : Gang),
    s.viewOf v.a = some v → v.a = .gang v.uid → v.t.atHdr = true → v.g.ended = false → v.g.halted = false →
    v.g.spilled = 0 → v.g.stack.length ≤ 16 →
    (s.teamOf v.g).cancelled = false → v.g.stack = below ++ [top] → v.g.exited &&& v.g.all ≠ v.g.all →
    s.fetch v v.t.pc = (s1, .word w) → tget s1.gangs v.uid = some g →
    ((v.t.pc.toNat % 8 ≠ 0 ∨ hdrOk w v.g.vallot = false) →
      exec (.headerArrive v.a) s = .next (s1.haltV v { cause := .framing })) ∧
    (v.t.pc.toNat % 8 = 0 → hdrOk w v.g.vallot = true → top.emask = 0 → top.rpc ≠ some v.t.pc → top.mask ≠ 0 →
      (hdrKind w ≠ 3 ∨ v.g.dmask = 0) →
      ∃ t g', exec (.headerArrive v.a) s = .next t ∧ tget t.gangs v.uid = some g' ∧ g'.thr.hdra = v.t.pc ∧ g'.thr.hdr = w ∧
        g'.thr.pc = v.t.pc + 8 ∧ g'.thr.atHdr = false ∧ g'.thr.regs = g.thr.regs ∧ g'.stack = g.stack) ∧
    (v.t.pc.toNat % 8 = 0 → hdrOk w v.g.vallot = true → top.emask = 0 → top.rpc = some v.t.pc →
      ∀ (e : Entry) (rest : List Entry), below = rest ++ [e] → e.pc = v.t.pc → (e.mask ≠ 0 ∨ e.emask ≠ 0) →
        ∃ t g', exec (.headerArrive v.a) s = .next t ∧ tget t.gangs v.uid = some g' ∧ g'.stack = below)

/-- R366, R373, R364, R361: a lane that waits at its rejoin header merges with the gang that waits there for it: its bit
moves from EMASK to MASK, its live registers and counters return, its context is freed. A parked lane joins its gang at a
rendezvous by the chain rule. A lane with a posted error halts the gang instead (R144). Shown for a gang whose stack is held
whole (R377). -/
def Sys2Proof.Claims.LanesMergeAtTheirHeader : Prop :=
  ∀ (c : Nat) (s : State) (lc : LaneCtx) (g : Gang), tget s.lanes c = some lc → tget s.gangs lc.gang = some g →
    lc.thr.flights.all Flight.complete = true → g.thr.atHdr = true → lc.thr.pc = g.thr.pc →
    g.spilled = 0 → g.stack.length ≤ 16 →
    let bit := laneBit lc.lane
    let halts : Prop := ∀ pe, lc.thr.postErr = some pe → exec (.laneMerge c) s = .next
      ((s.clearPosted (.lane c) lc.gang).haltGang lc.gang
        (if pe.gated then .dieGated else if pe.remote then .remoteStoreError else .storeError) lc.thr.pc bit pe.addr)
    (∀ t0 top below, lc.st = .waiting → g.thr.wait = .waitMerge t0 → g.stack = below ++ [top] →
      hasLane top.emask lc.lane = true →
      halts ∧ (lc.thr.postErr = none →
        ∃ t g', exec (.laneMerge c) s = .next t ∧ tget t.gangs lc.gang = some g' ∧ t.lanes = tdel s.lanes c ∧
          g'.stack = below ++ [{ top with mask := top.mask ||| bit, emask := top.emask &&& ~~~bit }] ∧
          g'.thr.regs = mergeRegs (hdrLive g.thr.hdr) lc g.thr.regs ∧
          g'.thr.wait = (if top.emask &&& ~~~bit = 0 then .none else .waitMerge t0))) ∧
    (∀ t0, lc.st = .parked → g.thr.wait = .rendezvous t0 → g.stack ≠ [] →
      halts ∧ (lc.thr.postErr = none →
        ∃ t g', exec (.laneMerge c) s = .next t ∧ tget t.gangs lc.gang = some g' ∧ t.lanes = tdel s.lanes c ∧
          g'.stack = (chainAdd g.stack bit).1 ∧ g'.dmask = g.dmask &&& ~~~bit ∧
          g'.thr.regs = mergeRegs (hdrLive g.thr.hdr) lc g.thr.regs))

/-- Headers, and lanes that come back there.
It concludes that exec answers a next state for HEADER_ARRIVE, LANE_MERGE. -/
def Obligations.HeadersAndMerges : Prop :=
  Claims.HeadersBeginTheirBlock ∧ Claims.LanesMergeAtTheirHeader

/-- R369, R371, R373, R376, R416: the gang's timed events. A wait for ejected lanes that has lasted RJT cycles detaches them;
a rendezvous that has lasted so long begins the block; a lane at an ejection-unsafe word returns early; a deadlock that has
lasted 1,024 cycles halts the gang; a demoted gang regains its rank when its time is over. -/
def Sys2Proof.Claims.TimedThreadEvents : Prop :=
  ∀ (u : Nat) (s : State) (g : Gang), tget s.gangs u = some g → g.spilled = 0 → g.stack.length < 16 →
    let now := s.clk g.core
    let rjt := (s.gridOf g).rjt
    (∀ t0 e below, g.thr.wait = .waitMerge t0 → g.stack = below ++ [e] → rjt ≠ 0 → t0 + rjt ≤ now → e.mask &&& ~~~e.emask ≠ 0 →
      ∃ t g', exec (.rjtDetach u) s = .next t ∧ tget t.gangs u = some g' ∧ g'.dmask = g.dmask ||| e.emask ∧
        g'.thr.wait = .none ∧
        g'.stack = (g.stack.map fun x => { x with mask := x.mask &&& ~~~e.emask, emask := x.emask &&& ~~~e.emask }) ∧
        ∀ c lc, (c, lc) ∈ t.lanes → lc.gang = u → hasLane e.emask lc.lane = true → lc.st = .detached) ∧
    (∀ t0, g.thr.wait = .rendezvous t0 → t0 + rjt ≤ now → (s.parkedOf u).all (fun e => e.2.thr.pc != g.thr.pc) = true →
      ∃ t g', exec (.rendezvousTimeout u) s = .next t ∧ tget t.gangs u = some g' ∧ g'.thr.pc = g.thr.pc + 8 ∧
        g'.thr.atHdr = false ∧ g'.thr.wait = .none) ∧
    (∀ c lc w i, tget s.lanes c = some lc → lc.gang = u → (lc.st = .ejected ∨ lc.st = .detached) → lc.thr.atHdr = false →
      tget lc.thr.fbuf lc.thr.pc.toNat = some w → decode w = .ok i → Instr.unsafeOnPool i = true →
      exec (.earlyReturn c) s = .next (s.earlyReturn c)) ∧
    (∀ t0, s.dead u g = true → g.deadSince = some t0 → t0 + 1024 ≤ now →
      ∃ pc, exec (.rejoinDeadlock u) s = .next (s.haltGang u .rejoinDeadlock pc g.jw 0) ∧
        (∀ l, lowest g.jw = some l → pc = mget 0 g.jpc l)) ∧
    (s.dead u g = true → g.deadSince = none →
      exec (.rejoinDeadlock u) s = .next (s.modGang u fun g => { g with deadSince := some now })) ∧
    (∃ t g', exec (.priorityRestore u) s = .next t ∧ tget t.gangs u = some g' ∧ g'.thr = g.thr ∧
      g'.lowUntil = (match g.lowUntil with | some t0 => if t0 ≤ now then none else some t0 | none => none) ∧
      g'.yieldUntil = (match g.yieldUntil with | some t0 => if t0 ≤ now then none else some t0 | none => none))

/-- R369, R266: an early return puts the lane back into its gang at the word it stands at: its context is freed, the
registers it held or wrote, its predicates, flags and counters return, and it runs again in an entry of its own. -/
def Sys2Proof.Claims.EarlyReturnRestoresTheLane : Prop :=
  ∀ (c : Nat) (s : State) (lc : LaneCtx) (g : Gang), tget s.lanes c = some lc → tget s.gangs lc.gang = some g →
    g.inEmu = false → g.inPf = false → g.spilled = 0 → lc.thr.flights.all Flight.complete = true →
    (lc.st = .ejected ∨ lc.st = .waiting → ∃ e ∈ g.stack, hasLane e.emask lc.lane = true) →
    RegsWf g.thr.regs → lc.lane < 64 → RegsWf lc.thr.landAll.regs →
    let s' := s.earlyReturn c
    s'.lanes = tdel s.lanes c ∧
    ∃ g', tget s'.gangs lc.gang = some g' ∧
      GivenBack lc g.thr.regs g'.thr.regs ∧
      ∃ e ∈ g'.stack, e.mask = laneBit lc.lane ∧ e.pc = lc.thr.pc

/-- The timed events of a thread, and early return.
It concludes that exec answers a next state for RJT_DETACH, RENDEZVOUS_TIMEOUT, EARLY_RETURN, REJOIN_DEADLOCK,
PRIORITY_RESTORE. -/
def Obligations.TimedEventsAndEarlyReturn : Prop :=
  Claims.TimedThreadEvents ∧ Claims.EarlyReturnRestoresTheLane

/-! ## Memory -/

namespace Sys2Proof.Claims

/-- An access that has passed its checks: where every lane translates and the effect `body` is done, it retires, a store or
atomic clearing the spin count (R417), and an address that cannot be reached is logged (R465); where the effect has to wait it waits at issue; where lanes page-fault, the others
are done first and the handler is entered for those (R111). -/
def Accesses (i : Instr) (u : State → Uses) (m : AccF) (body : Acc → Go) : Prop :=
  ∀ (s : State) (r : Acc), s.accessReady (u s) m = .ok r →
    (r.ok ≠ [] → ∀ t, body r = .done t →
      let t1 := t.noteRemote (r.ok.flatMap fun x => x.2.pas)
      let t' := if m.writes then t1.noSpin r.v else t1
      (r.faults = [] → exec i s = .next (t'.retire r.v ((t'.thr? r.v.a).getD r.v.t) m.p.stall)) ∧
      (r.faults ≠ [] → r.uni = false → exec i s =
        .next (t'.pageFaultV r.v (maskOf (r.faults.map Prod.fst)) r.faults m.want r.level))) ∧
    (r.ok ≠ [] → ∀ h, body r = .halt h → exec i s = .next (r.s.haltV r.v h)) ∧
    (r.ok ≠ [] → ∀ t, body r = .wait t → exec i s = .next t)

/-- The parts of a Format M access. -/
def mAcc (m : MF) (want : Want) (writes : Bool) (n align : Nat) (block : Bool) : AccF :=
  { p := m.p, ixs := m.ixs, xr := m.xr, o := m.o, disp := m.disp.signExtend 64, v := some m.v, n := n, align := align,
    want := want, writes := writes, path := .g, spath := .s, block := block }

/-- The parts of a Format A access, naturally aligned. -/
def aAcc (a : AF) (want : Want) (writes : Bool) (n : Nat) (path spath : Path) : AccF :=
  { p := a.p, ixs := a.ixs, xr := a.xr, o := a.o, disp := a.disp.signExtend 64, v := some a.v, n := n, align := n,
    want := want, writes := writes, path := path, spath := spath }

/-- k7 under CHK (R45). -/
def k7 (chk : Bool) : List Nat := if chk then [7] else []

/-- Bytes of a size (R42, R175). -/
def bytes (z : Sz) : Nat := match z with | .b8 => 1 | .b16 => 2 | .b32 => 4 | .b128 => 16 | _ => 8

end Sys2Proof.Claims

namespace Sys2Proof.Claims

/-- A gang's thread with nothing of its own in flight and no store error posted, whose agent's L1 waits for no grant, holds no
pending store, while no L1 has lost a unit that the gang stored to: no ordering rule makes its next access wait (R135, R143, R144, R155). -/
def Settled (s : State) (v : View) : Prop :=
  v.a = .gang v.uid ∧ v.lane = none ∧ tget s.gangs v.uid = some { v.g with thr := v.t } ∧ v.t.flights = [] ∧
  v.t.postErr = none ∧ (s.l1Of (v.agent s)).pend = [] ∧ (s.l1Of (v.agent s)).asked = [] ∧
  ∀ e ∈ s.l1, ∀ x ∈ e.2.lostGangs, x.1 ≠ v.uid

/-- The access goes through a FRAME register, and every lane's address passes R102, R103 and R109 and is backed (R86, R89). -/
def Reaches (s : State) (v : View) (ex : Mask) (m : AccF) : Prop :=
  let x := v.t.regs.getX m.xr.toNat
  x.kind = .frame ∧ (m.writes = true → x.ro = false) ∧ v.oddPair m.ixs x m.o = none ∧
  ∀ l ∈ m.lanes ex,
    let off := (v.laneReq s m x l).off
    let a : Word := x.base + BitVec.ofNat 64 off
    off + m.n ≤ x.limit.toNat ∧ a.toNat % m.align = 0 ∧ s.paHalt a.toNat = none

/-- The gang has gone on past its instruction, with one more instruction in flight, for all lanes whose guard passed. -/
def Started (t : State) (v : View) (ex : Mask) (fl : Flight) (g : Gang) : Prop :=
  tget t.gangs v.uid = some g ∧ g.thr.pc = v.t.pc + 8 ∧ g.thr.flights = [fl] ∧ fl.lanes = ex ∧ fl.pc = v.t.pc

/-- A byte of a load of a kind through a FRAME register is at its place from the register's base plus the lane's offset; an atomic
gives the place of its operand for each of its bytes. -/
def ReadsAt (x : XReg) (off : Nat) (kind : LandKind) (b : LByte) : Prop :=
  b.pa = (x.base + BitVec.ofNat 64 off).toNat % 2 ^ 52 + match kind with | .atom _ => 0 | _ => b.idx

/-- A load or atomic that passes its checks completes: it goes on, and its result is on its way to the destination; what it reads
through the FRAME register is each lane's own bytes at the register's frame base plus its offset (R100, R102). -/
def ReadCompletes (i : Instr) (u : State → Uses) (m : AccF) (kind : LandKind) (dst : View → LandDst) : Prop :=
  ∀ (s s1 : State) (v : View) (ex : Mask), Admitted s (u s) s1 v ex → ex ≠ 0 → Settled s1 v → Reaches s1 v ex m →
    ∃ t g fl, exec i s = .next t ∧ Started t v ex fl g ∧ fl.kind = kind ∧ fl.dst = dst v ∧ fl.landed = false ∧
      (∀ b ∈ fl.bytes, ∃ l ∈ m.lanes ex, b.lane = laneNo (uniform (m.o :: m.v.toList)) l ∧ b.idx < m.n ∧
        ReadsAt (v.t.regs.getX m.xr.toNat) (v.laneReq s1 m (v.t.regs.getX m.xr.toNat) l).off kind b)

/-- A store or reduction that passes its checks completes: it goes on, and its write is on its way (R417: the spin count is
cleared). -/
def WriteCompletes (i : Instr) (u : State → Uses) (m : AccF) (path : Path) : Prop :=
  ∀ (s s1 : State) (v : View) (ex : Mask), Admitted s (u s) s1 v ex → ex ≠ 0 → Settled s1 v → Reaches s1 v ex m →
    ∃ t g fl, exec i s = .next t ∧ Started t v ex fl g ∧ fl.kind = .write ∧ fl.path = path ∧ g.spinCnt = 0

end Sys2Proof.Claims

/-- R100, R102, R103, R109, R110, R236, R237: a lane's address and the checks on it in their order: an absent register, an offset
whose bytes pass the limit, a store through a read-only register, for a scratchpad register an offset past the window's arrays or
bytes that leave one array of the aperture, an odd offset pair, an address that is not aligned. R102 and R236 give HADDR for the bound;
what HADDR is for the other causes is the model's reading (assumption 9). -/
def Obligations.AddressChecksInOrder : Prop :=
  ∀ (x : XReg) (arrays off n align : Nat) (writes : Bool) (odd : Option Nat),
    let a : Word := if x.kind = .virt ∨ x.kind = .frame then x.base + BitVec.ofNat 64 off else BitVec.ofNat 64 off
    let past : Prop := off < 0x800000 ∧ (arrays * 0x8000 ≤ off ∨ off < arrays * 0x8000 ∧ arrays * 0x8000 < off + n)
    let across : Prop := 0x800000 ≤ off ∧ (off - 0x800000) / 512 ≠ (off + n - 1 - 0x800000) / 512
    arrays ≤ 256 →
    formAddr x arrays off n writes odd align =
      if x.kind = .none then .error (.xrNone, 0)
      else if x.limit.toNat < off + n then .error (.xrBound, BitVec.ofNat 64 off)
      else if writes = true ∧ x.ro = true then .error (.xrPerm, BitVec.ofNat 64 off)
      else if x.kind = .spad ∧ past then .error (.xrBound, BitVec.ofNat 64 off)
      else if x.kind = .spad ∧ across then .error (.align, BitVec.ofNat 64 off)
      else match odd with
        | some r => .error (.xrPair, BitVec.ofNat 64 r)
        | none => if a.toNat % align ≠ 0 then .error (.align, a) else .ok a

/-- R160, R172, R175, R178, R181: LD, LDA and BPX start their load in every lane that translates, LDA with the acquire and the hold
its order asks for and with SC behind the lane's earlier writes, and go on; the data lands later. -/
def Sys2Proof.Claims.LoadsStart : Prop :=
  ∀ (m : MF) (a : AF),
    Accesses (.ld m) (fun s => { p := m.p, ixs := m.ixs, rd := [(m.o, s.ogrp m.xr)], wr := [(m.v, m.sz.grp)], wk := k7 m.chk })
      (mAcc m .read false (bytes m.sz) (if m.sz = .pw then 8 else 1) false)
      (fun r => r.s.load r.v r.ex r.uni
        { kind := .load (bytes m.sz), dst := r.v.landDst m.ixs m.v, n := bytes m.sz, chk := m.chk, acq := false,
          hold := false, sc := false, pol := m.pol, path := .g } r.ok) ∧
    Accesses (.lda a) (fun s => { p := a.p, ixs := a.ixs, rd := [(a.o, s.ogrp a.xr)], wr := [(a.v, a.sz.grp)], wk := k7 a.chk })
      (aAcc a .read false (bytes a.sz) .g .s)
      (fun r =>
        let acq := decide (a.ord = .acq ∨ a.ord = .ar ∨ a.ord = .sc)
        if a.ord = .sc ∧ r.v.t.written = false then .wait r.s
        else r.s.load r.v r.ex r.uni
          { kind := .load (bytes a.sz), dst := r.v.landDst a.ixs a.v, n := bytes a.sz, chk := a.chk, acq := acq, hold := acq,
            sc := decide (a.ord = .sc), pol := .page, path := .g } r.ok) ∧
    Accesses (.bpx m) (fun s => { p := m.p, ixs := m.ixs, rd := [(m.o, s.ogrp m.xr)], wr := [(m.v, 1)], wk := k7 m.chk })
      (mAcc m .read false (8 * szPlanes m.sz) (if m.sz = .pw then 8 else 1) true)
      (fun r => r.s.load r.v r.ex r.uni
        { kind := .planes (szPlanes m.sz), dst := r.v.landDst m.ixs m.v, n := 8 * szPlanes m.sz, chk := m.chk, acq := false,
          hold := false, sc := false, pol := m.pol, path := .g,
          elems := r.ok.map fun t => (laneNo r.uni t.1, r.v.elem r.s m r.uni r.x t.1) } r.ok)

/-- R172, R175, R178, R181: LD, LDA and BPX complete: where nothing of the gang's own is in flight and every lane's address
passes its checks, exec answers a next state in which the load is in flight. -/
def Sys2Proof.Claims.LoadsComplete : Prop :=
  ∀ (m : MF) (a : AF),
    ReadCompletes (.ld m) (fun s => { p := m.p, ixs := m.ixs, rd := [(m.o, s.ogrp m.xr)], wr := [(m.v, m.sz.grp)], wk := k7 m.chk })
      (mAcc m .read false (bytes m.sz) (if m.sz = .pw then 8 else 1) false) (.load (bytes m.sz)) (fun v => v.landDst m.ixs m.v) ∧
    ReadCompletes (.lda a) (fun s => { p := a.p, ixs := a.ixs, rd := [(a.o, s.ogrp a.xr)], wr := [(a.v, a.sz.grp)], wk := k7 a.chk })
      (aAcc a .read false (bytes a.sz) .g .s) (.load (bytes a.sz)) (fun v => v.landDst a.ixs a.v) ∧
    ReadCompletes (.bpx m) (fun s => { p := m.p, ixs := m.ixs, rd := [(m.o, s.ogrp m.xr)], wr := [(m.v, 1)], wk := k7 m.chk })
      (mAcc m .read false (8 * szPlanes m.sz) (if m.sz = .pw then 8 else 1) true) (.planes (szPlanes m.sz))
      (fun v => v.landDst m.ixs m.v)

/-- R66, R154, R172: a load or store that starts adds one instruction in flight to its thread, of the loading thread's own
number, and changes no byte of memory and no scratchpad array; a load's bytes are those of the lanes that translated. -/
def Sys2Proof.Claims.StartedLoadsAreInFlight : Prop :=
  ∀ (s t : State) (v : View) (ex : Mask) (uni : Bool) (f : LoadF) (ok : List (Nat × Target)) (g : Gang),
    v.a = .gang v.uid → tget s.gangs v.uid = some g → s.load v ex uni f ok = .done t →
    (∃ g' fl, tget t.gangs v.uid = some g' ∧ g'.thr.flights.getLast? = some fl ∧ fl.id = s.fresh ∧ fl.kind = f.kind ∧
      fl.dst = f.dst ∧ fl.chk = f.chk ∧ fl.acq = f.acq ∧ fl.landed = false ∧ fl.pc = v.t.pc ∧
      g'.thr.regs.v = g.thr.regs.v ∧ g'.thr.regs.s = g.thr.regs.s ∧
      (∀ b ∈ fl.bytes, ∃ l ∈ ok, b.lane = laneNo uni l.1)) ∧
    (∀ a, memByte t.mem a = memByte s.mem a) ∧ t.arrays = s.arrays ∧ (∀ u, u ≠ v.uid → tget t.gangs u = tget s.gangs u)

/-- R66, R144, R172, R175, R238: when every byte of a gang's load has returned without an error, the loads before it have
their data (assumption 99) and the cycle from which scratchpad data can land has come, LOAD_DATA_LAND writes each lane's
value, lowest byte first, to the destination register, and the load is complete; an unchecked load that met an error halts the
gang with the error's cause instead. -/
def Sys2Proof.Claims.LoadedDataLands : Prop :=
  ∀ (s : State) (u : Nat) (g : Gang) (f : Flight) (n r : Nat), tget s.gangs u = some g → f ∈ g.thr.flights →
    g.thr.flights.find? (fun x => x.id == f.id) = some f → f.landed = false → f.wait = 0 → f.mcas = none →
    f.due ≤ s.clk g.core →
    f.kind = .load n → f.chk = false → f.acq = false → f.fills = [] → g.inPf = false → RegsWf g.thr.regs →
    (∀ b ∈ f.bytes, b.lane < 64) → (∀ h ∈ g.thr.flights, h.id < f.id → h.wait = 0) →
    ((∀ b ∈ f.bytes, b.val.isSome = true ∧ b.err = none) → f.dst = .v r →
      ∃ t g', exec (.loadDataLand (.gang u) f.id) s = .next t ∧ tget t.gangs u = some g' ∧
        (∀ l, (∃ b ∈ f.bytes, b.lane = l) → ∀ j, j < (n + 3) / 4 →
          g'.thr.regs.getV (r + j) l = BitVec.ofNat 32 (f.value l / 2 ^ (32 * j))) ∧
        (∀ m l, l < 64 → (m < r ∨ r + (n + 3) / 4 ≤ m ∨ ∀ b ∈ f.bytes, b.lane ≠ l) →
          g'.thr.regs.getV m l = g.thr.regs.getV m l) ∧
        (∀ x ∈ g'.thr.flights, x.id = f.id → x.landed = true)) ∧
    ((∀ b ∈ f.bytes, b.val.isSome = true ∨ b.err.isSome = true) → (∃ b ∈ f.bytes, b.err.isSome = true) →
      ∃ t g', exec (.loadDataLand (.gang u) f.id) s = .next t ∧ tget t.gangs u = some g' ∧ g'.halted = true ∧
        g'.halt.pc = f.pc ∧ g'.thr.regs.v = g.thr.regs.v)

/-- LD, LDA and BPX: what they start, and how their data comes back.
It concludes that exec answers a next state for LD, BPX, LDA, LOAD_DATA_LAND. -/
def Obligations.LoadInstructions : Prop :=
  Claims.LoadsStart ∧ Claims.LoadsComplete ∧ Claims.StartedLoadsAreInFlight ∧ Claims.LoadedDataLands

/-- R154, R172, R175, R181: ST and STA store in every lane that translates, STA after the release its order
asks for, and go on. -/
def Sys2Proof.Claims.StoresStart : Prop :=
  ∀ (m : MF) (a : AF),
    Accesses (.st m) (fun s => { p := m.p, ixs := m.ixs, rd := [(m.o, s.ogrp m.xr), (m.v, m.sz.grp)] })
      (mAcc m .write true (bytes m.sz) (if m.sz = .pw then 8 else 1) false)
      (fun r => r.s.store r.v r.ex r.uni (.st m) m.pol .g false
        (r.ok.map fun t => (t.1, t.2, bytesOf (bytes m.sz) (r.v.storeVal r.s m.ixs m.v (bytes m.sz) t.1)))) ∧
    (∀ _ : a.ord = .pln ∨ a.ord = .acq,
      Accesses (.sta a) (fun s => { p := a.p, ixs := a.ixs, rd := [(a.o, s.ogrp a.xr), (a.v, a.sz.grp)] })
        (aAcc a .write true (bytes a.sz) .g .s)
        (fun r => r.s.store r.v r.ex r.uni (.sta a) .page .g false
          (r.ok.map fun t => (t.1, t.2, bytesOf (bytes a.sz) (r.v.storeVal r.s a.ixs a.v (bytes a.sz) t.1))))) ∧
    (∀ _ : a.ord = .rel ∨ a.ord = .ar ∨ a.ord = .sc,
      Accesses (.sta a) (fun s => { p := a.p, ixs := a.ixs, rd := [(a.o, s.ogrp a.xr), (a.v, a.sz.grp)] })
        (aAcc a .write true (bytes a.sz) .g .s)
        (fun r => match r.s.release r.v with
          | .done s => s.store r.v r.ex r.uni (.sta a) .page .g (decide (a.ord = .sc))
              (r.ok.map fun t => (t.1, t.2, bytesOf (bytes a.sz) (r.v.storeVal s a.ixs a.v (bytes a.sz) t.1)))
          | g => g))

/-- R154, R172, R175, R178, R181: ST, STA and BPK complete: where nothing of the gang's own is in flight and every lane's
address passes its checks, exec answers a next state in which the store is in flight. -/
def Sys2Proof.Claims.StoresComplete : Prop :=
  ∀ (m : MF) (a : AF),
    WriteCompletes (.st m) (fun s => { p := m.p, ixs := m.ixs, rd := [(m.o, s.ogrp m.xr), (m.v, m.sz.grp)] })
      (mAcc m .write true (bytes m.sz) (if m.sz = .pw then 8 else 1) false) .g ∧
    WriteCompletes (.sta a) (fun s => { p := a.p, ixs := a.ixs, rd := [(a.o, s.ogrp a.xr), (a.v, a.sz.grp)] })
      (aAcc a .write true (bytes a.sz) .g .s) .g ∧
    WriteCompletes (.bpk m) (fun s => { p := m.p, ixs := m.ixs, rd := [(m.o, s.ogrp m.xr), (m.v, 1)] })
      (mAcc m .write true (8 * szPlanes m.sz) (if m.sz = .pw then 8 else 1) true) .g

/-- R100, R102, R129, R175: ST through a FRAME register from one lane, whose gang has nothing of its own in flight and whose agent owns
no unit: the bytes of the value, lowest first, wait as pending store data at the frame base plus the lane's offset. -/
def Sys2Proof.Claims.FrameStoresReachTheirAddress : Prop :=
  ∀ (m : MF) (s s1 : State) (v : View) (ex : Mask) (l : Nat),
    let f : AccF := mAcc m .write true (bytes m.sz) (if m.sz = .pw then 8 else 1) false
    let x := v.t.regs.getX m.xr.toNat
    let pa : Nat := (x.base + BitVec.ofNat 64 (v.laneReq s1 f x l).off).toNat % 2 ^ 52
    Admitted s { p := m.p, ixs := m.ixs, rd := [(m.o, s.ogrp m.xr), (m.v, m.sz.grp)] } s1 v ex → ex ≠ 0 → Settled s1 v →
    Reaches s1 v ex f → f.lanes ex = [l] → x.pca = false → m.pol ≠ .l2only → (s1.l1Of (v.agent s1)).owned = [] →
    (∀ j, j < bytes m.sz → s1.remoteBad (pa + j) = false) →
    ∃ t, exec (.st m) s = .next t ∧ t.mem = s1.mem ∧ ∀ j, j < bytes m.sz →
      ∃ p, (t.l1Of (v.agent s1)).pending (pa + j) = some p ∧ p.actor = v.a ∧
        p.val = BitVec.ofNat 8 (v.storeVal s1 m.ixs m.v (bytes m.sz) l / 256 ^ j)

/-- R178, R180: BPK sends each plane word of its block home with the lane's bit, where the bit of the word takes bit 0 of the
value and every other bit is kept, in one step. Shown for one plane word of this package that no agent holds. -/
def Sys2Proof.Claims.BitPlanesMergeAtHome : Prop :=
  (∀ (m : MF) (s : State) (r : Acc) (l : Nat) (va : Word) (p : Piece),
    s.accessReady { p := m.p, ixs := m.ixs, rd := [(m.o, s.ogrp m.xr), (m.v, 1)] } (mAcc m .write true 8 8 true) = .ok r →
    m.sz = .pw → r.faults = [] → r.ok = [(l, .glob va [p])] → p.off = 0 → p.n = 8 → p.pa % 8 = 0 → p.prpt = false →
    r.s.remoteBad p.pa = false → r.s.l1 = [] →
    ∃ t, exec (.bpk m) s = .next t ∧ t.mem = r.s.mem ∧
      let bit : Word := 1#64 <<< (r.v.elem r.s m r.uni r.x l)
      let set := (BitVec.ofNat 32 (r.v.storeVal r.s m.ixs m.v 4 l)).getLsbD 0
      t.net = r.s.net ++ [⟨r.s.fresh + 1, .req
        { id := r.s.fresh + 1, agent := r.v.agent r.s, ukey := ukeyOf p.pa p.cohg, sent := r.s.ps,
          req := .plane r.v.a r.s.fresh (laneNo r.uni l) p.pa 8 bit (if set then bit else 0) va }⟩]) ∧
  (∀ (s : State) (m : Nat) (r : HomeReq) (a : Actor) (fl l pa : Nat) (mask bits va : Word),
    s.net = [⟨m, .req r⟩] → r.req = .plane a fl l pa 8 mask bits va → r.timedOut = false → s.inbound r = false →
    s.paHalt (unitBase r.ukey) ≠ some .dieGated →
    s.home = [] → s.registry = [] → s.partials = [] → s.poison = [] → memWf s.mem = true →
    ∃ t, exec (.farStore m) s = .next t ∧
      (let w : Word := BitVec.ofNat 64 (memNat s.mem pa 8)
       memNat t.mem pa 8 = ((w &&& ~~~mask) ||| (bits &&& mask)).toNat) ∧
      (∀ b, b < pa ∨ pa + 8 ≤ b → memByte t.mem b = memByte s.mem b) ∧
      t.net.map Msg.body = [.ack (some a) fl l none va])

/-- R5: a run of bytes written to memory reads back as written, lowest address first, every other byte reads as before, and
the memory keeps its canonical form. -/
def Sys2Proof.Claims.MemoryReadsBackWhatWasWritten : Prop :=
  ∀ (m : List Host.Cell) (a n x : Nat) (bs : List Byte), memWf m = true →
    memRead (memWrite m a bs) a bs.length = bs ∧
    (∀ b, b < a ∨ a + bs.length ≤ b → memByte (memWrite m a bs) b = memByte m b) ∧
    memWf (memWrite m a bs) = true ∧
    memNat (memSetNat m a n x) a n = x % 2 ^ (8 * n)

/-- R121, R125, R131, R137: where no agent owns or has asked for a unit, no partial waits and nothing is on its way, a write of
the device reaches exactly its bytes of memory, and moves nothing else. -/
def Sys2Proof.Claims.DeviceWritesReachTheirBytes : Prop :=
  ∀ (s : State) (pa : Nat) (bs : List Byte), s.net = [] → s.home = [] → s.partials = [] → s.registry = [] → s.poison = [] →
    s.devWrite pa bs = { s with mem := memWrite s.mem pa bs }

/-- Memory as bytes. -/
def Obligations.MemoryBytes : Prop :=
  Claims.MemoryReadsBackWhatWasWritten ∧ Claims.DeviceWritesReachTheirBytes

/-- A request of an agent for a unit, as it stands on its way to the unit's home. -/
def Sys2Proof.Claims.wants (s : State) (agent k : Nat) (prpt : Option Nat) (q : Req) : Msg :=
  let r : HomeReq := { id := s.fresh, agent := agent, ukey := k, sent := s.ps, prpt := prpt, req := q }
  { id := s.fresh, body := .req r }

/-- R129, R133: a byte a lane stores to global memory. One of a unit the agent owns changes its L1 word at once; another
waits as pending store data behind one request for ownership, or goes home as a far store where the page is uncached or the
hint asks for it, and no readable copy of its word stays behind it (shown where the agent owns no unit); no byte of memory changes
before home serves it. -/
def Sys2Proof.Claims.StoresWaitForOwnership : Prop :=
  ∀ (s : State) (v : View) (id lane : Nat) (pol : Pol) (b : SByte), s.remoteBad b.pa = false →
    let agent := v.agent s
    let c := s.l1Of agent
    let s' := (s.storeBytes v id lane pol [b]).1
    (b.far = false → s'.mem = s.mem ∧ s'.arrays = s.arrays ∧ s'.gangs = s.gangs ∧
    (b.ukey ∈ c.owned → b.ukey ∉ c.asked → ∀ w, tget c.words (b.pa / 8) = some w → w.owned = true → w.poison = false →
      tget (s'.l1Of agent).words (b.pa / 8) =
        some { w with dirty := true, data := setWordByte w.data (b.pa % 8) b.val } ∧ s'.net = s.net) ∧
    (b.ukey ∉ c.owned →
      (s'.l1Of agent).pending b.pa = some
        { pa := b.pa, val := b.val, ukey := b.ukey, actor := v.a, flight := id, va := b.va, lane := lane, pol := pol
          prpt := b.prpt } ∧
      (b.ukey ∈ c.asked → s'.net = s.net) ∧
      (b.ukey ∉ c.asked → s'.net = s.net ++ [Claims.wants s agent b.ukey b.prpt (.reg (some v.a))] ∧
        b.ukey ∈ (s'.l1Of agent).asked))) ∧
    (b.far = true → c.owned = [] → s'.mem = s.mem ∧ s'.arrays = s.arrays ∧ (s'.l1Of agent).pend = c.pend ∧
      s'.net = s.net ++ [Claims.wants s agent b.ukey b.prpt (.farStore (some v.a) id lane b.pa [b.val] b.va)] ∧
      ∀ e ∈ (s'.l1Of agent).words, e.1 = b.pa / 8 → e.2.owned = true)

def Sys2Proof.Claims.AtomicsStart : Prop :=
  ∀ (op : AOp) (a : AF),
    let n := bytes a.sz
    let rel := decide (a.ord = .rel ∨ a.ord = .ar ∨ a.ord = .sc)
    let after (r : Acc) (k : State → Go) : Go :=
      if rel then (match r.s.release r.v with | .done s => k s | g => g) else k r.s
    let uses (g : Nat) (s : State) : Uses :=
      { p := a.p, ixs := a.ixs, rd := [(a.o, s.ogrp a.xr), (a.v, g)], wr := [(a.v, a.sz.grp)], wk := k7 a.chk }
    a.ord ≠ .cmt →
      Accesses (.atom op a) (uses a.sz.grp) (aAcc a .rmw true n .a .a)
        (fun r => after r fun s => s.atomics r.v r.ex r.uni (.atom op a) a
          (r.ok.map fun t => ⟨t.1, t.2, .atom op (BitVec.ofNat 64 (r.v.storeVal s a.ixs a.v n t.1))⟩)) ∧
      Accesses (.acas a) (uses (2 * a.sz.grp)) (aAcc a .rmw true n .a .a)
        (fun r => after r fun s => s.atomics r.v r.ex r.uni (.acas a) a
          (r.ok.map fun t =>
            let x := r.v.storeVal s a.ixs a.v (2 * n) t.1
            ⟨t.1, t.2, .cas (BitVec.ofNat 64 (x % 2 ^ (8 * n))) (BitVec.ofNat 64 (x / 2 ^ (8 * n)))⟩))

/-- ST, STA and BPK: what they start, and where a store's bytes go.
It concludes that exec answers a next state for ST, BPK, STA, FAR_STORE. -/
def Obligations.StoreInstructions : Prop :=
  Claims.StoresStart ∧ Claims.StoresComplete ∧ Claims.FrameStoresReachTheirAddress ∧ Claims.StoresWaitForOwnership ∧ Claims.BitPlanesMergeAtHome

/-- R172, R185, R189, R190: ATOM, ACAS and MCAS complete: where nothing of the gang's own is in flight and every lane's address
passes its checks, exec answers a next state in which the atomic is in flight; MCAS too, shown with memory at rest, where each
entry's word is aligned and backed. -/
def Sys2Proof.Claims.AtomicsComplete : Prop :=
  ∀ (op : AOp) (a : AF),
    let n := bytes a.sz
    let uses (g : Nat) (s : State) : Uses :=
      { p := a.p, ixs := a.ixs, rd := [(a.o, s.ogrp a.xr), (a.v, g)], wr := [(a.v, a.sz.grp)], wk := k7 a.chk }
    ReadCompletes (.atom op a) (uses a.sz.grp) (aAcc a .rmw true n .a .a) (.atom n) (fun v => v.landDst a.ixs a.v) ∧
    ReadCompletes (.acas a) (uses (2 * a.sz.grp)) (aAcc a .rmw true n .a .a) (.atom n) (fun v => v.landDst a.ixs a.v) ∧
    (∀ (cnt : BitVec 4) (sv : BitVec 6) (s s1 : State) (v : View) (ex : Mask),
      let m : AccF := { aAcc a .read false (24 * cnt.toNat) .a .a with align := 8 }
      let x := v.t.regs.getX a.xr.toNat
      let at_ : Nat := (x.base + BitVec.ofNat 64 (v.laneReq s1 m x (uniLane ex)).off).toNat % 2 ^ 52
      let entry (j : Nat) : Nat := memNat s1.mem (at_ + 24 * j) 8
      a.v = .s sv → uniform [a.o, a.v] = true →
      Admitted s { p := a.p, ixs := a.ixs, rd := [(a.o, s.ogrp a.xr)], ws := [sv.toNat] } s1 v ex → ex ≠ 0 →
      Settled s1 v → Reaches s1 v ex m → s1.net = [] → s1.home = [] → s1.registry = [] → s1.partials = [] →
      s1.poison = [] → s1.l1 = [] →
      (∀ j, j < cnt.toNat → entry j % 8 = 0 ∧ s1.paHalt ((x.base + BitVec.ofNat 64 (entry j)).toNat % 2 ^ 52) = none) →
      ∃ t g fl, exec (.mcas cnt a) s = .next t ∧ Started t v ex fl g ∧ fl.path = .a ∧ fl.dst = .s sv.toNat ∧ fl.mcas ≠ none)

/-- R170, R187: RED completes: where nothing of the gang's own is in flight and every lane's address passes its checks, exec
answers a next state: the reduction is in flight, or, with CMT, stands in the gang's log, which has room for it. -/
def Sys2Proof.Claims.ReductionsComplete : Prop :=
  ∀ (op : AOp) (a : AF),
    let u (s : State) : Uses := { p := a.p, ixs := a.ixs, rd := [(a.o, s.ogrp a.xr), (a.v, a.sz.grp)] }
    let m : AccF := aAcc a .rmw true (bytes a.sz) .a .a
    (a.ord ≠ .cmt → WriteCompletes (.red op a) u m .a) ∧
    (a.ord = .cmt → ∀ (s s1 : State) (v : View) (ex : Mask), Admitted s (u s) s1 v ex → ex ≠ 0 → Settled s1 v →
      Reaches s1 v ex m → v.g.cmtLog.length + (m.lanes ex).length ≤ 4096 → (∀ pa n, s1.lockedOver pa n = false) →
      ∃ t g, exec (.red op a) s = .next t ∧ tget t.gangs v.uid = some g ∧ g.thr.pc = v.t.pc + 8 ∧
        g.cmtLog.length = v.g.cmtLog.length + (m.lanes ex).length)

/-- R138, R170, R187: a RED with CMT adds its lanes' contributions to the gang's log, once no other agent is at work on the
log's place in the swap area, and halts with CMT_OVERFLOW where the log would pass 4,096 entries; any other RED of global
memory starts one write in flight that returns nothing, once the agent holds no store pending there. -/
def Sys2Proof.Claims.ReductionsStart : Prop :=
  ∀ (op : AOp) (a : AF) (s : State) (r : Acc) (g : Gang),
    s.accessReady { p := a.p, ixs := a.ixs, rd := [(a.o, s.ogrp a.xr), (a.v, a.sz.grp)] }
      { aAcc a .rmw true (bytes a.sz) .a .a with counts := !decide (a.ord = .cmt) } = .ok r →
    r.faults = [] → r.ok ≠ [] → r.v.a = .gang r.v.uid → r.v.lane = none → tget r.s.gangs r.v.uid = some g →
    let es := redEntries r.s r.v a op r.uni r.ok
    let log := r.s.logPa g g.cmtLog.length
    (a.ord = .cmt →
      (4096 < g.cmtLog.length + es.length → exec (.red op a) s = .next (r.s.haltV r.v { cause := .cmtOverflow })) ∧
      (g.cmtLog.length + es.length ≤ 4096 → r.s.lockedOver log (16 * es.length) = false →
        ∃ t g', exec (.red op a) s = .next t ∧ tget t.gangs r.v.uid = some g' ∧ g'.cmtLog = g.cmtLog ++ es)) ∧
    (a.ord = .pln ∨ a.ord = .acq →
      (∀ e ∈ es, e.spad = false ∧ r.s.busyUnit (r.v.agent r.s) e.pa = false) →
      ∃ t g' fl, exec (.red op a) s = .next t ∧ tget t.gangs r.v.uid = some g' ∧ g'.thr.flights.getLast? = some fl ∧
        fl.path = .a ∧ fl.kind = .write ∧ fl.dst = .none ∧ fl.hold = decide (a.ord = .acq) ∧ g'.cmtLog = g.cmtLog ∧
        g'.spinCnt = 0)

/-- R138, R183: a contribution to a line's partial of the same die, operation and size is combined with what stands there, the
operation's identity at first. -/
def Sys2Proof.Claims.PartialsCombineContributions : Prop :=
  ∀ (s : State) (die k pa : Nat) (op : AOp) (b64 : Bool) (x : Word), s.partials = [] →
    let s1 := s.addPartial die k pa op b64 x none
    let s2 := s1.addPartial die k pa op b64 x none
    let line (y : Word) : List Partial :=
      [{ die := die, line := pa / 64, prpt := [], op := op, b64 := b64, vals := [(pa, y)] }]
    s1.partials = line (aopVal op b64 (redIdentity op b64) x) ∧
    s2.partials = line (aopVal op b64 (aopVal op b64 (redIdentity op b64) x) x) ∧
    s2.mem = s.mem ∧ s2.gangs = s.gangs

/-- RED, and a die's partials.
It concludes that exec answers a next state for RED. -/
def Obligations.ReductionInstructions : Prop :=
  Claims.ReductionsStart ∧ Claims.ReductionsComplete ∧ Claims.PartialsCombineContributions

/-- R132, R164, R189 to R191: MCAS waits for the thread's release, reads its block as its thread reads memory, and where every entry
passes its checks asks for the
lock of the lowest unit first; the compare-and-swap then stands in flight with its entries, the units still to lock in
ascending order, and s[V] as its destination. -/
def Sys2Proof.Claims.McasTakesItsFirstLock : Prop :=
  ∀ (cnt : BitVec 4) (a : AF) (sv : BitVec 6) (s s2 : State) (r : Acc) (l : Nat) (va : Word) (ps : List Piece)
    (more : List (Nat × Target)) (qs : List (Nat × Nat × Bool)) (k : Nat) (ks : List Nat) (t0 : Thr),
    a.v = .s sv →
    s.accessReady { p := a.p, ixs := a.ixs, rd := [(a.o, s.ogrp a.xr)], ws := [sv.toNat] }
      { aAcc a .read false (24 * cnt.toNat) .a .a with align := 8 } = .ok r →
    r.faults = [] → r.ok = (l, .glob va ps) :: more → r.s.release r.v = .done r.s →
    let n := cnt.toNat
    let agent := r.v.agent r.s
    let blk := (List.range (24 * n)).map fun j => (paAt ps j, ((pieceAt ps j).map fun q => q.2.cohg).getD 0)
    r.s.readOwn r.v agent (blk.map Prod.fst) (if ps.any Piece.prpt then some (r.s.teamOf r.v.g).grid else none) = .ok s2 →
    (∀ b ∈ blk, s2.readErr b.1 b.2 = none) →
    let raw := blk.map fun b => s2.agentByte agent b.1
    let es := (List.range n).map fun j => (fieldW raw (24 * j), fieldW raw (24 * j + 8), fieldW raw (24 * j + 16))
    let s3 := if r.x.kind = .frame then s2 else es.foldl (fun s e => s.walkRead r.v.g.ctx (r.x.base + e.1)) s2
    s3.mcasCheck r.v r.x es = .ok (.ok qs) → qs.foldl (init := ([] : List Nat)) (fun l p => insUnit p.2.1 l) = k :: ks →
    s3.thr? r.v.a = some t0 → s3.remoteBad (unitBase k) = false →
    ∃ t t' fl st, exec (.mcas cnt a) s = .next t ∧ t.thr? r.v.a = some t' ∧ t'.flights.getLast? = some fl ∧
      fl.dst = .s sv.toNat ∧ fl.hold = true ∧ fl.wait = 1 ∧ fl.mcas = some st ∧ st.held = [k] ∧ st.todo = ks ∧
      st.status = none ∧ st.entries = (es.zip qs).map (fun e => (e.1.1, e.1.2.1, e.1.2.2, e.2.1, e.2.2.1)) ∧
      (∃ m ∈ t.net, ∃ q, m.body = .req q ∧ q.ukey = k ∧ q.req = .lock r.v.a fl.id)

/-- R183: the values an atomic leaves: sums wrap, the integer least and greatest are taken as signed or unsigned values of the
size, XCHG writes the operand, and each operation started from its identity returns the operand. -/
def Sys2Proof.Claims.AtomicValues : Prop :=
  ∀ (b64 : Bool) (m x : Word),
    let n := if b64 then 64 else 32
    let a : BitVec n := lo n m
    let b : BitVec n := lo n x
    aopVal .add b64 m x = up (a + b) ∧ aopVal .and b64 m x = up (a &&& b) ∧ aopVal .or b64 m x = up (a ||| b) ∧
    aopVal .xor b64 m x = up (a ^^^ b) ∧ aopVal .xchg b64 m x = up b ∧
    aopVal .imin b64 m x = up (if b.slt a then b else a) ∧ aopVal .imax b64 m x = up (if a.slt b then b else a) ∧
    aopVal .nmin b64 m x = up (if b.ult a then b else a) ∧ aopVal .nmax b64 m x = up (if a.ult b then b else a) ∧
    (∀ op ∈ [AOp.add, .and, .or, .xor, .imin, .imax, .nmin, .nmax], aopVal op b64 (redIdentity op b64) x = up b)

/-- ATOM, ACAS and MCAS, and the values of the operations.
It concludes that exec answers a next state for ATOM, ACAS, MCAS. -/
def Obligations.AtomicInstructions : Prop :=
  Claims.AtomicsStart ∧ Claims.AtomicsComplete ∧ Claims.AtomicValues ∧ Claims.McasTakesItsFirstLock

/-! ## Fences, cache instructions, translation, the coherence messages -/

namespace Sys2Proof.Claims

/-- A cache instruction that reaches its lines does its effect for those of the lanes that pass the checks, and goes on. -/
def ActsOnLines (i : Instr) (m : MLineF) (body : State → View → List Piece → State) (ready : State → View → List Piece → Prop) :
    Prop :=
  ∀ (s s1 s2 : State) (v : View) (ex : Mask),
    Admitted s { p := m.p, ixs := m.ixs, rd := [(m.o, s.ogrp m.xr)] } s1 v ex → ex ≠ 0 → s1.laneReady v = some s2 →
    v.t.count .g < 63 →
    let r := s2.lineLanes v m ex
    ready r.1 v r.2 →
    exec i s = .next ((body r.1 v r.2).retire v (((body r.1 v r.2).thr? v.a).getD v.t) m.p.stall)

end Sys2Proof.Claims

/-- R182, R199 to R203: PFCH brings readable words of its lines to the agent's L1; CWB, once the gang has no store pending
for its lines and none on its way home, gives up the units its agent owns in them; ICINV sends its lines to be removed from the instruction caches
(through a scratchpad register both do nothing, R207); FBAR, once that is done for all the thread's ICINVs, empties the fetch
buffer; FENCE waits for the thread's reads and the release as its order asks, and then acquires. -/
def Sys2Proof.Claims.CacheInstructionsAndFences : Prop :=
  ∀ (m : MLineF) (p : Pre) (ord : Ord),
    let line (ps : List Piece) : List Nat := (ps.map fun p => p.pa / 64).eraseDups
    let flight (s : State) (v : View) (landed : Bool) (ls : List Nat) : Flight :=
      { id := s.fresh, path := .g, kind := .line, landed := landed, elems := ls.map fun l => (0, l), pc := v.t.pc,
        sent := s.ps }
    ActsOnLines (.pfch m) m (fun s v ps =>
      (ps.foldl (fun s p => s.prefetchLine (v.agent s) v.g.ctx m.pol p) s).notePol v.a m.pol [(0, .glob 0 ps)])
      (fun _ _ _ => True) ∧
    let spad (v : View) : Bool := (v.t.regs.getX m.xr.toNat).kind == .spad
    ActsOnLines (.cwb m) m (fun s v ps =>
      if spad v then s else
      let given (s : State) (ln : Nat) : State :=
        if (s.l1Of (v.agent s)).words.any fun e => e.1 / 8 == ln && e.2.owned then
          ((s.l1Of (v.agent s)).owned.filter fun k =>
            unitBase k < 64 * ln + 64 && 64 * ln < unitBase k + unitSize k).foldl (fun s k => s.revokeNow k (v.agent s)) s
        else s
      let s := (line (ps.filter fun p => !p.uc)).foldl given s
      s.bump.fly v.a (flight s v true []))
      (fun s v ps => ∀ p ∈ ps, p.uc = false → s.farStoring v.uid (p.pa / 64) = false ∧
        ∀ b ∈ (s.l1Of (v.agent s)).pend, s.gangUid b.actor = v.uid → p.pa / 64 ≠ b.pa / 64) ∧
    ActsOnLines (.icinv m) m (fun s v ps => if spad v then s else s.bump.fly v.a (flight s v false (line ps)))
      (fun _ _ _ => True) ∧
    (∀ s s1 s2 v ex, Admitted s { p := p } s1 v ex → ex ≠ 0 → s1.laneReady v = some s2 →
      (∀ f ∈ v.t.flights, f.kind = .line → f.path = .g → f.landed = true) →
      exec (.fbar p) s = .next (s2.retire v { v.t with fbuf := [] } p.stall)) ∧
    (∀ s s1 s2 v ex, Admitted s { p := p } s1 v ex → ex ≠ 0 → s1.laneReady v = some s2 →
      (ord = .acq ∨ ord = .ar ∨ ord = .sc → ∀ f ∈ v.t.flights,
        f.path = .c ∨ f.path = .m ∨ f.landed = true ∨ f.kind = .write ∨ f.kind = .line) →
      (ord ≠ .acq → (∀ f ∈ v.t.flights, f.path = .c ∨ f.path = .m ∨ f.kind = .line ∨ f.bound = true) ∧
        (∀ t, s2.thr? v.a = some t → t.postErr = none) ∧ ∀ e ∈ s2.l1, ∀ x ∈ e.2.lostGangs, x.1 ≠ v.uid) →
      exec (.fence p ord) s = .next
        ((if ord = .acq ∨ ord = .ar ∨ ord = .sc then s2.acquire (v.agent s2) else s2).retire v v.t p.stall))

/-- R98, R99, R199, R202: the removal an ICINV asks for takes its lines from every instruction cache of the package and
completes it; an instruction fill puts the line's current words at home, once partials are merged there (R139), into the thread's
instruction cache; a page walk, which reads its entries as their homes give them (R97, R132), puts the leaf it finds into its agent's
TLB. -/
def Sys2Proof.Claims.InstructionCachesAndWalks : Prop :=
  (∀ (s : State) (a : Actor) (t : Thr) (f : Flight), s.thr? a = some t →
    t.flights.find? (fun g => g.id == f.id && g.kind == .line && g.path == .g && !g.landed) = some f →
    ∃ s', exec (.icinvRemovalAck a f.id) s = .next s' ∧ s'.mem = s.mem ∧
      (∀ e ∈ s'.front, e.1 / 4096 = s.pkg.toNat → ∀ w ∈ e.2.icache, ∀ l ∈ f.elems, w.1 / 8 ≠ l.2) ∧
      (∀ t', s'.thr? a = some t' → ∀ g ∈ t'.flights, g.id = f.id → g.landed = true)) ∧
  (∀ (s s1 : State) (a : Actor) (v : View) (line : Word) (ps : List Piece), s.viewOf a = some v →
    s.xlatPage (v.agent s) v.g.ctx v.sup .fetch (BitVec.ofNat 64 (line.toNat / 64 * 64)) 0 64 = (s1, .ok ps) →
    s1.homeBusy (paAt ps 0) 64 = false →
    let s2 := s1.mergeOver (paAt ps 0) 64
    (∀ j, j < 8 → s2.fetchErr (paAt ps 0 + 8 * j) (((pieceAt ps 0).map fun q => q.2.cohg).getD 0) = none) →
    ∃ s', exec (.instructionCacheFill a line) s = .next s' ∧ s'.mem = s2.mem ∧
      (∀ j, j < 8 → tget (s'.frontOf (v.agent s2)).icache (paAt ps 0 / 8 + j) = some (s2.homeWord (paAt ps 0 + 8 * j)))) ∧
  (∀ (s : State) (agent : Nat) (ctx : BitVec 12) (va : Word) (l : Leaf),
    let s1 := s.walkRead ctx va
    s1.walk ctx va = .leaf l →
    exec (.pageWalk agent ctx va) s = .next (s1.useFree.setFront agent ((s1.frontOf agent).fillTlb ctx l)))

/-- R104, R105: XLAT makes X[n] from s[b], s[b+1] and the attributes in s[b+2], and writes the attributes it used back: an
attribute word with a bit above 3 set, or of the kind of the scratchpad, is XLAT_ATTR; NONE leaves an absent register and
the result 0; VIRT takes the base and the limit as they are; FRAME holds the frame, and where it cannot the register is
VIRT and bit 5 of the result tells. -/
def Sys2Proof.Claims.XlatMakesAnAddressRegister : Prop :=
  ∀ (x : X1) (xr : BitVec 3) (s s1 : State) (v : View) (ex : Mask),
    let n := x.sb.toNat
    Admitted s { p := x.p, rs := [n, n + 1, n + 2], ws := [n + 2] } s1 v ex → ex ≠ 0 →
    let b := v.t.regs.getS n
    let l := v.t.regs.getS (n + 1)
    let q := v.t.regs.getS (n + 2)
    let w64 := q.getLsbD 2
    let ro := q.getLsbD 3
    let sets (s : State) (r : XReg) (res : Word) : Host.Outcome State Fault Refusal := .next (s.retire v { v.t with
      regs := (v.t.regs.setX xr.toNat r).setS (n + 2) res
      pend := v.t.pend.map (Pend.supersede [.s (n + 2) res]) } x.p.stall)
    (16 ≤ q.toNat ∨ q.toNat % 4 = 3 → exec (.xlat x xr) s = .next (s1.haltV v { cause := .xlatAttr })) ∧
    (q.toNat < 16 → q.toNat % 4 = 0 → exec (.xlat x xr) s = sets s1 {} 0) ∧
    (q.toNat < 16 → q.toNat % 4 = 1 →
      exec (.xlat x xr) s = sets s1 { kind := .virt, base := b, limit := l, w64 := w64, ro := ro, va := b } q) ∧
    (q.toNat < 16 → q.toNat % 4 = 2 →
      let s2 := s1.walkRead v.g.ctx b
      let r := s2.xlatFrame v.g.ctx v.sup b l w64 ro
      exec (.xlat x xr) s = sets s2 r (if r.kind = .frame then q ||| (r.attrs &&& 0xFC0#64) else (q &&& 0xC#64) ||| 0x21#64))

/-- The cache instructions, fences, walks and XLAT.
It concludes that exec answers a next state for PFCH, XLAT, CWB, ICINV, FBAR, FENCE, PAGE_WALK,
INSTRUCTION_CACHE_FILL, ICINV_REMOVAL_ACK. -/
def Obligations.CachesFencesAndTranslation : Prop :=
  Claims.CacheInstructionsAndFences ∧ Claims.InstructionCachesAndWalks ∧ Claims.XlatMakesAnAddressRegister

namespace Sys2Proof.Claims

/-- Home is at rest but for one message: nothing waits there, no partial stands, no agent owns or watches the unit, and the
registry has room in every set. -/
def Only (s : State) (m : Nat) (b : Body) (k : Nat) : Prop :=
  s.net = [⟨m, b⟩] ∧ s.home = [] ∧ s.partials = [] ∧ s.poison = [] ∧ tget s.registry k = none ∧ s.registry.length < 16

/-- The flights of a gang's thread. -/
def flightsOf (s : State) (u : Nat) : Option (List Flight) := (tget s.gangs u).map fun g => g.thr.flights

end Sys2Proof.Claims

/-- R125, R129, R132, R133, R186, R191: what a unit's home does for a request that reaches it while no agent holds the unit.
A registration makes the agent the owner and answers it with the unit's words of memory. A fill gives the load the bytes of
its sector. A far store writes its bytes and is acknowledged. A far atomic writes the new value (a compare-and-swap only
where the old value is the expected one) and returns the old, once the thread's earlier reads have their values
(assumption 99). An MCAS's lock is taken. None comes from another package for an unbacked address or a gated die. Each leaves all other memory alone.
It concludes that exec answers a next state for REGISTRATION_REQUEST, HOME_FILL, FAR_STORE, FAR_ATOMIC, MCAS_LOCK. -/
def Obligations.HomeServesRequests : Prop :=
  ∀ (s : State) (m u fl pa n lane : Nat) (r : HomeReq) (fs : List Flight) (bs : List Byte) (op : AOp) (cmp val va : Word)
    (inst : Bool) (pol : Pol),
    let old : Word := BitVec.ofNat 64 (memNat s.mem pa n)
    let mine (f : Flight → Flight) : List Flight := fs.map fun x => if x.id = fl then f x else x
    let quiet (t : State) : Prop := t.net = [] ∧ t.home = [] ∧ t.arrays = s.arrays ∧ t.l1 = s.l1
    let returned (f : Flight) : Flight := { f with
      wait := f.wait - 1
      bytes := f.bytes.map fun b => if b.lane = lane then { b with val := some (wordByte old b.idx) } else b }
    Only s m (.req r) r.ukey → r.timedOut = false → s.paHalt (unitBase r.ukey) ≠ some .dieGated →
    s.inbound r = false ∨ s.paHalt (unitBase r.ukey) = none →
    flightsOf s u = some fs →
    (∀ f ∈ fs, f.reads = true → f.id < fl → f.wait = 0) →
    (r.req = .reg (some (.gang u)) → ∃ t, exec (.registrationRequest m) s = .next t ∧
      (t.entry r.ukey).owner = some r.agent ∧
      t.net = [⟨s.fresh, .grant r.agent r.ukey
        ((unitWords r.ukey).map fun w => (w, BitVec.ofNat 64 (memNat s.mem (8 * w) 8), false)) none⟩] ∧
      t.mem = s.mem ∧ t.gangs = s.gangs) ∧
    (r.req = .fill (some (.gang u)) fl pa inst pol → ∃ t, exec (.homeFill m) s = .next t ∧ quiet t ∧ t.mem = s.mem ∧
      (flightsOf t u).map (·.map fun x => (x.wait, x.bytes)) = some ((mine fun f => { f with
        wait := f.wait - 1
        bytes := f.bytes.map fun b =>
          if b.val = none ∧ b.err = none ∧ b.pa / 32 = pa / 32 then { b with val := some (memByte s.mem b.pa) } else b
        }).map fun x => (x.wait, x.bytes))) ∧
    (r.req = .farStore (some (.gang u)) fl lane pa bs va → ∃ t, exec (.farStore m) s = .next t ∧
      t.mem = memWrite s.mem pa bs ∧ t.net = [⟨s.fresh, .ack (some (.gang u)) fl lane none va⟩] ∧ t.gangs = s.gangs) ∧
    (r.req = .farAtomic (some (.gang u)) fl lane pa n (some op) cmp val va → ∃ t, exec (.farAtomic m) s = .next t ∧ quiet t ∧
      t.mem = memSetNat s.mem pa n (aopVal op (n == 8) old val).toNat ∧ flightsOf t u = some (mine returned)) ∧
    (r.req = .farAtomic (some (.gang u)) fl lane pa n none cmp val va → ∃ t, exec (.farAtomic m) s = .next t ∧ quiet t ∧
      t.mem = (if old = cmp then memSetNat s.mem pa n val.toNat else s.mem) ∧ flightsOf t u = some (mine returned)) ∧
    (r.req = .lock (.gang u) fl → ∃ t, exec (.mcasLock m) s = .next t ∧ t.net = [] ∧ t.mem = s.mem ∧
      (t.unit r.ukey).lock = some (.gang u) ∧ flightsOf t u = some (mine fun f => { f with wait := f.wait - 1 }))

/-- R129 to R133, R135, R144: the answers. A grant makes the agent the unit's owner and performs its pending stores; a denial
sends them home as far stores; either way none stays pending. A revocation sends the owner's dirty words home and keeps the
unit's words readable only; one that comes before the grant it follows is held. The write-back that home waits
for puts its words in memory and ends the ownership. A forwarded load leaves the owner, cleans its words and serves the load. A far store's acknowledgement
completes its part of the flight.
It concludes that exec answers a next state for REGISTRATION_GRANT, FORWARDED_LOAD, REVOCATION, WRITE_BACK, STORE_ACK. -/
def Obligations.AgentsAnswerHome : Prop :=
  ∀ (s : State) (m a k u fl n : Nat) (ws : List (Nat × Word × Bool)) (va : Word), a / 4096 = s.pkg.toNat →
    let c := s.l1Of a
    let none' (t : State) : Prop := k ∉ (t.l1Of a).asked ∧ ∀ p ∈ (t.l1Of a).pend, p.ukey ≠ k
    let put (mem : List Host.Cell) : List Host.Cell := ws.foldl (fun m w => memSetNat m (8 * w.1) 8 w.2.1.toNat) mem
    let dirty : List (Nat × Word × Bool) := (unitWords k).filterMap fun w => (tget c.words w).bind fun x =>
      if x.owned && x.dirty then some (w, x.data, x.poison) else none
    (s.net = [⟨m, .grant a k ws none⟩] → k ∉ c.heldRev → k ∉ c.heldFwd →
      ∃ t, exec (.registrationGrant m) s = .next t ∧ none' t ∧ k ∈ (t.l1Of a).owned ∧
        ∀ ac id lane, (ws.map Prod.fst).Nodup →
          (∀ p ∈ c.pend, p.ukey = k → p.actor = ac ∧ p.flight = id ∧ p.lane = lane) →
          ∀ w x, (w, x, false) ∈ ws →
            let mine := c.pend.filter fun p => p.ukey == k && p.pa / 8 == w
            tget (t.l1Of a).words w = some { owned := true, dirty := !mine.isEmpty, poison := false
                                             data := mine.foldl (fun d p => setWordByte d (p.pa % 8) p.val) x }) ∧
    (s.net = [⟨m, .denied a k⟩] → k ∉ c.heldRev → k ∉ c.heldFwd → c.owned = [] →
      ∃ t, exec (.registrationGrant m) s = .next t ∧ none' t ∧ t.mem = s.mem ∧
        ∀ p ∈ c.pend, p.ukey = k → ∃ x ∈ t.net, ∃ q pa bs va, x.body = .req q ∧
          q.req = .farStore (some p.actor) p.flight p.lane pa bs va ∧ pa ≤ p.pa ∧ p.pa < pa + bs.length) ∧
    (s.net = [⟨m, .revoke a k⟩] → k ∈ c.owned →
      ∃ t, exec (.revocation m) s = .next t ∧ t.net = [⟨s.fresh + 1, .writeBack a k dirty⟩] ∧ t.mem = s.mem ∧
        k ∉ (t.l1Of a).owned ∧
        ∀ w ∈ unitWords k, ∀ x, tget c.words w = some x → x.owned = true → x.poison = false →
          tget (t.l1Of a).words w = some { x with owned := false, dirty := false, stamp := s.fresh }) ∧
    (s.net = [⟨m, .revoke a k⟩] → k ∉ c.owned → k ∈ c.asked →
      ∃ t, exec (.revocation m) s = .next t ∧ t.net = [] ∧ t.mem = s.mem ∧ k ∈ (t.l1Of a).heldRev) ∧
    (∀ sent, s.net = [⟨m, .writeBack a k ws⟩] → pkgOf (unitBase k) = s.pkg.toNat → s.home = [(k, { stage := .revoking a sent })] → s.registry = [(k, { owner := some a, granted := n })] →
      (∀ w ∈ ws, w.2.2 = false) →
      ∃ t, exec (.writeBack m) s = .next t ∧ t.net = [] ∧ t.home = [] ∧ t.registry = [(k, {})] ∧ t.mem = put s.mem) ∧
    (∀ r sent ac pa inst pol, s.net = [⟨m, .forward a k⟩] → pkgOf (unitBase k) = s.pkg.toNat → k ∈ c.owned → s.partials = [] →
      r.timedOut = false → r.ukey = k →
      s.home = [(k, { queue := [r], stage := .forwarding a sent })] → s.registry = [(k, { owner := some a, granted := n })] →
      r.req = .fill ac fl pa inst pol →
      ∃ t, exec (.forwardedLoad m) s = .next t ∧ t.net = [] ∧ t.home = [] ∧ t.registry = s.registry ∧
        t.mem = dirty.foldl (fun m w => memSetNat m (8 * w.1) 8 w.2.1.toNat) s.mem ∧ k ∈ (t.l1Of a).owned ∧
        (∀ w ∈ dirty, ∃ x, tget c.words w.1 = some x ∧ tget (t.l1Of a).words w.1 = some { x with dirty := false }) ∧
        ∀ fs, ac = some (.gang u) → flightsOf s u = some fs → s.poison = [] → (∀ w ∈ dirty, w.2.2 = false) →
          (flightsOf t u).map (·.map fun x => (x.id, x.bytes)) = some (fs.map fun x => (x.id, if x.id = fl then
            x.bytes.map fun b => if b.val = none ∧ b.err = none ∧ b.pa / 32 = pa / 32 then
              { b with val := some (memByte t.mem b.pa) } else b else x.bytes))) ∧
    (∀ g lane, s.net = [⟨m, .ack (some (.gang u)) fl lane none va⟩] → tget s.gangs u = some g →
      ∃ t g', exec (.storeAck m) s = .next t ∧ t.net = [] ∧ t.mem = s.mem ∧ tget t.gangs u = some g' ∧
        g'.thr.postErr = g.thr.postErr ∧
        ∀ f ∈ g'.thr.flights, ∃ x ∈ g.thr.flights, f = if x.id = fl then { x with wait := x.wait - 1 } else x)

/-- R128, R142, R143, R144, R146, R465, R475: a remote owner that has not answered for 20 µs loses its unit: OL is set, no
owner stays and every word is Poisoned; at the owner the notice drops the words it owned. A remote request not answered in
100 µs, or when a port goes down, is answered with an error and marked, and the answer that comes later is counted. A far
store of another package to an unbacked address or a gated die is answered with an error and logged, and halts nothing. A soft
error is transient and counted, or poisons its word.
It concludes that exec answers a next state for OWNER_LOST, OWNER_LOST_NOTICE, REMOTE_TIMEOUT, LATE_ANSWER, LINK_DOWN,
SOFT_ERROR. -/
def Obligations.LostOwnersTimeoutsAndSoftErrors : Prop :=
  (∀ (s : State) (k o sent : Nat), s.unit k = { stage := .revoking o sent } → o / 4096 ≠ s.pkg.toNat →
    pkgOf (unitBase k) = s.pkg.toNat → sent + 20000000 ≤ s.ps →
    ∃ t, exec (.ownerLost k) s = .next t ∧ (t.entry k).ol = true ∧ (t.entry k).owner = none ∧ t.mem = s.mem ∧
      ∀ w ∈ unitWords k, isPoisoned t (8 * w) = true) ∧
  (∀ (s : State) (m a k : Nat), s.net = [⟨m, .lost a k⟩] → a / 4096 = s.pkg.toNat →
    ∃ t, exec (.ownerLostNotice m) s = .next t ∧ t.net = [] ∧ t.mem = s.mem ∧ k ∉ (t.l1Of a).owned ∧
      ∀ g ∈ (tget (s.l1Of a).storers k).getD [], (g, unitBase k) ∈ (t.l1Of a).lostGangs) ∧
  (∀ (s : State) (m u fl pa : Nat) (r : HomeReq) (g : Gang) (inst : Bool) (pol : Pol),
    s.openReqs = [r] → r.id = m → r.agent / 4096 = s.pkg.toNat → pkgOf (unitBase r.ukey) ≠ s.pkg.toNat →
    r.timedOut = false → r.sent + 100000000 ≤ s.ps → r.req = .fill (some (.gang u)) fl pa inst pol →
    tget s.gangs u = some g →
    let failed (t : State) : Prop := (∀ q ∈ t.openReqs, q.timedOut = true) ∧ t.mem = s.mem ∧
      ∃ g', tget t.gangs u = some g' ∧ ∀ f ∈ g'.thr.flights, f.id = fl →
        ∀ b ∈ f.bytes, b.pa / 32 = pa / 32 → b.val.isSome = true ∨ b.err.isSome = true
    (∃ t, exec (.remoteTimeout m) s = .next t ∧ failed t) ∧
    (∀ port, port < 18 → s.down.getLsbD port = false →
      ∃ t, exec (.linkDown port) s = .next t ∧ failed t ∧ t.down = s.down ||| (1#18 <<< port))) ∧
  (∀ (s : State) (m fl lane pa : Nat) (r : HomeReq) (a : Option Actor) (bs : List Byte) (va : Word),
    s.net = [⟨m, .req r⟩] → s.inbound r = true → s.paHalt (unitBase r.ukey) ≠ none → r.req = .farStore a fl lane pa bs va →
    ∃ t, exec (.farStore m) s = .next t ∧ t.mem = s.mem ∧ t.gangs = s.gangs ∧ t.hkc.log.length = s.hkc.log.length + 1 ∧
      t.net.map Msg.body = [.ack a fl lane (some .remote) va]) ∧
  (∀ (s : State) (m : Nat), s.net = [⟨m, .late⟩] →
    ∃ t, exec (.lateAnswer m) s = .next t ∧ t.net = [] ∧ t.hkc.late = s.hkc.late + 1 ∧ t.mem = s.mem) ∧
  (∀ (s : State) (pa : Nat), ∃ t, exec (.softError (.memory pa)) s = .next t ∧ t.mem = s.mem ∧ t.gangs = s.gangs ∧
    ((t.hkc.transient = s.hkc.transient + 1 ∧ t.poison = s.poison) ∨ isPoisoned t pa = true))

/-! ## WAITU, copies and counters -/

namespace Sys2Proof.Claims

/-- The uses of a WAITU. -/
def waituUses (a : AF) (s : State) : Uses :=
  { p := a.p, ixs := a.ixs, rd := [(a.o, s.ogrp a.xr), (a.v, a.sz.grp)], wr := [(a.v, a.sz.grp)], wk := k7 a.chk }

/-- A word as a WAITU starts to watch it; `prpt` is the grid that is told of errors of its page. -/
def watch (lane pa cohg : Nat) (va old : Word) (asked seen : Bool) (prpt : Option Nat) : Watch :=
  { lane := lane, pa := pa, cohg := cohg, va := va, old := old, val := 0, cur := 0, met := false, zero := false, err := none,
    monitored := false, asked := asked, seen := seen, prpt := prpt }

/-- A watched word that has been read without an error: its value and whether its test is met. -/
def readAs (eq : Bool) (x : Watch) (now : Word) (mon : Bool) : Watch :=
  { x with asked := false, seen := true, monitored := x.monitored || mon, cur := now, val := now, zero := false,
           met := if eq then decide (now = x.old) else decide (now ≠ x.old) }

/-- The watched words whose reading a WAITU asks for. -/
def ask (w : WaitU) (now : Nat) (p : Watch → Bool) : WaitU :=
  let one (x : Watch) : Watch := if p x = true ∧ x.met = false ∧ x.err = none then { x with asked := true } else x
  { w with polled := now, watches := w.watches.map one }

/-- The thread of an actor waits in a WAITU. -/
def waitsIn (s : State) (a : Actor) (w : WaitU) : Prop := (s.thr? a).map Thr.wait = some (.waitu w)

end Sys2Proof.Claims

/-- R141, R196, R197, R229: WAITU reads the word each lane names: a word of scratchpad at once, a word of global memory by a
request to its home that also claims a monitor, one message for both (assumption 34). A lane's test is that its word is, or is not, the value the lane holds. Where
every word meets its test the values are delivered and the gang goes on; otherwise it waits. Shown for one word. -/
def Sys2Proof.Claims.WaituReadsUntilItsTestIsMet : Prop :=
  ∀ (eq : Bool) (a : AF) (s s1 s2 s3 : State) (v : View) (ex : Mask) (level : Nat) (g : Gang) (l : Nat) (tgt : Target),
    let n := bytes a.sz
    let x := v.t.regs.getX a.xr.toNat
    let m := aAcc a .read false n .g .s
    let old : Word := BitVec.ofNat 64 (v.storeVal s3 a.ixs a.v n l)
    let uni := uniform [a.o, a.v]
    let w (spad : Bool) (x : Watch) : WaitU :=
      { eq := eq, spad := spad, bytes := n, dst := v.landDst a.ixs a.v, lanes := if uni then ex else maskOf [l],
        chk := a.chk, acq := true, started := v.now, polled := v.now, watches := [x], fault := [], level := level,
        stall := a.p.stall }
    Admitted s (waituUses a s) s1 v ex → (∀ v0, s.view = some v0 → ∀ w, v0.t.wait ≠ .waitu w) → ex ≠ 0 →
    s1.ordered v = some (s2, v) →
    s2.decideAccess v .read x false ((m.lanes ex).map (v.laneReq s2 m x)) = (s3, .run [(l, tgt)] [] level) →
    v.a = .gang v.uid → v.lane = none → tget s3.gangs v.uid = some g → g.thr = v.t → g.inPf = false →
    (∀ off bs, tgt = .spad off →
      s3.spadRead (s3.teamOf v.g).window off n = (bs.map fun b => (some b, none), 0) →
      let now : Word := BitVec.ofNat 64 (valOf bs)
      let met := if eq then now = old else now ≠ old
      (¬met → ∃ t, exec (.waitu eq a) s = .next t ∧ t.mem = s3.mem ∧
        waitsIn t v.a (w true (readAs eq (watch (laneNo uni l) off 0 (BitVec.ofNat 64 off) old false true none) now false))) ∧
      (met → ∃ t g', exec (.waitu eq a) s = .next t ∧ t.mem = s3.mem ∧ tget t.gangs v.uid = some g' ∧ g'.thr.wait = .none ∧
        g'.thr.pc = v.t.pc + 8 ∧ (∀ r, a.v = .s r → g'.thr.regs.getS r.toNat = now))) ∧
    (∀ va ps q, tgt = .glob va ps → pieceAt ps 0 = some q → s3.busyUnit (v.agent s2) q.1 = false →
      s3.remoteBad q.1 = false →
      let told := if ps.any Piece.prpt then some (s3.teamOf v.g).grid else none
      ∃ t, exec (.waitu eq a) s = .next t ∧ t.mem = s3.mem ∧
        waitsIn t v.a (w false (watch (laneNo uni l) q.1 q.2.cohg va old true false told)) ∧
        t.net = s3.net ++ [⟨s3.fresh, .req
          { id := s3.fresh, agent := v.agent s2, ukey := ukeyOf q.1 q.2.cohg, sent := s3.ps,
            req := .watch v.a (laneNo uni l) q.1 n true, prpt := told }⟩])

/-- R141, R196, R197: what becomes of a WAITU that waits. Its read is served at home, which claims the monitor it asks for and
marks the unit; the answer is tested. When it is woken it asks for its words again, and every 1024 cycles for words without a
monitor (16 for scratchpad words). Once every word has met its test, or after 65,536 cycles, it ends: the values go to the
destination and the gang goes on. -/
def Sys2Proof.Claims.WaituIsWokenPolledAndTimedOut : Prop :=
  ∀ (s : State) (v : View) (w : WaitU) (m : Nat) (g : Gang) (u : Nat), s.viewOf (.gang u) = some v →
    tget s.gangs u = some g → v.t.wait = .waitu w →
    (s.net = [⟨m, .wake (.gang u)⟩] → w.still = true → w.spad = false → (∃ x ∈ w.watches, x.met = false ∧ x.err = none) →
      ∃ t, exec (.waituWake m) s = .next t ∧ t.mem = s.mem ∧ waitsIn t (.gang u) (ask w v.now fun _ => true)) ∧
    (w.polled + 1024 ≤ v.now → w.still = true → w.spad = false →
      (∃ x ∈ w.watches, x.monitored = false) →
      ∃ t, exec (.waituPoll (.gang u)) s = .next t ∧ t.mem = s.mem ∧
        waitsIn t (.gang u) (ask w v.now fun x => !x.monitored)) ∧
    (∀ x bs, w.polled + 16 ≤ v.now → w.spad = true → w.watches = [x] → x.met = false → x.err = none → x.asked = false →
      x.seen = true → x.monitored = false → s.spadRead (s.teamOf v.g).window x.pa w.bytes = (bs.map fun b => (some b, none), 0) →
      let y := readAs w.eq x (BitVec.ofNat 64 (valOf bs)) false
      y.met = false →
      ∃ t, exec (.waituPoll (.gang u)) s = .next t ∧ t.mem = s.mem ∧
        waitsIn t (.gang u) { w with polled := v.now, watches := [y] }) ∧
    (w.started + 65536 ≤ v.now → w.still = true → w.fault = [] →
      exec (.waituTimeout (.gang u)) s = .next (s.waituEnd v w)) ∧
    (∀ (r : HomeReq) (x : Watch) (n : Nat) (mon : Bool), Only s m (.req r) r.ukey → r.timedOut = false → s.inbound r = false →
      r.req = .watch (.gang u) x.lane x.pa n mon → w.watches = [x] → x.asked = true → x.met = false → x.err = none →
      s.paHalt (unitBase r.ukey) ≠ some .dieGated →
      let now : Word := BitVec.ofNat 64 (memNat s.mem x.pa n)
      ∃ t, exec (.homeFill m) s = .next t ∧ t.mem = s.mem ∧ waitsIn t (.gang u) { w with watches := [readAs w.eq x now mon] } ∧
        (t.entry r.ukey).mon = mon ∧
        (t.unit r.ukey).monitors = (if mon then [⟨.gang u, r.agent, x.lane, x.pa, n⟩] else [])) ∧
    ((∃ x ∈ w.watches, x.met = false ∧ x.err = none) → (w.chk = true ∨ ∀ x ∈ w.watches, x.err = none) →
      s.waituJudge (.gang u) = s) ∧
    (w.still = true → (∀ x ∈ w.watches, x.met = true) → w.fault = [] → (w.chk = true ∨ ∀ x ∈ w.watches, x.err = none) →
      s.waituJudge (.gang u) = s.waituEnd v w) ∧
    (∀ x r, w.watches = [x] → x.err = none → w.chk = false → w.fault = [] → w.dst = .s r → g.inPf = false →
      ∃ g', tget (s.waituEnd v w).gangs u = some g' ∧ g'.thr.wait = .none ∧ g'.thr.pc = g.thr.pc + 8 ∧
        g'.thr.regs.getS r = x.cur)

/-- WAITU.
It concludes that exec answers a next state for WAITU, HOME_FILL, WAITU_WAKE, WAITU_POLL, WAITU_TIMEOUT. -/
def Obligations.WaituInstructions : Prop :=
  Claims.WaituReadsUntilItsTestIsMet ∧ Claims.WaituIsWokenPolledAndTimedOut

/-- R205, R210, R213, R214: a BCOPY that finds room in its counter and in its engine (it waits for both before its checks:
DESIGN CHOICE of the model, assumption 122), whose control word, registers and layout record are in order, and whose patterns stay
within their registers, joins its core's engine and raises the gang's C count; the thread goes on. Shown for a RAW copy. -/
def Sys2Proof.Claims.CopiesJoinTheirEngine : Prop :=
  ∀ (x : X1) (xr slot1 slot2 : BitVec 3) (s s1 s2 s3 s4 : State) (v w : View) (ex : Mask) (va : Word)
      (ps : List Piece) (g : Gang),
    let sb := x.sb.toNat
    let reg (j : Nat) : Word := w.t.regs.getS (sb + j)
    let ctl := (reg 3).toNat
    let xp := w.t.regs.getX xr.toNat
    let gx := w.t.regs.getX (ctl % 8)
    let b := (pasOf ps 64).map (s4.agentByte (w.agent s4))
    let num (off n : Nat) : Nat := fieldN b off n
    let strides (off : Nat) : List Int := (List.range 4).map fun i => (BitVec.ofNat 32 (num (off + 4 * i) 4)).toInt
    let job : Job := { s4.newJob w with
      toGlobal := ctl / 8 % 2 == 1, gx := gx, goff := (reg 0).toNat, poff := (reg 1).toNat, esz := 2 ^ (ctl / 256 % 8),
      ext := [num 0 2, num 2 2, num 4 2, num 6 2], gstr := strides 8, pstr := strides 24, slot1 := slot1.toNat,
      slot2 := slot2.toNat }
    let within (limit : Nat) (sp : Int × Int) : Prop := 0 ≤ sp.1 ∧ sp.2.toNat < limit
    let pad := spanOf job.poff (job.ext.zip job.pstr) job.esz
    Admitted s { p := x.p, rs := [sb, sb + 1, sb + 2, sb + 3], safe := false } s1 v ex → ex ≠ 0 →
    s1.ordered v = some (s2, w) →
    v.t.count .c < 63 → (s1.core v.g.core).copyQ.length < 16 →
    ctl < 2048 → ctl / 16 % 16 = 0 → ctl / 256 % 8 ≤ 4 → xp.kind = .spad → gx.kind = .virt ∨ gx.kind = .frame →
    formAddr gx 0 (reg 2).toNat 64 false none 64 = .ok va →
    s2.xlatReg (w.agent s2) w.g.ctx w.sup .read gx va 64 = (s3, .ok ps) →
    s3.readOwn w (w.agent s3) (pasOf ps 64) (if ps.any Piece.prpt then some (s3.teamOf w.g).grid else none) = .ok s4 →
    s4.errPieces ps 64 = none →
    (∀ e ∈ job.ext, e ≠ 0) → (∀ y ∈ b.drop 40, y = 0#8) →
    within gx.limit.toNat (spanOf job.goff (job.ext.zip job.gstr) job.esz) → within xp.limit.toNat pad →
    pad.2.toNat < (s4.teamOf w.g).window.length * 0x8000 → (if job.toGlobal then gx.ro else xp.ro) = false →
    w.a = .gang w.uid → w.lane = none → tget s4.gangs w.uid = some g → g.thr = w.t →
    ∃ t g' j, exec (.bcopy x xr slot1 slot2 .raw 0) s = .next t ∧
      (t.core w.g.core).copyQ = (s4.core w.g.core).copyQ ++ [j] ∧
      j = { job with id := s4.fresh, slabs := j.slabs, earlier := j.earlier } ∧
      tget t.gangs w.uid = some g' ∧ g'.thr.count .c = w.t.count .c + 1 ∧ g'.thr.pc = w.t.pc + 8 ∧
      t.mem = s4.mem ∧ t.arrays = s4.arrays

/-- R230: a BFILL of N rows of M elements within its register joins the engine in the same way. -/
def Sys2Proof.Claims.FillsJoinTheirEngine : Prop :=
  ∀ (x : X1) (xr : BitVec 3) (sz : FillSz) (s s1 : State) (v : View) (ex : Mask) (g : Gang),
    let sb := x.sb.toNat
    let reg (j : Nat) : Word := v.t.regs.getS (sb + j)
    let n := match sz with | .b8 => 1 | .b16 => 2 | .b32 => 4 | .b64 => 8
    let xp := v.t.regs.getX xr.toNat
    let w := (reg 2).toNat
    let pitch : Int := (BitVec.ofNat 32 (w / 2 ^ 32)).toInt
    let job : Job := { s1.newJob v with
      fill := true, poff := (reg 0).toNat, esz := n, val := reg 1, ext := [w % 2 ^ 16, w / 2 ^ 16 % 2 ^ 16, 1, 1],
      pstr := [(n : Int), pitch, 0, 0], gstr := [0, 0, 0, 0] }
    let pad := spanOf job.poff (job.ext.zip job.pstr) n
    Admitted s { p := x.p, rs := [sb, sb + 1, sb + 2], safe := false } s1 v ex → ex ≠ 0 → v.t.held = false →
    v.t.count .c < 63 → (s1.core v.g.core).copyQ.length < 16 → xp.kind = .spad → xp.ro = false →
    w % 2 ^ 16 ≠ 0 → w / 2 ^ 16 % 2 ^ 16 ≠ 0 → 0 ≤ pad.1 → pad.2.toNat < xp.limit.toNat →
    pad.2.toNat < (s1.teamOf v.g).window.length * 0x8000 →
    v.a = .gang v.uid → v.lane = none → tget s1.gangs v.uid = some g → g.thr = v.t →
    ∃ t g' j, exec (.bfill x xr sz) s = .next t ∧ (t.core v.g.core).copyQ = (s1.core v.g.core).copyQ ++ [j] ∧
      j = { job with id := s1.fresh, slabs := j.slabs, earlier := j.earlier } ∧
      tget t.gangs v.uid = some g' ∧ g'.thr.count .c = v.t.count .c + 1 ∧ g'.thr.pc = v.t.pc + 8

/-- BCOPY and BFILL.
It concludes that exec answers a next state for BCOPY, BFILL. -/
def Obligations.CopyInstructions : Prop :=
  Claims.CopiesJoinTheirEngine ∧ Claims.FillsJoinTheirEngine

/-- R220 to R223, R226, R228: the first copy of an engine starts once the earlier accesses of its gang and of its
ejected lanes are complete and every slab it needs has become its own; a beat of a fill writes every element of the beat, 128 bytes at the most, where two
visits meet a byte the later one's stands, and no other byte of the window; a copy that has moved all its elements leaves the
engine and every slab it holds goes back to the threads; the gang of one that has paused takes its page fault.
It concludes that exec answers a next state for COPY_START, COPY_BEAT, COPY_COMPLETE, COPY_PAGE_FAULT. -/
def Obligations.CopiesRun : Prop :=
  ∀ (s : State) (c : Nat) (j : Job) (rest : List Job) (t0 : Thr), (s.core c).copyQ = j :: rest →
    (∀ x ∈ rest, x.id ≠ j.id) → s.thr? (.gang j.gang) = some t0 →
    (j.started = false → j.taken = 0 → (∀ f ∈ t0.flights, f.id ∈ j.earlier → f.complete = true) →
      (∀ e ∈ s.lanes, e.2.gang = j.gang → ∀ f ∈ e.2.thr.flights, f.id ∈ j.earlier → f.complete = true) →
      (j.slabs.map fun x => (x.1, x.2.1)).Nodup →
      (∀ x ∈ j.slabs, (s.arr x.1).rck = false ∧ (s.arr x.1).ownerOf x.2.1 = .t ∧
        (s.arr x.1).converting x.2.1 s.ps = false) →
      ∃ t, exec (.copyStart c) s = .next t ∧
        (t.core c).copyQ = { j with taken := j.slabs.length, started := true } :: rest ∧
        ∀ x ∈ j.slabs, (t.arr x.1).ownerOf x.2.1 = .c j.id) ∧
    (j.started = true → j.paused = false → j.conv = .raw → j.fill = true → j.dests = [] → 1 ≤ j.esz → j.esz ≤ 8 →
      j.pos < j.elements → (∀ k, (s.arr k).poison = []) →
      let n := 128 / j.esz
      let stop := Nat.min ((j.pos / n + 1) * n) j.elements
      let win := ((tget s.teams j.team).map Team.window).getD []
      let size := win.length * 0x8000
      win.Nodup → win.length ≤ 16 → (∀ key, mapWf 0 (s.arr key).cells = true) →
      (∀ k, j.pos ≤ k → k < stop → j.pAt k + j.esz ≤ size) →
      ∃ t, exec (.copyBeat c) s = .next t ∧ (t.core c).copyQ = { j with pos := stop } :: rest ∧ t.mem = s.mem ∧
        (∀ k i, j.pos ≤ k → k < stop → i < j.esz →
          (∀ k' i', k < k' → k' < stop → i' < j.esz → j.pAt k' + i' ≠ j.pAt k + i) →
          t.spByte win (j.pAt k + i) = wordByte j.val i) ∧
        ∀ o, o < size → (∀ k i, j.pos ≤ k → k < stop → i < j.esz → j.pAt k + i ≠ o) → t.spByte win o = s.spByte win o) ∧
    (j.started = true → j.paused = false → j.elements ≤ j.pos → j.taken = j.slabs.length →
      (∀ x ∈ j.slabs, (s.arr x.1).ownerOf x.2.1 = .c j.id ∧ mapWf .t (s.arr x.1).owner = true) →
      ∃ t t1, exec (.copyComplete c) s = .next t ∧ (t.core c).copyQ = rest ∧ t.mem = s.mem ∧
        (∀ x ∈ j.slabs, (t.arr x.1).ownerOf x.2.1 = .t) ∧
        t.thr? (.gang j.gang) = some t1 ∧ ∀ f ∈ t1.flights, f.id = j.id → f.landed = true ∧ f.wait = 0) ∧
    (∀ g, j.paused = true → j.inHandler = false → tget s.gangs j.gang = some g → (∃ f, g.engFaults.head? = some f ∧
      f.seq = false) → exec (.copyPageFault c) s = .next (s.takeEngFault j.gang))

/-- R64, R231 to R233: WAITC goes on once no more than s[b] of its instructions are in flight, with an acquire for copies and the
sequencers; while it waits it keeps the threshold that it has read at issue; ICNT writes the count to s[b]; SLBQ writes the owner of the slab at window offset s[b+1] and its array's bits.
It concludes that exec answers a next state for WAITC, ICNT, SLBQ. -/
def Obligations.CountersAndSlabStatus : Prop :=
  ∀ (x : X1) (path : Path) (xr : BitVec 3) (s s1 : State) (v : View) (ex : Mask),
    let sb := x.sb.toNat
    let most : Word := match v.t.wait with
      | .waitc pc n => if pc = v.t.pc then n else v.t.regs.getS sb
      | _ => v.t.regs.getS sb
    ex ≠ 0 →
    (Admitted s { p := x.p, rs := [sb] } s1 v ex → v.t.count path ≤ most.toNat →
      exec (.waitc x path) s = .next
        ((if path = .c ∨ path = .m then s1.acquire (v.agent s1) else s1).retire v { v.t with wait := .none } x.p.stall)) ∧
    (Admitted s { p := x.p, rs := [sb] } s1 v ex → most.toNat < v.t.count path →
      exec (.waitc x path) s = .next (s1.setThr v.a { v.t with wait := .waitc v.t.pc most })) ∧
    (Admitted s { p := x.p, ws := [sb] } s1 v ex →
      exec (.icnt x path) s = .next (s1.done v x.p 8 [.s sb (BitVec.ofNat 64 (v.t.count path))] 0)) ∧
    (∀ pos, Admitted s { p := x.p, rs := [sb + 1], ws := [sb] } s1 v ex → (v.t.regs.getX xr.toNat).kind = .spad →
      formAddr (v.t.regs.getX xr.toNat) (s1.teamOf v.g).window.length (v.t.regs.getS (sb + 1)).toNat 1 false none 1 = .ok pos →
      let p := winPlace (s1.teamOf v.g).window (v.t.regs.getS (sb + 1)).toNat
      let a := s1.arr p.1
      let own : Nat := match a.ownerOf (slabOf p.2) with | .t => 0 | .c _ => 1 | .m _ => 2
      exec (.slbq x xr) s = .next (s1.done v x.p 8 [.s sb (BitVec.ofNat 64
        (own + (if a.rck then 4 else 0) + (if a.deg then 8 else 0) + 256 * a.defer.length))] 0))

/-! ## Sequencers, arrays' modes, conversions -/

namespace Sys2Proof.Claims

/-- A scratchpad conversion whose operands pass the checks of R311 converts its blocks in order and, where none halts,
retires after its cycles and those of its bank conflicts (R317); a block that halts halts the instruction. -/
def Converts (i : Instr) (x : X1) (xr slot : BitVec 3) (useC : Bool) (cycles : Nat → Nat) (regions : Conv → List Region)
    (block : View → Conv → State → Nat → BlockRes) : Prop :=
  ∀ (s s1 s2 : State) (v : View) (ex : Mask) (f : Machine.Slot),
    let sb := x.sb.toNat
    let reg (j : Nat) : Nat := (v.t.regs.getS (sb + j)).toNat
    let n := reg 3 % 65536
    let c : Conv := { slot := f, slotNo := slot.toNat, win := (s2.teamOf v.g).window, n := n, tag0 := reg 3 / 65536 % 256,
                      f := reg 0, c := reg 1, t := reg 2, id := s2.fresh }
    let xg := v.t.regs.getX xr.toNat
    Admitted s { p := x.p, rs := if useC then [sb, sb + 1, sb + 2, sb + 3] else [sb, sb + 2, sb + 3] } s1 v ex → ex ≠ 0 →
    v.t.held = false → s1.laneReady v = some s2 → xg.kind = .spad → (s2.gridOf v.g).codeSlot slot.toNat = some f →
    reg 3 < 2 ^ 24 → 64 ≤ n → n ≤ 4096 → n % 64 = 0 → n % f.bl = 0 → s2.regionCheck c.win xg.ro (regions c) = none →
    (∀ s3, convBlocks (block v c) (List.range (n / f.bl)) s2.bump = .ok s3 → v.lane = none →
      let conf := ((regions c).map (convCost c.win)).foldl (· + ·) 0
      let took := cycles n + conf
      let s4 := ((s3.bkconf v.a (conf + 1)).noSpin v).modCore v.g.core fun k => { k with port := Nat.max v.now k.port + took }
      let s5 := s4.holdSlabs c.win (regions c) (s4.ps + s4.cyclesPs v.g.core took)
      exec i s = .next ((s5.retire v ((s5.thr? v.a).getD v.t) x.p.stall).hold v.uid took)) ∧
    (∀ s3 h, convBlocks (block v c) (List.range (n / f.bl)) s2.bump = .halt s3 h → exec i s = .next (s3.haltV v h))

/-- A whole region of a conversion's operands. -/
def whole (off n align : Nat) (w : Bool) : Region := ⟨off, n, align, w, [(off, n)]⟩

/-- The floats of a conversion. -/
def floats (c : Conv) (w : Bool) : Region := whole c.f (4 * c.n) 4 w

/-- The stream of a conversion. -/
def stream (c : Conv) (w : Bool) : Region := whole c.t (2 * c.n / c.slot.bl) 2 w

/-- The codes of a conversion: those of planes that APL leaves out are not moved by a read. -/
def codes (c : Conv) (w : Bool) : Region :=
  let b := c.slot.ef.bits
  let r := whole c.c (c.n * b / 8) 8 w
  if w = true ∨ c.slot.bpl = false ∨ c.slot.apl = 0 then r
  else { r with moved := (List.range (c.n / 64)).map fun j => (c.c + 8 * b * j + 8 * (b - c.slot.apl), 8 * c.slot.apl) }

/-- Two regions share no byte. -/
def Apart (a b : Region) : Prop := a.off + a.n ≤ b.off ∨ b.off + b.n ≤ a.off

/-- A conversion of a gang whose operands pass the checks of R311, with no word of scratchpad Poisoned, completes. One that
reads scales needs the tags R313 and R314 ask for, and a stream that it does not write. -/
def ConversionCompletes (i : Instr) (x : X1) (xr slot : BitVec 3) (useC : Bool) (written : Option (Conv → Region))
    (regions : Conv → List Region) : Prop :=
  ∀ (s s1 : State) (v : View) (ex : Mask) (f : Machine.Slot) (g : Gang),
    let sb := x.sb.toNat
    let reg (j : Nat) : Nat := (v.t.regs.getS (sb + j)).toNat
    let n := reg 3 % 65536
    let c : Conv := { slot := f, slotNo := slot.toNat, win := (s1.teamOf v.g).window, n := n, tag0 := reg 3 / 65536 % 256,
                      f := reg 0, c := reg 1, t := reg 2, id := s1.fresh }
    let xg := v.t.regs.getX xr.toNat
    Admitted s { p := x.p, rs := if useC then [sb, sb + 1, sb + 2, sb + 3] else [sb, sb + 2, sb + 3] } s1 v ex → ex ≠ 0 →
    v.t.flights = [] → v.lane = none → v.a = .gang v.uid → tget s1.gangs v.uid = some g → g.thr = v.t → xg.kind = .spad →
    (s1.gridOf v.g).codeSlot slot.toNat = some f → reg 3 < 2 ^ 24 → 64 ≤ n → n ≤ 4096 → n % 64 = 0 → n % f.bl = 0 →
    s1.regionCheck c.win xg.ro (regions c) = none → c.win.Nodup → (∀ k, (s1.arr k).poison = []) →
    (∀ w, written = some w → Apart (w c) (stream c false) ∧
      ∀ k, k < n / f.bl → s1.spNat c.win (c.t + 2 * k) 2 / 256 = (c.tag0 + k) % 256) →
    ∃ t g', exec i s = .next t ∧ tget t.gangs v.uid = some g' ∧ g'.thr.pc = v.t.pc + 8 ∧ g'.thr.flights = [] ∧
      g'.spinCnt = 0 ∧ t.mem = s1.mem

/-- Two's complement of `n` bits given by their values 0 and 1, lowest first. -/
def signedSum (n : Nat) (b : Nat → Int) : Int :=
  ((List.range n).map fun i => (if i + 1 = n then -1 else 1) * 2 ^ i * b i).sum

end Sys2Proof.Claims

/-- R310 to R314, R317: MXSCL, QCVT and DQCVT of N elements (N one of the numbers the rule admits) whose regions are
aligned, within the team's window and readable or writable to the gang convert block by block, add their poison and
saturation as the model's block conversion gives them, and go on, with the cycles the rule names. -/
def Sys2Proof.Claims.ConversionsOfScratchpad : Prop :=
  ∀ (x : X1) (xr slot : BitVec 3),
    Converts (.mxscl x xr slot) x xr slot false (fun n => 12 + n / 16) (fun c => [floats c false, stream c true]) mxsclBlock ∧
    Converts (.qcvt x xr slot) x xr slot true (fun n => 12 + n / 8)
      (fun c => [floats c false, codes c true, stream c false]) qcvtBlock ∧
    Converts (.dqcvt x xr slot) x xr slot true (fun n => 12 + n / 8)
      (fun c => [floats c true, codes c false, stream c false]) dqcvtBlock

/-- R310 to R314: MXSCL, QCVT and DQCVT complete: where the operands pass their checks, no word is Poisoned and the scales'
tags are those expected, exec answers a next state in which the gang has gone on. -/
def Sys2Proof.Claims.ConversionsComplete : Prop :=
  ∀ (x : X1) (xr slot : BitVec 3),
    ConversionCompletes (.mxscl x xr slot) x xr slot false none (fun c => [floats c false, stream c true]) ∧
    ConversionCompletes (.qcvt x xr slot) x xr slot true (some fun c => codes c true)
      (fun c => [floats c false, codes c true, stream c false]) ∧
    ConversionCompletes (.dqcvt x xr slot) x xr slot true (some fun c => floats c true)
      (fun c => [floats c true, codes c false, stream c false])

/-- MXSCL, QCVT and DQCVT.
It concludes that exec answers a next state for MXSCL, QCVT, DQCVT. -/
def Obligations.ScratchpadConversions : Prop :=
  Claims.ConversionsOfScratchpad ∧ Claims.ConversionsComplete

namespace Sys2Proof.Claims

/-- The code formats of a slot. -/
def codeFormats : List EFmt := [.e4m3, .e5m2, .e2m1, .i8, .i4, .t2]

/-- emax of a code format (R293, R294). -/
def topExp : EFmt → Int
  | .e4m3 => 8
  | .e5m2 => 15
  | .e2m1 => 2
  | _ => 0

/-- How many units of 2^p the number m × 2^e is, for p ≤ e. -/
def units (m : Nat) (e p : Int) : Nat := m * 2 ^ (e - p).toNat

/-- Bits, fraction bits, bias and largest finite magnitude of a small float code (R293). -/
def smallFloat : EFmt → Nat × Nat × Nat × Nat
  | .e4m3 => (8, 3, 7, 0x7E)
  | .e5m2 => (8, 2, 15, 0x7B)
  | _ => (4, 1, 1, 0x7)

/-- The magnitude of a small float code as fraction and exponent (R293), as if there were no upper exponent limit. -/
def magnitude (ef : EFmt) (c : Nat) : Nat × Int :=
  let (_, mb, bias, _) := smallFloat ef
  if c / 2 ^ mb = 0 then (c % 2 ^ mb, 1 - bias - mb) else (2 ^ mb + c % 2 ^ mb, (c / 2 ^ mb : Nat) - bias - mb)

/-- Bits, fraction and largest magnitude of an integer code (R294, R295, R303). -/
def intCode : EFmt → Nat × Int × Nat
  | .i8 => (8, 6, 127)
  | _ => (4, 2, 7)

/-- Byte and bit, from the base of a run of codes, of bit j of element e (R296): in the bit-plane layout bit e of plane word j of
its block, in the packed layout bit b × e + j of its block. -/
def codeBit (f : Machine.Slot) (b e j : Nat) : Nat × Nat :=
  let n := if f.bpl then 64 * j + e % 64 else b * (e % 64) + j
  (e / 64 * (8 * b) + n / 8, n % 8)

/-- Bits of a code format. -/
def codeWidth : EFmt → Nat
  | .e4m3 | .e5m2 | .i8 => 8
  | .e2m1 | .i4 => 4
  | _ => 2

end Sys2Proof.Claims

/-- R302: the scale of a block is 0xFF where an element is a NaN or an infinity, 0 where all are zero, and otherwise
⌊log2 m⌋ + 127 − emax of the largest magnitude m, held between 0 and 254. -/
def Sys2Proof.Claims.BlockScales : Prop :=
  ∀ ef ∈ codeFormats, ∀ xs : List FVal,
    ((∃ x ∈ xs, ∀ n m e, x ≠ .fin n m e) → scaleOf ef xs = 0xFF) ∧
    ((∀ x ∈ xs, ∃ n e, x = .fin n 0 e) → scaleOf ef xs = 0) ∧
    (∀ n m e (p k : Int), (∀ x ∈ xs, ∃ n' m' e', x = .fin n' m' e' ∧ p ≤ e' ∧ units m' e' p ≤ units m e p) →
      .fin n m e ∈ xs → p ≤ k → units 1 k p ≤ units m e p → units m e p < 2 * units 1 k p →
      (scaleOf ef xs : Int) = min 254 (max 0 (k + 127 - topExp ef)))

/-- R293, R294, R303: the code of an element. I8 and I4 take the nearest integer to y × 2^q, ties to even; the small floats the
nearest code, ties to the even code, without an upper limit; what passes the largest code becomes that code and saturates. T2 takes
the sign of an element whose magnitude reaches TQ. A NaN gives 0 and saturates in I8, I4 and E2M1, 0x7F in E4M3 and E5M2, and 0
in T2; a block whose scale is 0xFF has codes 0. -/
def Sys2Proof.Claims.ElementCodes : Prop :=
  ∀ (f : Machine.Slot) (s : Nat),
    (∀ x, encodeOf f x 0xFF = (0, false)) ∧
    (s < 0xFF → f.ef = .i8 ∨ f.ef = .i4 →
      let (b, q, top) := intCode f.ef
      let signed (n : Bool) (c : Nat) : Nat := if n then (2 ^ b - c) % 2 ^ b else c
      (∀ sig, encodeOf f (.nan sig) s = (0, true)) ∧ (∀ n, encodeOf f (.inf n) s = (signed n top, true)) ∧
      ∀ n m e (p : Int) (c : Nat), p ≤ e - ((s : Int) - 127) + q → p ≤ 0 →
        let y := units m (e - ((s : Int) - 127) + q) p
        let one := units 1 0 p
        2 * y ≤ 2 * (c * one) + one → 2 * (c * one) ≤ 2 * y + one →
        (2 * y = 2 * (c * one) + one ∨ 2 * (c * one) = 2 * y + one → c % 2 = 0) →
        encodeOf f (.fin n m e) s = (signed n (min c top), decide (top < c))) ∧
    (s < 0xFF → f.ef = .e4m3 ∨ f.ef = .e5m2 ∨ f.ef = .e2m1 →
      let (b, mb, bias, top) := smallFloat f.ef
      let signed (n : Bool) (c : Nat) : Nat := c + if n then 2 ^ (b - 1) else 0
      (∀ sig, encodeOf f (.nan sig) s = if f.ef = .e2m1 then (0, true) else (0x7F, false)) ∧
      (∀ n, encodeOf f (.inf n) s = (signed n top, true)) ∧
      ∀ n m e (p : Int) (c : Nat), p ≤ e - ((s : Int) - 127) → p ≤ 1 - (bias : Int) - mb →
        let y := units m (e - ((s : Int) - 127)) p
        let mag (c : Nat) : Nat := units (magnitude f.ef c).1 (magnitude f.ef c).2 p
        (0 < c → mag (c - 1) + mag c ≤ 2 * y ∧ (mag (c - 1) + mag c = 2 * y → c % 2 = 0)) →
        2 * y ≤ mag c + mag (c + 1) → (2 * y = mag c + mag (c + 1) → c % 2 = 0) →
        encodeOf f (.fin n m e) s = (signed n (min c top), decide (top < c))) ∧
    (s < 0xFF → f.ef = .t2 → ∀ mt et, f32.decode f.tq = .fin false mt et →
      (∀ sig, encodeOf f (.nan sig) s = (0, false)) ∧ (∀ n, encodeOf f (.inf n) s = (if n then 2 else 1, false)) ∧
      ∀ n m e (p : Int), p ≤ e - ((s : Int) - 127) → p ≤ et →
        encodeOf f (.fin n m e) s =
          (if m ≠ 0 ∧ units mt et p ≤ units m (e - ((s : Int) - 127)) p then (if n then 2 else 1) else 0, false))

/-- R293 to R295, R304: what a code decodes to: a quiet NaN in a block whose scale is 0xFF and for the NaN codes, an infinity for an
infinity code, and otherwise the value of the code under the scale, rounded once to the float format. -/
def Sys2Proof.Claims.DecodedValues : Prop :=
  ∀ g ∈ [f32, bf16, f16], ∀ (f : Machine.Slot) (c s : Nat),
    decodeOf f c 0xFF g = g.qnan ∧
    (s < 0xFF →
      let rnd (x e : Int) : Nat := (g.round .rn (decide (x < 0)) x.natAbs e).bits
      (f.ef = .i8 → decodeOf f c s g = rnd (BitVec.ofNat 8 c).toInt ((s : Int) - 133)) ∧
      (f.ef = .i4 → decodeOf f c s g = rnd (BitVec.ofNat 4 c).toInt ((s : Int) - 129)) ∧
      (f.ef = .t2 → decodeOf f c s g = rnd ((if c.testBit 0 then 1 else 0) - (if c.testBit 1 then 1 else 0)) ((s : Int) - 127)) ∧
      (f.ef = .e4m3 ∨ f.ef = .e5m2 ∨ f.ef = .e2m1 →
        let b := (smallFloat f.ef).1
        let m := c % 2 ^ (b - 1)
        let neg := c.testBit (b - 1)
        decodeOf f c s g =
          if f.ef = .e4m3 ∧ m = 0x7F ∨ f.ef = .e5m2 ∧ 0x7C < m then g.qnan
          else if f.ef = .e5m2 ∧ m = 0x7C then g.inf neg
          else (g.round .rn neg (magnitude f.ef m).1 ((magnitude f.ef m).2 + s - 127)).bits))

/-- R296, R298: where a code stands. A read takes the bits of the planes that APL keeps, the others as zero; a write changes all bits
of its codes, whatever APL is, and no other bit. -/
def Sys2Proof.Claims.CodeLayouts : Prop :=
  ∀ (f : Machine.Slot), f.ef ∈ codeFormats → ∀ (byte : Nat → Byte) (e : Nat),
    let b := codeWidth f.ef
    let all : Machine.Slot := { f with apl := 0 }
    (∀ j, (f.readCode byte e).testBit j =
      (decide (j < b ∧ (f.apl = 0 ∨ b - f.apl ≤ j)) && (byte (codeBit f b e j).1).getLsbD (codeBit f b e j).2)) ∧
    ∀ (codes : List Nat) (e0 : Nat),
      let after (o : Nat) : Byte := (((f.writeCodes e0 codes byte).find? fun w => w.1 == o).map Prod.snd).getD (byte o)
      (∀ i c, codes[i]? = some c → all.readCode after (e0 + i) = c % 2 ^ b) ∧
      (e < e0 ∨ e0 + codes.length ≤ e → all.readCode after e = all.readCode byte e)

/-- R306 to R308: a raise adds one to the counter of its slot alone, modulo 2^32; one that takes it from below SATH to SATH or
beyond posts a calibration record with the slot, the source, the counter, TEAMID, TIME and the pc, and no other raise posts one. -/
def Sys2Proof.Claims.SaturationCounters : Prop :=
  ∀ (s : State) (grid slot src team : Nat) (pc : Word) (g : Grid) (k : Nat), tget s.grids grid = some g →
    mapWf 0 g.satc = true →
    let old : BitVec 32 := mget 0 g.satc slot
    let new : BitVec 32 := old + 1
    let sath := (mget 0 g.slots slot).toNat / 2 ^ 32 % 2 ^ 32
    let tid := ((tget s.teams team).map Team.teamid).getD 0
    let once := s.raiseSat grid slot src team pc 1
    s.raiseSat grid slot src team pc 0 = s ∧
    s.raiseSat grid slot src team pc (k + 1) = once.raiseSat grid slot src team pc k ∧
    (∃ g', tget once.grids grid = some g' ∧ (∀ n, mget 0 g'.satc n = if n = slot then new else mget 0 g.satc n) ∧
      once = { s with grids := once.grids, posts := once.posts }) ∧
    (sath ≠ 0 ∧ old.toNat < sath ∧ sath ≤ new.toNat → ∃ b, once.posts = s.posts ++ [{ grid := grid, kind := 2, calib := some b }] ∧
      b.length = 64 ∧ fieldN b 0 2 = 2 ∧ fieldN b 2 1 = slot % 256 ∧ fieldN b 3 1 = src % 256 ∧ fieldN b 4 4 = new.toNat ∧
      fieldN b 8 8 = tid.toNat ∧ fieldN b 16 8 = s.time % 2 ^ 64 ∧ fieldN b 24 8 = pc.toNat ∧ ∀ x ∈ b.drop 32, x = 0) ∧
    (¬(sath ≠ 0 ∧ old.toNat < sath ∧ sath ≤ new.toNat) → once.posts = s.posts)

/-- R310, R312 to R314: one block of a conversion whose words are not Poisoned. MXSCL writes the block's entry, the tag and the
scale of its floats. QCVT writes the codes of its floats under the entry's scale and raises the slot's counter once for each that
saturates; DQCVT writes the floats of its codes. A block whose entry has another tag halts with MXSKEW at the entry. -/
def Sys2Proof.Claims.ConversionBlocks : Prop :=
  ∀ (v : View) (c : Conv) (s : State) (k : Nat),
    let size := c.win.length * 0x8000
    let b := codeWidth c.slot.ef
    let all : Machine.Slot := { c.slot with apl := 0 }
    let tag := (c.tag0 + k) % 256
    let ent := s.spNat c.win (c.t + 2 * k) 2
    let float (j : Nat) : Nat := s.spNat c.win (c.f + 4 * (k * c.slot.bl + j)) 4
    let codes (s : State) (o : Nat) : Byte := s.spByte c.win (c.c + o)
    c.win.Nodup → c.win.length ≤ 16 → (∀ key, (s.arr key).poison = [] ∧ mapWf 0 (s.arr key).cells = true) →
    c.slot.ef ∈ codeFormats → c.n % 64 = 0 → 0 < c.slot.bl → c.slot.bl % 32 = 0 → k < c.n / c.slot.bl →
    c.f + 4 * c.n ≤ size → c.c + c.n * b / 8 ≤ size → c.t + 2 * (c.n / c.slot.bl) ≤ size →
    (∃ s', mxsclBlock v c s k = .ok s' ∧
      s'.spNat c.win (c.t + 2 * k) 2 = tag * 256 + scaleOf c.slot.ef ((List.range c.slot.bl).map fun j => f32.decode (float j)) ∧
      ∀ o, o < size → o ≠ c.t + 2 * k → o ≠ c.t + 2 * k + 1 → s'.spByte c.win o = s.spByte c.win o) ∧
    (ent / 256 ≠ tag →
      qcvtBlock v c s k = .halt s { cause := .mxskew, addr := BitVec.ofNat 64 (c.t + 2 * k) } ∧
      dqcvtBlock v c s k = .halt s { cause := .mxskew, addr := BitVec.ofNat 64 (c.t + 2 * k) }) ∧
    (ent / 256 = tag →
      let code (j : Nat) : Nat × Bool := encodeOf c.slot (f32.decode (float j)) (ent % 256)
      (∃ s1, qcvtBlock v c s k = .ok (s1.raiseSat (s1.teamOf v.g).grid c.slotNo 0 v.g.team v.t.pc
          ((List.range c.slot.bl).filter fun j => (code j).2).length) ∧ s1.grids = s.grids ∧ s1.posts = s.posts ∧
        ∀ j, j < c.slot.bl → all.readCode (codes s1) (k * c.slot.bl + j) = (code j).1) ∧
      ∃ s', dqcvtBlock v c s k = .ok s' ∧ ∀ j, j < c.slot.bl →
        s'.spNat c.win (c.f + 4 * (k * c.slot.bl + j)) 4 =
          decodeOf c.slot (c.slot.readCode (codes s) (k * c.slot.bl + j)) (ent % 256) f32)

/-- The codes, scales and saturation counters of MXSCL, QCVT and DQCVT.
It concludes that exec answers a next state for HALT. -/
def Obligations.ElementFormats : Prop :=
  Claims.BlockScales ∧ Claims.ElementCodes ∧ Claims.DecodedValues ∧ Claims.CodeLayouts ∧ Claims.SaturationCounters ∧ Claims.ConversionBlocks

/-- R318 to R320, R325, R326: in EXACT mode the sum of a segment over all planes and slices is the dot product of the
activations and the weights of the rod, both read as two's complement (ternary weights as the difference of their bits). -/
def Obligations.ExactSegmentsAreDotProducts : Prop :=
  ∀ (af w : EFmt) (a : Arr) (planes : Nat → Nat) (k0 r free rod : Nat), af = .i8 ∨ af = .i4 → w = .i8 ∨ w = .i4 ∨ w = .t2 →
    let slices := match w with | .i8 => 8 | .i4 => 4 | _ => 1
    let act (k : Nat) : Int := signedSum af.bits fun i => if (planes i).testBit k then 1 else 0
    let wt (k : Nat) : Int := if w = .t2 then wAt w a 0 k rod else signedSum slices fun j => wAt w a j k rod
    segmentQ .exact af w a ((List.range af.bits).map fun i => (i, planes i)) k0 r free rod =
      (((List.range r).map fun i => act (k0 + i) * wt (k0 + i)).sum, 0)

/-- R344 to R351: a gang takes a free sequencer of its core, gives up one it owns to the first gang that waits for it, and
reads its state; MLOOP, on a sequencer it owns and that is idle, starts a run that its operands allow, raises M and goes on.
Such a run has 1 to 32 steps and uses arrays of the team's window, in reckoning mode for this team. MLOOP.RES starts where
the gang's progress record stands, and only where that is pending. -/
def Sys2Proof.Claims.SequencersAndRuns : Prop :=
  ∀ (p : Pre) (x : X1) (f : MLoopF) (q : BitVec 2) (s s1 : State) (v : View) (ex : Mask) (g : Gang),
    let core := v.g.core
    let sq (t : State) (n : BitVec 2) : Seq := t.seq core n.toNat
    let rp := mget 0 v.g.rprog f.q.toNat
    let mine (t : State) (r : Run) : Prop :=
      1 ≤ r.cnt ∧ r.cnt ≤ 32 ∧ r.gang = v.uid ∧ r.team = v.g.team ∧
      ∃ w, (s1.gridOf v.g).wtSlot r.slot2 = some w ∧
        let group := (shpDims r.shp).2.1.div (rodsOf w.ef) + if (shpDims r.shp).2.1 % rodsOf w.ef = 0 then 0 else 1
        ∀ j, j < r.cnt * group → ∃ key, (s1.teamOf v.g).window[r.first + j]? = some key ∧ (t.arr key).rck = true ∧
          (t.arr key).modeTeam = some v.g.team
    let started (i : Instr) (r : Run) : Prop := ∃ t g', exec i s = .next t ∧
      (sq t f.q).run = some { r with id := s1.fresh } ∧ mine t r ∧ tget t.gangs v.uid = some g' ∧
      g'.thr.count .m = v.t.count .m + 1 ∧ g'.thr.pc = v.t.pc + 8 ∧ t.mem = s1.mem ∧
      mget 0 g'.rprog f.q.toNat = BitVec.ofNat 64 (2 ^ 63 + r.step % 256 * 2 ^ 40 + r.row % 256 * 2 ^ 32)
    let loops : Uses := { p := f.p, rs := (List.range 6).map fun j => f.sb.toNat + j, safe := false }
    ex ≠ 0 →
    (Admitted s { p := p, safe := false } s1 v ex → (sq s1 q).owner = none →
      exec (.macq p q) s = .next ((s1.setSeq core q.toNat { sq s1 q with owner := some v.uid }).retire v v.t p.stall)) ∧
    (Admitted s { p := p, safe := false } s1 v ex → (sq s1 q).owner = some v.uid →
      exec (.macq p q) s = .next (s1.retire v v.t p.stall)) ∧
    (Admitted s { p := p, safe := false } s1 v ex → (sq s1 q).owner = some v.uid →
      (∀ r, (sq s1 q).run = some r → r.gang ≠ v.uid) → mapWf {} (s1.core core).seqs = true →
      ∃ t, exec (.mrel p q) s = .next t ∧ (sq t q).owner = (sq s1 q).queue.head? ∧ (sq t q).queue = (sq s1 q).queue.tail) ∧
    (Admitted s { p := x.p, ws := [x.sb.toNat] } s1 v ex →
      let rq := mget 0 v.g.rprog q.toNat
      exec (.mstat x q) s = .next (s1.done v x.p 8 [.s x.sb.toNat (BitVec.ofNat 64
        ((if (sq s1 q).owner = some v.uid then 1 else 0) + (if rq.getLsbD 63 then 2 else 0) + (if rq.getLsbD 62 then 4 else 0) +
          (if (sq s1 q).run.isSome then 8 else 0) + 256 * ((sq s1 q).queue.length % 256)))] 0)) ∧
    (∀ r, Admitted s loops s1 v ex → (sq s1 f.q).owner = some v.uid → (sq s1 f.q).run = none → v.t.count .m < 63 →
      v.a = .gang v.uid → v.lane = none → tget s1.gangs v.uid = some g → g.thr = v.t →
      (s1.mloopRun v f false = .ok r → started (.mloop f) r ∧ r.step = 0 ∧ r.row = 0) ∧
      (s1.mloopRun v f true = .ok r → rp.getLsbD 62 = true →
        started (.mloopRes f) r ∧ r.step = rp.toNat / 2 ^ 40 % 256 ∧ r.row = rp.toNat / 2 ^ 32 % 256) ∧
      (rp.getLsbD 62 = false → exec (.mloopRes f) s = .next (s1.retire v v.t f.p.stall)))

/-- R344 to R351: where MLOOP and MLOOP.RES complete: on a sequencer the gang owns and that is idle, with formats the sequencer
reads, 1 to 32 steps, aligned operands, arrays of the window in reckoning mode for the team, and rows, stream and tile within
their registers, a run stands at its first step, or, resumed, where the progress record says, and the gang goes on. Shown for
activations in global memory. -/
def Sys2Proof.Claims.RunsStart : Prop :=
  ∀ (f : MLoopF) (s s1 : State) (v : View) (ex : Mask) (g : Gang) (a w : Machine.Slot),
    let reg (j : Nat) : Word := v.t.regs.getS (f.sb.toNat + j)
    let win := (s1.teamOf v.g).window
    let sq (t : State) : Seq := t.seq v.g.core f.q.toNat
    let d := shpDims f.shp
    let cnt := (reg 4).toNat
    let arrays := cnt * ((d.2.1 + rodsOf w.ef - 1) / rodsOf w.ef)
    let x := v.t.regs.getX f.xr.toNat
    let rp := (mget 0 v.g.rprog f.q.toNat).toNat
    let rows := spanOf (((reg 0).toNat : Int) + (rowSpan d.2.2 a).1) [(cnt, (reg 2).toInt), (d.1, (reg 1).toInt)]
      (rowSpan d.2.2 a).2
    let run (i : Instr) (step row : Nat) : Prop := ∃ t g' r, exec i s = .next t ∧ (sq t).run = some r ∧ r.gang = v.uid ∧
      r.cnt = cnt ∧ r.step = step ∧ r.row = row ∧ tget t.gangs v.uid = some g' ∧ g'.thr.pc = v.t.pc + 8 ∧
      g'.thr.count .m = v.t.count .m + 1 ∧ t.mem = s1.mem
    Admitted s { p := f.p, rs := (List.range 6).map fun j => f.sb.toNat + j, safe := false } s1 v ex → ex ≠ 0 →
    v.a = .gang v.uid → v.lane = none → tget s1.gangs v.uid = some g → g.thr = v.t → v.t.count .m < 63 →
    (sq s1).owner = some v.uid → (sq s1).run = none →
    (s1.gridOf v.g).actSlot f.slot1.toNat = some a → (s1.gridOf v.g).wtSlot f.slot2.toNat = some w →
    1 ≤ cnt → cnt ≤ 32 → x.kind = .virt ∨ x.kind = .frame →
    (∀ j ∈ [0, 1, 2], (reg j).toNat % 8 = 0) → (reg 3).toNat % 4 = 0 → (reg 5).toNat % 2 = 0 →
    f.first.toNat + arrays ≤ win.length →
    (∀ j, j < arrays → ∀ key, win[f.first.toNat + j]? = some key →
      (s1.arr key).rck = true ∧ (s1.arr key).modeTeam = some v.g.team) →
    0 ≤ rows.1 → rows.2.toNat < x.limit.toNat →
    (reg 5).toNat + 2 * (cnt * d.1 * ((d.2.2 + a.bl - 1) / a.bl)) ≤ x.limit.toNat →
    (reg 3).toNat + 4 * (d.1 * d.2.1) ≤ Nat.min (v.t.regs.getX 7).limit.toNat (win.length * 0x8000) →
    run (.mloop f) 0 0 ∧
    (let step := rp / 2 ^ 40 % 256
     let row := rp / 2 ^ 32 % 256
     rp.testBit 62 = true → step < cnt → row < d.1 → run (.mloopRes f) step row)

/-- R335, R337 to R339, R342, R352: a run starts once the earlier accesses of its gang are complete and every slab it needs
is its own; a step starts once no other step holds its arrays; a row that is due is added to C, and the record moves to the
next row, whose cycles follow those of the row before, or to the next step after the last; a run that is over gives every slab it
holds back to the threads and lowers M. -/
def Sys2Proof.Claims.RunsProceedRowByRow : Prop :=
  ∀ (s : State) (c q : Nat) (r : Run) (t0 : Thr) (tm : Team) (g : Gang), (s.seq c q).run = some r →
    s.thr? (.gang r.gang) = some t0 → tget s.teams r.team = some tm → tm.st = .running → tget s.gangs r.gang = some g →
    g.halted = false → r.stop = none →
    (r.started = false → r.taken = 0 → (∀ f ∈ t0.flights, f.id ∈ r.earlier → f.complete = true) →
      (∀ e ∈ s.lanes, e.2.gang = r.gang → ∀ f ∈ e.2.thr.flights, f.id ∈ r.earlier → f.complete = true) →
      (r.slabs.map fun x => (x.1, x.2.1)).Nodup →
      (∀ x ∈ r.slabs, (s.arr x.1).rck = false ∧ (s.arr x.1).ownerOf x.2.1 = .t ∧
        (s.arr x.1).converting x.2.1 s.ps = false) →
      ∃ t, exec (.seqRunStart c q) s = .next t ∧
        (t.seq c q).run = some { r with taken := r.slabs.length, started := true, rowFrom := s.ps } ∧
        ∀ x ∈ r.slabs, (t.arr x.1).ownerOf x.2.1 = .m r.id) ∧
    (r.started = true → r.stepOn = false → r.step < r.cnt → r.held = [] →
      (∀ o ∈ s.runs, o.id = r.id ∨ (o.held = [] ∧ o.want = none)) →
      (∀ k ∈ s.stepArrays r, (s.arr k.2).rck = true ∧ (s.arr k.2).modeTeam = some r.team) →
      ∃ t r', exec (.seqStepStart c q) s = .next t ∧ (t.seq c q).run = some r' ∧ r'.stepOn = true ∧
        r'.held = (s.stepArrays r).map Prod.snd ∧ r'.want = none ∧ r'.step = r.step ∧ r'.row = r.row) ∧
    (∀ a w s1 d, r.started = true → r.stepOn = true → r.due ≤ s.runClk r →
      ((tget s.grids r.grid).getD {}).actSlot r.slot1 = some a → ((tget s.grids r.grid).getD {}).wtSlot r.slot2 = some w →
      s.rowData c r a = (s1, .ok d) → s1.rowPoison r w.ef = none → s1.stopDue r = false →
      (s1.rowAdd r a w d).stopDue r = false →
      let rows := (shpDims r.shp).1
      ∃ t r', exec (.seqRow c q) s = .next t ∧ (t.seq c q).run = some r' ∧ t.arrays = (s1.rowAdd r a w d).arrays ∧
        (r.row + 1 = rows → r'.step = r.step + 1 ∧ r'.row = 0 ∧ r'.stepOn = false ∧ r'.held = []) ∧
        (r.row + 1 ≠ rows → r'.step = r.step ∧ r'.row = r.row + 1 ∧ r'.stepOn = true ∧ r'.held = r.held ∧
          r'.due = r.due + (s1.rowAdd r a w d).rowCycles r)) ∧
    (r.started = true → r.cnt ≤ r.step → r.taken = r.slabs.length →
      (∀ x ∈ r.slabs, (s.arr x.1).ownerOf x.2.1 = .m r.id ∧ mapWf .t (s.arr x.1).owner = true) →
      mapWf {} (s.core c).seqs = true →
      ∃ t t1, exec (.seqRunEnd c q) s = .next t ∧ (t.seq c q).run = none ∧ t.mem = s.mem ∧
        (∀ x ∈ r.slabs, (t.arr x.1).ownerOf x.2.1 = .t) ∧
        t.thr? (.gang r.gang) = some t1 ∧ ∀ f ∈ t1.flights, f.id = r.id → f.landed = true ∧ f.wait = 0)

/-- The matrix sequencers and their runs.
It concludes that exec answers a next state for MACQ, MREL, MLOOP, MLOOP_RES, MSTAT, SEQ_RUN_START, SEQ_STEP_START,
SEQ_ROW, SEQ_RUN_END. -/
def Obligations.SequencerInstructions : Prop :=
  Claims.SequencersAndRuns ∧ Claims.RunsStart ∧ Claims.RunsProceedRowByRow

/-- R253 to R256, R540: AMODE of a team whose other gangs have all arrived, or of its only gang, switches its arrays and lets
the team go. AMODE.STO of an array that computes for the team gives it back to storage and clears k[n]. AMODE.RCK of an
array in storage, wholly the threads', calibrates it: it computes for the team with k[n] clear, or it is degraded with
k[n] set. MCAL calibrates arrays in storage and sets k[n] where one is degraded. Which of the two a calibration gives is the
model's free value (assumption 51). AMODE writes k[n] of every gang of the team, and that of ejected lanes too (assumption 45).
It waits at its arrival for the scratchpad accesses of the gang's ejected lanes.
It concludes that exec answers a next state for AMODE_STO, AMODE_RCK, MCAL. -/
def Obligations.ArrayModesAndCalibration : Prop :=
  ∀ (p : Pre) (sel : ArrSel) (s s1 : State) (v : View) (ex : Mask) (t : Team) (g : Gang) (key : Nat),
    let lone : Prop := v.a = .gang v.uid ∧ v.lane = none ∧ tget s1.gangs v.uid = some g ∧ g = { v.g with thr := v.t } ∧
      g.ended = false ∧ tget s1.teams g.team = some t ∧ t.gangs = [v.uid] ∧ t.amode = {} ∧ g.inPf = false
    let one : Prop := sel.count = 1#8 ∧ t.window[sel.first.toNat]? = some key
    let last (rck : Bool) : Prop := v.a = .gang v.uid ∧ v.lane = none ∧ tget s1.gangs v.uid = some g ∧
      g = { v.g with thr := v.t } ∧ g.ended = false ∧ g.inPf = false ∧ tget s1.teams g.team = some t ∧ t.gangs.Nodup ∧
      v.uid ∈ t.gangs ∧ t.amode.arrived ≠ [] ∧ g.gangid ∉ t.amode.arrived ∧
      t.amode = { arrived := t.amode.arrived, rck := rck, sel := sel } ∧
      ∀ u ∈ t.gangs, u ≠ v.uid → ∃ h, tget s1.gangs u = some h ∧ h.ended = false ∧ h.inPf = false ∧ RegsWf h.thr.regs ∧
        h.gangid ∈ t.amode.arrived
    let allGo (s' : State) (deg rck k : Bool) : Prop := (s'.arr key).rck = rck ∧ (s'.arr key).deg = deg ∧
      (rck = true → (s'.arr key).modeTeam = some g.team) ∧
      (∀ u ∈ t.gangs, ∃ h h', tget s1.gangs u = some h ∧ tget s'.gangs u = some h' ∧
        h'.thr.regs.getK sel.kf.toNat = (if k then BitVec.allOnes 64 else 0) ∧ h'.thr.pc = h.thr.pc + 8 ∧ h'.thr.wait = .none) ∧
      (∀ n e, tget s1.lanes n = some e → e.gang ∈ t.gangs → RegsWf e.thr.regs → ∃ e', tget s'.lanes n = some e' ∧
        e'.thr.regs.getK sel.kf.toNat = if k then BitVec.allOnes 64 else 0)
    let ends (s' : State) (deg rck : Bool) (k : Bool) : Prop := ∃ g', tget s'.gangs v.uid = some g' ∧
      (s'.arr key).rck = rck ∧ (s'.arr key).deg = deg ∧ (rck = true → (s'.arr key).modeTeam = some g.team) ∧
      g'.thr.regs.getK sel.kf.toNat = (if k then BitVec.allOnes 64 else 0) ∧ g'.thr.pc = g.thr.pc + 8 ∧ g'.thr.wait = .none
    ex ≠ 0 → one → g.thr.pend = [] → RegsWf g.thr.regs → sel.kf ≠ 0 → s1.release v = .done s1 →
    (s1.lanesReach v.uid = false → Admitted s { p := p, wk := [sel.kf.toNat], safe := false } s1 v ex → (s1.arr key).rck = true →
      (s1.arr key).modeTeam = some g.team → s1.stepHolds key = false → (s1.arr key).defer = [] →
      (lone → ∃ t', exec (.amodeSto p sel) s = .next t' ∧ ends t' (s1.arr key).deg false false) ∧
      (last false → ∃ t', exec (.amodeSto p sel) s = .next t' ∧ allGo t' (s1.arr key).deg false false)) ∧
    (s1.lanesReach v.uid = false → Admitted s { p := p, wk := [sel.kf.toNat], safe := false } s1 v ex → (s1.arr key).rck = false →
      (s1.arr key).deg = false → (s1.arr key).owner = [] → (s1.arr key).defer = [] → (s1.arr key).conv = [] →
      (lone → ∃ t' failed, exec (.amodeRck p sel) s = .next t' ∧ ends t' failed (!failed) failed) ∧
      (last true → ∃ t' failed, exec (.amodeRck p sel) s = .next t' ∧ allGo t' failed (!failed) failed)) ∧
    (lone → Admitted s { p := p, wk := [sel.kf.toNat], safe := false } s1 v ex → (s1.arr key).rck = false →
      ∃ t' failed g', exec (.mcal p sel) s = .next t' ∧ (t'.arr key).deg = failed ∧ tget t'.gangs v.uid = some g' ∧
        g'.thr.pc = g.thr.pc + 8 ∧
        ∀ l, l < 64 → (g'.thr.regs.getK sel.kf.toNat).getLsbD l =
          if ex.getLsbD l then failed else (g.thr.regs.getK sel.kf.toNat).getLsbD l)

/-! ## Queues, joins, groups, barriers -/

namespace Sys2Proof.Claims

/-- An instruction that executes once on the uniform pipe passes its checks. -/
def Once (s : State) (u : Uses) (safe : Bool) (s1 : State) (v : View) (ex : Mask) : Prop := s.onceReady u safe = .ok (s1, v, ex)

/-- An instruction has its effect, which leaves the state `t`, and its thread goes on. -/
def GoesOn (i : Instr) (s : State) (v : View) (p : Pre) (t : State) : Prop :=
  exec i s = .next (t.retire v ((t.thr? v.a).getD v.t) p.stall)

/-- A checked record is read at its home: nothing is under way there or of the agent's own, no byte answers with an error, and
`b` is what is read. -/
def Reads (s : State) (v : View) (ps : List Piece) (n : Nat) (s' : State) (b : List Byte) : Prop :=
  s.busyReads ps = false ∧ s.ownPending v ps = false ∧ s.errPieces ps n = none ∧ s' = s.readAt ps ∧ b = s.readPieces ps n

/-- An address is translated, and its home answers without an error. -/
def Place (s : State) (v : View) (w : Want) (va : Word) (n align : Nat) (s' : State) (ps : List Piece) : Prop :=
  s.deviceAddr v w va n align = (s', .ok ps) ∧ s'.errAt w ps n = none

/-- A queue descriptor at a virtual address, translated, read, and as R401 asks for it. -/
def Queue (s : State) (v : View) (va : Word) (s' : State) (q : QDesc) (ps : List Piece) : Prop :=
  ∃ s0 b, s.deviceAddr v .rmw va 64 64 = (s0, .ok ps) ∧ Reads s0 v ps 64 s' b ∧ q = QDesc.ofBytes b ∧ q.ok = true

/-- The action phase takes the units of some stretches at home, where nothing is under way for them. -/
def Takes (s : State) (v : View) (ps : List Piece) (s' : State) : Prop := s.queueBusy v ps = false ∧ s' = s.recallAt ps

/-- As `Takes`, after a release of R410 that is complete. -/
def Acts (s : State) (v : View) (ps : List Piece) (s' : State) : Prop := s.release v = .done s ∧ Takes s v ps s'

/-- The parameter run s[b] … . -/
def run (x : X1) (n : Nat) : List Nat := (List.range n).map fun j => x.sb.toNat + j

/-- Register b + j of the run. -/
def reg (v : View) (x : X1) (j : Nat) : Word := v.t.regs.getS (x.sb.toNat + j)

end Sys2Proof.Claims

/-- R400, R408 to R410, R412: pushing and taking. QPUSH and SPAWN put their item into the tail slot and answer 0, or 1 where
the queue is full; QPOP takes the head's slot address and lands it later, 0 where the queue is empty; QFREE gives slots back;
EVPOST appends its record. Shown for queues without a hook. -/
def Sys2Proof.Claims.QueuesArePushedAndTaken : Prop :=
  ∀ (x : X1) (s s1 s2 s3 s4 : State) (v : View) (ex : Mask) (q : QDesc) (ps slot : List Piece),
    let sb := x.sb.toNat
    let answers (t : State) (n : Nat) (w : Word) : State := t.putS v.a (sb + n) w
    let room (s s' s'' : State) : Prop := q.free ≠ 0 ∧ q.hook = 0 ∧ Place s v .write (q.slot q.tail) q.esz 1 s' slot ∧
      Acts s' v (ps ++ slot) s''
    (Once s { p := x.p, rs := run x 2, ws := [sb + 2] } false s1 v ex → Queue s1 v (reg v x 0) s2 q ps →
      (q.kind = 0 ∨ q.kind = 2 →
        (q.free = 0 → Acts s2 v ps s3 → GoesOn (.qpush x) s v x.p (answers s3 2 1)) ∧
        (q.esz = 8 → room s2 s3 s4 → GoesOn (.qpush x) s v x.p
          ((answers (s4.pushAt ps slot none q (wbytes (reg v x 1)) none) 2 0).noSpin v))) ∧
      (∀ g t0 t1 t2 t3 src b, q.kind = 1 → s2.liveGrid q.grid = some g → v.sup = true ∨ g.ctx = v.g.ctx →
        s2.deviceAddr v .read (reg v x 1) 64 64 = (t0, .ok src) → Reads t0 v src 64 t1 b → recCheck b g v.sup = none →
        (q.free = 0 → Acts t1 v ps t2 → GoesOn (.spawn x) s v x.p (answers t2 2 1)) ∧
        (q.esz = 64 → room t1 t2 t3 → GoesOn (.spawn x) s v x.p
          ((answers (t3.pushAt ps slot none q b (some (reg v x 1, none))) 2 0).noSpin v)))) ∧
    (Once s { p := x.p, rs := [sb], ws := [sb + 1] } false s1 v ex → v.t.count .a < 63 → Queue s1 v (reg v x 0) s2 q ps →
      q.kind ≠ 1 → Takes s2 v ps s3 →
      let took := q.items != 0
      let r : Word := if took then q.slot q.head else 0
      let t := if took then ((s3.putFieldW ps 36 4 (q.items - 1)).putFieldW ps 16 8 (q.head + 1)).noSpin v else s3
      GoesOn (.qpop x) s v x.p (t.bump.fly v.a
        { id := t.fresh, path := .a, kind := .regs [.s (sb + 1) r], dst := .s (sb + 1), lanes := ex, acq := took,
          hold := took, pc := v.t.pc, sent := t.ps })) ∧
    (Once s { p := x.p, rs := run x 2 } true s1 v ex → Queue s1 v (reg v x 0) s2 q ps →
      let n := (reg v x 1).toNat
      n ≠ 0 → q.free + n + q.items ≤ q.cap → (∀ f ∈ v.t.flights, f.complete = true) → Takes s2 v ps s3 →
      GoesOn (.qfree x) s v x.p ((s3.putFieldW ps 32 4 (q.free + n)).noSpin v)) ∧
    (Once s { p := x.p, rs := run x 3, ws := [sb] } true s1 v ex →
      let code := (reg v x 0).toNat % 65536
      1 ≤ code → code ≤ 0x7FFF → (s1.gridOf v.g).evq ≠ 0 → Queue s1 v (s1.gridOf v.g).evq s2 q ps → room s2 s3 s4 →
      GoesOn (.evpost x) s v x.p ((answers (s4.pushAt ps slot none q
        (eventBytes 1 code (s4.teamOf v.g).teamid s4.time v.t.pc (reg v x 1) (reg v x 2)) none) 0 0).noSpin v))

/-- R400, R408: a push of n bytes into a queue whose descriptor stands at physical address d and whose tail slot stands at a,
with every unit at its home, writes the slot, lowers FREE by one, and raises ITEMS and TAIL by one, and writes nothing else. -/
def Sys2Proof.Claims.APushWritesItsSlotAndCounts : Prop :=
  ∀ (s : State) (q : QDesc) (d a : Nat) (item : List Byte) (dp sp : Piece), s.net = [] → s.home = [] → s.partials = [] →
    s.registry = [] → s.poison = [] → dp = { off := 0, n := 64, pa := d, uc := false, cohg := 0, prpt := false } →
    sp = { dp with n := item.length, pa := a } →
    ∃ t, s.pushAt [dp] [sp] none q item none = t ∧ t = { s with mem := t.mem } ∧
      t.mem = memSetNat (memSetNat (memSetNat (memWrite s.mem a item) (d + 32) 4 (q.free - 1)) (d + 36) 4 (q.items + 1))
        (d + 24) 8 (q.tail + 1)

/-- R402, R408, R409, R431: JDEC counts its join counter down and, where it reaches zero, starts the continuation; a push of
a continuation that found its queue full is tried again when it is due. -/
def Sys2Proof.Claims.JoinCounters : Prop :=
  (∀ (x : X1) (s s1 s2 s3 s4 : State) (v : View) (ex : Mask) (ps : List Piece) (b : List Byte),
    Once s { p := x.p, rs := run x 2 } true s1 v ex → s1.deviceAddr v .rmw (reg v x 0) 32 32 = (s2, .ok ps) →
    Reads s2 v ps 32 s3 b → Acts s3 v ps s4 →
    let n := (reg v x 1).toNat
    let c := fieldN (s4.readPieces ps 32) 0 8
    let t := s4.putFieldW ps 0 8 (c - n)
    n ≠ 0 → n ≤ fieldN b 0 8 → n ≤ c → GoesOn (.jdec x) s v x.p ((if c = n then
        t.startCont { agent := v.agent s4, ctx := v.g.ctx, sup := v.sup, teamid := (s4.teamOf v.g).teamid, pc := v.t.pc }
          (s4.teamOf v.g).grid (reg v x 0) (fieldW (s4.readPieces ps 32) 8) (fieldW (s4.readPieces ps 32) 16) false
      else t).noSpin v)) ∧
  (∀ (s : State) (n : Nat) (r : RetryPush), tget s.retries n = some r → r.due ≤ s.ps →
    let t := ({ s with retries := tdel s.retries n } : State).startCont
      { agent := s.coreAgent 0, ctx := r.ctx, sup := r.sup, teamid := r.teamid, pc := r.pc } r.grid r.counter r.cont
      r.queue r.group
    (r.group = true → exec (.groupParentPushRetry n) s = .next t) ∧
    (r.group = false → exec (.joinPushRetry n) s = .next t))

/-- Queues and join counters.
It concludes that exec answers a next state for SPAWN, QPUSH, QPOP, QFREE, JDEC, EVPOST, GROUP_PARENT_PUSH_RETRY,
JOIN_PUSH_RETRY. -/
def Obligations.QueueInstructions : Prop :=
  Claims.QueuesArePushedAndTaken ∧ Claims.APushWritesItsSlotAndCounts ∧ Claims.JoinCounters

/-- R420 to R435: groups. FORKG of a group that is not IDLE answers 1, and 2 where its queue lacks room; otherwise, with the
frames' length 0 and no hook, it writes the siblings' records, slots and pushes, the group's time starts on the stretches that it
has translated (the close uses them: assumption 50), and it answers 0. GBAR of a closed group returns the slot's advantage
and the status. GCAN cancels the running slots it names and answers 0, or 1 where none runs and 2 where the group is not
OPEN. A group whose time has reached TMO closes (TUSED is brought up to date when the device uses it: assumption 48). -/
def Sys2Proof.Claims.SampleGroups : Prop :=
  (∀ (x : X1) (s s1 s2 s3 s4 s5 s6 : State) (v : View) (ex : Mask) (hps tps ps : List Piece) (hb tb : List Byte) (q : QDesc)
      (gr : Grid),
    let sb := x.sb.toNat
    let d := GDesc.ofBytes hb
    let r := Rec.ofBytes tb
    let waiting (t : State) (w : Wait) : State := t.modThr v.a fun t => { t with wait := w }
    let answer (t : State) (n : Word) : State := waiting (t.putS v.a (sb + 4) n) .none
    Once s { p := x.p, rs := run x 4, ws := [sb + 4] } false s1 v ex →
    s1.deviceAddr v .rmw (reg v x 0) 64 64 = (s2, .ok hps) → Reads s2 v hps 64 s3 hb → d.tmpl.toNat % 64 = 0 →
    (reg v x 1).toNat % 64 = 0 → d.ok = true → s3.deviceAddr v .read d.tmpl 64 1 = (s4, .ok tps) →
    Reads s4 v tps 64 s5 tb → Queue s5 v (reg v x 3) s6 q ps → recReserved tb = false →
    r.join = false → r.grp = false → r.ganged = false ∨ r.idem = true → r.shapeOk gr.width gr.vallot = true →
    r.sys = false ∨ v.sup = true → q.kind = 1 → s6.liveGrid q.grid = some gr →
    (∀ t, d.state ≠ 0 → Acts (waiting s6 .acting) v (hps ++ ps) t → GoesOn (.forkg x) s v x.p (answer t 1)) ∧
    (∀ t, d.state = 0 → q.free < d.g → Acts (waiting s6 .acting) v (hps ++ ps) t → GoesOn (.forkg x) s v x.p (answer t 2)) ∧
    (∀ s7 s8 s9 t dps rps slots, d.state = 0 → d.g ≤ q.free → r.flen = 0 → q.hook = 0 →
      Place s6 v .rmw (reg v x 0) (64 + 16 * d.g) 1 s7 dps → Place s7 v .write (reg v x 1) (64 * d.g) 1 s8 rps →
      (∀ k, s8.tMany v .write ((List.range d.g).map fun i => (q.slot (q.tail + i), 64)) k = k s9 slots) →
      Acts (waiting s9 .acting) v (ps ++ dps ++ rps ++ slots.flatten) t →
      let f := t.forkAll v d r (reg v x 0) (reg v x 1) (reg v x 2) q ps dps rps [] [] slots none
      GoesOn (.forkg x) s v x.p (answer (f.noSpin v) 0) ∧
      ∃ n gt, tget f.groups n = some gt ∧ gt.desc = reg v x 0 ∧ gt.pa = paAt dps 0 ∧ gt.pieces = dps ∧ gt.since = t.ps ∧
        gt.used = 0 ∧ gt.paused = false)) ∧
  (∀ (x : X1) (s s1 s2 s3 s4 s5 s6 : State) (v : View) (ex : Mask) (hps sps : List Piece) (b1 b2 : List Byte),
    let sb := x.sb.toNat
    let o := 64 + 16 * v.g.sib.toNat
    let ps := hps ++ sps.map fun p => { p with off := p.off + o }
    let a := (s6.endMonitors v.a).acquire (v.agent s6)
    Once s { p := x.p, ws := [sb, sb + 1] } false s1 v ex → v.g.sib ≠ 0xFFFFFFFF →
    s1.deviceAddr v .read v.g.gdesc 64 64 = (s2, .ok hps) →
    s2.deviceAddr v .read (v.g.gdesc + BitVec.ofNat 64 o) 16 1 = (s3, .ok sps) → Takes s3 v ps s4 →
    Reads s4 v (ps.filter fun p => p.off < 64) 64 s5 b1 →
    Reads s5 v ((ps.filter fun p => o ≤ p.off).map fun p => { p with off := p.off - o }) 16 s6 b2 → s6.gGet ps 12 1 ≠ 1 →
    let b := a.putS v.a sb (BitVec.ofNat 64 (a.gGet ps (o + 4) 4))
    GoesOn (.gbar x) s v x.p (b.putS v.a (sb + 1)
      (BitVec.ofNat 64 (b.gGet ps 13 1 + 256 * s6.gGet ps (o + 8) 1 + 65536 * b.gGet ps 14 2)))) ∧
  (∀ (x : X1) (s s1 s2 s3 s4 s5 : State) (v : View) (ex : Mask) (hps ps : List Piece) (hb : List Byte),
    let sb := x.sb.toNat
    let d := GDesc.ofBytes hb
    let all := reg v x 1 = BitVec.allOnes 64
    let named := if all then List.range d.g else [(reg v x 1).toNat]
    let s6 := s5.closeDue ps
    let runs := named.filter fun i => s6.gGet ps (64 + 16 * i + 8) 1 == 1
    let answer (t : State) (n : Word) : State := t.putS v.a (sb + 2) n
    Once s { p := x.p, rs := run x 2, ws := [sb + 2] } true s1 v ex → s1.deviceAddr v .rmw (reg v x 0) 64 64 = (s2, .ok hps) →
    Reads s2 v hps 64 s3 hb → all ∨ (reg v x 1).toNat < d.g → Place s3 v .rmw (reg v x 0) (64 + 16 * d.g) 1 s4 ps →
    Acts s4 v ps s5 →
    (s6.gGet ps 12 1 ≠ 1 → GoesOn (.gcan x) s v x.p (answer s6 2)) ∧
    (s6.gGet ps 12 1 = 1 → runs = [] → GoesOn (.gcan x) s v x.p (answer s6 1)) ∧
    (s6.gGet ps 12 1 = 1 → runs ≠ [] → d.ndep + d.ncan + runs.length ≠ d.g →
      let c := runs.foldl (fun s i => (s.gPut ps (64 + 16 * i + 8) 1 4).gPut ps (64 + 16 * i + 4) 4 0x7FC00000) s6
      GoesOn (.gcan x) s v x.p (answer ((((c.gPut ps 26 2 (d.ncan + runs.length)).cancelTeams (paAt ps 0) runs)).noSpin v) 0))) ∧
  (∀ (s : State) (n : Nat) (g : GroupTimer), tget s.groups n = some g → s.busyPieces g.pieces = false →
    let s1 := s.recallAt g.pieces
    s1.groupAt (paAt g.pieces 0) = some (n, g) → s1.gGet g.pieces 12 1 = 1 → s1.gGet g.pieces 4 4 ≠ 0 →
    s1.gGet g.pieces 28 4 = s1.gGet g.pieces 4 4 → s1.gGet g.pieces 4 4 ≤ g.us s.ps →
    exec (.groupTimeout n) s = .next (s1.closeGroup
      { agent := s1.coreAgent 0, ctx := g.ctx, sup := g.sup } g.grid g.desc g.pieces))

/-- R426: what FORKG writes for sibling i of a group whose frames have length 0, with every unit at its home: the sibling's record,
the template's with its own SIBX, GRP set and the descriptor in the last argument, at 64 × i of the records; and its slot, running,
with every other byte 0. -/
def Sys2Proof.Claims.ForkWritesARecordAndASlot : Prop :=
  ∀ (s : State) (r : Rec) (fbase recb desc : Word) (rp dp : Piece) (i n : Nat), s.net = [] → s.home = [] → s.partials = [] →
    s.registry = [] → s.poison = [] → s.groups = [] → r.flen = 0 → i < n → n ≤ 256 →
    rp = { off := 0, n := 64 * n, pa := rp.pa, uc := false, cohg := 0, prpt := false } →
    dp = { off := 0, n := 64 + 16 * n, pa := dp.pa, uc := false, cohg := 0, prpt := false } →
    let own : Rec := { r with frame := fbase, grp := true, sibx := i, args := r.args.take 3 ++ [desc] }
    let slot : List Byte := [0, 0, 0, 0, 0, 0, 0, 0, 1, 0, 0, 0, 0, 0, 0, 0]
    ∃ t, State.forkOne r fbase recb desc [] [] [rp] [dp] s i = t ∧ t = { s with mem := t.mem } ∧
      t.mem = memWrite (memWrite s.mem (rp.pa + 64 * i) own.bytes) (dp.pa + 64 + 16 * i) slot

/-- R432: the statistics of a close. With fewer valid rewards than GMIN the status is 3 and everything is the NaN; where the
sum, the variance or SIGMA + EPS is not finite it is 4, with the mean and SIGMA as computed; where all valid rewards are one
pattern, or the variance is zero, it is 2 and the advantages are 0; else it is 1 and each advantage is its reward's
difference from the mean over SIGMA + EPS, all in F32 under RNE, summed in sibling order. -/
def Sys2Proof.Claims.GroupStatistics : Prop :=
  ∀ (gmin eps : Nat) (rs : List Nat),
    let one (f : FRes) : Nat := f.bits
    let dec (a : Nat) : FVal := f32.decode a
    let add (a b : Nat) : Nat := one (f32.add .rn (dec a) (dec b))
    let sub (a b : Nat) : Nat := one (f32.add .rn (dec a) (dec b).negate)
    let quo (a b : Nat) : Nat := one (f32.div .rn (dec a) (dec b))
    let fn := one (f32.ofInt .rn (rs.length : Int))
    let sum := rs.foldl add 0
    let mean := quo sum fn
    let ds := rs.map fun r => sub r mean
    let var := quo (ds.foldl (fun q d => add q (one (f32.mul .rn (dec d) (dec d)))) 0) fn
    let sigma := one (f32.sqrt .rn (dec var))
    let den := add sigma (if eps = 0 then 0x35800000 else eps)
    let finite (a : Nat) : Prop := a % 2 ^ 31 < 0x7F800000
    let st := closeStats gmin eps rs
    (rs.length < gmin → st.status = 3 ∧ st.mean = 0x7FC00000 ∧ st.sigma = 0x7FC00000 ∧ st.adv = none) ∧
    (gmin ≤ rs.length → st.mean = mean ∧ st.sigma = sigma ∧
      (¬(finite sum ∧ finite var ∧ finite den) → st.status = 4 ∧ st.adv = none) ∧
      (finite sum ∧ finite var ∧ finite den →
        let flat := (∀ a ∈ rs, ∀ b ∈ rs, a = b) ∨ var % 2 ^ 31 = 0
        (flat → st.status = 2 ∧ st.adv = some (rs.map fun _ => 0)) ∧
        (¬flat → st.status = 1 ∧ st.adv = some (ds.map fun d => quo d den))))

/-- Sample groups and their statistics.
It concludes that exec answers a next state for FORKG, GBAR, GCAN, GROUP_TIMEOUT. -/
def Obligations.SampleGroupInstructions : Prop :=
  Claims.SampleGroups ∧ Claims.ForkWritesARecordAndASlot ∧ Claims.GroupStatistics

/-- R403 to R407, R413 to R415, R419, R427, R540: BAR.ARRIVE goes on, BAR.SYNC too where it is the last arrival of its phase
and waits otherwise; BARINIT sets a barrier's count; PHINT sets the gang's hint; COMMIT and GRWD of a team's only gang, with
no record to read again and, for COMMIT, no group, complete at once and clear the team's arrivals. -/
def Sys2Proof.Claims.TeamBarriersAndHints : Prop :=
  ∀ (p : Pre) (x : X1) (b : BitVec 4) (s s1 : State) (v : View) (ex : Mask) (t : Team) (g : Gang),
    let br := mget {} t.bars b.toNat
    let alone : Prop := v.a = .gang v.uid ∧ v.lane = none ∧ tget s1.gangs v.uid = some g ∧ g = { v.g with thr := v.t } ∧
      g.ended = false ∧ tget s1.teams g.team = some t ∧ t.gangs = [v.uid] ∧ mapWf {} t.bars = true
    let after (t' : State) : Prop := ∃ g', tget t'.gangs v.uid = some g' ∧ g'.thr.pc = v.t.pc + 8 ∧ g'.thr.wait = .none
    alone → ex ≠ 0 → v.t.wait = .none → g.pfWait = .none → g.inPf = false →
    (Admitted s { p := p, safe := false } s1 v ex → s1.release v = .done s1 →
      (br.set = none → br.arrivals = 0 → ∃ t' tm, exec (.barSync p b) s = .next t' ∧ after t' ∧
        tget t'.teams g.team = some tm ∧ mget {} tm.bars b.toNat = { br with phase := br.phase + 1 }) ∧
      (∀ n, br.set = some n → br.arrivals + 1 < n →
        (∃ t' g' tm, exec (.barSync p b) s = .next t' ∧ tget t'.gangs v.uid = some g' ∧ g'.thr.wait = .bar b.toNat ∧
          tget t'.teams g.team = some tm ∧ mget {} tm.bars b.toNat = { br with arrivals := br.arrivals + 1 }) ∧
        (∃ t' tm, exec (.barArrive p b) s = .next t' ∧ after t' ∧ tget t'.teams g.team = some tm ∧
          mget {} tm.bars b.toNat = { br with arrivals := br.arrivals + 1 }))) ∧
    (Admitted s { p := x.p, rs := [x.sb.toNat], safe := false } s1 v ex →
      let n := (v.t.regs.getS x.sb.toNat).toNat
      br.arrivals = 0 → 1 ≤ n → n ≤ 255 → ∃ t' tm, exec (.barinit x b) s = .next t' ∧ after t' ∧
        tget t'.teams g.team = some tm ∧ mget {} tm.bars b.toNat = { br with set := some n }) ∧
    (Admitted s { p := p } s1 v ex →
      (∃ t' g', exec (.phintMem p) s = .next t' ∧ after t' ∧ tget t'.gangs v.uid = some g' ∧ g'.hint = .mem) ∧
      (∃ t' g', exec (.phintCmp p) s = .next t' ∧ after t' ∧ tget t'.gangs v.uid = some g' ∧ g'.hint = .cmp)) ∧
    (Admitted s { p := p, safe := false } s1 v ex → s1.release v = .done s1 → t.shape.grp = false → t.reca = 0 →
      t.commit = [] → g.cmtLog = [] → g.sib = 0xFFFFFFFF →
      ∃ t' tm, exec (.commit p) s = .next t' ∧ after t' ∧ tget t'.teams g.team = some tm ∧ tm.commit = []) ∧
    (∀ s2 s3 hps sps, Admitted s { p := x.p, rs := [x.sb.toNat], safe := false } s1 v ex → g.sib ≠ 0xFFFFFFFF →
      t.shape.grp = true → s1.deviceAddr v .rmw g.gdesc 64 64 = (s2, .ok hps) →
      s2.deviceAddr v .rmw (g.gdesc + BitVec.ofNat 64 (64 + 16 * g.sib.toNat)) 16 1 = (s3, .ok sps) →
      let ps := hps ++ sps.map fun p => { p with off := p.off + (64 + 16 * g.sib.toNat) }
      let s4 := s3.modGang v.uid fun g => { g with gplace := ps }
      s4.release v = .done s4 → (∀ pa n, s3.lockedOver pa n = false) →
      (∀ p ∈ ps, s3.errPieces [{ p with off := 0 }] p.n = none) → t.reca = 0 → t.grwd = [] → g.cmtLog = [] →
      tget s3.gangs v.uid = some g → tget s3.teams g.team = some t →
      ∃ t' tm, exec (.grwd x) s = .next t' ∧ after t' ∧ tget t'.teams g.team = some tm ∧ tm.grwd = [])

/-- R388, R399: a gang whose lanes have all exited, with no lane on the carry pool, no run and no copy, ends once its release
is complete; its sequencers go to other gangs. -/
def Sys2Proof.Claims.GangsEnd : Prop :=
  ∀ (s : State) (u : Nat) (v : View) (t : Team) (u2 : Nat) (g2 : Gang), s.viewOf (.gang u) = some v → v.g.ended = false →
    v.g.halted = false → tget s.teams v.g.team = some t → t.st = .running → v.g.exited &&& v.g.all = v.g.all → s.lanes = [] →
    s.hasRun u = false → s.hasCopy u = false → (s.dropSeqs u).release v = .done (s.dropSeqs u) → t.gangs = [u, u2] → u ≠ u2 →
    tget s.gangs u2 = some g2 → g2.ended = false → t.bars = [] → t.amode = {} → t.commit = [] → t.grwd = [] →
    ∃ s' g', exec (.gangEnd u) s = .next s' ∧ tget s'.gangs u = some g' ∧ g'.ended = true ∧
      tget s'.gangs u2 = some g2 ∧ s'.mem = s.mem ∧
      ∀ c q, (s'.seq c q).owner ≠ some u ∧ u ∉ (s'.seq c q).queue

/-- Barriers, commits and hints of a team, and the end of a gang.
It concludes that exec answers a next state for BAR_SYNC, BAR_ARRIVE, BARINIT, COMMIT, GRWD, PHINT_MEM, PHINT_CMP,
GANG_END. -/
def Obligations.TeamInstructions : Prop :=
  Claims.TeamBarriersAndHints ∧ Claims.GangsEnd

/-! ## Page faults, supervisor instructions, dispatch -/

namespace Sys2Proof.Claims

/-- Memory is at rest: nothing is on its way, no agent owns a unit, no partial waits and no word is Poisoned. -/
def Quiet (s : State) : Prop := s.net = [] ∧ s.home = [] ∧ s.partials = [] ∧ s.registry = [] ∧ s.poison = [] ∧ s.l1 = []

end Sys2Proof.Claims

/-- R111 to R113, R446, R447, R458: entry to the page-fault handler. The gang's fault frame in its team's swap area takes k1 to
k7, the header's address, s56 to s63, the PC, the active mask, the mode, the faulting lanes and the cause, x0, and v0 to v7
of the faulting lanes; x0 then reaches everything, and the gang goes in supervisor mode to the handler that the device system
table names, with the faulting lanes active. Inside the handler a fault halts the gang with PF_NEST, and so does a frame that does
not exist or lies on a gated die, with the halt of such an address (R86, R89). -/
def Sys2Proof.Claims.PageFaultsEnterTheHandler : Prop :=
  ∀ (s : State) (u : Nat) (g : Gang) (fmask : Mask) (fva : List (Nat × Word)) (cause : Word), tget s.gangs u = some g →
    let r := g.thr.landAll.regs
    let f := (s.teamOf g).area + 0x21000 + 0x1000 * g.gangid
    (g.inPf = true → s.pageFault u fmask fva cause = s.haltGang u .pfNest g.thr.pc g.active 0) ∧
    (∀ c, g.inPf = false → Quiet s → s.paHalt f = some c →
      s.pageFault u fmask fva cause = s.haltGang u c g.thr.pc g.active (BitVec.ofNat 64 f)) ∧
    ∀ (e : Entry) (below : List Entry) (h : Word), g.inPf = false → Quiet s → memWf s.mem = true → g.stack = below ++ [e] →
      g.thr.regs.vp = [] → s.paHalt f = none → s.readEntry (s.dst + 8) = .ok h →
      ∃ s' g', s.pageFault u fmask fva cause = s' ∧ tget s'.gangs u = some g' ∧
        memNat s'.mem (f + 0x880) 8 = g.thr.pc.toNat ∧ memNat s'.mem (f + 0x888) 8 = e.mask.toNat ∧
        memNat s'.mem (f + 0x890) 8 = (if g.sup then 1 else 0) + (if g.inEmu then 2 else 0) ∧
        memNat s'.mem (f + 0x898) 8 = fmask.toNat ∧ memNat s'.mem (f + 0x8A0) 8 = cause.toNat ∧
        (∀ n, n < 7 → memNat s'.mem (f + 0x800 + 8 * n) 8 = (r.getK (n + 1)).toNat) ∧
        memNat s'.mem (f + 0x838) 8 = g.thr.hdra.toNat ∧ memNat s'.mem (f + 0x8A8) 8 = (r.getX 0).base.toNat ∧
        memNat s'.mem (f + 0x8B0) 8 = (r.getX 0).limit.toNat ∧ memNat s'.mem (f + 0x8B8) 8 = (r.getX 0).attrs.toNat ∧
        (∀ n, n < 8 → memNat s'.mem (f + 0x840 + 8 * n) 8 = (r.getS (56 + n)).toNat) ∧
        (∀ l n, l < 64 → fmask.getLsbD l = true → n < 8 → memNat s'.mem (f + 32 * l + 4 * n) 4 = (r.getV n l).toNat) ∧
        (∀ a, a < f ∨ f + 0x1000 ≤ a → memByte s'.mem a = memByte s.mem a) ∧
        g'.thr.pc = h ∧ g'.thr.atHdr = true ∧ g'.sup = true ∧ g'.inPf = true ∧
        g'.stack = below ++ [{ e with mask := fmask }] ∧ g'.fmask = fmask ∧ g'.fcause = cause ∧
        g'.thr.regs.getX 0 = xAll ∧ (∀ n l, g'.thr.regs.getV n l = r.getV n l) ∧ g'.thr.flights = g.thr.flights

/-- R448: RETS in the handler restores from the fault frame the PC, the mode, x0 and the saved s and k registers, and returns;
results of the handler that have not landed yet stay pending, but for the registers it restores; outside a handler it halts with NOT_IN_HANDLER. -/
def Sys2Proof.Claims.RetsReturnsFromTheHandler : Prop :=
  ∀ (p : Pre) (s s1 : State) (v : View) (ex : Mask) (g : Gang), Admitted s { p := p, safe := false } s1 v ex → ex ≠ 0 →
    tget s1.gangs v.uid = some g → v.a = .gang v.uid → Quiet s1 →
    let w (o : Nat) : Nat := memNat s1.mem (v.g.pfFrame + o) 8
    (v.g.inPf = false → exec (.rets p) s = .next (s1.haltV v { cause := .notInHandler })) ∧
    (v.g.inPf = true → ∃ t g', exec (.rets p) s = .next t ∧ tget t.gangs v.uid = some g' ∧ g'.inPf = false ∧
      g'.thr.pc.toNat = w 0x880 ∧ g'.sup = (w 0x890).testBit 0 ∧ g'.inEmu = (w 0x890).testBit 1 ∧
      (RegsWf v.t.regs → ∀ n, n < 8 → (g'.thr.regs.getS (56 + n)).toNat = w (0x840 + 8 * n)) ∧
      (RegsWf v.t.regs → ∀ n, n < 7 → (g'.thr.regs.getK (n + 1)).toNat = w (0x800 + 8 * n)) ∧
      (RegsWf v.t.regs → let x := XReg.ofWords (BitVec.ofNat 64 (w 0x8A8)) (BitVec.ofNat 64 (w 0x8B0)) (BitVec.ofNat 64 (w 0x8B8))
        (x.kind ≠ .frame → g'.thr.regs.getX 0 = x) ∧
        (x.kind = .frame → v.g.pfX0.kind = .frame → (g'.thr.regs.getX 0).kind = .frame ∧
          (g'.thr.regs.getX 0).base = x.base ∧ (g'.thr.regs.getX 0).limit = x.limit)) ∧
      (∀ n, n < 56 → g'.thr.regs.getS n = v.t.regs.getS n) ∧
      g'.thr.pend = v.t.pend.map (fun q => { q with w := q.w.filter fun y => !y.inFrame (BitVec.ofNat 64 (w 0x898)) }) ∧
      t.mem = s1.mem)

/-- The page-fault handler: entry and return.
It concludes that exec answers a next state for RETS. -/
def Obligations.PageFaultEntryAndReturn : Prop :=
  Claims.PageFaultsEnterTheHandler ∧ Claims.RetsReturnsFromTheHandler

/-- R104, R115 to R119, R145, R452, R463, R464: the supervisor instructions. PGTAKE takes a frame from the pool of its size.
PGMAP writes a 4 KiB leaf into a free entry whose tables are there and answers 0, or 1 with the entry found, 2 where that is
one of a 64 KiB group; PGUNMAP clears the
valid bit of a leaf and answers the leaf. TLBINV removes every cached leaf of its range, once its release is complete. PCLR
writes a word and tells whether it was Poisoned; ORCLM answers a unit's registry entry and clears OL; HALTG halts the gang
for the host.
It concludes that exec answers a next state for PGMAP, PGUNMAP, TLBINV, PGTAKE, PCLR, ORCLM, HALTG. -/
def Obligations.SupervisorInstructions : Prop :=
  ∀ (x : X1) (s s1 : State) (v : View) (ex : Mask),
    let sb := x.sb.toNat
    (∀ s2 s3 s4 s5 s6 pool q ps slot b, Once s { p := x.p, rs := [sb + 1], ws := [sb] } false s1 v ex →
      let size := (reg v x 1).toNat
      size ≤ 3 → v.t.count .g < 63 → s1.dstField (16 + 8 * size) = (s2, .ok pool) → pool ≠ 0 → Queue s2 v pool s3 q ps →
      q.items ≠ 0 → s3.deviceAddr v .read (q.slot q.head) 8 1 = (s4, .ok slot) → Reads s4 v slot 8 s5 b → Takes s5 v ps s6 →
      let t := ((s6.putFieldW ps 36 4 (q.items - 1)).putFieldW ps 16 8 (q.head + 1)).putFieldW ps 32 4 (q.free + 1)
      GoesOn (.pgtake x) s v x.p (t.bump.fly v.a
        { id := t.fresh, path := .g, kind := .regs [.s sb (BitVec.ofNat 64 (valOf b))], dst := .s sb, lanes := ex, pc := v.t.pc,
          sent := t.ps })) ∧
    (∀ s3 root a e, Once s { p := x.p, rs := run x 3, ws := [sb + 1, sb + 3] } false s1 v ex →
      let pte := reg v x 1
      let s2 := s1.walkRead v.g.ctx (reg v x 0)
      reg v x 2 = 0 → leafMalformed pte 0 = false → pte.getLsbD 10 = false → canonical (reg v x 0) = true →
      s2.rootOf v.g.ctx = .ok root → s2.mapWalk (reg v x 0) 0 3 root = .slot a → Acts s2 v (slotPieces [a]) s3 →
      s3.slotsBad [a] = none → s3.readEntry a = .ok e →
      (e.getLsbD 0 = true → (if e.getLsbD 1 then tableMalformed s3 e 0 else leafMalformed e 0) = false →
        GoesOn (.pgmap x) s v x.p
          (((s3.putS v.a (sb + 1) e).putS v.a (sb + 3) (if e.getLsbD 10 then 2 else 1)).noSpin v)) ∧
      (e.getLsbD 0 = false →
        GoesOn (.pgmap x) s v x.p (((s3.devWrite a (wbytes pte)).putS v.a (sb + 3) 0).noSpin v))) ∧
    (∀ s3 root a e, Once s { p := x.p, rs := run x 2, ws := [sb + 1] } false s1 v ex → reg v x 1 = 0 →
      let s2 := s1.walkRead v.g.ctx (reg v x 0)
      canonical (reg v x 0) = true → s2.rootOf v.g.ctx = .ok root → s2.mapWalk (reg v x 0) 0 3 root = .slot a →
      Takes s2 v (slotPieces [a]) s3 → s3.readEntry a = .ok e → e.getLsbD 0 = true → e.getLsbD 1 = false →
      e.getLsbD 10 = false → leafMalformed e 0 = false →
      GoesOn (.pgunmap x) s v x.p
        (((s3.devWrite a (wbytes (BitVec.ofNat 64 (s3.peekNat a 8) &&& ~~~1#64))).putS v.a (sb + 1) e).noSpin v)) ∧
    (Once s { p := x.p, rs := run x 3 } false s1 v ex → s1.release v = .done s1 → v.t.flights = [] → s1.lanes = [] →
      (∀ e ∈ s1.gangs, e.2.thr.flights = [] ∧ e.2.cmtLog = [] ∧ ∀ w, e.2.thr.wait ≠ .waitu w) →
      ∃ t, exec (.tlbinv x) s = .next t ∧ t.mem = s1.mem ∧
        ∀ e ∈ t.front, e.1 / 4096 = s1.pkg.toNat → ∀ l ∈ e.2.tlb,
          reg v x 2 = BitVec.allOnes 64 ∨ l.ctx.toNat = (reg v x 2).toNat →
          (reg v x 1).toNat ≠ 0 ∧
            ((reg v x 0).toNat + (reg v x 1).toNat ≤ l.base ∨ l.base + l.size ≤ (reg v x 0).toNat)) ∧
    (∀ s2 s3 ps cohg, Once s { p := x.p, rs := run x 2, ws := [sb + 2] } false s1 v ex →
      s1.deviceAddr v .write (reg v x 0) 8 8 = (s2, .ok ps) → Acts s2 v ps s3 → pieceAt ps 0 = some (paAt ps 0, cohg) →
      s3.remoteBad (paAt ps 0) = false → (s3.entry (ukeyOf (paAt ps 0) cohg.cohg)).ol = false →
      let t := (s3.recall (paAt ps 0) 8).farTouch (v.agent s3) (paAt ps 0) 8
      GoesOn (.pclr x) s v x.p (((t.devWrite (paAt ps 0) (wbytes (reg v x 1))).putS v.a (sb + 2)
        (if isPoisoned t (paAt ps 0) then 0 else 1)).noSpin v)) ∧
    (∀ s2 ps c, Once s { p := x.p, rs := [sb], ws := [sb + 1] } false s1 v ex →
      s1.deviceAddr v .read (reg v x 0) 1 1 = (s2, .ok ps) → s2.release v = .done s2 → pieceAt ps 0 = some (paAt ps 0, c) →
      s2.remoteBad (paAt ps 0) = false →
      let k := ukeyOf (paAt ps 0) c.cohg
      (s2.unit k).still = true → s2.ownPending v ps = false →
      (tget s2.registry k = none → GoesOn (.orclm x) s v x.p (s2.putS v.a (sb + 1) 0)) ∧
      (∀ e, tget s2.registry k = some e → GoesOn (.orclm x) s v x.p
        ((if e.ol then s2.setEntry k { e with ol := false, owner := none } else s2).putS v.a (sb + 1) e.word))) ∧
    (Once s { p := x.p, rs := [sb] } false s1 v ex → s1.release v = .done s1 →
      exec (.haltg x) s = .next (s1.haltV v { cause := .haltg, mask := some v.act, addr := reg v x 0 }))

/-- R101, R259, R355, R397: a team as it is placed. Each of its gangs stands at HDR with all lanes of its width active, one
stack entry, the record's address in s0, its arguments in s1 to s4 and FRAME in s5; x0 reaches everything and x7 is the
scratchpad window; every other register, k, i, v and x too, and every counter is zero; the mode is the record's SYS. -/
def Sys2Proof.Claims.PlacedTeamsStartAtTheirHeader : Prop :=
  ∀ (s : State) (gr : Grid) (grid area gid : Nat) (r : Rec) (reca teamid : Word) (seats : List Seat) (core slot : Nat),
    (seatList seats)[gid]? = some (core, slot) → r.flen = 0 → gr.share = false →
    let s' := s.startTeam gr grid r reca teamid seats area
    let window := seats.flatMap Seat.arrays
    ∃ t g, tget s'.teams s.fresh = some t ∧ t.grid = grid ∧ t.teamid = teamid ∧ t.window = window ∧ t.area = area ∧
      t.st = .running ∧ t.gangs[gid]? = some (s.fresh + 1 + gid) ∧ tget s'.gangs (s.fresh + 1 + gid) = some g ∧
      g.gangid = gid ∧ g.core = core ∧ g.slot = slot ∧ g.thr.pc = r.hdr ∧ g.thr.atHdr = true ∧ g.sup = r.sys ∧
      g.stack.map Entry.mask = [fullMask gr.width] ∧ g.halted = false ∧ g.inPf = false ∧
      g.thr.regs.getS 0 = reca ∧ (∀ j, j < 4 → g.thr.regs.getS (1 + j) = (r.args[j]?).getD 0) ∧ g.thr.regs.getS 5 = r.frame ∧
      (∀ n, 5 < n → g.thr.regs.getS n = 0) ∧ (∀ n l, g.thr.regs.getV n l = 0) ∧ (∀ n, n ≠ 0 → g.thr.regs.getK n = 0) ∧
      (∀ n, g.thr.regs.getI n = 0) ∧ (∀ n, 1 ≤ n → n ≤ 5 → g.thr.regs.getX n = {}) ∧ (g.thr.regs.getX 6).kind = .none ∧
      g.thr.regs.fpflags = 0 ∧ g.thr.regs.bkconf = 0 ∧ g.thr.regs.modez = 0 ∧ g.thr.regs.polmis = 0 ∧ g.rprog = [] ∧
      g.thr.flights = [] ∧ g.thr.pend = [] ∧
      g.thr.regs.getX 0 = xAll ∧ (g.thr.regs.getX 7).kind = .spad ∧
      (g.thr.regs.getX 7).limit = BitVec.ofNat 64 (0x800000 + 0x200 * window.length)

/-- R392, R397, R398, R414, R418, R449, R454, R455: dispatch. The first record of a die's list that fits is placed, with a
swap area (where several places fit, which is a free choice of the model: assumption 66); with an empty list the queues of the
live grids are served in turn, from the one after the last served on. The next record of a launch is pushed where its queue has room.
A core that has issued nothing for 4096 cycles, while its die holds a record that finds no room, swaps out the blocked team
whose last issue is oldest. A team that leaves and has drained is saved, and goes back on a list, or is discarded. -/
def Sys2Proof.Claims.DispatchPlacesAndSwaps : Prop :=
  (∀ (s s1 s2 s3 : State) (die : Nat) (d : Die) (r : DieRec) (rest : List DieRec) (gr : Grid) (p : List Seat)
      (ps : List (List Seat)) (seats : List Seat) (a : Nat),
    tget s.dies die = some d → die < 8 → d.gated = false → d.gating = false → d.list = r :: rest → r.area = none →
    tget s.grids r.grid = some gr → s.places die gr r.grid r.record 0 = p :: ps → s.choose p (p :: ps) = (s1, seats) →
    s1.takeArea gr.ctx = .area s2 a → tget s2.dies die = some d →
    s3 = { s2 with dies := tput s2.dies die { d with list := rest } } →
    exec (.dispatchPlace die) s = .next (s3.startTeam gr r.grid r.record r.reca r.teamid seats a).timersOn) ∧
  (∀ (s s1 s2 s3 s4 : State) (die gid : Nat) (d : Die) (gr : Grid) (before after : List (Nat × Grid)) (q : QDesc)
      (qps ps : List Piece) (p : List Seat) (cs : List (List Seat)) (seats : List Seat) (a : Nat),
    let e : Env := { agent := s.coreAgent 0, ctx := gr.ctx, sup := true, grid := gid }
    let b := s2.readPieces ps 64
    let r := Rec.ofBytes b
    let y := s4.takeItem q qps
    let s5 : State := match y.2.2 with
      | some _ => y.1
      | none => { y.1 with grids := tmod y.1.grids gid fun g => { g with nextTeam := g.nextTeam + 1 } }
    let tid := y.2.2.getD gr.nextTeam
    let s6 := s5.startTeam gr gid r y.2.1 (BitVec.ofNat 64 tid) seats a
    tget s.dies die = some d → die < 8 → d.gated = false → d.gating = false → d.list = [] →
    before ++ (gid, gr) :: after =
      (s.grids.filter fun g => decide (d.rr < g.1)) ++ (s.grids.filter fun g => decide (g.1 ≤ d.rr)) →
    (∀ x ∈ before, s.serveQueue die x.1 x.2 = .idle ∨ s.serveQueue die x.1 x.2 = .stuck) →
    s.eQueue e gr.dq = (s1, .ok q qps) → q.kind = 1 → q.grid = gid → q.dmask.testBit die = true →
    gr.dmask.getLsbD die = true → q.items ≠ 0 → s1.eAddr e .read (q.slot q.head) 64 1 = (s2, .ok ps) →
    recReserved b = false → r.shapeOk gr.width gr.vallot = true → s2.places die gr gid r 0 = p :: cs →
    s2.choose p (p :: cs) = (s3, seats) → s3.takeArea gr.ctx = .area s4 a →
    exec (.dispatchPlace die) s = .next { s6 with dies := tput s6.dies die { (tget s6.dies die).getD {} with rr := gid } }) ∧
  (∀ (s s1 s2 s3 : State) (n : Nat) (g : Grid) (q : QDesc) (qps ps : List Piece),
    let e : Env := { agent := s.coreAgent 0, ctx := g.ctx, sup := true, grid := n }
    let va := g.recb + BitVec.ofNat 64 (64 * g.pushed)
    tget s.grids n = some g → g.pushed < g.teams → s.eQueue e g.dq = (s1, .ok q qps) → q.free ≠ 0 →
    s1.eAddr e .write va 64 1 = (s2, .ok ps) →
    (s2.writePieces ps (g.launchRec g.pushed).bytes).ePush e q qps (g.launchRec g.pushed).bytes (some (va, some g.pushed)) =
      (s3, .ok) →
    exec (.launchPush n) s = .next { s3 with grids := tmod s3.grids n fun g => { g with pushed := g.pushed + 1 } }) ∧
  (∀ (s : State) (core n : Nat) (t : Team), (s.core core).lastIssue + 4096 ≤ s.clk core →
    (n, t) ∈ s.teams → t.cores.contains core = true → (∀ x ∈ s.teams, x.2.cores.contains core = true → x.2.st = .running) →
    s.serve1 (core / 128) = .stuck → s.blockedTeam t = true →
    (∀ x ∈ s.teams, x.2.cores.contains core = true → s.blockedTeam x.2 = true → x = (n, t) ∨ t.lastIssue < x.2.lastIssue) →
    exec (.forwardProgressSwap core) s = .next (s.preempt n false)) ∧
  (∀ (s s1 : State) (n : Nat) (t t1 : Team), tget s.teams n = some t →
    (t.st = .discarding → s.drained t true = true → exec (.teamSaved n) s = .next (s.discardTeam n)) ∧
    (t.st = .swapping ∨ t.st = .halting → s1 = (s.endHaltedCopies t).teamCheck n → tget s1.teams n = some t1 →
      s1.barrierFull t1 = false → s1.drained t1 false = true → s1.lockedOver t1.area 0x800000 = false →
      (t1.st = .swapping → exec (.teamSaved n) s = .next ((s1.saveTeam n .swapped).requeue t1.die
        { grid := t1.grid, record := t1.restart, reca := t1.reca, teamid := t1.teamid, area := some t1.area, team := n } false)) ∧
      (t1.st = .halting → exec (.teamSaved n) s = .next { s1.saveTeam n .halted with
        notices := (s1.saveTeam n .halted).notices ++ [⟨t1.area, t1.haltRec.regs.cause⟩] })))

/-- Dispatch, and a team as it is placed.
It concludes that exec answers a next state for DISPATCH_PLACE, LAUNCH_PUSH, FORWARD_PROGRESS_SWAP, TEAM_SAVED. -/
def Obligations.DispatchAndPlacement : Prop :=
  Claims.PlacedTeamsStartAtTheirHeader ∧ Claims.DispatchPlacesAndSwaps

/-! ## The host, power and reset -/

namespace Sys2Proof.Claims

/-- A command that passes the checks of R467 and R468, has not begun already and has no command of its port before it (R469). -/
def Taken (s : State) (i : Instr) (c : HostCmd) (opc : Nat) (s' : State) : Prop :=
  s.cmdReady i c opc = .ok s' ∧ s.begun = none ∧ s.behindRod c = false

/-- The command completes, leaving the state `t`, with a reply. -/
def Replies (i : Instr) (c : HostCmd) (s t : State) (status : Nat) (reason : Nat) (data : List Byte) : Prop :=
  exec i s = .next (t.closeOp.answerTo c.ep (.command (cmdOpc c) status (cmdCid c) (BitVec.ofNat 64 reason) data))

/-- The 8-byte operand at an offset. -/
def operand (c : HostCmd) (off : Nat) : Nat := fieldN (cmdBody c) off 8

/-- The log takes one more measurement. -/
def measured (s : State) (comp svn : Nat) (bs : List Byte) : State :=
  { s with hkc := { s.hkc with
      m := sha512 (digestBytes s.hkc.m ++ digestBytes (sha512 bs)), mlog := s.hkc.mlog ++ [⟨comp, svn, sha512 bs⟩] } }

end Sys2Proof.Claims

/-- R467 to R469, R476, R541: the checks of a command, in the order the model chose (assumption 76). From an endpoint that is
listed, after start-up, with its header's reserved fields zero and LEN in the range of its code, a command is taken; another
endpoint is turned away with STATUS 3, and one command of no known code is answered 4. A command that arrives over ROD behind
one of its port that has still to complete waits for it, under a number of its own (assumptions 86, 112), shown for WINOPEN. -/
def Sys2Proof.Claims.CommandsAreChecked : Prop :=
  (∀ (s : State) (k : Nat) (i : Instr) (n : Option Nat) (c : HostCmd), cmdOpc c = 1 → c.rod ≠ none → rodOf i = c.rod →
    tget s.waiting k = some (i, n) → s.op = none →
    exec (.winopen c) s = .next { s with waiting := tput s.waiting s.fresh (.winopen c, none), fresh := s.fresh + 1 }) ∧
  ∀ (s : State) (i : Instr) (c : HostCmd) (opc : Nat), s.hosts ≠ [] → s.waiting = [] →
    (cmdOpc c = opc → c.ep ∈ s.hosts → s.hkc.started = true → cmdStatus c = 0 → cmdReserved c = 0 →
      (lenRange opc).1 ≤ cmdLen c → cmdLen c ≤ (lenRange opc).2 → Taken s i c opc s) ∧
    (c.ep ∉ s.hosts → cmdOpc c = 1 → Replies (.winopen c) c s s 3 0 []) ∧
    (c.ep ∈ s.hosts → s.hkc.started = true → 0x14 < cmdOpc c ∨ cmdOpc c = 0 → Replies (.unknownOpc c) c s s 4 0 []) ∧
    (∀ ep tag, exec (.unsupportedFeaturePacket ep tag) s =
      .next (({ s with hkc := { s.hkc with unsupported := s.hkc.unsupported + 1 } } : State).answerTo ep (.unsupported tag)))

/-- R470, R471: WINOPEN opens a free window of whole pages and answers its key; WINCLOSE closes it once no
operation on it is outstanding. An RMA operation of a
listed endpoint within an open window writes exactly its bytes of memory, or returns them; shown with memory at rest. -/
def Sys2Proof.Claims.WindowsAndRemoteMemory : Prop :=
  (∀ (c : HostCmd) (s s1 : State),
    let w := operand c 0
    w < 16 →
    (Taken s (.winopen c) c 1 s1 → operand c 8 % 4096 = 0 → operand c 8 < 2 ^ 52 → operand c 16 % 4096 = 0 →
      tget s1.windows w = none → Replies (.winopen c) c s
        { s1 with windows := tput s1.windows w { base := operand c 8, len := operand c 16 } } 0 0 (bytesOf 8 (0x100 + w))) ∧
    (Taken s (.winclose c) c 2 s1 → (∃ x, tget s1.windows w = some x) → s1.windowBusy w = false →
      Replies (.winclose c) c s { s1 with windows := tdel s1.windows w } 0 0 [])) ∧
  (∀ (s : State) (ep : BitVec 128) (w off n : Nat) (x : Win) (bs : List Byte), Quiet s → ep ∈ s.hosts → w < 16 →
    tget s.windows w = some x → s.op = none →
    let key : Word := BitVec.ofNat 64 (0x100 + w)
    (off + bs.length ≤ x.len → (∀ j, j < bs.length → s.noHome (x.base + off + j) = false) →
      exec (.rmaWrite ep key off bs) s =
        .next (({ s with mem := memWrite s.mem (x.base + off) bs } : State).answerTo ep (.rma []))) ∧
    (off + n ≤ x.len → (∀ j, j < n → s.noHome (x.base + off + j) = false) →
      exec (.rmaRead ep key off n) s = .next (s.answerTo ep (.rma (memRead s.mem (x.base + off) n)))))

/-- The checks of host commands, windows and remote memory.
It concludes that exec answers a next state for RMA_WRITE, RMA_READ, WINOPEN, WINCLOSE, UNSUPPORTED_FEATURE_PACKET,
UNKNOWN_OPC. -/
def Obligations.HostCommandsAndWindows : Prop :=
  Claims.CommandsAreChecked ∧ Claims.WindowsAndRemoteMemory

/-- R391 to R393, R449, R450, R470, R472: LAUNCH of a record that passes its checks numbers the grid, binds its queue and,
once every record is pushed, answers the number (assumption 81); GRIDEND of a grid without teams frees it. HALT halts each team it names (through
its gang of the lowest GANGID, assumption 77; one that is being pre-empted runs still) and
answers when their halt records are written; RESUME (assumption 78), KILL, STRD and STWR act on a halted team by its swap area; EVDRAIN takes the
records whose slots it can read (assumption 83).
It concludes that exec answers a next state for LAUNCH, HALT, RESUME, KILL, STRD, STWR, EVDRAIN, GRIDEND. -/
def Obligations.GridsAndHaltedTeams : Prop :=
  ∀ (c : HostCmd) (s s1 : State),
    let va : Word := BitVec.ofNat 64 (operand c 0)
    let area := operand c 0
    (∀ s2 s3 ps q qps n, Taken s (.launch c) c 3 s1 →
      let ctx : BitVec 12 := BitVec.ofNat 12 (operand c 8)
      let e : Env := { agent := s1.coreAgent 0, ctx := ctx, sup := true }
      let r := s2.readPieces ps 256
      let g := gridOfRecord va r ctx 0
      let t := ({ s3.putFieldW qps 42 2 n with
        grids := tput (s3.putFieldW qps 42 2 n).grids n { g with dqPa := paAt qps 0 } } : State).launchFill n g.teams
      operand c 8 < 4096 → s1.eAddr e .read va 256 256 = (s2, .ok ps) → launchReserved r = none → 1 ≤ g.teams →
      g.teams ≤ 2 ^ 24 → g.dmask ≠ 0 → 1 ≤ g.vallot → g.vallot ≤ 256 → s2.eQueue e g.dq = (s3, .ok q qps) → q.kind = 1 →
      g.evq = 0 → g.shape.shapeOk g.width g.vallot = true → fieldN r 80 2 = ctx.toNat → s3.liveGrid q.grid = none →
      s3.freeGrid = some n → (∃ g', tget t.grids n = some g' ∧ g'.teams ≤ g'.pushed) →
      Replies (.launch c) c s t 0 0 (bytesOf 8 n)) ∧
    (∀ g, Taken s (.gridend c) c 0x14 s1 → s1.liveGrid (operand c 0) = some g → s1.teams = [] → s1.dies = [] →
      g.teams ≤ g.pushed → s1.posts = [] → s1.lockedOver (g.dqPa + 42) 2 = false →
      let t := s1.devWrite (g.dqPa + 42) [0, 0]
      Replies (.gridend c) c s { t with grids := tdel t.grids (operand c 0) } 0 0 []) ∧
    (∀ n t u g, Taken s (.halt c) c 4 s1 → s1.named (cmdBody c) [.running, .swapping, .discarding] = [(n, t)] → s1.alive t = [(u, g)] →
      let h := s1.haltGang u .host g.thr.pc g.active 0
      h.named (cmdBody c) [.halting] ≠ [] → exec (.halt c) s = .next (h.openOp (.halt c) 0)) ∧
    (s.begun = some 0 → s.behindRod c = false → s.named (cmdBody c) [.halting] = [] → Replies (.halt c) c s s 0 0 []) ∧
    (∀ n t, area < 2 ^ 52 → s1.haltedAt area = some (n, t) →
      (Taken s (.resume c) c 5 s1 →
        let r : DieRec := { grid := t.grid, record := t.restart, reca := t.reca, teamid := t.teamid, area := some t.area, team := n }
        let back := s1.modTeam n fun t => { t with st := .swapped, haltRec := {} }
        Replies (.resume c) c s (back.requeue (t.haltRec.core / 128) r false).moveRecords 0 0 []) ∧
      (Taken s (.kill c) c 6 s1 → Replies (.kill c) c s ((s1.dropTeam n t).returnArea
        (((tget s1.grids t.grid).map Grid.ctx).getD 0) t.area) 0 0 []) ∧
      (Taken s (.strd c) c 7 s1 → operand c 8 < 0x800000 → operand c 16 ≤ 4096 → operand c 8 + operand c 16 ≤ 0x800000 →
        s1.readBusy (t.area + operand c 8) (operand c 16) = false →
        let t1 := s1.readOver (t.area + operand c 8) (operand c 16)
        Replies (.strd c) c s t1 0 0 (t1.peekBytes (t.area + operand c 8) (operand c 16))) ∧
      (Taken s (.stwr c) c 8 s1 → operand c 8 + ((cmdBody c).length - 16) ≤ 0x800000 →
        s1.lockedOver (t.area + operand c 8) ((cmdBody c).length - 16) = false →
        Replies (.stwr c) c s (s1.devWrite (t.area + operand c 8) ((cmdBody c).drop 16)) 0 0 [])) ∧
    (∀ s2 q qps, Taken s (.evdrain c) c 9 s1 →
      let e : Env := { agent := s1.coreAgent 0, ctx := BitVec.ofNat 12 (operand c 16), sup := true }
      operand c 8 ≤ 64 → operand c 16 < 4096 → s1.eQueue e va = (s2, .ok q qps) → q.kind = 3 →
      let r := s2.takeRecords e q (Nat.min (operand c 8) q.items) q.head
      let n := r.2.length
      Replies (.evdrain c) c s (((r.1.putFieldW qps 36 4 (q.items - n)).putFieldW qps 16 8 (q.head + n)).putFieldW qps 32 4
        (q.free + n)) 0 0 r.2.flatten)

/-- R150, R151, R467, R474, R476 to R482: the configuration commands are measured and take effect, DOMAIN by renumbering the
package's memory (assumption 85); L1PART sets a context's
ways and reads its counters; IDENTITY and ATTEST answer the public key, and a quote with its signature, whose nonce is the
model's free value (assumption 71) and whose SEQ counts the quotes before it (assumption 111); FWSTAGE and FWCOMMIT hold and install an image that passes its checks; LOGRD answers
the entries of the log that there are (assumption 83).
It concludes that exec answers a next state for SETDST, DOMAIN, L1PART_SET, L1PART_READ, ENDPOINTS, IDENTITY, ATTEST,
FWSTAGE, FWCOMMIT, LOGRD. -/
def Obligations.ConfigurationAndAttestation : Prop :=
  ∀ (c : HostCmd) (s s1 : State),
    let b := cmdBody c
    let x := operand c 0
    let now (comp svn : Nat) (bs : List Byte) : State := measured s1 comp svn bs
    let agent := 4096 * s1.pkg.toNat + x
    (s1.hkc.mlog.length < 256 →
      (Taken s (.setdst c) c 0x0B s1 → x % 64 = 0 → x < 2 ^ 52 → s1.grids = [] →
        Replies (.setdst c) c s { now 3 0 b with dst := x } 0 0 []) ∧
      (Taken s (.domain c) c 0x0C s1 → x < 32 → operand c 8 < 2 ^ 32 → s1.grids = [] →
        s1.lockedOver 0 (2 ^ 52) = false →
        Replies (.domain c) c s
          { (now 3 0 b).renumber (BitVec.ofNat 5 x) with members := BitVec.ofNat 32 (operand c 8) } 0 0 []) ∧
      (Taken s (.endpoints c) c 0x0E s1 → x ≤ 4 → b.length = 8 + 16 * x → Replies (.endpoints c) c s
        { now 3 0 b with hosts := (List.range x).map fun i => BitVec.ofNat 128 (fieldN b (8 + 16 * i) 16) } 0 0 []) ∧
      (Taken s (.fwcommit c) c 0x12 s1 → 256 ≤ x → x ≤ 2 ^ 26 →
        let img := (List.range x).map fun j => mget (0 : Byte) s1.hkc.stage j
        imageBad s1.hkc.fusedMin img = none →
        let t := now 4 (imageSvn img) img
        Replies (.fwcommit c) c s { t with hkc := { t.hkc with installed := some img } } 0 0 [])) ∧
    (x < 1024 → operand c 8 < 4096 →
      let l := s1.l1Of agent
      (Taken s (.l1partSet c) c 0x0D s1 → (c.words[6]?).getD 0 = 0 → operand c 16 = 0 → operand c 24 < 2 ^ 24 →
        Replies (.l1partSet c) c s (s1.setL1 agent { l with
          ways := mset 0xFFFFFF#24 l.ways (operand c 8) (BitVec.ofNat 24 (operand c 24)) }) 0 0 []) ∧
      (Taken s (.l1partRead c) c 0x0D s1 → (c.words[6]?).getD 0 = 1 → operand c 16 = 1 → operand c 24 = 0 →
        let n := s1.lineCounters agent (operand c 8)
        Replies (.l1partRead c) c s s1 0 0 (bytesOf 8 n.fills ++ bytesOf 8 n.xhits ++ bytesOf 8 n.wbchg ++ bytesOf 8 n.displ))) ∧
    (Taken s (.identity c) c 0x0F s1 → Replies (.identity c) c s s1 0 0 (pointBytes identityPoint)) ∧
    (Taken s (.attest c) c 0x10 s1 →
      let q := digestBytes s1.hkc.m ++ b ++ bytesOf 4 s1.hkc.mlog.length ++ bytesOf 1 s1.pkg.toNat ++ List.replicate 3 0#8 ++
        bytesOf 8 s1.hkc.quotes ++ List.replicate 56 0#8
      ∃ nonce, let sig := ecSign Config.identityKey nonce (sha512 q)
        Replies (.attest c) c s { s1.useFree with hkc := { s1.hkc with quotes := s1.hkc.quotes + 1 } } 0 0
          (q ++ beBytes 66 sig.1 ++ beBytes 66 sig.2)) ∧
    (Taken s (.fwstage c) c 0x11 s1 → x + (b.drop 8).length ≤ 2 ^ 26 → mapWf 0#8 s1.hkc.stage = true →
      ∃ t, Replies (.fwstage c) c s t 0 0 [] ∧ t = { s1 with hkc := { s1.hkc with stage := t.hkc.stage } } ∧
        (∀ j, j < (b.drop 8).length → mget (0 : Byte) t.hkc.stage (x + j) = ((b.drop 8)[j]?).getD 0) ∧
        (∀ k, k < x ∨ x + (b.drop 8).length ≤ k → mget (0 : Byte) t.hkc.stage k = mget 0 s1.hkc.stage k)) ∧
    (Taken s (.logrd c) c 0x13 s1 → x < 256 → 1 ≤ operand c 8 → operand c 8 ≤ 32 →
      Replies (.logrd c) c s s1 0 0 ((List.range (operand c 8)).flatMap fun j =>
        match s1.hkc.mlog[x + j]? with | some e => e.bytes (x + j) | none => []))

/-- R483 to R492: POWER sets the ceiling and the policy of the dies it selects, at once (assumption 84). An island enters NEAR under policy 3 and
leaves it under policy 2, by a transition of 2 µs, from whose end on it is in its new state and counts issues afresh (assumption
74). A droop lasts
until its end and its stretch is the model's free value (assumption 73); a sag takes a step of 25 MHz. A die to be gated
pre-empts its teams, discarding the idempotent ones and swapping the others, and is gated once it has none and nothing is under
way for its units.
It concludes that exec answers a next state for POWER, DIE_GATING, ISLAND_ENTER_NEAR, ISLAND_LEAVE_NEAR,
ISLAND_TRANSITION_DONE, DROOP, SAG, DROOP_END. -/
def Obligations.PowerAndClocks : Prop :=
  (∀ (c : HostCmd) (s s1 : State), Taken s (.power c) c 0x0A s1 → operand c 0 < 256 → operand c 24 = 0 →
    300 ≤ operand c 8 → operand c 8 ≤ 1100 → operand c 8 % 25 = 0 → operand c 16 ≤ 3 →
    ∃ t, Replies (.power c) c s t 0 0 [] ∧ t.mem = s1.mem ∧ t.gangs = s1.gangs ∧
      ∀ d, d < 8 → (t.dieOf d).ceiling = (if (operand c 0).testBit d then operand c 8 else (s1.dieOf d).ceiling) ∧
        (t.dieOf d).policy = (if (operand c 0).testBit d then operand c 16 else (s1.dieOf d).policy) ∧
        (t.dieOf d).gated = (s1.dieOf d).gated) ∧
  (∀ (s : State) (i : Nat), i < 512 → (s.island i).toward = none →
    let moving (t : State) (goal : IslandSt) : Prop :=
      (t.island i).toward = some goal ∧ (t.island i).until_ = s.ps + 2000000 ∧ (t.island i).st = (s.island i).st ∧ t.mem = s.mem
    ((s.island i).st = .nominal → (s.dieOf (i / 64)).policy = 3 → ∃ t, exec (.islandEnterNear i) s = .next t ∧ moving t .near) ∧
    ((s.island i).st = .near → (s.dieOf (i / 64)).policy = 2 →
      ∃ t, exec (.islandLeaveNear i) s = .next t ∧ moving t .nominal)) ∧
  (∀ (s : State) (i : Nat) (goal : IslandSt), (s.island i).toward = some goal → (s.island i).until_ ≤ s.ps →
    ∃ t, exec (.islandTransitionDone i) s = .next t ∧ (t.island i).st = goal ∧ (t.island i).toward = none ∧
      (t.island i).issued = 0 ∧ (t.island i).busyFrom = Nat.max (s.island i).since (s.island i).until_ ∧ t.mem = s.mem) ∧
  (∀ (s : State) (c : Nat), c < 128 →
    ((s.cluster c).droop = false → ∃ t, exec (.droop c) s = .next t ∧ (t.cluster c).droop = true ∧
      (t.cluster c).onset = s.clk (8 * c) ∧ (t.cluster c).sag = (s.cluster c).sag ∧ t.mem = s.mem) ∧
    ((s.cluster c).droop = true → ∃ t, exec (.droopEnd c) s = .next t ∧ (t.cluster c).droop = false ∧ t.mem = s.mem) ∧
    (∃ t, exec (.sag c false) s = .next t ∧ (t.cluster c).sag = (s.cluster c).sag + 1 ∧ t.mem = s.mem) ∧
    (∃ t, exec (.sag c true) s = .next t ∧ (t.cluster c).sag = (s.cluster c).sag - 1 ∧ t.mem = s.mem)) ∧
  (∀ (s : State) (d n : Nat) (tm : Team), (s.dieOf d).gating = true → tget s.teams n = some tm → tm.st = .running →
    tm.cores.any (fun c => c / 128 == d) = true → tm.shape.ganged = false →
    ∃ t, exec (.dieGating d) s = .next t ∧ tget t.teams n = some { tm with st := if tm.shape.idem then .discarding else .swapping } ∧
      (t.dieOf d).gating = true ∧ t.mem = s.mem) ∧
  (∀ (s : State) (d : Nat), d < 8 → (s.dieOf d).gating = true → s.teams = [] → s.dieBusy d = false →
    ∃ t, exec (.dieGating d) s = .next t ∧ (t.dieOf d).gated = true ∧ (t.dieOf d).gating = false ∧
      ∀ j, j < 64 → (t.island (64 * d + j)).st = .gated)

/-- R476, R482 and the model's choices for reset (assumptions 1, 2, 70): RESET leaves no gang, team, grid, registration or
window, keeps memory, never lowers the fused minimum, and starts up again: the stages of the image and the configuration are
measured, and start-up has ended where the log had room for all. -/
def Sys2Proof.Claims.ResetStartsTheMachineAgain : Prop :=
  ∀ (s : State), s.pkg = 0 →
    ∃ t, exec .reset s = .next t ∧ t.mem = s.mem ∧ t.poison = s.poison ∧ t.gangs = [] ∧ t.lanes = [] ∧ t.teams = [] ∧
      t.grids = [] ∧ t.registry = [] ∧ t.l1 = [] ∧ t.arrays = [] ∧ t.windows = [] ∧ t.hosts = [] ∧ t.net = [] ∧
      t.hkc.installed = none ∧ s.hkc.fusedMin ≤ t.hkc.fusedMin ∧
      (t.hkc.started = true → t.hkc.mlog.length = (Config.stages (t.hkc.image.getD Config.factory)).length + 1) ∧
      t.hkc.mlog.length ≤ 256

/-- The state after reset, and a later reset.
It concludes that exec answers a next state for RESET. -/
def Obligations.ResetAndStartUp : Prop :=
  Claims.ResetHoldsNothing ∧ Claims.ResetStartsTheMachineAgain

/-! ## Rules stated whole -/

/-- R271, with R270's reading of the operands: IDIV with B = 0 gives a quotient of n ones or the remainder A, the most
negative value by −1 gives itself or 0, and it never traps: the instruction retires with its result. -/
def Obligations.DivisionCorners : Prop :=
  ∀ (rem : Bool) (ty : ITy) (o : R3), ∃ f : List Word → Word × FFlags,
    (∀ (s s1 : State) (v : View) (ex : Mask),
      s.admits (aluUses o.p o.ixs o.d ty.wide [(o.a, rd ty.wide), (o.b, rd ty.wide)] false) = .ok (s1, v, ex) →
      exec (.idiv rem ty o) s = .next (s1.aluEnd v ex o.p o.ixs (if ty.wide then 72 else 40) o.d ty.wide ty.signed
        [(o.a, rd ty.wide), (o.b, rd ty.wide)] f)) ∧
    (∀ a b : Word, lo (bits ty) b = 0 →
      lo (bits ty) (f [a, b]).1 = (if rem then lo (bits ty) a else BitVec.allOnes (bits ty))) ∧
    (∀ a b : Word, ty.signed = true → lo (bits ty) a = BitVec.intMin (bits ty) → lo (bits ty) b = BitVec.allOnes (bits ty) →
      lo (bits ty) (f [a, b]).1 = (if rem then 0 else BitVec.intMin (bits ty)))

/-- R5: numbers in memory, in the bytes of a record and in the words of instructions are little-endian: the byte at the
lowest address holds bits 7 to 0, and each next byte the next eight. -/
def Obligations.BytesAreLittleEndian : Prop :=
  (∀ (m : List Host.Cell) (a n : Nat), memNat m a 0 = 0 ∧ memNat m a (n + 1) = (memByte m a).toNat + 256 * memNat m (a + 1) n) ∧
  (∀ (b : Byte) (bs : List Byte) (off n : Nat), fieldN bs off 0 = 0 ∧ fieldN (b :: bs) 0 (n + 1) = b.toNat + 256 * fieldN bs 0 n ∧
    fieldN (b :: bs) (off + 1) n = fieldN bs off n) ∧
  (∀ (n x : Nat), bytesOf 0 x = [] ∧ bytesOf (n + 1) x = BitVec.ofNat 8 x :: bytesOf n (x / 256)) ∧
  (∀ (s : State) (pa : Nat), s.registry = [] → s.homeWord pa = BitVec.ofNat 64 (memNat s.mem (pa / 8 * 8) 8))

end Statements
end

