-- ==== Sys2Proof/Laws/Maps.lean ====
section
/-!
SUPPORT. The laws of tables and maps: what is read after an update, and that every update keeps the canonical form.
-/
namespace Sys2Proof.Machine

section
variable {α : Type}

@[simp] theorem tget_nil (k : Nat) : tget ([] : List (Nat × α)) k = none := rfl

/-- A record put is the record read. -/
@[simp] theorem tget_tput_self (m : List (Nat × α)) (k : Nat) (x : α) : tget (tput m k x) k = some x := by
  induction m with
  | nil => simp [tput, tget]
  | cons e m ih =>
    obtain ⟨j, y⟩ := e
    by_cases h1 : k < j
    · simp [tput, tget, h1]
    · by_cases h2 : k = j
      · simp [tput, tget, h2]
      · simp [tput, tget, h1, h2, Ne.symm h2, ih]

/-- A put leaves every other record alone. -/
theorem tget_tput_ne (m : List (Nat × α)) {k j : Nat} (x : α) (h : j ≠ k) : tget (tput m k x) j = tget m j := by
  induction m with
  | nil => simp [tput, tget, Ne.symm h]
  | cons e m ih =>
    obtain ⟨i, y⟩ := e
    by_cases h1 : k < i
    · simp [tput, tget, h1, Ne.symm h]
    · by_cases h2 : k = i
      · subst h2; simp [tput, tget, Ne.symm h]
      · by_cases h3 : i = j
        · subst h3; simp [tput, tget, h1, h2]
        · simp [tput, tget, h1, h2, h3, ih]

/-- A removal leaves every other record alone. -/
theorem tget_tdel_ne (m : List (Nat × α)) {k j : Nat} (h : j ≠ k) : tget (tdel m k) j = tget m j := by
  induction m with
  | nil => rfl
  | cons e m ih =>
    obtain ⟨i, y⟩ := e
    by_cases h1 : i = k
    · subst h1; simp [tdel, tget, Ne.symm h]
    · by_cases h2 : i = j
      · subst h2; simp [tdel, tget, h1]
      · simp [tdel, tget, h1, h2, ih]

theorem risingFrom_mono {m : List (Nat × α)} {a b : Nat} (hab : a ≤ b) (h : risingFrom b m = true) :
    risingFrom a m = true := by
  cases m with
  | nil => rfl
  | cons e m =>
    obtain ⟨j, y⟩ := e
    simp only [risingFrom, Bool.and_eq_true, decide_eq_true_eq] at h ⊢
    exact ⟨Nat.le_trans hab h.1, h.2⟩

/-- Below the bound of a rising table there is no record. -/
theorem tget_of_lt {m : List (Nat × α)} {b k : Nat} (h : risingFrom b m = true) (hk : k < b) : tget m k = none := by
  induction m generalizing b with
  | nil => rfl
  | cons e m ih =>
    obtain ⟨j, y⟩ := e
    simp only [risingFrom, Bool.and_eq_true, decide_eq_true_eq] at h
    have : j ≠ k := by omega
    simp only [tget, this, if_false]
    exact ih h.2 (by omega)

/-- In a rising table a removed record is gone. -/
theorem tget_tdel_self {m : List (Nat × α)} {b : Nat} (h : risingFrom b m = true) (k : Nat) : tget (tdel m k) k = none := by
  induction m generalizing b with
  | nil => rfl
  | cons e m ih =>
    obtain ⟨j, y⟩ := e
    simp only [risingFrom, Bool.and_eq_true, decide_eq_true_eq] at h
    by_cases h1 : j = k
    · subst h1
      simp only [tdel, if_true]
      exact tget_of_lt h.2 (Nat.lt_succ_self _)
    · simp only [tdel, tget, h1, if_false]
      exact ih h.2

theorem risingFrom_tput {m : List (Nat × α)} {b : Nat} (h : risingFrom b m = true) {k : Nat} (hk : b ≤ k) (x : α) :
    risingFrom b (tput m k x) = true := by
  induction m generalizing b with
  | nil => simp [tput, risingFrom, hk]
  | cons e m ih =>
    obtain ⟨j, y⟩ := e
    simp only [risingFrom, Bool.and_eq_true, decide_eq_true_eq] at h
    by_cases h1 : k < j
    · simp only [tput, h1, if_true, risingFrom, Bool.and_eq_true, decide_eq_true_eq]
      exact ⟨hk, by omega, h.2⟩
    · by_cases h2 : k = j
      · subst h2
        simp only [tput, h1, if_false, if_true, risingFrom, Bool.and_eq_true, decide_eq_true_eq]
        exact ⟨hk, h.2⟩
      · simp only [tput, h1, h2, if_false, risingFrom, Bool.and_eq_true, decide_eq_true_eq]
        exact ⟨h.1, ih h.2 (by omega)⟩

theorem risingFrom_tdel {m : List (Nat × α)} {b : Nat} (h : risingFrom b m = true) (k : Nat) :
    risingFrom b (tdel m k) = true := by
  induction m generalizing b with
  | nil => rfl
  | cons e m ih =>
    obtain ⟨j, y⟩ := e
    simp only [risingFrom, Bool.and_eq_true, decide_eq_true_eq] at h
    by_cases h1 : j = k
    · simp only [tdel, h1, if_true]
      exact risingFrom_mono (by omega) h.2
    · simp only [tdel, h1, if_false, risingFrom, Bool.and_eq_true, decide_eq_true_eq]
      exact ⟨h.1, ih h.2⟩

theorem risingFrom_filter {m : List (Nat × α)} {b : Nat} (p : Nat × α → Bool) (h : risingFrom b m = true) :
    risingFrom b (m.filter p) = true := by
  induction m generalizing b with
  | nil => rfl
  | cons e m ih =>
    obtain ⟨j, y⟩ := e
    simp only [risingFrom, Bool.and_eq_true, decide_eq_true_eq] at h
    simp only [List.filter_cons]
    split
    · simp only [risingFrom, Bool.and_eq_true, decide_eq_true_eq]
      exact ⟨h.1, ih h.2⟩
    · exact risingFrom_mono (by omega) (ih h.2)

theorem all_tput {p : Nat × α → Bool} {m : List (Nat × α)} (h : m.all p = true) {k : Nat} {x : α} (hx : p (k, x) = true) :
    (tput m k x).all p = true := by
  induction m with
  | nil => simp [tput, hx]
  | cons e m ih =>
    obtain ⟨j, y⟩ := e
    simp only [List.all_cons, Bool.and_eq_true] at h
    simp only [tput]
    split
    · simp [hx, h.1, h.2]
    · split
      · simp [hx, h.2]
      · simp [h.1, ih h.2]

theorem all_tdel {p : Nat × α → Bool} {m : List (Nat × α)} (h : m.all p = true) (k : Nat) : (tdel m k).all p = true := by
  induction m with
  | nil => rfl
  | cons e m ih =>
    obtain ⟨j, y⟩ := e
    simp only [List.all_cons, Bool.and_eq_true] at h
    simp only [tdel]
    split
    · exact h.2
    · simp [h.1, ih h.2]

/-- Reading a changed record. -/
theorem tget_tmod_self (m : List (Nat × α)) (k : Nat) (f : α → α) : tget (tmod m k f) k = (tget m k).map f := by
  unfold tmod
  split <;> simp [*]

/-- A change leaves every other record alone. -/
theorem tget_tmod_ne (m : List (Nat × α)) {k j : Nat} (f : α → α) (h : j ≠ k) : tget (tmod m k f) j = tget m j := by
  unfold tmod
  split
  · rfl
  · exact tget_tput_ne _ _ h

theorem tget_tmod (m : List (Nat × α)) (k j : Nat) (f : α → α) :
    tget (tmod m k f) j = if j = k then (tget m j).map f else tget m j := by
  split
  · subst j; exact tget_tmod_self m k f
  · exact tget_tmod_ne m f ‹_›

theorem tget_tput (m : List (Nat × α)) (k j : Nat) (x : α) : tget (tput m k x) j = if j = k then some x else tget m j := by
  split
  · subst j; exact tget_tput_self m k x
  · exact tget_tput_ne m x ‹_›

end

section
variable {α : Type} [DecidableEq α]

@[simp] theorem mapWf_nil (d : α) : mapWf d ([] : Map α) = true := rfl

theorem mapWf_rising {d : α} {m : Map α} (h : mapWf d m = true) : risingFrom 0 m = true := by
  simp only [mapWf, Bool.and_eq_true] at h; exact h.1

/-- Writing a key keeps the canonical form. -/
theorem mapWf_mset {d : α} {m : Map α} (h : mapWf d m = true) (k : Nat) (x : α) : mapWf d (mset d m k x) = true := by
  simp only [mapWf, Bool.and_eq_true] at h ⊢
  unfold mset
  split
  · exact ⟨risingFrom_tdel h.1 k, all_tdel h.2 k⟩
  · exact ⟨risingFrom_tput h.1 (Nat.zero_le k) x, all_tput h.2 (by simpa using ‹_›)⟩

/-- Leaving out entries keeps the canonical form. -/
theorem mapWf_filter {d : α} {m : Map α} (p : Nat × α → Bool) (h : mapWf d m = true) : mapWf d (m.filter p) = true := by
  simp only [mapWf, Bool.and_eq_true] at h ⊢
  refine ⟨risingFrom_filter p h.1, ?_⟩
  rw [List.all_eq_true] at h ⊢
  exact fun e he => h.2 e (List.mem_filter.mp he).1

omit [DecidableEq α] in
@[simp] theorem mget_nil (d : α) (k : Nat) : mget d ([] : Map α) k = d := rfl

/-- A key written reads as written. -/
theorem mget_mset_self {d : α} {m : Map α} (h : mapWf d m = true) (k : Nat) (x : α) : mget d (mset d m k x) k = x := by
  unfold mset mget
  split
  · rw [tget_tdel_self (mapWf_rising h)]; simp [*]
  · simp

/-- A write leaves every other key alone. -/
theorem mget_mset_ne (d : α) (m : Map α) {k j : Nat} (x : α) (h : j ≠ k) : mget d (mset d m k x) j = mget d m j := by
  unfold mset mget
  split
  · rw [tget_tdel_ne m h]
  · rw [tget_tput_ne m x h]

theorem mget_mset {d : α} {m : Map α} (h : mapWf d m = true) (k j : Nat) (x : α) :
    mget d (mset d m k x) j = if j = k then x else mget d m j := by
  split
  · subst j; exact mget_mset_self h k x
  · exact mget_mset_ne d m x ‹_›

end

@[simp] theorem mem_upto (n k : Nat) : k ∈ upto n ↔ k < n := by
  induction n with
  | zero => simp [upto]
  | succ n ih => simp only [upto, List.mem_append, ih, List.mem_singleton]; omega

end Sys2Proof.Machine
end

