-- ==== Sys2Proof/Laws/Memory.lean ====
section
/-!
SUPPORT. The laws of memory: what a byte reads as after a write, that every operation on memory keeps its canonical form
(so that equal memories are equal data), and that bytes and values agree.
-/
namespace Sys2Proof.Machine

/-! ## One byte -/

@[simp] theorem memByte_nil (a : Nat) : memByte [] a = unwritten := rfl

/-- A byte written reads as written. -/
theorem memByte_memSetByte_self {m : List Host.Cell} (h : memWf m = true) (a : Nat) (b : Byte) :
    memByte (memSetByte m a b) a = b := mget_mset_self h a b

/-- A byte write leaves every other byte alone. -/
theorem memByte_memSetByte_ne (m : List Host.Cell) {a c : Nat} (b : Byte) (h : c ≠ a) :
    memByte (memSetByte m a b) c = memByte m c := mget_mset_ne _ m b h

/-! ## The canonical form -/

/-- A byte write keeps the canonical form. -/
theorem memWf_memSetByte {m : List Host.Cell} (h : memWf m = true) (a : Nat) (b : Byte) :
    memWf (memSetByte m a b) = true := mapWf_mset h a b

/-- A write of bytes keeps the canonical form. -/
theorem memWf_memWrite {m : List Host.Cell} (h : memWf m = true) (a : Nat) (bs : List Byte) :
    memWf (memWrite m a bs) = true := by
  induction bs generalizing m a with
  | nil => exact h
  | cons b bs ih => exact ih (memWf_memSetByte h a b) (a + 1)

/-- A write of a value keeps the canonical form. -/
theorem memWf_memSetNat {m : List Host.Cell} (h : memWf m = true) (a n x : Nat) :
    memWf (memSetNat m a n x) = true := memWf_memWrite h a _

/-- Leaving out bytes keeps the canonical form. -/
theorem memWf_filter {m : List Host.Cell} (p : Host.Cell → Bool) (h : memWf m = true) :
    memWf (m.filter p) = true := mapWf_filter p h

/-- Whatever is written byte by byte, the canonical form is kept. -/
theorem memWf_foldl {α : Type} {m : List Host.Cell} (h : memWf m = true) (xs : List α) (at_ : α → Nat) (b : α → Byte) :
    memWf (xs.foldl (fun m x => memSetByte m (at_ x) (b x)) m) = true := by
  induction xs generalizing m with
  | nil => exact h
  | cons x xs ih => exact ih (memWf_memSetByte h _ _)

/-- A word written at its home keeps the canonical form. -/
theorem memWf_setMemWord {s : State} (h : memWf s.mem = true) (w : Nat) (x : Word) (p : Bool) :
    memWf (setMemWord s w x p).mem = true := memWf_memSetNat h _ _ _

/-- An element of a partial, applied at its home, keeps the canonical form. -/
theorem memWf_applyElem {s : State} (h : memWf s.mem = true) (p : Partial) (e : Nat × Word) :
    memWf (applyElem p s e).mem = true := by
  have hl (gs : List Nat) (k : Nat → Post) (t : State) :
      (gs.foldl (init := t) fun s g => { s with posts := s.posts ++ [k g] }).mem = t.mem := by
    induction gs generalizing t with
    | nil => rfl
    | cons g gs ih => exact ih _
  unfold applyElem
  (repeat' split) <;> first | exact h | exact memWf_memSetNat h _ _ _ | (rw [hl]; exact h)

/-- A write of a swap area keeps the canonical form. -/
theorem memWf_areaWrite {s : State} (h : memWf s.mem = true) (pa : Nat) (bs : List Byte) :
    memWf (s.areaWrite pa bs).mem = true := memWf_memWrite h _ _

/-! ## Runs of bytes -/

/-- A write of bytes leaves every byte outside them alone. -/
theorem memByte_memWrite_out (m : List Host.Cell) (a : Nat) (bs : List Byte) {c : Nat} (h : c < a ∨ a + bs.length ≤ c) :
    memByte (memWrite m a bs) c = memByte m c := by
  induction bs generalizing m a with
  | nil => rfl
  | cons b bs ih =>
    simp only [List.length_cons] at h
    rw [memWrite, ih _ _ (by omega), memByte_memSetByte_ne _ _ (by omega)]

@[simp] theorem bytesOf_length (n x : Nat) : (bytesOf n x).length = n := by
  induction n generalizing x with
  | zero => rfl
  | succ n ih => simp [bytesOf, ih]

@[simp] theorem memRead_length (m : List Host.Cell) (a n : Nat) : (memRead m a n).length = n := by
  induction n generalizing a with
  | zero => rfl
  | succ n ih => simp [memRead, ih]

/-- The bytes of a value give the value mod the width. -/
theorem valOf_bytesOf (n x : Nat) : valOf (bytesOf n x) = x % 2 ^ (8 * n) := by
  induction n generalizing x with
  | zero => simp [bytesOf, valOf, Nat.mod_one]
  | succ n ih =>
    simp only [bytesOf, valOf, ih, BitVec.toNat_ofNat]
    have : (2 : Nat) ^ (8 * (n + 1)) = 256 * 2 ^ (8 * n) := by
      rw [Nat.mul_add, Nat.pow_add, Nat.mul_comm]
    rw [this, Nat.mod_mul]

/-- A value of bytes is below its width. -/
theorem valOf_lt (bs : List Byte) : valOf bs < 2 ^ (8 * bs.length) := by
  induction bs with
  | nil => simp [valOf]
  | cons b bs ih =>
    have : (2 : Nat) ^ (8 * (bs.length + 1)) = 256 * 2 ^ (8 * bs.length) := by
      rw [Nat.mul_add, Nat.pow_add, Nat.mul_comm]
    have := b.isLt
    simp only [valOf, List.length_cons]
    omega

end Sys2Proof.Machine
end

