-- ==== Sys2Proof/Laws/State.lean ====
section
/-!
SUPPORT. What the named operations on the state leave as it was: one lemma for each field an operation does not touch, so
that no later proof unfolds a record update; and what those that change a thread, a gang or a team leave there.
-/
namespace Sys2Proof.Machine

variable (s : State)

/-! ## State.bump -/

@[simp] theorem State.bump_mem : (s.bump).mem = s.mem := rfl
@[simp] theorem State.bump_poison : (s.bump).poison = s.poison := rfl
@[simp] theorem State.bump_registry : (s.bump).registry = s.registry := rfl
@[simp] theorem State.bump_home : (s.bump).home = s.home := rfl
@[simp] theorem State.bump_partials : (s.bump).partials = s.partials := rfl
@[simp] theorem State.bump_net : (s.bump).net = s.net := rfl
@[simp] theorem State.bump_l1 : (s.bump).l1 = s.l1 := rfl
@[simp] theorem State.bump_front : (s.bump).front = s.front := rfl
@[simp] theorem State.bump_dst : (s.bump).dst = s.dst := rfl
@[simp] theorem State.bump_pkg : (s.bump).pkg = s.pkg := rfl
@[simp] theorem State.bump_members : (s.bump).members = s.members := rfl
@[simp] theorem State.bump_down : (s.bump).down = s.down := rfl
@[simp] theorem State.bump_ps : (s.bump).ps = s.ps := rfl
@[simp] theorem State.bump_gangs : (s.bump).gangs = s.gangs := rfl
@[simp] theorem State.bump_lanes : (s.bump).lanes = s.lanes := rfl
@[simp] theorem State.bump_teams : (s.bump).teams = s.teams := rfl
@[simp] theorem State.bump_grids : (s.bump).grids = s.grids := rfl
@[simp] theorem State.bump_cores : (s.bump).cores = s.cores := rfl
@[simp] theorem State.bump_arrays : (s.bump).arrays = s.arrays := rfl
@[simp] theorem State.bump_dies : (s.bump).dies = s.dies := rfl
@[simp] theorem State.bump_clusters : (s.bump).clusters = s.clusters := rfl
@[simp] theorem State.bump_islands : (s.bump).islands = s.islands := rfl
@[simp] theorem State.bump_units : (s.bump).units = s.units := rfl
@[simp] theorem State.bump_slcs : (s.bump).slcs = s.slcs := rfl
@[simp] theorem State.bump_sides : (s.bump).sides = s.sides := rfl
@[simp] theorem State.bump_retries : (s.bump).retries = s.retries := rfl
@[simp] theorem State.bump_groups : (s.bump).groups = s.groups := rfl
@[simp] theorem State.bump_hosts : (s.bump).hosts = s.hosts := rfl
@[simp] theorem State.bump_windows : (s.bump).windows = s.windows := rfl
@[simp] theorem State.bump_posts : (s.bump).posts = s.posts := rfl
@[simp] theorem State.bump_areas : (s.bump).areas = s.areas := rfl
@[simp] theorem State.bump_replies : (s.bump).replies = s.replies := rfl
@[simp] theorem State.bump_notices : (s.bump).notices = s.notices := rfl
@[simp] theorem State.bump_waiting : (s.bump).waiting = s.waiting := rfl
@[simp] theorem State.bump_op : (s.bump).op = s.op := rfl
@[simp] theorem State.bump_hkc : (s.bump).hkc = s.hkc := rfl
@[simp] theorem State.bump_cur : (s.bump).cur = s.cur := rfl
@[simp] theorem State.bump_inputs : (s.bump).inputs = s.inputs := rfl
@[simp] theorem State.bump_free : (s.bump).free = s.free := rfl
@[simp] theorem State.bump_unread : (s.bump).unread = s.unread := rfl

/-! ## State.useFree -/

@[simp] theorem State.useFree_mem : (s.useFree).mem = s.mem := rfl
@[simp] theorem State.useFree_poison : (s.useFree).poison = s.poison := rfl
@[simp] theorem State.useFree_registry : (s.useFree).registry = s.registry := rfl
@[simp] theorem State.useFree_home : (s.useFree).home = s.home := rfl
@[simp] theorem State.useFree_partials : (s.useFree).partials = s.partials := rfl
@[simp] theorem State.useFree_net : (s.useFree).net = s.net := rfl
@[simp] theorem State.useFree_l1 : (s.useFree).l1 = s.l1 := rfl
@[simp] theorem State.useFree_front : (s.useFree).front = s.front := rfl
@[simp] theorem State.useFree_dst : (s.useFree).dst = s.dst := rfl
@[simp] theorem State.useFree_pkg : (s.useFree).pkg = s.pkg := rfl
@[simp] theorem State.useFree_members : (s.useFree).members = s.members := rfl
@[simp] theorem State.useFree_down : (s.useFree).down = s.down := rfl
@[simp] theorem State.useFree_ps : (s.useFree).ps = s.ps := rfl
@[simp] theorem State.useFree_gangs : (s.useFree).gangs = s.gangs := rfl
@[simp] theorem State.useFree_lanes : (s.useFree).lanes = s.lanes := rfl
@[simp] theorem State.useFree_teams : (s.useFree).teams = s.teams := rfl
@[simp] theorem State.useFree_grids : (s.useFree).grids = s.grids := rfl
@[simp] theorem State.useFree_cores : (s.useFree).cores = s.cores := rfl
@[simp] theorem State.useFree_arrays : (s.useFree).arrays = s.arrays := rfl
@[simp] theorem State.useFree_dies : (s.useFree).dies = s.dies := rfl
@[simp] theorem State.useFree_clusters : (s.useFree).clusters = s.clusters := rfl
@[simp] theorem State.useFree_islands : (s.useFree).islands = s.islands := rfl
@[simp] theorem State.useFree_units : (s.useFree).units = s.units := rfl
@[simp] theorem State.useFree_slcs : (s.useFree).slcs = s.slcs := rfl
@[simp] theorem State.useFree_sides : (s.useFree).sides = s.sides := rfl
@[simp] theorem State.useFree_retries : (s.useFree).retries = s.retries := rfl
@[simp] theorem State.useFree_groups : (s.useFree).groups = s.groups := rfl
@[simp] theorem State.useFree_hosts : (s.useFree).hosts = s.hosts := rfl
@[simp] theorem State.useFree_windows : (s.useFree).windows = s.windows := rfl
@[simp] theorem State.useFree_posts : (s.useFree).posts = s.posts := rfl
@[simp] theorem State.useFree_areas : (s.useFree).areas = s.areas := rfl
@[simp] theorem State.useFree_replies : (s.useFree).replies = s.replies := rfl
@[simp] theorem State.useFree_notices : (s.useFree).notices = s.notices := rfl
@[simp] theorem State.useFree_waiting : (s.useFree).waiting = s.waiting := rfl
@[simp] theorem State.useFree_op : (s.useFree).op = s.op := rfl
@[simp] theorem State.useFree_hkc : (s.useFree).hkc = s.hkc := rfl
@[simp] theorem State.useFree_cur : (s.useFree).cur = s.cur := rfl
@[simp] theorem State.useFree_inputs : (s.useFree).inputs = s.inputs := rfl
@[simp] theorem State.useFree_fresh : (s.useFree).fresh = s.fresh := rfl
@[simp] theorem State.useFree_unread : (s.useFree).unread = s.unread := rfl

/-! ## State.modGang -/

@[simp] theorem State.modGang_mem (u : Nat) (f : Gang → Gang) : (s.modGang u f).mem = s.mem := rfl
@[simp] theorem State.modGang_poison (u : Nat) (f : Gang → Gang) : (s.modGang u f).poison = s.poison := rfl
@[simp] theorem State.modGang_registry (u : Nat) (f : Gang → Gang) : (s.modGang u f).registry = s.registry := rfl
@[simp] theorem State.modGang_home (u : Nat) (f : Gang → Gang) : (s.modGang u f).home = s.home := rfl
@[simp] theorem State.modGang_partials (u : Nat) (f : Gang → Gang) : (s.modGang u f).partials = s.partials := rfl
@[simp] theorem State.modGang_net (u : Nat) (f : Gang → Gang) : (s.modGang u f).net = s.net := rfl
@[simp] theorem State.modGang_l1 (u : Nat) (f : Gang → Gang) : (s.modGang u f).l1 = s.l1 := rfl
@[simp] theorem State.modGang_front (u : Nat) (f : Gang → Gang) : (s.modGang u f).front = s.front := rfl
@[simp] theorem State.modGang_dst (u : Nat) (f : Gang → Gang) : (s.modGang u f).dst = s.dst := rfl
@[simp] theorem State.modGang_pkg (u : Nat) (f : Gang → Gang) : (s.modGang u f).pkg = s.pkg := rfl
@[simp] theorem State.modGang_members (u : Nat) (f : Gang → Gang) : (s.modGang u f).members = s.members := rfl
@[simp] theorem State.modGang_down (u : Nat) (f : Gang → Gang) : (s.modGang u f).down = s.down := rfl
@[simp] theorem State.modGang_ps (u : Nat) (f : Gang → Gang) : (s.modGang u f).ps = s.ps := rfl
@[simp] theorem State.modGang_lanes (u : Nat) (f : Gang → Gang) : (s.modGang u f).lanes = s.lanes := rfl
@[simp] theorem State.modGang_teams (u : Nat) (f : Gang → Gang) : (s.modGang u f).teams = s.teams := rfl
@[simp] theorem State.modGang_grids (u : Nat) (f : Gang → Gang) : (s.modGang u f).grids = s.grids := rfl
@[simp] theorem State.modGang_cores (u : Nat) (f : Gang → Gang) : (s.modGang u f).cores = s.cores := rfl
@[simp] theorem State.modGang_arrays (u : Nat) (f : Gang → Gang) : (s.modGang u f).arrays = s.arrays := rfl
@[simp] theorem State.modGang_dies (u : Nat) (f : Gang → Gang) : (s.modGang u f).dies = s.dies := rfl
@[simp] theorem State.modGang_clusters (u : Nat) (f : Gang → Gang) : (s.modGang u f).clusters = s.clusters := rfl
@[simp] theorem State.modGang_islands (u : Nat) (f : Gang → Gang) : (s.modGang u f).islands = s.islands := rfl
@[simp] theorem State.modGang_units (u : Nat) (f : Gang → Gang) : (s.modGang u f).units = s.units := rfl
@[simp] theorem State.modGang_slcs (u : Nat) (f : Gang → Gang) : (s.modGang u f).slcs = s.slcs := rfl
@[simp] theorem State.modGang_sides (u : Nat) (f : Gang → Gang) : (s.modGang u f).sides = s.sides := rfl
@[simp] theorem State.modGang_retries (u : Nat) (f : Gang → Gang) : (s.modGang u f).retries = s.retries := rfl
@[simp] theorem State.modGang_groups (u : Nat) (f : Gang → Gang) : (s.modGang u f).groups = s.groups := rfl
@[simp] theorem State.modGang_hosts (u : Nat) (f : Gang → Gang) : (s.modGang u f).hosts = s.hosts := rfl
@[simp] theorem State.modGang_windows (u : Nat) (f : Gang → Gang) : (s.modGang u f).windows = s.windows := rfl
@[simp] theorem State.modGang_posts (u : Nat) (f : Gang → Gang) : (s.modGang u f).posts = s.posts := rfl
@[simp] theorem State.modGang_areas (u : Nat) (f : Gang → Gang) : (s.modGang u f).areas = s.areas := rfl
@[simp] theorem State.modGang_replies (u : Nat) (f : Gang → Gang) : (s.modGang u f).replies = s.replies := rfl
@[simp] theorem State.modGang_notices (u : Nat) (f : Gang → Gang) : (s.modGang u f).notices = s.notices := rfl
@[simp] theorem State.modGang_waiting (u : Nat) (f : Gang → Gang) : (s.modGang u f).waiting = s.waiting := rfl
@[simp] theorem State.modGang_op (u : Nat) (f : Gang → Gang) : (s.modGang u f).op = s.op := rfl
@[simp] theorem State.modGang_hkc (u : Nat) (f : Gang → Gang) : (s.modGang u f).hkc = s.hkc := rfl
@[simp] theorem State.modGang_cur (u : Nat) (f : Gang → Gang) : (s.modGang u f).cur = s.cur := rfl
@[simp] theorem State.modGang_inputs (u : Nat) (f : Gang → Gang) : (s.modGang u f).inputs = s.inputs := rfl
@[simp] theorem State.modGang_fresh (u : Nat) (f : Gang → Gang) : (s.modGang u f).fresh = s.fresh := rfl
@[simp] theorem State.modGang_free (u : Nat) (f : Gang → Gang) : (s.modGang u f).free = s.free := rfl
@[simp] theorem State.modGang_unread (u : Nat) (f : Gang → Gang) : (s.modGang u f).unread = s.unread := rfl

/-! ## State.modTeam -/

@[simp] theorem State.modTeam_mem (n : Nat) (f : Team → Team) : (s.modTeam n f).mem = s.mem := rfl
@[simp] theorem State.modTeam_poison (n : Nat) (f : Team → Team) : (s.modTeam n f).poison = s.poison := rfl
@[simp] theorem State.modTeam_registry (n : Nat) (f : Team → Team) : (s.modTeam n f).registry = s.registry := rfl
@[simp] theorem State.modTeam_home (n : Nat) (f : Team → Team) : (s.modTeam n f).home = s.home := rfl
@[simp] theorem State.modTeam_partials (n : Nat) (f : Team → Team) : (s.modTeam n f).partials = s.partials := rfl
@[simp] theorem State.modTeam_net (n : Nat) (f : Team → Team) : (s.modTeam n f).net = s.net := rfl
@[simp] theorem State.modTeam_l1 (n : Nat) (f : Team → Team) : (s.modTeam n f).l1 = s.l1 := rfl
@[simp] theorem State.modTeam_front (n : Nat) (f : Team → Team) : (s.modTeam n f).front = s.front := rfl
@[simp] theorem State.modTeam_dst (n : Nat) (f : Team → Team) : (s.modTeam n f).dst = s.dst := rfl
@[simp] theorem State.modTeam_pkg (n : Nat) (f : Team → Team) : (s.modTeam n f).pkg = s.pkg := rfl
@[simp] theorem State.modTeam_members (n : Nat) (f : Team → Team) : (s.modTeam n f).members = s.members := rfl
@[simp] theorem State.modTeam_down (n : Nat) (f : Team → Team) : (s.modTeam n f).down = s.down := rfl
@[simp] theorem State.modTeam_ps (n : Nat) (f : Team → Team) : (s.modTeam n f).ps = s.ps := rfl
@[simp] theorem State.modTeam_gangs (n : Nat) (f : Team → Team) : (s.modTeam n f).gangs = s.gangs := rfl
@[simp] theorem State.modTeam_lanes (n : Nat) (f : Team → Team) : (s.modTeam n f).lanes = s.lanes := rfl
@[simp] theorem State.modTeam_grids (n : Nat) (f : Team → Team) : (s.modTeam n f).grids = s.grids := rfl
@[simp] theorem State.modTeam_cores (n : Nat) (f : Team → Team) : (s.modTeam n f).cores = s.cores := rfl
@[simp] theorem State.modTeam_arrays (n : Nat) (f : Team → Team) : (s.modTeam n f).arrays = s.arrays := rfl
@[simp] theorem State.modTeam_dies (n : Nat) (f : Team → Team) : (s.modTeam n f).dies = s.dies := rfl
@[simp] theorem State.modTeam_clusters (n : Nat) (f : Team → Team) : (s.modTeam n f).clusters = s.clusters := rfl
@[simp] theorem State.modTeam_islands (n : Nat) (f : Team → Team) : (s.modTeam n f).islands = s.islands := rfl
@[simp] theorem State.modTeam_units (n : Nat) (f : Team → Team) : (s.modTeam n f).units = s.units := rfl
@[simp] theorem State.modTeam_slcs (n : Nat) (f : Team → Team) : (s.modTeam n f).slcs = s.slcs := rfl
@[simp] theorem State.modTeam_sides (n : Nat) (f : Team → Team) : (s.modTeam n f).sides = s.sides := rfl
@[simp] theorem State.modTeam_retries (n : Nat) (f : Team → Team) : (s.modTeam n f).retries = s.retries := rfl
@[simp] theorem State.modTeam_groups (n : Nat) (f : Team → Team) : (s.modTeam n f).groups = s.groups := rfl
@[simp] theorem State.modTeam_hosts (n : Nat) (f : Team → Team) : (s.modTeam n f).hosts = s.hosts := rfl
@[simp] theorem State.modTeam_windows (n : Nat) (f : Team → Team) : (s.modTeam n f).windows = s.windows := rfl
@[simp] theorem State.modTeam_posts (n : Nat) (f : Team → Team) : (s.modTeam n f).posts = s.posts := rfl
@[simp] theorem State.modTeam_areas (n : Nat) (f : Team → Team) : (s.modTeam n f).areas = s.areas := rfl
@[simp] theorem State.modTeam_replies (n : Nat) (f : Team → Team) : (s.modTeam n f).replies = s.replies := rfl
@[simp] theorem State.modTeam_notices (n : Nat) (f : Team → Team) : (s.modTeam n f).notices = s.notices := rfl
@[simp] theorem State.modTeam_waiting (n : Nat) (f : Team → Team) : (s.modTeam n f).waiting = s.waiting := rfl
@[simp] theorem State.modTeam_op (n : Nat) (f : Team → Team) : (s.modTeam n f).op = s.op := rfl
@[simp] theorem State.modTeam_hkc (n : Nat) (f : Team → Team) : (s.modTeam n f).hkc = s.hkc := rfl
@[simp] theorem State.modTeam_cur (n : Nat) (f : Team → Team) : (s.modTeam n f).cur = s.cur := rfl
@[simp] theorem State.modTeam_inputs (n : Nat) (f : Team → Team) : (s.modTeam n f).inputs = s.inputs := rfl
@[simp] theorem State.modTeam_fresh (n : Nat) (f : Team → Team) : (s.modTeam n f).fresh = s.fresh := rfl
@[simp] theorem State.modTeam_free (n : Nat) (f : Team → Team) : (s.modTeam n f).free = s.free := rfl
@[simp] theorem State.modTeam_unread (n : Nat) (f : Team → Team) : (s.modTeam n f).unread = s.unread := rfl

/-! ## State.setThr -/

@[simp] theorem State.setThr_mem (a : Actor) (t : Thr) : (s.setThr a t).mem = s.mem := by cases a <;> rfl
@[simp] theorem State.setThr_poison (a : Actor) (t : Thr) : (s.setThr a t).poison = s.poison := by cases a <;> rfl
@[simp] theorem State.setThr_registry (a : Actor) (t : Thr) : (s.setThr a t).registry = s.registry := by cases a <;> rfl
@[simp] theorem State.setThr_home (a : Actor) (t : Thr) : (s.setThr a t).home = s.home := by cases a <;> rfl
@[simp] theorem State.setThr_partials (a : Actor) (t : Thr) : (s.setThr a t).partials = s.partials := by cases a <;> rfl
@[simp] theorem State.setThr_net (a : Actor) (t : Thr) : (s.setThr a t).net = s.net := by cases a <;> rfl
@[simp] theorem State.setThr_l1 (a : Actor) (t : Thr) : (s.setThr a t).l1 = s.l1 := by cases a <;> rfl
@[simp] theorem State.setThr_front (a : Actor) (t : Thr) : (s.setThr a t).front = s.front := by cases a <;> rfl
@[simp] theorem State.setThr_dst (a : Actor) (t : Thr) : (s.setThr a t).dst = s.dst := by cases a <;> rfl
@[simp] theorem State.setThr_pkg (a : Actor) (t : Thr) : (s.setThr a t).pkg = s.pkg := by cases a <;> rfl
@[simp] theorem State.setThr_members (a : Actor) (t : Thr) : (s.setThr a t).members = s.members := by cases a <;> rfl
@[simp] theorem State.setThr_down (a : Actor) (t : Thr) : (s.setThr a t).down = s.down := by cases a <;> rfl
@[simp] theorem State.setThr_ps (a : Actor) (t : Thr) : (s.setThr a t).ps = s.ps := by cases a <;> rfl
@[simp] theorem State.setThr_teams (a : Actor) (t : Thr) : (s.setThr a t).teams = s.teams := by cases a <;> rfl
@[simp] theorem State.setThr_grids (a : Actor) (t : Thr) : (s.setThr a t).grids = s.grids := by cases a <;> rfl
@[simp] theorem State.setThr_cores (a : Actor) (t : Thr) : (s.setThr a t).cores = s.cores := by cases a <;> rfl
@[simp] theorem State.setThr_arrays (a : Actor) (t : Thr) : (s.setThr a t).arrays = s.arrays := by cases a <;> rfl
@[simp] theorem State.setThr_dies (a : Actor) (t : Thr) : (s.setThr a t).dies = s.dies := by cases a <;> rfl
@[simp] theorem State.setThr_clusters (a : Actor) (t : Thr) : (s.setThr a t).clusters = s.clusters := by cases a <;> rfl
@[simp] theorem State.setThr_islands (a : Actor) (t : Thr) : (s.setThr a t).islands = s.islands := by cases a <;> rfl
@[simp] theorem State.setThr_units (a : Actor) (t : Thr) : (s.setThr a t).units = s.units := by cases a <;> rfl
@[simp] theorem State.setThr_slcs (a : Actor) (t : Thr) : (s.setThr a t).slcs = s.slcs := by cases a <;> rfl
@[simp] theorem State.setThr_sides (a : Actor) (t : Thr) : (s.setThr a t).sides = s.sides := by cases a <;> rfl
@[simp] theorem State.setThr_retries (a : Actor) (t : Thr) : (s.setThr a t).retries = s.retries := by cases a <;> rfl
@[simp] theorem State.setThr_groups (a : Actor) (t : Thr) : (s.setThr a t).groups = s.groups := by cases a <;> rfl
@[simp] theorem State.setThr_hosts (a : Actor) (t : Thr) : (s.setThr a t).hosts = s.hosts := by cases a <;> rfl
@[simp] theorem State.setThr_windows (a : Actor) (t : Thr) : (s.setThr a t).windows = s.windows := by cases a <;> rfl
@[simp] theorem State.setThr_posts (a : Actor) (t : Thr) : (s.setThr a t).posts = s.posts := by cases a <;> rfl
@[simp] theorem State.setThr_areas (a : Actor) (t : Thr) : (s.setThr a t).areas = s.areas := by cases a <;> rfl
@[simp] theorem State.setThr_replies (a : Actor) (t : Thr) : (s.setThr a t).replies = s.replies := by cases a <;> rfl
@[simp] theorem State.setThr_notices (a : Actor) (t : Thr) : (s.setThr a t).notices = s.notices := by cases a <;> rfl
@[simp] theorem State.setThr_waiting (a : Actor) (t : Thr) : (s.setThr a t).waiting = s.waiting := by cases a <;> rfl
@[simp] theorem State.setThr_op (a : Actor) (t : Thr) : (s.setThr a t).op = s.op := by cases a <;> rfl
@[simp] theorem State.setThr_hkc (a : Actor) (t : Thr) : (s.setThr a t).hkc = s.hkc := by cases a <;> rfl
@[simp] theorem State.setThr_cur (a : Actor) (t : Thr) : (s.setThr a t).cur = s.cur := by cases a <;> rfl
@[simp] theorem State.setThr_inputs (a : Actor) (t : Thr) : (s.setThr a t).inputs = s.inputs := by cases a <;> rfl
@[simp] theorem State.setThr_fresh (a : Actor) (t : Thr) : (s.setThr a t).fresh = s.fresh := by cases a <;> rfl
@[simp] theorem State.setThr_free (a : Actor) (t : Thr) : (s.setThr a t).free = s.free := by cases a <;> rfl
@[simp] theorem State.setThr_unread (a : Actor) (t : Thr) : (s.setThr a t).unread = s.unread := by cases a <;> rfl

/-! ## State.modThr -/

@[simp] theorem State.modThr_mem (a : Actor) (f : Thr → Thr) : (s.modThr a f).mem = s.mem := by unfold State.modThr; split <;> simp
@[simp] theorem State.modThr_poison (a : Actor) (f : Thr → Thr) : (s.modThr a f).poison = s.poison := by unfold State.modThr; split <;> simp
@[simp] theorem State.modThr_registry (a : Actor) (f : Thr → Thr) : (s.modThr a f).registry = s.registry := by unfold State.modThr; split <;> simp
@[simp] theorem State.modThr_home (a : Actor) (f : Thr → Thr) : (s.modThr a f).home = s.home := by unfold State.modThr; split <;> simp
@[simp] theorem State.modThr_partials (a : Actor) (f : Thr → Thr) : (s.modThr a f).partials = s.partials := by unfold State.modThr; split <;> simp
@[simp] theorem State.modThr_net (a : Actor) (f : Thr → Thr) : (s.modThr a f).net = s.net := by unfold State.modThr; split <;> simp
@[simp] theorem State.modThr_l1 (a : Actor) (f : Thr → Thr) : (s.modThr a f).l1 = s.l1 := by unfold State.modThr; split <;> simp
@[simp] theorem State.modThr_front (a : Actor) (f : Thr → Thr) : (s.modThr a f).front = s.front := by unfold State.modThr; split <;> simp
@[simp] theorem State.modThr_dst (a : Actor) (f : Thr → Thr) : (s.modThr a f).dst = s.dst := by unfold State.modThr; split <;> simp
@[simp] theorem State.modThr_pkg (a : Actor) (f : Thr → Thr) : (s.modThr a f).pkg = s.pkg := by unfold State.modThr; split <;> simp
@[simp] theorem State.modThr_members (a : Actor) (f : Thr → Thr) : (s.modThr a f).members = s.members := by unfold State.modThr; split <;> simp
@[simp] theorem State.modThr_down (a : Actor) (f : Thr → Thr) : (s.modThr a f).down = s.down := by unfold State.modThr; split <;> simp
@[simp] theorem State.modThr_ps (a : Actor) (f : Thr → Thr) : (s.modThr a f).ps = s.ps := by unfold State.modThr; split <;> simp
@[simp] theorem State.modThr_teams (a : Actor) (f : Thr → Thr) : (s.modThr a f).teams = s.teams := by unfold State.modThr; split <;> simp
@[simp] theorem State.modThr_grids (a : Actor) (f : Thr → Thr) : (s.modThr a f).grids = s.grids := by unfold State.modThr; split <;> simp
@[simp] theorem State.modThr_cores (a : Actor) (f : Thr → Thr) : (s.modThr a f).cores = s.cores := by unfold State.modThr; split <;> simp
@[simp] theorem State.modThr_arrays (a : Actor) (f : Thr → Thr) : (s.modThr a f).arrays = s.arrays := by unfold State.modThr; split <;> simp
@[simp] theorem State.modThr_dies (a : Actor) (f : Thr → Thr) : (s.modThr a f).dies = s.dies := by unfold State.modThr; split <;> simp
@[simp] theorem State.modThr_clusters (a : Actor) (f : Thr → Thr) : (s.modThr a f).clusters = s.clusters := by unfold State.modThr; split <;> simp
@[simp] theorem State.modThr_islands (a : Actor) (f : Thr → Thr) : (s.modThr a f).islands = s.islands := by unfold State.modThr; split <;> simp
@[simp] theorem State.modThr_units (a : Actor) (f : Thr → Thr) : (s.modThr a f).units = s.units := by unfold State.modThr; split <;> simp
@[simp] theorem State.modThr_slcs (a : Actor) (f : Thr → Thr) : (s.modThr a f).slcs = s.slcs := by unfold State.modThr; split <;> simp
@[simp] theorem State.modThr_sides (a : Actor) (f : Thr → Thr) : (s.modThr a f).sides = s.sides := by unfold State.modThr; split <;> simp
@[simp] theorem State.modThr_retries (a : Actor) (f : Thr → Thr) : (s.modThr a f).retries = s.retries := by unfold State.modThr; split <;> simp
@[simp] theorem State.modThr_groups (a : Actor) (f : Thr → Thr) : (s.modThr a f).groups = s.groups := by unfold State.modThr; split <;> simp
@[simp] theorem State.modThr_hosts (a : Actor) (f : Thr → Thr) : (s.modThr a f).hosts = s.hosts := by unfold State.modThr; split <;> simp
@[simp] theorem State.modThr_windows (a : Actor) (f : Thr → Thr) : (s.modThr a f).windows = s.windows := by unfold State.modThr; split <;> simp
@[simp] theorem State.modThr_posts (a : Actor) (f : Thr → Thr) : (s.modThr a f).posts = s.posts := by unfold State.modThr; split <;> simp
@[simp] theorem State.modThr_areas (a : Actor) (f : Thr → Thr) : (s.modThr a f).areas = s.areas := by unfold State.modThr; split <;> simp
@[simp] theorem State.modThr_replies (a : Actor) (f : Thr → Thr) : (s.modThr a f).replies = s.replies := by unfold State.modThr; split <;> simp
@[simp] theorem State.modThr_notices (a : Actor) (f : Thr → Thr) : (s.modThr a f).notices = s.notices := by unfold State.modThr; split <;> simp
@[simp] theorem State.modThr_waiting (a : Actor) (f : Thr → Thr) : (s.modThr a f).waiting = s.waiting := by unfold State.modThr; split <;> simp
@[simp] theorem State.modThr_op (a : Actor) (f : Thr → Thr) : (s.modThr a f).op = s.op := by unfold State.modThr; split <;> simp
@[simp] theorem State.modThr_hkc (a : Actor) (f : Thr → Thr) : (s.modThr a f).hkc = s.hkc := by unfold State.modThr; split <;> simp
@[simp] theorem State.modThr_cur (a : Actor) (f : Thr → Thr) : (s.modThr a f).cur = s.cur := by unfold State.modThr; split <;> simp
@[simp] theorem State.modThr_inputs (a : Actor) (f : Thr → Thr) : (s.modThr a f).inputs = s.inputs := by unfold State.modThr; split <;> simp
@[simp] theorem State.modThr_fresh (a : Actor) (f : Thr → Thr) : (s.modThr a f).fresh = s.fresh := by unfold State.modThr; split <;> simp
@[simp] theorem State.modThr_free (a : Actor) (f : Thr → Thr) : (s.modThr a f).free = s.free := by unfold State.modThr; split <;> simp
@[simp] theorem State.modThr_unread (a : Actor) (f : Thr → Thr) : (s.modThr a f).unread = s.unread := by unfold State.modThr; split <;> simp

/-! ## State.atCycle -/

@[simp] theorem State.atCycle_mem (core n : Nat) : (s.atCycle core n).mem = s.mem := by unfold State.atCycle; split <;> rfl
@[simp] theorem State.atCycle_poison (core n : Nat) : (s.atCycle core n).poison = s.poison := by unfold State.atCycle; split <;> rfl
@[simp] theorem State.atCycle_registry (core n : Nat) : (s.atCycle core n).registry = s.registry := by unfold State.atCycle; split <;> rfl
@[simp] theorem State.atCycle_home (core n : Nat) : (s.atCycle core n).home = s.home := by unfold State.atCycle; split <;> rfl
@[simp] theorem State.atCycle_partials (core n : Nat) : (s.atCycle core n).partials = s.partials := by unfold State.atCycle; split <;> rfl
@[simp] theorem State.atCycle_net (core n : Nat) : (s.atCycle core n).net = s.net := by unfold State.atCycle; split <;> rfl
@[simp] theorem State.atCycle_l1 (core n : Nat) : (s.atCycle core n).l1 = s.l1 := by unfold State.atCycle; split <;> rfl
@[simp] theorem State.atCycle_front (core n : Nat) : (s.atCycle core n).front = s.front := by unfold State.atCycle; split <;> rfl
@[simp] theorem State.atCycle_dst (core n : Nat) : (s.atCycle core n).dst = s.dst := by unfold State.atCycle; split <;> rfl
@[simp] theorem State.atCycle_pkg (core n : Nat) : (s.atCycle core n).pkg = s.pkg := by unfold State.atCycle; split <;> rfl
@[simp] theorem State.atCycle_members (core n : Nat) : (s.atCycle core n).members = s.members := by unfold State.atCycle; split <;> rfl
@[simp] theorem State.atCycle_down (core n : Nat) : (s.atCycle core n).down = s.down := by unfold State.atCycle; split <;> rfl
@[simp] theorem State.atCycle_gangs (core n : Nat) : (s.atCycle core n).gangs = s.gangs := by unfold State.atCycle; split <;> rfl
@[simp] theorem State.atCycle_lanes (core n : Nat) : (s.atCycle core n).lanes = s.lanes := by unfold State.atCycle; split <;> rfl
@[simp] theorem State.atCycle_teams (core n : Nat) : (s.atCycle core n).teams = s.teams := by unfold State.atCycle; split <;> rfl
@[simp] theorem State.atCycle_grids (core n : Nat) : (s.atCycle core n).grids = s.grids := by unfold State.atCycle; split <;> rfl
@[simp] theorem State.atCycle_cores (core n : Nat) : (s.atCycle core n).cores = s.cores := by unfold State.atCycle; split <;> rfl
@[simp] theorem State.atCycle_arrays (core n : Nat) : (s.atCycle core n).arrays = s.arrays := by unfold State.atCycle; split <;> rfl
@[simp] theorem State.atCycle_dies (core n : Nat) : (s.atCycle core n).dies = s.dies := by unfold State.atCycle; split <;> rfl
@[simp] theorem State.atCycle_clusters (core n : Nat) : (s.atCycle core n).clusters = s.clusters := by unfold State.atCycle; split <;> rfl
@[simp] theorem State.atCycle_islands (core n : Nat) : (s.atCycle core n).islands = s.islands := by unfold State.atCycle; split <;> rfl
@[simp] theorem State.atCycle_units (core n : Nat) : (s.atCycle core n).units = s.units := by unfold State.atCycle; split <;> rfl
@[simp] theorem State.atCycle_slcs (core n : Nat) : (s.atCycle core n).slcs = s.slcs := by unfold State.atCycle; split <;> rfl
@[simp] theorem State.atCycle_sides (core n : Nat) : (s.atCycle core n).sides = s.sides := by unfold State.atCycle; split <;> rfl
@[simp] theorem State.atCycle_retries (core n : Nat) : (s.atCycle core n).retries = s.retries := by unfold State.atCycle; split <;> rfl
@[simp] theorem State.atCycle_groups (core n : Nat) : (s.atCycle core n).groups = s.groups := by unfold State.atCycle; split <;> rfl
@[simp] theorem State.atCycle_hosts (core n : Nat) : (s.atCycle core n).hosts = s.hosts := by unfold State.atCycle; split <;> rfl
@[simp] theorem State.atCycle_windows (core n : Nat) : (s.atCycle core n).windows = s.windows := by unfold State.atCycle; split <;> rfl
@[simp] theorem State.atCycle_posts (core n : Nat) : (s.atCycle core n).posts = s.posts := by unfold State.atCycle; split <;> rfl
@[simp] theorem State.atCycle_areas (core n : Nat) : (s.atCycle core n).areas = s.areas := by unfold State.atCycle; split <;> rfl
@[simp] theorem State.atCycle_replies (core n : Nat) : (s.atCycle core n).replies = s.replies := by unfold State.atCycle; split <;> rfl
@[simp] theorem State.atCycle_notices (core n : Nat) : (s.atCycle core n).notices = s.notices := by unfold State.atCycle; split <;> rfl
@[simp] theorem State.atCycle_waiting (core n : Nat) : (s.atCycle core n).waiting = s.waiting := by unfold State.atCycle; split <;> rfl
@[simp] theorem State.atCycle_op (core n : Nat) : (s.atCycle core n).op = s.op := by unfold State.atCycle; split <;> rfl
@[simp] theorem State.atCycle_hkc (core n : Nat) : (s.atCycle core n).hkc = s.hkc := by unfold State.atCycle; split <;> rfl
@[simp] theorem State.atCycle_cur (core n : Nat) : (s.atCycle core n).cur = s.cur := by unfold State.atCycle; split <;> rfl
@[simp] theorem State.atCycle_inputs (core n : Nat) : (s.atCycle core n).inputs = s.inputs := by unfold State.atCycle; split <;> rfl
@[simp] theorem State.atCycle_fresh (core n : Nat) : (s.atCycle core n).fresh = s.fresh := by unfold State.atCycle; split <;> rfl
@[simp] theorem State.atCycle_free (core n : Nat) : (s.atCycle core n).free = s.free := by unfold State.atCycle; split <;> rfl
@[simp] theorem State.atCycle_unread (core n : Nat) : (s.atCycle core n).unread = s.unread := by unfold State.atCycle; split <;> rfl

/-! ## State.atPs -/

@[simp] theorem State.atPs_mem (n : Nat) : (s.atPs n).mem = s.mem := by unfold State.atPs; split <;> rfl
@[simp] theorem State.atPs_poison (n : Nat) : (s.atPs n).poison = s.poison := by unfold State.atPs; split <;> rfl
@[simp] theorem State.atPs_registry (n : Nat) : (s.atPs n).registry = s.registry := by unfold State.atPs; split <;> rfl
@[simp] theorem State.atPs_home (n : Nat) : (s.atPs n).home = s.home := by unfold State.atPs; split <;> rfl
@[simp] theorem State.atPs_partials (n : Nat) : (s.atPs n).partials = s.partials := by unfold State.atPs; split <;> rfl
@[simp] theorem State.atPs_net (n : Nat) : (s.atPs n).net = s.net := by unfold State.atPs; split <;> rfl
@[simp] theorem State.atPs_l1 (n : Nat) : (s.atPs n).l1 = s.l1 := by unfold State.atPs; split <;> rfl
@[simp] theorem State.atPs_front (n : Nat) : (s.atPs n).front = s.front := by unfold State.atPs; split <;> rfl
@[simp] theorem State.atPs_dst (n : Nat) : (s.atPs n).dst = s.dst := by unfold State.atPs; split <;> rfl
@[simp] theorem State.atPs_pkg (n : Nat) : (s.atPs n).pkg = s.pkg := by unfold State.atPs; split <;> rfl
@[simp] theorem State.atPs_members (n : Nat) : (s.atPs n).members = s.members := by unfold State.atPs; split <;> rfl
@[simp] theorem State.atPs_down (n : Nat) : (s.atPs n).down = s.down := by unfold State.atPs; split <;> rfl
@[simp] theorem State.atPs_gangs (n : Nat) : (s.atPs n).gangs = s.gangs := by unfold State.atPs; split <;> rfl
@[simp] theorem State.atPs_lanes (n : Nat) : (s.atPs n).lanes = s.lanes := by unfold State.atPs; split <;> rfl
@[simp] theorem State.atPs_teams (n : Nat) : (s.atPs n).teams = s.teams := by unfold State.atPs; split <;> rfl
@[simp] theorem State.atPs_grids (n : Nat) : (s.atPs n).grids = s.grids := by unfold State.atPs; split <;> rfl
@[simp] theorem State.atPs_cores (n : Nat) : (s.atPs n).cores = s.cores := by unfold State.atPs; split <;> rfl
@[simp] theorem State.atPs_arrays (n : Nat) : (s.atPs n).arrays = s.arrays := by unfold State.atPs; split <;> rfl
@[simp] theorem State.atPs_dies (n : Nat) : (s.atPs n).dies = s.dies := by unfold State.atPs; split <;> rfl
@[simp] theorem State.atPs_clusters (n : Nat) : (s.atPs n).clusters = s.clusters := by unfold State.atPs; split <;> rfl
@[simp] theorem State.atPs_islands (n : Nat) : (s.atPs n).islands = s.islands := by unfold State.atPs; split <;> rfl
@[simp] theorem State.atPs_units (n : Nat) : (s.atPs n).units = s.units := by unfold State.atPs; split <;> rfl
@[simp] theorem State.atPs_slcs (n : Nat) : (s.atPs n).slcs = s.slcs := by unfold State.atPs; split <;> rfl
@[simp] theorem State.atPs_sides (n : Nat) : (s.atPs n).sides = s.sides := by unfold State.atPs; split <;> rfl
@[simp] theorem State.atPs_retries (n : Nat) : (s.atPs n).retries = s.retries := by unfold State.atPs; split <;> rfl
@[simp] theorem State.atPs_groups (n : Nat) : (s.atPs n).groups = s.groups := by unfold State.atPs; split <;> rfl
@[simp] theorem State.atPs_hosts (n : Nat) : (s.atPs n).hosts = s.hosts := by unfold State.atPs; split <;> rfl
@[simp] theorem State.atPs_windows (n : Nat) : (s.atPs n).windows = s.windows := by unfold State.atPs; split <;> rfl
@[simp] theorem State.atPs_posts (n : Nat) : (s.atPs n).posts = s.posts := by unfold State.atPs; split <;> rfl
@[simp] theorem State.atPs_areas (n : Nat) : (s.atPs n).areas = s.areas := by unfold State.atPs; split <;> rfl
@[simp] theorem State.atPs_replies (n : Nat) : (s.atPs n).replies = s.replies := by unfold State.atPs; split <;> rfl
@[simp] theorem State.atPs_notices (n : Nat) : (s.atPs n).notices = s.notices := by unfold State.atPs; split <;> rfl
@[simp] theorem State.atPs_waiting (n : Nat) : (s.atPs n).waiting = s.waiting := by unfold State.atPs; split <;> rfl
@[simp] theorem State.atPs_op (n : Nat) : (s.atPs n).op = s.op := by unfold State.atPs; split <;> rfl
@[simp] theorem State.atPs_hkc (n : Nat) : (s.atPs n).hkc = s.hkc := by unfold State.atPs; split <;> rfl
@[simp] theorem State.atPs_cur (n : Nat) : (s.atPs n).cur = s.cur := by unfold State.atPs; split <;> rfl
@[simp] theorem State.atPs_inputs (n : Nat) : (s.atPs n).inputs = s.inputs := by unfold State.atPs; split <;> rfl
@[simp] theorem State.atPs_fresh (n : Nat) : (s.atPs n).fresh = s.fresh := by unfold State.atPs; split <;> rfl
@[simp] theorem State.atPs_free (n : Nat) : (s.atPs n).free = s.free := by unfold State.atPs; split <;> rfl
@[simp] theorem State.atPs_unread (n : Nat) : (s.atPs n).unread = s.unread := by unfold State.atPs; split <;> rfl

/-! ## State.haltGang -/

@[simp] theorem State.haltGang_mem (u : Nat) (c : Cause2) (pc : Word) (m : Mask) (x : Word) : (s.haltGang u c pc m x).mem = s.mem := by unfold State.haltGang; split <;> rfl
@[simp] theorem State.haltGang_poison (u : Nat) (c : Cause2) (pc : Word) (m : Mask) (x : Word) : (s.haltGang u c pc m x).poison = s.poison := by unfold State.haltGang; split <;> rfl
@[simp] theorem State.haltGang_registry (u : Nat) (c : Cause2) (pc : Word) (m : Mask) (x : Word) : (s.haltGang u c pc m x).registry = s.registry := by unfold State.haltGang; split <;> rfl
@[simp] theorem State.haltGang_home (u : Nat) (c : Cause2) (pc : Word) (m : Mask) (x : Word) : (s.haltGang u c pc m x).home = s.home := by unfold State.haltGang; split <;> rfl
@[simp] theorem State.haltGang_partials (u : Nat) (c : Cause2) (pc : Word) (m : Mask) (x : Word) : (s.haltGang u c pc m x).partials = s.partials := by unfold State.haltGang; split <;> rfl
@[simp] theorem State.haltGang_net (u : Nat) (c : Cause2) (pc : Word) (m : Mask) (x : Word) : (s.haltGang u c pc m x).net = s.net := by unfold State.haltGang; split <;> rfl
@[simp] theorem State.haltGang_l1 (u : Nat) (c : Cause2) (pc : Word) (m : Mask) (x : Word) : (s.haltGang u c pc m x).l1 = s.l1 := by unfold State.haltGang; split <;> rfl
@[simp] theorem State.haltGang_front (u : Nat) (c : Cause2) (pc : Word) (m : Mask) (x : Word) : (s.haltGang u c pc m x).front = s.front := by unfold State.haltGang; split <;> rfl
@[simp] theorem State.haltGang_dst (u : Nat) (c : Cause2) (pc : Word) (m : Mask) (x : Word) : (s.haltGang u c pc m x).dst = s.dst := by unfold State.haltGang; split <;> rfl
@[simp] theorem State.haltGang_pkg (u : Nat) (c : Cause2) (pc : Word) (m : Mask) (x : Word) : (s.haltGang u c pc m x).pkg = s.pkg := by unfold State.haltGang; split <;> rfl
@[simp] theorem State.haltGang_members (u : Nat) (c : Cause2) (pc : Word) (m : Mask) (x : Word) : (s.haltGang u c pc m x).members = s.members := by unfold State.haltGang; split <;> rfl
@[simp] theorem State.haltGang_down (u : Nat) (c : Cause2) (pc : Word) (m : Mask) (x : Word) : (s.haltGang u c pc m x).down = s.down := by unfold State.haltGang; split <;> rfl
@[simp] theorem State.haltGang_ps (u : Nat) (c : Cause2) (pc : Word) (m : Mask) (x : Word) : (s.haltGang u c pc m x).ps = s.ps := by unfold State.haltGang; split <;> rfl
@[simp] theorem State.haltGang_lanes (u : Nat) (c : Cause2) (pc : Word) (m : Mask) (x : Word) : (s.haltGang u c pc m x).lanes = s.lanes := by unfold State.haltGang; split <;> rfl
@[simp] theorem State.haltGang_grids (u : Nat) (c : Cause2) (pc : Word) (m : Mask) (x : Word) : (s.haltGang u c pc m x).grids = s.grids := by unfold State.haltGang; split <;> rfl
@[simp] theorem State.haltGang_cores (u : Nat) (c : Cause2) (pc : Word) (m : Mask) (x : Word) : (s.haltGang u c pc m x).cores = s.cores := by unfold State.haltGang; split <;> rfl
@[simp] theorem State.haltGang_arrays (u : Nat) (c : Cause2) (pc : Word) (m : Mask) (x : Word) : (s.haltGang u c pc m x).arrays = s.arrays := by unfold State.haltGang; split <;> rfl
@[simp] theorem State.haltGang_dies (u : Nat) (c : Cause2) (pc : Word) (m : Mask) (x : Word) : (s.haltGang u c pc m x).dies = s.dies := by unfold State.haltGang; split <;> rfl
@[simp] theorem State.haltGang_clusters (u : Nat) (c : Cause2) (pc : Word) (m : Mask) (x : Word) : (s.haltGang u c pc m x).clusters = s.clusters := by unfold State.haltGang; split <;> rfl
@[simp] theorem State.haltGang_islands (u : Nat) (c : Cause2) (pc : Word) (m : Mask) (x : Word) : (s.haltGang u c pc m x).islands = s.islands := by unfold State.haltGang; split <;> rfl
@[simp] theorem State.haltGang_units (u : Nat) (c : Cause2) (pc : Word) (m : Mask) (x : Word) : (s.haltGang u c pc m x).units = s.units := by unfold State.haltGang; split <;> rfl
@[simp] theorem State.haltGang_slcs (u : Nat) (c : Cause2) (pc : Word) (m : Mask) (x : Word) : (s.haltGang u c pc m x).slcs = s.slcs := by unfold State.haltGang; split <;> rfl
@[simp] theorem State.haltGang_sides (u : Nat) (c : Cause2) (pc : Word) (m : Mask) (x : Word) : (s.haltGang u c pc m x).sides = s.sides := by unfold State.haltGang; split <;> rfl
@[simp] theorem State.haltGang_retries (u : Nat) (c : Cause2) (pc : Word) (m : Mask) (x : Word) : (s.haltGang u c pc m x).retries = s.retries := by unfold State.haltGang; split <;> rfl
@[simp] theorem State.haltGang_groups (u : Nat) (c : Cause2) (pc : Word) (m : Mask) (x : Word) : (s.haltGang u c pc m x).groups = s.groups := by unfold State.haltGang; split <;> rfl
@[simp] theorem State.haltGang_hosts (u : Nat) (c : Cause2) (pc : Word) (m : Mask) (x : Word) : (s.haltGang u c pc m x).hosts = s.hosts := by unfold State.haltGang; split <;> rfl
@[simp] theorem State.haltGang_windows (u : Nat) (c : Cause2) (pc : Word) (m : Mask) (x : Word) : (s.haltGang u c pc m x).windows = s.windows := by unfold State.haltGang; split <;> rfl
@[simp] theorem State.haltGang_posts (u : Nat) (c : Cause2) (pc : Word) (m : Mask) (x : Word) : (s.haltGang u c pc m x).posts = s.posts := by unfold State.haltGang; split <;> rfl
@[simp] theorem State.haltGang_areas (u : Nat) (c : Cause2) (pc : Word) (m : Mask) (x : Word) : (s.haltGang u c pc m x).areas = s.areas := by unfold State.haltGang; split <;> rfl
@[simp] theorem State.haltGang_replies (u : Nat) (c : Cause2) (pc : Word) (m : Mask) (x : Word) : (s.haltGang u c pc m x).replies = s.replies := by unfold State.haltGang; split <;> rfl
@[simp] theorem State.haltGang_notices (u : Nat) (c : Cause2) (pc : Word) (m : Mask) (x : Word) : (s.haltGang u c pc m x).notices = s.notices := by unfold State.haltGang; split <;> rfl
@[simp] theorem State.haltGang_waiting (u : Nat) (c : Cause2) (pc : Word) (m : Mask) (x : Word) : (s.haltGang u c pc m x).waiting = s.waiting := by unfold State.haltGang; split <;> rfl
@[simp] theorem State.haltGang_op (u : Nat) (c : Cause2) (pc : Word) (m : Mask) (x : Word) : (s.haltGang u c pc m x).op = s.op := by unfold State.haltGang; split <;> rfl
@[simp] theorem State.haltGang_hkc (u : Nat) (c : Cause2) (pc : Word) (m : Mask) (x : Word) : (s.haltGang u c pc m x).hkc = s.hkc := by unfold State.haltGang; split <;> rfl
@[simp] theorem State.haltGang_cur (u : Nat) (c : Cause2) (pc : Word) (m : Mask) (x : Word) : (s.haltGang u c pc m x).cur = s.cur := by unfold State.haltGang; split <;> rfl
@[simp] theorem State.haltGang_inputs (u : Nat) (c : Cause2) (pc : Word) (m : Mask) (x : Word) : (s.haltGang u c pc m x).inputs = s.inputs := by unfold State.haltGang; split <;> rfl
@[simp] theorem State.haltGang_fresh (u : Nat) (c : Cause2) (pc : Word) (m : Mask) (x : Word) : (s.haltGang u c pc m x).fresh = s.fresh := by unfold State.haltGang; split <;> rfl
@[simp] theorem State.haltGang_free (u : Nat) (c : Cause2) (pc : Word) (m : Mask) (x : Word) : (s.haltGang u c pc m x).free = s.free := by unfold State.haltGang; split <;> rfl
@[simp] theorem State.haltGang_unread (u : Nat) (c : Cause2) (pc : Word) (m : Mask) (x : Word) : (s.haltGang u c pc m x).unread = s.unread := by unfold State.haltGang; split <;> rfl

/-! ## State.clearPosted -/

@[simp] theorem State.clearPosted_mem (a : Actor) (u : Nat) : (s.clearPosted a u).mem = s.mem := State.modThr_mem ..
@[simp] theorem State.clearPosted_poison (a : Actor) (u : Nat) : (s.clearPosted a u).poison = s.poison := State.modThr_poison ..
@[simp] theorem State.clearPosted_registry (a : Actor) (u : Nat) : (s.clearPosted a u).registry = s.registry := State.modThr_registry ..
@[simp] theorem State.clearPosted_home (a : Actor) (u : Nat) : (s.clearPosted a u).home = s.home := State.modThr_home ..
@[simp] theorem State.clearPosted_partials (a : Actor) (u : Nat) : (s.clearPosted a u).partials = s.partials := State.modThr_partials ..
@[simp] theorem State.clearPosted_net (a : Actor) (u : Nat) : (s.clearPosted a u).net = s.net := State.modThr_net ..
@[simp] theorem State.clearPosted_front (a : Actor) (u : Nat) : (s.clearPosted a u).front = s.front := State.modThr_front ..
@[simp] theorem State.clearPosted_dst (a : Actor) (u : Nat) : (s.clearPosted a u).dst = s.dst := State.modThr_dst ..
@[simp] theorem State.clearPosted_pkg (a : Actor) (u : Nat) : (s.clearPosted a u).pkg = s.pkg := State.modThr_pkg ..
@[simp] theorem State.clearPosted_members (a : Actor) (u : Nat) : (s.clearPosted a u).members = s.members := State.modThr_members ..
@[simp] theorem State.clearPosted_down (a : Actor) (u : Nat) : (s.clearPosted a u).down = s.down := State.modThr_down ..
@[simp] theorem State.clearPosted_ps (a : Actor) (u : Nat) : (s.clearPosted a u).ps = s.ps := State.modThr_ps ..
@[simp] theorem State.clearPosted_teams (a : Actor) (u : Nat) : (s.clearPosted a u).teams = s.teams := State.modThr_teams ..
@[simp] theorem State.clearPosted_grids (a : Actor) (u : Nat) : (s.clearPosted a u).grids = s.grids := State.modThr_grids ..
@[simp] theorem State.clearPosted_cores (a : Actor) (u : Nat) : (s.clearPosted a u).cores = s.cores := State.modThr_cores ..
@[simp] theorem State.clearPosted_arrays (a : Actor) (u : Nat) : (s.clearPosted a u).arrays = s.arrays := State.modThr_arrays ..
@[simp] theorem State.clearPosted_dies (a : Actor) (u : Nat) : (s.clearPosted a u).dies = s.dies := State.modThr_dies ..
@[simp] theorem State.clearPosted_clusters (a : Actor) (u : Nat) : (s.clearPosted a u).clusters = s.clusters := State.modThr_clusters ..
@[simp] theorem State.clearPosted_islands (a : Actor) (u : Nat) : (s.clearPosted a u).islands = s.islands := State.modThr_islands ..
@[simp] theorem State.clearPosted_units (a : Actor) (u : Nat) : (s.clearPosted a u).units = s.units := State.modThr_units ..
@[simp] theorem State.clearPosted_slcs (a : Actor) (u : Nat) : (s.clearPosted a u).slcs = s.slcs := State.modThr_slcs ..
@[simp] theorem State.clearPosted_sides (a : Actor) (u : Nat) : (s.clearPosted a u).sides = s.sides := State.modThr_sides ..
@[simp] theorem State.clearPosted_retries (a : Actor) (u : Nat) : (s.clearPosted a u).retries = s.retries := State.modThr_retries ..
@[simp] theorem State.clearPosted_groups (a : Actor) (u : Nat) : (s.clearPosted a u).groups = s.groups := State.modThr_groups ..
@[simp] theorem State.clearPosted_hosts (a : Actor) (u : Nat) : (s.clearPosted a u).hosts = s.hosts := State.modThr_hosts ..
@[simp] theorem State.clearPosted_windows (a : Actor) (u : Nat) : (s.clearPosted a u).windows = s.windows := State.modThr_windows ..
@[simp] theorem State.clearPosted_posts (a : Actor) (u : Nat) : (s.clearPosted a u).posts = s.posts := State.modThr_posts ..
@[simp] theorem State.clearPosted_areas (a : Actor) (u : Nat) : (s.clearPosted a u).areas = s.areas := State.modThr_areas ..
@[simp] theorem State.clearPosted_replies (a : Actor) (u : Nat) : (s.clearPosted a u).replies = s.replies := State.modThr_replies ..
@[simp] theorem State.clearPosted_notices (a : Actor) (u : Nat) : (s.clearPosted a u).notices = s.notices := State.modThr_notices ..
@[simp] theorem State.clearPosted_waiting (a : Actor) (u : Nat) : (s.clearPosted a u).waiting = s.waiting := State.modThr_waiting ..
@[simp] theorem State.clearPosted_op (a : Actor) (u : Nat) : (s.clearPosted a u).op = s.op := State.modThr_op ..
@[simp] theorem State.clearPosted_hkc (a : Actor) (u : Nat) : (s.clearPosted a u).hkc = s.hkc := State.modThr_hkc ..
@[simp] theorem State.clearPosted_cur (a : Actor) (u : Nat) : (s.clearPosted a u).cur = s.cur := State.modThr_cur ..
@[simp] theorem State.clearPosted_inputs (a : Actor) (u : Nat) : (s.clearPosted a u).inputs = s.inputs := State.modThr_inputs ..
@[simp] theorem State.clearPosted_fresh (a : Actor) (u : Nat) : (s.clearPosted a u).fresh = s.fresh := State.modThr_fresh ..
@[simp] theorem State.clearPosted_free (a : Actor) (u : Nat) : (s.clearPosted a u).free = s.free := State.modThr_free ..
@[simp] theorem State.clearPosted_unread (a : Actor) (u : Nat) : (s.clearPosted a u).unread = s.unread := State.modThr_unread ..

/-! ## State.haltV -/

@[simp] theorem State.haltV_mem (v : View) (h : HaltWhy) : (s.haltV v h).mem = s.mem := by unfold State.haltV; split <;> simp
@[simp] theorem State.haltV_poison (v : View) (h : HaltWhy) : (s.haltV v h).poison = s.poison := by unfold State.haltV; split <;> simp
@[simp] theorem State.haltV_registry (v : View) (h : HaltWhy) : (s.haltV v h).registry = s.registry := by unfold State.haltV; split <;> simp
@[simp] theorem State.haltV_home (v : View) (h : HaltWhy) : (s.haltV v h).home = s.home := by unfold State.haltV; split <;> simp
@[simp] theorem State.haltV_partials (v : View) (h : HaltWhy) : (s.haltV v h).partials = s.partials := by unfold State.haltV; split <;> simp
@[simp] theorem State.haltV_net (v : View) (h : HaltWhy) : (s.haltV v h).net = s.net := by unfold State.haltV; split <;> simp
@[simp] theorem State.haltV_front (v : View) (h : HaltWhy) : (s.haltV v h).front = s.front := by unfold State.haltV; split <;> simp
@[simp] theorem State.haltV_dst (v : View) (h : HaltWhy) : (s.haltV v h).dst = s.dst := by unfold State.haltV; split <;> simp
@[simp] theorem State.haltV_pkg (v : View) (h : HaltWhy) : (s.haltV v h).pkg = s.pkg := by unfold State.haltV; split <;> simp
@[simp] theorem State.haltV_members (v : View) (h : HaltWhy) : (s.haltV v h).members = s.members := by unfold State.haltV; split <;> simp
@[simp] theorem State.haltV_down (v : View) (h : HaltWhy) : (s.haltV v h).down = s.down := by unfold State.haltV; split <;> simp
@[simp] theorem State.haltV_ps (v : View) (h : HaltWhy) : (s.haltV v h).ps = s.ps := by unfold State.haltV; split <;> simp
@[simp] theorem State.haltV_grids (v : View) (h : HaltWhy) : (s.haltV v h).grids = s.grids := by unfold State.haltV; split <;> simp
@[simp] theorem State.haltV_cores (v : View) (h : HaltWhy) : (s.haltV v h).cores = s.cores := by unfold State.haltV; split <;> simp
@[simp] theorem State.haltV_arrays (v : View) (h : HaltWhy) : (s.haltV v h).arrays = s.arrays := by unfold State.haltV; split <;> simp
@[simp] theorem State.haltV_dies (v : View) (h : HaltWhy) : (s.haltV v h).dies = s.dies := by unfold State.haltV; split <;> simp
@[simp] theorem State.haltV_clusters (v : View) (h : HaltWhy) : (s.haltV v h).clusters = s.clusters := by unfold State.haltV; split <;> simp
@[simp] theorem State.haltV_islands (v : View) (h : HaltWhy) : (s.haltV v h).islands = s.islands := by unfold State.haltV; split <;> simp
@[simp] theorem State.haltV_units (v : View) (h : HaltWhy) : (s.haltV v h).units = s.units := by unfold State.haltV; split <;> simp
@[simp] theorem State.haltV_slcs (v : View) (h : HaltWhy) : (s.haltV v h).slcs = s.slcs := by unfold State.haltV; split <;> simp
@[simp] theorem State.haltV_sides (v : View) (h : HaltWhy) : (s.haltV v h).sides = s.sides := by unfold State.haltV; split <;> simp
@[simp] theorem State.haltV_retries (v : View) (h : HaltWhy) : (s.haltV v h).retries = s.retries := by unfold State.haltV; split <;> simp
@[simp] theorem State.haltV_groups (v : View) (h : HaltWhy) : (s.haltV v h).groups = s.groups := by unfold State.haltV; split <;> simp
@[simp] theorem State.haltV_hosts (v : View) (h : HaltWhy) : (s.haltV v h).hosts = s.hosts := by unfold State.haltV; split <;> simp
@[simp] theorem State.haltV_windows (v : View) (h : HaltWhy) : (s.haltV v h).windows = s.windows := by unfold State.haltV; split <;> simp
@[simp] theorem State.haltV_posts (v : View) (h : HaltWhy) : (s.haltV v h).posts = s.posts := by unfold State.haltV; split <;> simp
@[simp] theorem State.haltV_areas (v : View) (h : HaltWhy) : (s.haltV v h).areas = s.areas := by unfold State.haltV; split <;> simp
@[simp] theorem State.haltV_replies (v : View) (h : HaltWhy) : (s.haltV v h).replies = s.replies := by unfold State.haltV; split <;> simp
@[simp] theorem State.haltV_notices (v : View) (h : HaltWhy) : (s.haltV v h).notices = s.notices := by unfold State.haltV; split <;> simp
@[simp] theorem State.haltV_waiting (v : View) (h : HaltWhy) : (s.haltV v h).waiting = s.waiting := by unfold State.haltV; split <;> simp
@[simp] theorem State.haltV_op (v : View) (h : HaltWhy) : (s.haltV v h).op = s.op := by unfold State.haltV; split <;> simp
@[simp] theorem State.haltV_hkc (v : View) (h : HaltWhy) : (s.haltV v h).hkc = s.hkc := by unfold State.haltV; split <;> simp
@[simp] theorem State.haltV_cur (v : View) (h : HaltWhy) : (s.haltV v h).cur = s.cur := by unfold State.haltV; split <;> simp
@[simp] theorem State.haltV_inputs (v : View) (h : HaltWhy) : (s.haltV v h).inputs = s.inputs := by unfold State.haltV; split <;> simp
@[simp] theorem State.haltV_fresh (v : View) (h : HaltWhy) : (s.haltV v h).fresh = s.fresh := by unfold State.haltV; split <;> simp
@[simp] theorem State.haltV_free (v : View) (h : HaltWhy) : (s.haltV v h).free = s.free := by unfold State.haltV; split <;> simp
@[simp] theorem State.haltV_unread (v : View) (h : HaltWhy) : (s.haltV v h).unread = s.unread := by unfold State.haltV; split <;> simp

/-! ## State.issued -/

@[simp] theorem State.issued_mem (v : View) : (s.issued v).mem = s.mem := by unfold State.issued; split <;> rfl
@[simp] theorem State.issued_poison (v : View) : (s.issued v).poison = s.poison := by unfold State.issued; split <;> rfl
@[simp] theorem State.issued_registry (v : View) : (s.issued v).registry = s.registry := by unfold State.issued; split <;> rfl
@[simp] theorem State.issued_home (v : View) : (s.issued v).home = s.home := by unfold State.issued; split <;> rfl
@[simp] theorem State.issued_partials (v : View) : (s.issued v).partials = s.partials := by unfold State.issued; split <;> rfl
@[simp] theorem State.issued_net (v : View) : (s.issued v).net = s.net := by unfold State.issued; split <;> rfl
@[simp] theorem State.issued_l1 (v : View) : (s.issued v).l1 = s.l1 := by unfold State.issued; split <;> rfl
@[simp] theorem State.issued_front (v : View) : (s.issued v).front = s.front := by unfold State.issued; split <;> rfl
@[simp] theorem State.issued_dst (v : View) : (s.issued v).dst = s.dst := by unfold State.issued; split <;> rfl
@[simp] theorem State.issued_pkg (v : View) : (s.issued v).pkg = s.pkg := by unfold State.issued; split <;> rfl
@[simp] theorem State.issued_members (v : View) : (s.issued v).members = s.members := by unfold State.issued; split <;> rfl
@[simp] theorem State.issued_down (v : View) : (s.issued v).down = s.down := by unfold State.issued; split <;> rfl
@[simp] theorem State.issued_ps (v : View) : (s.issued v).ps = s.ps := by unfold State.issued; split <;> rfl
@[simp] theorem State.issued_lanes (v : View) : (s.issued v).lanes = s.lanes := by unfold State.issued; split <;> rfl
@[simp] theorem State.issued_grids (v : View) : (s.issued v).grids = s.grids := by unfold State.issued; split <;> rfl
@[simp] theorem State.issued_arrays (v : View) : (s.issued v).arrays = s.arrays := by unfold State.issued; split <;> rfl
@[simp] theorem State.issued_dies (v : View) : (s.issued v).dies = s.dies := by unfold State.issued; split <;> rfl
@[simp] theorem State.issued_clusters (v : View) : (s.issued v).clusters = s.clusters := by unfold State.issued; split <;> rfl
@[simp] theorem State.issued_islands (v : View) : (s.issued v).islands = s.islands := by unfold State.issued; split <;> rfl
@[simp] theorem State.issued_sides (v : View) : (s.issued v).sides = s.sides := by unfold State.issued; split <;> rfl
@[simp] theorem State.issued_retries (v : View) : (s.issued v).retries = s.retries := by unfold State.issued; split <;> rfl
@[simp] theorem State.issued_groups (v : View) : (s.issued v).groups = s.groups := by unfold State.issued; split <;> rfl
@[simp] theorem State.issued_hosts (v : View) : (s.issued v).hosts = s.hosts := by unfold State.issued; split <;> rfl
@[simp] theorem State.issued_windows (v : View) : (s.issued v).windows = s.windows := by unfold State.issued; split <;> rfl
@[simp] theorem State.issued_posts (v : View) : (s.issued v).posts = s.posts := by unfold State.issued; split <;> rfl
@[simp] theorem State.issued_areas (v : View) : (s.issued v).areas = s.areas := by unfold State.issued; split <;> rfl
@[simp] theorem State.issued_replies (v : View) : (s.issued v).replies = s.replies := by unfold State.issued; split <;> rfl
@[simp] theorem State.issued_notices (v : View) : (s.issued v).notices = s.notices := by unfold State.issued; split <;> rfl
@[simp] theorem State.issued_waiting (v : View) : (s.issued v).waiting = s.waiting := by unfold State.issued; split <;> rfl
@[simp] theorem State.issued_op (v : View) : (s.issued v).op = s.op := by unfold State.issued; split <;> rfl
@[simp] theorem State.issued_hkc (v : View) : (s.issued v).hkc = s.hkc := by unfold State.issued; split <;> rfl
@[simp] theorem State.issued_cur (v : View) : (s.issued v).cur = s.cur := by unfold State.issued; split <;> rfl
@[simp] theorem State.issued_inputs (v : View) : (s.issued v).inputs = s.inputs := by unfold State.issued; split <;> rfl
@[simp] theorem State.issued_fresh (v : View) : (s.issued v).fresh = s.fresh := by unfold State.issued; split <;> rfl
@[simp] theorem State.issued_free (v : View) : (s.issued v).free = s.free := by unfold State.issued; split <;> rfl
@[simp] theorem State.issued_unread (v : View) : (s.issued v).unread = s.unread := by unfold State.issued; split <;> rfl

/-! ## State.retire -/

@[simp] theorem State.retire_mem (v : View) (t : Thr) (n : BitVec 4) : (s.retire v t n).mem = s.mem := by unfold State.retire; simp
@[simp] theorem State.retire_poison (v : View) (t : Thr) (n : BitVec 4) : (s.retire v t n).poison = s.poison := by unfold State.retire; simp
@[simp] theorem State.retire_registry (v : View) (t : Thr) (n : BitVec 4) : (s.retire v t n).registry = s.registry := by unfold State.retire; simp
@[simp] theorem State.retire_home (v : View) (t : Thr) (n : BitVec 4) : (s.retire v t n).home = s.home := by unfold State.retire; simp
@[simp] theorem State.retire_partials (v : View) (t : Thr) (n : BitVec 4) : (s.retire v t n).partials = s.partials := by unfold State.retire; simp
@[simp] theorem State.retire_net (v : View) (t : Thr) (n : BitVec 4) : (s.retire v t n).net = s.net := by unfold State.retire; simp
@[simp] theorem State.retire_l1 (v : View) (t : Thr) (n : BitVec 4) : (s.retire v t n).l1 = s.l1 := by unfold State.retire; simp
@[simp] theorem State.retire_front (v : View) (t : Thr) (n : BitVec 4) : (s.retire v t n).front = s.front := by unfold State.retire; simp
@[simp] theorem State.retire_dst (v : View) (t : Thr) (n : BitVec 4) : (s.retire v t n).dst = s.dst := by unfold State.retire; simp
@[simp] theorem State.retire_pkg (v : View) (t : Thr) (n : BitVec 4) : (s.retire v t n).pkg = s.pkg := by unfold State.retire; simp
@[simp] theorem State.retire_members (v : View) (t : Thr) (n : BitVec 4) : (s.retire v t n).members = s.members := by unfold State.retire; simp
@[simp] theorem State.retire_down (v : View) (t : Thr) (n : BitVec 4) : (s.retire v t n).down = s.down := by unfold State.retire; simp
@[simp] theorem State.retire_ps (v : View) (t : Thr) (n : BitVec 4) : (s.retire v t n).ps = s.ps := by unfold State.retire; simp
@[simp] theorem State.retire_grids (v : View) (t : Thr) (n : BitVec 4) : (s.retire v t n).grids = s.grids := by unfold State.retire; simp
@[simp] theorem State.retire_arrays (v : View) (t : Thr) (n : BitVec 4) : (s.retire v t n).arrays = s.arrays := by unfold State.retire; simp
@[simp] theorem State.retire_dies (v : View) (t : Thr) (n : BitVec 4) : (s.retire v t n).dies = s.dies := by unfold State.retire; simp
@[simp] theorem State.retire_clusters (v : View) (t : Thr) (n : BitVec 4) : (s.retire v t n).clusters = s.clusters := by unfold State.retire; simp
@[simp] theorem State.retire_islands (v : View) (t : Thr) (n : BitVec 4) : (s.retire v t n).islands = s.islands := by unfold State.retire; simp
@[simp] theorem State.retire_sides (v : View) (t : Thr) (n : BitVec 4) : (s.retire v t n).sides = s.sides := by unfold State.retire; simp
@[simp] theorem State.retire_retries (v : View) (t : Thr) (n : BitVec 4) : (s.retire v t n).retries = s.retries := by unfold State.retire; simp
@[simp] theorem State.retire_groups (v : View) (t : Thr) (n : BitVec 4) : (s.retire v t n).groups = s.groups := by unfold State.retire; simp
@[simp] theorem State.retire_hosts (v : View) (t : Thr) (n : BitVec 4) : (s.retire v t n).hosts = s.hosts := by unfold State.retire; simp
@[simp] theorem State.retire_windows (v : View) (t : Thr) (n : BitVec 4) : (s.retire v t n).windows = s.windows := by unfold State.retire; simp
@[simp] theorem State.retire_posts (v : View) (t : Thr) (n : BitVec 4) : (s.retire v t n).posts = s.posts := by unfold State.retire; simp
@[simp] theorem State.retire_areas (v : View) (t : Thr) (n : BitVec 4) : (s.retire v t n).areas = s.areas := by unfold State.retire; simp
@[simp] theorem State.retire_replies (v : View) (t : Thr) (n : BitVec 4) : (s.retire v t n).replies = s.replies := by unfold State.retire; simp
@[simp] theorem State.retire_notices (v : View) (t : Thr) (n : BitVec 4) : (s.retire v t n).notices = s.notices := by unfold State.retire; simp
@[simp] theorem State.retire_waiting (v : View) (t : Thr) (n : BitVec 4) : (s.retire v t n).waiting = s.waiting := by unfold State.retire; simp
@[simp] theorem State.retire_op (v : View) (t : Thr) (n : BitVec 4) : (s.retire v t n).op = s.op := by unfold State.retire; simp
@[simp] theorem State.retire_hkc (v : View) (t : Thr) (n : BitVec 4) : (s.retire v t n).hkc = s.hkc := by unfold State.retire; simp
@[simp] theorem State.retire_cur (v : View) (t : Thr) (n : BitVec 4) : (s.retire v t n).cur = s.cur := by unfold State.retire; simp
@[simp] theorem State.retire_inputs (v : View) (t : Thr) (n : BitVec 4) : (s.retire v t n).inputs = s.inputs := by unfold State.retire; simp
@[simp] theorem State.retire_fresh (v : View) (t : Thr) (n : BitVec 4) : (s.retire v t n).fresh = s.fresh := by unfold State.retire; simp
@[simp] theorem State.retire_free (v : View) (t : Thr) (n : BitVec 4) : (s.retire v t n).free = s.free := by unfold State.retire; simp
@[simp] theorem State.retire_unread (v : View) (t : Thr) (n : BitVec 4) : (s.retire v t n).unread = s.unread := by unfold State.retire; simp

/-! ## State.noSpin -/

@[simp] theorem State.noSpin_mem (v : View) : (s.noSpin v).mem = s.mem := by unfold State.noSpin; split <;> rfl
@[simp] theorem State.noSpin_poison (v : View) : (s.noSpin v).poison = s.poison := by unfold State.noSpin; split <;> rfl
@[simp] theorem State.noSpin_registry (v : View) : (s.noSpin v).registry = s.registry := by unfold State.noSpin; split <;> rfl
@[simp] theorem State.noSpin_home (v : View) : (s.noSpin v).home = s.home := by unfold State.noSpin; split <;> rfl
@[simp] theorem State.noSpin_partials (v : View) : (s.noSpin v).partials = s.partials := by unfold State.noSpin; split <;> rfl
@[simp] theorem State.noSpin_net (v : View) : (s.noSpin v).net = s.net := by unfold State.noSpin; split <;> rfl
@[simp] theorem State.noSpin_l1 (v : View) : (s.noSpin v).l1 = s.l1 := by unfold State.noSpin; split <;> rfl
@[simp] theorem State.noSpin_front (v : View) : (s.noSpin v).front = s.front := by unfold State.noSpin; split <;> rfl
@[simp] theorem State.noSpin_dst (v : View) : (s.noSpin v).dst = s.dst := by unfold State.noSpin; split <;> rfl
@[simp] theorem State.noSpin_pkg (v : View) : (s.noSpin v).pkg = s.pkg := by unfold State.noSpin; split <;> rfl
@[simp] theorem State.noSpin_members (v : View) : (s.noSpin v).members = s.members := by unfold State.noSpin; split <;> rfl
@[simp] theorem State.noSpin_down (v : View) : (s.noSpin v).down = s.down := by unfold State.noSpin; split <;> rfl
@[simp] theorem State.noSpin_ps (v : View) : (s.noSpin v).ps = s.ps := by unfold State.noSpin; split <;> rfl
@[simp] theorem State.noSpin_lanes (v : View) : (s.noSpin v).lanes = s.lanes := by unfold State.noSpin; split <;> rfl
@[simp] theorem State.noSpin_teams (v : View) : (s.noSpin v).teams = s.teams := by unfold State.noSpin; split <;> rfl
@[simp] theorem State.noSpin_grids (v : View) : (s.noSpin v).grids = s.grids := by unfold State.noSpin; split <;> rfl
@[simp] theorem State.noSpin_cores (v : View) : (s.noSpin v).cores = s.cores := by unfold State.noSpin; split <;> rfl
@[simp] theorem State.noSpin_arrays (v : View) : (s.noSpin v).arrays = s.arrays := by unfold State.noSpin; split <;> rfl
@[simp] theorem State.noSpin_dies (v : View) : (s.noSpin v).dies = s.dies := by unfold State.noSpin; split <;> rfl
@[simp] theorem State.noSpin_clusters (v : View) : (s.noSpin v).clusters = s.clusters := by unfold State.noSpin; split <;> rfl
@[simp] theorem State.noSpin_islands (v : View) : (s.noSpin v).islands = s.islands := by unfold State.noSpin; split <;> rfl
@[simp] theorem State.noSpin_units (v : View) : (s.noSpin v).units = s.units := by unfold State.noSpin; split <;> rfl
@[simp] theorem State.noSpin_slcs (v : View) : (s.noSpin v).slcs = s.slcs := by unfold State.noSpin; split <;> rfl
@[simp] theorem State.noSpin_sides (v : View) : (s.noSpin v).sides = s.sides := by unfold State.noSpin; split <;> rfl
@[simp] theorem State.noSpin_retries (v : View) : (s.noSpin v).retries = s.retries := by unfold State.noSpin; split <;> rfl
@[simp] theorem State.noSpin_groups (v : View) : (s.noSpin v).groups = s.groups := by unfold State.noSpin; split <;> rfl
@[simp] theorem State.noSpin_hosts (v : View) : (s.noSpin v).hosts = s.hosts := by unfold State.noSpin; split <;> rfl
@[simp] theorem State.noSpin_windows (v : View) : (s.noSpin v).windows = s.windows := by unfold State.noSpin; split <;> rfl
@[simp] theorem State.noSpin_posts (v : View) : (s.noSpin v).posts = s.posts := by unfold State.noSpin; split <;> rfl
@[simp] theorem State.noSpin_areas (v : View) : (s.noSpin v).areas = s.areas := by unfold State.noSpin; split <;> rfl
@[simp] theorem State.noSpin_replies (v : View) : (s.noSpin v).replies = s.replies := by unfold State.noSpin; split <;> rfl
@[simp] theorem State.noSpin_notices (v : View) : (s.noSpin v).notices = s.notices := by unfold State.noSpin; split <;> rfl
@[simp] theorem State.noSpin_waiting (v : View) : (s.noSpin v).waiting = s.waiting := by unfold State.noSpin; split <;> rfl
@[simp] theorem State.noSpin_op (v : View) : (s.noSpin v).op = s.op := by unfold State.noSpin; split <;> rfl
@[simp] theorem State.noSpin_hkc (v : View) : (s.noSpin v).hkc = s.hkc := by unfold State.noSpin; split <;> rfl
@[simp] theorem State.noSpin_cur (v : View) : (s.noSpin v).cur = s.cur := by unfold State.noSpin; split <;> rfl
@[simp] theorem State.noSpin_inputs (v : View) : (s.noSpin v).inputs = s.inputs := by unfold State.noSpin; split <;> rfl
@[simp] theorem State.noSpin_fresh (v : View) : (s.noSpin v).fresh = s.fresh := by unfold State.noSpin; split <;> rfl
@[simp] theorem State.noSpin_free (v : View) : (s.noSpin v).free = s.free := by unfold State.noSpin; split <;> rfl
@[simp] theorem State.noSpin_unread (v : View) : (s.noSpin v).unread = s.unread := by unfold State.noSpin; split <;> rfl

/-! ## State.acquire -/

@[simp] theorem State.acquire_mem (n : Nat) : (s.acquire n).mem = s.mem := by unfold State.acquire; split <;> rfl
@[simp] theorem State.acquire_poison (n : Nat) : (s.acquire n).poison = s.poison := by unfold State.acquire; split <;> rfl
@[simp] theorem State.acquire_registry (n : Nat) : (s.acquire n).registry = s.registry := by unfold State.acquire; split <;> rfl
@[simp] theorem State.acquire_home (n : Nat) : (s.acquire n).home = s.home := by unfold State.acquire; split <;> rfl
@[simp] theorem State.acquire_partials (n : Nat) : (s.acquire n).partials = s.partials := by unfold State.acquire; split <;> rfl
@[simp] theorem State.acquire_net (n : Nat) : (s.acquire n).net = s.net := by unfold State.acquire; split <;> rfl
@[simp] theorem State.acquire_front (n : Nat) : (s.acquire n).front = s.front := by unfold State.acquire; split <;> rfl
@[simp] theorem State.acquire_dst (n : Nat) : (s.acquire n).dst = s.dst := by unfold State.acquire; split <;> rfl
@[simp] theorem State.acquire_pkg (n : Nat) : (s.acquire n).pkg = s.pkg := by unfold State.acquire; split <;> rfl
@[simp] theorem State.acquire_members (n : Nat) : (s.acquire n).members = s.members := by unfold State.acquire; split <;> rfl
@[simp] theorem State.acquire_down (n : Nat) : (s.acquire n).down = s.down := by unfold State.acquire; split <;> rfl
@[simp] theorem State.acquire_ps (n : Nat) : (s.acquire n).ps = s.ps := by unfold State.acquire; split <;> rfl
@[simp] theorem State.acquire_gangs (n : Nat) : (s.acquire n).gangs = s.gangs := by unfold State.acquire; split <;> rfl
@[simp] theorem State.acquire_lanes (n : Nat) : (s.acquire n).lanes = s.lanes := by unfold State.acquire; split <;> rfl
@[simp] theorem State.acquire_teams (n : Nat) : (s.acquire n).teams = s.teams := by unfold State.acquire; split <;> rfl
@[simp] theorem State.acquire_grids (n : Nat) : (s.acquire n).grids = s.grids := by unfold State.acquire; split <;> rfl
@[simp] theorem State.acquire_cores (n : Nat) : (s.acquire n).cores = s.cores := by unfold State.acquire; split <;> rfl
@[simp] theorem State.acquire_arrays (n : Nat) : (s.acquire n).arrays = s.arrays := by unfold State.acquire; split <;> rfl
@[simp] theorem State.acquire_dies (n : Nat) : (s.acquire n).dies = s.dies := by unfold State.acquire; split <;> rfl
@[simp] theorem State.acquire_clusters (n : Nat) : (s.acquire n).clusters = s.clusters := by unfold State.acquire; split <;> rfl
@[simp] theorem State.acquire_islands (n : Nat) : (s.acquire n).islands = s.islands := by unfold State.acquire; split <;> rfl
@[simp] theorem State.acquire_units (n : Nat) : (s.acquire n).units = s.units := by unfold State.acquire; split <;> rfl
@[simp] theorem State.acquire_slcs (n : Nat) : (s.acquire n).slcs = s.slcs := by unfold State.acquire; split <;> rfl
@[simp] theorem State.acquire_sides (n : Nat) : (s.acquire n).sides = s.sides := by unfold State.acquire; split <;> rfl
@[simp] theorem State.acquire_retries (n : Nat) : (s.acquire n).retries = s.retries := by unfold State.acquire; split <;> rfl
@[simp] theorem State.acquire_groups (n : Nat) : (s.acquire n).groups = s.groups := by unfold State.acquire; split <;> rfl
@[simp] theorem State.acquire_hosts (n : Nat) : (s.acquire n).hosts = s.hosts := by unfold State.acquire; split <;> rfl
@[simp] theorem State.acquire_windows (n : Nat) : (s.acquire n).windows = s.windows := by unfold State.acquire; split <;> rfl
@[simp] theorem State.acquire_posts (n : Nat) : (s.acquire n).posts = s.posts := by unfold State.acquire; split <;> rfl
@[simp] theorem State.acquire_areas (n : Nat) : (s.acquire n).areas = s.areas := by unfold State.acquire; split <;> rfl
@[simp] theorem State.acquire_replies (n : Nat) : (s.acquire n).replies = s.replies := by unfold State.acquire; split <;> rfl
@[simp] theorem State.acquire_notices (n : Nat) : (s.acquire n).notices = s.notices := by unfold State.acquire; split <;> rfl
@[simp] theorem State.acquire_waiting (n : Nat) : (s.acquire n).waiting = s.waiting := by unfold State.acquire; split <;> rfl
@[simp] theorem State.acquire_op (n : Nat) : (s.acquire n).op = s.op := by unfold State.acquire; split <;> rfl
@[simp] theorem State.acquire_hkc (n : Nat) : (s.acquire n).hkc = s.hkc := by unfold State.acquire; split <;> rfl
@[simp] theorem State.acquire_cur (n : Nat) : (s.acquire n).cur = s.cur := by unfold State.acquire; split <;> rfl
@[simp] theorem State.acquire_inputs (n : Nat) : (s.acquire n).inputs = s.inputs := by unfold State.acquire; split <;> rfl
@[simp] theorem State.acquire_fresh (n : Nat) : (s.acquire n).fresh = s.fresh := by unfold State.acquire; split <;> rfl
@[simp] theorem State.acquire_free (n : Nat) : (s.acquire n).free = s.free := by unfold State.acquire; split <;> rfl
@[simp] theorem State.acquire_unread (n : Nat) : (s.acquire n).unread = s.unread := by unfold State.acquire; split <;> rfl

/-! ## State.delay -/

@[simp] theorem State.delay_mem (u n : Nat) : (s.delay u n).mem = s.mem := rfl
@[simp] theorem State.delay_poison (u n : Nat) : (s.delay u n).poison = s.poison := rfl
@[simp] theorem State.delay_registry (u n : Nat) : (s.delay u n).registry = s.registry := rfl
@[simp] theorem State.delay_home (u n : Nat) : (s.delay u n).home = s.home := rfl
@[simp] theorem State.delay_partials (u n : Nat) : (s.delay u n).partials = s.partials := rfl
@[simp] theorem State.delay_net (u n : Nat) : (s.delay u n).net = s.net := rfl
@[simp] theorem State.delay_l1 (u n : Nat) : (s.delay u n).l1 = s.l1 := rfl
@[simp] theorem State.delay_front (u n : Nat) : (s.delay u n).front = s.front := rfl
@[simp] theorem State.delay_dst (u n : Nat) : (s.delay u n).dst = s.dst := rfl
@[simp] theorem State.delay_pkg (u n : Nat) : (s.delay u n).pkg = s.pkg := rfl
@[simp] theorem State.delay_members (u n : Nat) : (s.delay u n).members = s.members := rfl
@[simp] theorem State.delay_down (u n : Nat) : (s.delay u n).down = s.down := rfl
@[simp] theorem State.delay_ps (u n : Nat) : (s.delay u n).ps = s.ps := rfl
@[simp] theorem State.delay_lanes (u n : Nat) : (s.delay u n).lanes = s.lanes := rfl
@[simp] theorem State.delay_teams (u n : Nat) : (s.delay u n).teams = s.teams := rfl
@[simp] theorem State.delay_grids (u n : Nat) : (s.delay u n).grids = s.grids := rfl
@[simp] theorem State.delay_cores (u n : Nat) : (s.delay u n).cores = s.cores := rfl
@[simp] theorem State.delay_arrays (u n : Nat) : (s.delay u n).arrays = s.arrays := rfl
@[simp] theorem State.delay_dies (u n : Nat) : (s.delay u n).dies = s.dies := rfl
@[simp] theorem State.delay_clusters (u n : Nat) : (s.delay u n).clusters = s.clusters := rfl
@[simp] theorem State.delay_islands (u n : Nat) : (s.delay u n).islands = s.islands := rfl
@[simp] theorem State.delay_units (u n : Nat) : (s.delay u n).units = s.units := rfl
@[simp] theorem State.delay_slcs (u n : Nat) : (s.delay u n).slcs = s.slcs := rfl
@[simp] theorem State.delay_sides (u n : Nat) : (s.delay u n).sides = s.sides := rfl
@[simp] theorem State.delay_retries (u n : Nat) : (s.delay u n).retries = s.retries := rfl
@[simp] theorem State.delay_groups (u n : Nat) : (s.delay u n).groups = s.groups := rfl
@[simp] theorem State.delay_hosts (u n : Nat) : (s.delay u n).hosts = s.hosts := rfl
@[simp] theorem State.delay_windows (u n : Nat) : (s.delay u n).windows = s.windows := rfl
@[simp] theorem State.delay_posts (u n : Nat) : (s.delay u n).posts = s.posts := rfl
@[simp] theorem State.delay_areas (u n : Nat) : (s.delay u n).areas = s.areas := rfl
@[simp] theorem State.delay_replies (u n : Nat) : (s.delay u n).replies = s.replies := rfl
@[simp] theorem State.delay_notices (u n : Nat) : (s.delay u n).notices = s.notices := rfl
@[simp] theorem State.delay_waiting (u n : Nat) : (s.delay u n).waiting = s.waiting := rfl
@[simp] theorem State.delay_op (u n : Nat) : (s.delay u n).op = s.op := rfl
@[simp] theorem State.delay_hkc (u n : Nat) : (s.delay u n).hkc = s.hkc := rfl
@[simp] theorem State.delay_cur (u n : Nat) : (s.delay u n).cur = s.cur := rfl
@[simp] theorem State.delay_inputs (u n : Nat) : (s.delay u n).inputs = s.inputs := rfl
@[simp] theorem State.delay_fresh (u n : Nat) : (s.delay u n).fresh = s.fresh := rfl
@[simp] theorem State.delay_free (u n : Nat) : (s.delay u n).free = s.free := rfl
@[simp] theorem State.delay_unread (u n : Nat) : (s.delay u n).unread = s.unread := rfl

/-! ## State.modCore -/

@[simp] theorem State.modCore_mem (c : Nat) (f : Core → Core) : (s.modCore c f).mem = s.mem := rfl
@[simp] theorem State.modCore_poison (c : Nat) (f : Core → Core) : (s.modCore c f).poison = s.poison := rfl
@[simp] theorem State.modCore_registry (c : Nat) (f : Core → Core) : (s.modCore c f).registry = s.registry := rfl
@[simp] theorem State.modCore_home (c : Nat) (f : Core → Core) : (s.modCore c f).home = s.home := rfl
@[simp] theorem State.modCore_partials (c : Nat) (f : Core → Core) : (s.modCore c f).partials = s.partials := rfl
@[simp] theorem State.modCore_net (c : Nat) (f : Core → Core) : (s.modCore c f).net = s.net := rfl
@[simp] theorem State.modCore_l1 (c : Nat) (f : Core → Core) : (s.modCore c f).l1 = s.l1 := rfl
@[simp] theorem State.modCore_front (c : Nat) (f : Core → Core) : (s.modCore c f).front = s.front := rfl
@[simp] theorem State.modCore_dst (c : Nat) (f : Core → Core) : (s.modCore c f).dst = s.dst := rfl
@[simp] theorem State.modCore_pkg (c : Nat) (f : Core → Core) : (s.modCore c f).pkg = s.pkg := rfl
@[simp] theorem State.modCore_members (c : Nat) (f : Core → Core) : (s.modCore c f).members = s.members := rfl
@[simp] theorem State.modCore_down (c : Nat) (f : Core → Core) : (s.modCore c f).down = s.down := rfl
@[simp] theorem State.modCore_ps (c : Nat) (f : Core → Core) : (s.modCore c f).ps = s.ps := rfl
@[simp] theorem State.modCore_gangs (c : Nat) (f : Core → Core) : (s.modCore c f).gangs = s.gangs := rfl
@[simp] theorem State.modCore_lanes (c : Nat) (f : Core → Core) : (s.modCore c f).lanes = s.lanes := rfl
@[simp] theorem State.modCore_teams (c : Nat) (f : Core → Core) : (s.modCore c f).teams = s.teams := rfl
@[simp] theorem State.modCore_grids (c : Nat) (f : Core → Core) : (s.modCore c f).grids = s.grids := rfl
@[simp] theorem State.modCore_arrays (c : Nat) (f : Core → Core) : (s.modCore c f).arrays = s.arrays := rfl
@[simp] theorem State.modCore_dies (c : Nat) (f : Core → Core) : (s.modCore c f).dies = s.dies := rfl
@[simp] theorem State.modCore_clusters (c : Nat) (f : Core → Core) : (s.modCore c f).clusters = s.clusters := rfl
@[simp] theorem State.modCore_islands (c : Nat) (f : Core → Core) : (s.modCore c f).islands = s.islands := rfl
@[simp] theorem State.modCore_units (c : Nat) (f : Core → Core) : (s.modCore c f).units = s.units := rfl
@[simp] theorem State.modCore_slcs (c : Nat) (f : Core → Core) : (s.modCore c f).slcs = s.slcs := rfl
@[simp] theorem State.modCore_sides (c : Nat) (f : Core → Core) : (s.modCore c f).sides = s.sides := rfl
@[simp] theorem State.modCore_retries (c : Nat) (f : Core → Core) : (s.modCore c f).retries = s.retries := rfl
@[simp] theorem State.modCore_groups (c : Nat) (f : Core → Core) : (s.modCore c f).groups = s.groups := rfl
@[simp] theorem State.modCore_hosts (c : Nat) (f : Core → Core) : (s.modCore c f).hosts = s.hosts := rfl
@[simp] theorem State.modCore_windows (c : Nat) (f : Core → Core) : (s.modCore c f).windows = s.windows := rfl
@[simp] theorem State.modCore_posts (c : Nat) (f : Core → Core) : (s.modCore c f).posts = s.posts := rfl
@[simp] theorem State.modCore_areas (c : Nat) (f : Core → Core) : (s.modCore c f).areas = s.areas := rfl
@[simp] theorem State.modCore_replies (c : Nat) (f : Core → Core) : (s.modCore c f).replies = s.replies := rfl
@[simp] theorem State.modCore_notices (c : Nat) (f : Core → Core) : (s.modCore c f).notices = s.notices := rfl
@[simp] theorem State.modCore_waiting (c : Nat) (f : Core → Core) : (s.modCore c f).waiting = s.waiting := rfl
@[simp] theorem State.modCore_op (c : Nat) (f : Core → Core) : (s.modCore c f).op = s.op := rfl
@[simp] theorem State.modCore_hkc (c : Nat) (f : Core → Core) : (s.modCore c f).hkc = s.hkc := rfl
@[simp] theorem State.modCore_cur (c : Nat) (f : Core → Core) : (s.modCore c f).cur = s.cur := rfl
@[simp] theorem State.modCore_inputs (c : Nat) (f : Core → Core) : (s.modCore c f).inputs = s.inputs := rfl
@[simp] theorem State.modCore_fresh (c : Nat) (f : Core → Core) : (s.modCore c f).fresh = s.fresh := rfl
@[simp] theorem State.modCore_free (c : Nat) (f : Core → Core) : (s.modCore c f).free = s.free := rfl
@[simp] theorem State.modCore_unread (c : Nat) (f : Core → Core) : (s.modCore c f).unread = s.unread := rfl

/-! ## State.hold -/

@[simp] theorem State.hold_mem (u n : Nat) : (s.hold u n).mem = s.mem := rfl
@[simp] theorem State.hold_poison (u n : Nat) : (s.hold u n).poison = s.poison := rfl
@[simp] theorem State.hold_registry (u n : Nat) : (s.hold u n).registry = s.registry := rfl
@[simp] theorem State.hold_home (u n : Nat) : (s.hold u n).home = s.home := rfl
@[simp] theorem State.hold_partials (u n : Nat) : (s.hold u n).partials = s.partials := rfl
@[simp] theorem State.hold_net (u n : Nat) : (s.hold u n).net = s.net := rfl
@[simp] theorem State.hold_l1 (u n : Nat) : (s.hold u n).l1 = s.l1 := rfl
@[simp] theorem State.hold_front (u n : Nat) : (s.hold u n).front = s.front := rfl
@[simp] theorem State.hold_dst (u n : Nat) : (s.hold u n).dst = s.dst := rfl
@[simp] theorem State.hold_pkg (u n : Nat) : (s.hold u n).pkg = s.pkg := rfl
@[simp] theorem State.hold_members (u n : Nat) : (s.hold u n).members = s.members := rfl
@[simp] theorem State.hold_down (u n : Nat) : (s.hold u n).down = s.down := rfl
@[simp] theorem State.hold_ps (u n : Nat) : (s.hold u n).ps = s.ps := rfl
@[simp] theorem State.hold_lanes (u n : Nat) : (s.hold u n).lanes = s.lanes := rfl
@[simp] theorem State.hold_teams (u n : Nat) : (s.hold u n).teams = s.teams := rfl
@[simp] theorem State.hold_grids (u n : Nat) : (s.hold u n).grids = s.grids := rfl
@[simp] theorem State.hold_cores (u n : Nat) : (s.hold u n).cores = s.cores := rfl
@[simp] theorem State.hold_arrays (u n : Nat) : (s.hold u n).arrays = s.arrays := rfl
@[simp] theorem State.hold_dies (u n : Nat) : (s.hold u n).dies = s.dies := rfl
@[simp] theorem State.hold_clusters (u n : Nat) : (s.hold u n).clusters = s.clusters := rfl
@[simp] theorem State.hold_islands (u n : Nat) : (s.hold u n).islands = s.islands := rfl
@[simp] theorem State.hold_units (u n : Nat) : (s.hold u n).units = s.units := rfl
@[simp] theorem State.hold_slcs (u n : Nat) : (s.hold u n).slcs = s.slcs := rfl
@[simp] theorem State.hold_sides (u n : Nat) : (s.hold u n).sides = s.sides := rfl
@[simp] theorem State.hold_retries (u n : Nat) : (s.hold u n).retries = s.retries := rfl
@[simp] theorem State.hold_groups (u n : Nat) : (s.hold u n).groups = s.groups := rfl
@[simp] theorem State.hold_hosts (u n : Nat) : (s.hold u n).hosts = s.hosts := rfl
@[simp] theorem State.hold_windows (u n : Nat) : (s.hold u n).windows = s.windows := rfl
@[simp] theorem State.hold_posts (u n : Nat) : (s.hold u n).posts = s.posts := rfl
@[simp] theorem State.hold_areas (u n : Nat) : (s.hold u n).areas = s.areas := rfl
@[simp] theorem State.hold_replies (u n : Nat) : (s.hold u n).replies = s.replies := rfl
@[simp] theorem State.hold_notices (u n : Nat) : (s.hold u n).notices = s.notices := rfl
@[simp] theorem State.hold_waiting (u n : Nat) : (s.hold u n).waiting = s.waiting := rfl
@[simp] theorem State.hold_op (u n : Nat) : (s.hold u n).op = s.op := rfl
@[simp] theorem State.hold_hkc (u n : Nat) : (s.hold u n).hkc = s.hkc := rfl
@[simp] theorem State.hold_cur (u n : Nat) : (s.hold u n).cur = s.cur := rfl
@[simp] theorem State.hold_inputs (u n : Nat) : (s.hold u n).inputs = s.inputs := rfl
@[simp] theorem State.hold_fresh (u n : Nat) : (s.hold u n).fresh = s.fresh := rfl
@[simp] theorem State.hold_free (u n : Nat) : (s.hold u n).free = s.free := rfl
@[simp] theorem State.hold_unread (u n : Nat) : (s.hold u n).unread = s.unread := rfl

/-! ## Threads, gangs and teams -/

theorem State.setThr_gangs_gang (u : Nat) (t : Thr) :
    (s.setThr (.gang u) t).gangs = tmod s.gangs u fun g => { g with thr := t } := rfl
@[simp] theorem State.setThr_gangs_lane (c : Nat) (t : Thr) : (s.setThr (.lane c) t).gangs = s.gangs := rfl
theorem State.setThr_lanes_lane (c : Nat) (t : Thr) :
    (s.setThr (.lane c) t).lanes = tmod s.lanes c fun l => { l with thr := t } := rfl
@[simp] theorem State.setThr_lanes_gang (u : Nat) (t : Thr) : (s.setThr (.gang u) t).lanes = s.lanes := rfl
theorem State.modGang_gangs (u : Nat) (f : Gang → Gang) : (s.modGang u f).gangs = tmod s.gangs u f := rfl
theorem State.modTeam_teams (n : Nat) (f : Team → Team) : (s.modTeam n f).teams = tmod s.teams n f := rfl
@[simp] theorem State.bump_fresh : s.bump.fresh = s.fresh + 1 := rfl
@[simp] theorem State.useFree_free : s.useFree.free = s.free + 1 := rfl
@[simp] theorem State.clk_setThr (a : Actor) (t : Thr) (core : Nat) : (s.setThr a t).clk core = s.clk core := by
  cases a <;> rfl
@[simp] theorem State.clk_modGang (u : Nat) (f : Gang → Gang) (core : Nat) : (s.modGang u f).clk core = s.clk core := rfl

end Sys2Proof.Machine
end

