-- ==== Sys2Proof/Laws/Coherence.lean ====
section
/-!
SUPPORT. The coherence operations keep memory in canonical form: each says once what it can do to memory, up to the
device's own reads and writes, through which every record in memory is reached.
-/
namespace Sys2Proof.Machine

/-- What every step of a fold keeps, the fold keeps. -/
theorem foldl_keeps {α β : Type} {P : β → Prop} {f : β → α → β} (xs : List α) {b : β} (h : P b)
    (step : ∀ b x, P b → P (f b x)) : P (xs.foldl f b) := by
  induction xs generalizing b with
  | nil => exact h
  | cons x xs ih => exact ih (step b x h)

/-- A fold whose steps leave memory alone leaves memory alone. -/
theorem foldl_mem {α : Type} {f : State → α → State} (xs : List α) (s : State) (step : ∀ s x, (f s x).mem = s.mem) :
    (xs.foldl f s).mem = s.mem :=
  foldl_keeps (P := fun t : State => t.mem = s.mem) xs rfl fun t x h => by rw [step, h]

/-- A fold whose steps keep the canonical form keeps it. -/
theorem foldl_memWf {α : Type} {f : State → α → State} (xs : List α) {s : State} (h : memWf s.mem = true)
    (step : ∀ (s : State) x, memWf s.mem = true → memWf (f s x).mem = true) : memWf (xs.foldl f s).mem = true :=
  foldl_keeps (P := fun t : State => memWf t.mem = true) xs h step

variable {s : State}

/-! ## Operations that do not touch memory -/

@[simp] theorem State.setL1_mem (a : Nat) (c : L1) : (s.setL1 a c).mem = s.mem := rfl
@[simp] theorem State.setEntry_mem (k : Nat) (e : HomeEntry) : (s.setEntry k e).mem = s.mem := rfl
@[simp] theorem State.setUnit_mem (k : Nat) (u : HomeUnit) : (s.setUnit k u).mem = s.mem := rfl
@[simp] theorem State.send_mem (b : Body) : (s.send b).mem = s.mem := rfl
@[simp] theorem State.request_mem (a k : Nat) (r : Req) (p : Option Nat) : (s.request a k r p).mem = s.mem := rfl
@[simp] theorem State.unsend_mem (m : Nat) : (s.unsend m).mem = s.mem := rfl
@[simp] theorem State.logErr_mem (k : Nat) (a b : Word) : (s.logErr k a b).mem = s.mem := rfl
@[simp] theorem State.unstage_mem (k : Nat) : (s.unstage k).mem = s.mem := rfl
@[simp] theorem State.revokeOwner_mem (k a : Nat) : (s.revokeOwner k a).mem = s.mem := rfl
@[simp] theorem State.modAgent_mem (a : Nat) (f : Thr → Thr) : (s.modAgent a f).mem = s.mem := rfl
@[simp] theorem State.cancelFills_mem (a : Nat) (ws : List Nat) : (s.cancelFills a ws).mem = s.mem := rfl
@[simp] theorem State.answer_mem (a : Option Actor) (n : Nat) (g : Flight → Flight) : (s.answer a n g).mem = s.mem := by
  cases a <;> simp [State.answer]
@[simp] theorem State.ackWrite_mem (a : Actor) (e : Option PostErr) (n : Nat) : (s.ackWrite a e n).mem = s.mem := by
  simp [State.ackWrite]
@[simp] theorem State.answerErr_mem (a : Option Actor) (n l : Nat) (e : MemErr) (va : Word) (b : Bool) :
    (s.answerErr a n l e va b).mem = s.mem := by cases a <;> simp [State.answerErr]
@[simp] theorem State.answerWatch_mem (a : Actor) (l pa : Nat) (r : Except MemErr Word) (m : Bool) :
    (s.answerWatch a l pa r m).mem = s.mem := by simp [State.answerWatch]

@[simp] theorem State.wakeOne_mem (a : Actor) : (s.wakeOne a).mem = s.mem := by unfold State.wakeOne; split <;> rfl
@[simp] theorem State.wakeIf_mem (p : Nat → Nat → Bool) : (s.wakeIf p).mem = s.mem := by
  unfold State.wakeIf
  rw [foldl_mem _ _ fun _ _ => State.send_mem _, foldl_mem _ s fun _ _ => State.wakeOne_mem _]
@[simp] theorem State.wake_mem (m : List Host.Cell) : (s.wake m).mem = s.mem := State.wakeIf_mem _
@[simp] theorem State.wakeOver_mem (pa n : Nat) : (s.wakeOver pa n).mem = s.mem := State.wakeIf_mem _

@[simp] theorem State.sweepCst_mem (k : Nat) : (s.sweepCst k).mem = s.mem := by
  unfold State.sweepCst
  exact foldl_mem _ s fun t x => by split <;> rfl

@[simp] theorem State.storesDone_mem (l : List PStore) (es : List (Actor × PostErr)) : (s.storesDone l es).mem = s.mem := by
  unfold State.storesDone
  rw [foldl_mem _ _ fun _ _ => State.modThr_mem .., foldl_mem _ _ fun _ _ => State.modThr_mem ..]

@[simp] theorem State.takeGrant_mem (a k : Nat) (ws : List (Nat × Word × Bool)) : (s.takeGrant a k ws).mem = s.mem := by
  simp [State.takeGrant]

@[simp] theorem State.surrender_mem (a k : Nat) : (s.surrender a k).mem = s.mem := by
  unfold State.surrender
  dsimp only
  split <;> rfl

@[simp] theorem State.makeRoom_mem (k : Nat) : (s.makeRoom k).mem = s.mem := by
  unfold State.makeRoom
  (repeat' split) <;> rfl

@[simp] theorem State.askOwners_mem (pa n : Nat) (p : Option Nat) (f : HomeUnit → Bool) (g : Nat → Nat → Stage × Body) :
    (s.askOwners pa n p f g).mem = s.mem := by
  unfold State.askOwners
  exact foldl_mem _ s fun t x => by dsimp only; (repeat' split) <;> rfl

@[simp] theorem State.stir_mem (pa n : Nat) (p : Option Nat) : (s.stir pa n p).mem = s.mem := State.askOwners_mem ..

@[simp] theorem State.stirRead_mem (pa n : Nat) (p : Option Nat) : (s.stirRead pa n p).mem = s.mem := by
  unfold State.stirRead
  split
  · exact State.askOwners_mem ..
  · rfl

@[simp] theorem State.endMon_mem (k : Nat) : (s.endMon k).mem = s.mem := by unfold State.endMon; split <;> rfl

/-! ## Operations that write memory -/

theorem memWf_storeIx (h : memWf s.mem = true) (ix : List (Nat × Byte)) : memWf (s.storeIx ix).1.mem = true := by
  unfold State.storeIx
  refine foldl_memWf _ h fun t x ht => ?_
  split
  · exact ht
  · exact memWf_memSetByte ht _ _

theorem memWf_storeHome (h : memWf s.mem = true) (pa : Nat) (bs : List Byte) : memWf (s.storeHome pa bs).1.mem = true :=
  memWf_storeIx h _

theorem memWf_putWords (h : memWf s.mem = true) (ws : List (Nat × Word × Bool)) : memWf (s.putWords ws).mem = true :=
  foldl_memWf _ h fun _ _ ht => memWf_setMemWord ht _ _ _

theorem memWf_writeWords (h : memWf s.mem = true) (ws : List (Nat × Word × Bool)) : memWf (s.writeWords ws).mem = true := by
  unfold State.writeWords
  rw [foldl_mem _ _ fun _ _ => State.wakeOver_mem ..]
  exact memWf_putWords h ws

theorem memWf_merge (h : memWf s.mem = true) (k : Nat) : memWf (s.merge k).mem = true := by
  unfold State.merge
  dsimp only
  split
  · exact h
  · rw [State.wake_mem, State.sweepCst_mem]
    exact foldl_memWf _ h fun t p ht => foldl_memWf _ ht fun t e ht => memWf_applyElem ht p e

theorem memWf_addPartial (h : memWf s.mem = true) (d k pa : Nat) (op : AOp) (b : Bool) (x : Word) (p : Option Nat) :
    memWf (s.addPartial d k pa op b x p).mem = true := by
  unfold State.addPartial
  dsimp only
  rw [State.setEntry_mem]
  (repeat' split) <;> first | exact h | exact foldl_memWf _ h fun _ _ ht => memWf_merge ht _

/-- Home's answer to a message of another package keeps the canonical form. -/
theorem memWf_servePeer (h : memWf s.mem = true) (a k : Nat) (e : HomeEntry) (q : PeerReq) (m : Bool) :
    memWf (s.servePeer a k e q m).mem = true := by
  unfold State.servePeer
  dsimp only
  (repeat' split) <;> first
    | simpa using h
    | (simp only [State.send_mem, State.wakeOver_mem]; exact memWf_storeHome h _ _)

/-- A home's service of a request keeps the canonical form. -/
theorem memWf_serve (h : memWf s.mem = true) (r : HomeReq) : memWf (s.serve r).mem = true := by
  unfold State.serve
  have h0 : memWf (if s.inbound r && s.poisonMet r then s.noteInbound r else s).mem = true := by
    split
    · exact h
    · exact h
  revert h0
  generalize (if s.inbound r && s.poisonMet r then s.noteInbound r else s) = s0
  intro h0
  dsimp only
  split
  · simpa using h
  · replace h := h0
    split
    · simpa using h
    · (repeat' split) <;> simpa using h
    · split
      · simpa using h
      · simpa using memWf_storeHome h _ _
    · split
      · simpa using h
      · split
        · simpa using h
        · rw [State.send_mem, State.wakeOver_mem]
          exact memWf_memSetNat h _ _ _
    · split
      · simpa using h
      · simpa using memWf_addPartial h _ _ _ _ _ _ _
    · (repeat' split) <;> simpa using h
    · split
      · simpa using h
      · simp only [State.answer_mem]
        split
        · simpa using memWf_memSetNat h _ _ _
        · exact h
    · split <;> simpa using h
    · exact memWf_servePeer h ..

/-- What the second unit of a plane word needs keeps the canonical form. -/
theorem memWf_prepareSecond (h : memWf s.mem = true) (j : Nat) :
    (∀ t, s.prepareSecond j = .ready t → memWf t.mem = true) ∧ ∀ t, s.prepareSecond j = .waits t → memWf t.mem = true := by
  constructor <;> intro t ht <;> unfold State.prepareSecond at ht <;> (repeat' split at ht) <;> cases ht <;>
    first | exact h | exact memWf_merge h _

/-- What home does before it can serve a request keeps the canonical form. -/
theorem memWf_prepare (h : memWf s.mem = true) (r : HomeReq) :
    (∀ t, s.prepare r = .ready t → memWf t.mem = true) ∧ ∀ t, s.prepare r = .waits t → memWf t.mem = true := by
  have hm : memWf (if s.merges r then s.merge r.ukey else s).mem = true := by
    split
    · exact memWf_merge h _
    · exact h
  unfold State.prepare
  dsimp only
  split
  · exact ⟨fun t ht => by cases ht; exact h, fun t ht => by cases ht⟩
  · generalize (if s.merges r then s.merge r.ukey else s) = s' at hm ⊢
    split
    · (repeat' split) <;> exact ⟨fun t ht => by cases ht <;> simpa using hm, fun t ht => by cases ht <;> simpa using hm⟩
    · split
      · exact ⟨fun t ht => (by cases ht), fun t ht => by cases ht; simpa using hm⟩
      · split
        · exact ⟨fun t ht => (by cases ht; exact hm), fun t ht => by cases ht⟩
        · exact memWf_prepareSecond hm _

theorem memWf_drain (n : Nat) {s : State} (h : memWf s.mem = true) (k : Nat) : memWf (s.drain k n).mem = true := by
  induction n generalizing s with
  | zero => exact h
  | succ n ih =>
    unfold State.drain
    dsimp only
    split
    · exact h
    · split
      · exact h
      · split
        · rename_i hp; exact (memWf_prepare h _).2 _ hp
        · rename_i hp; exact ih (memWf_serve (by simpa using (memWf_prepare h _).1 _ hp) _)

theorem memWf_drainAll (h : memWf s.mem = true) (k : Nat) : memWf (s.drainAll k).mem = true := memWf_drain _ h k

theorem memWf_settleHome (h : memWf s.mem = true) : memWf s.settleHome.mem = true :=
  foldl_memWf _ h fun _ _ ht => memWf_drainAll ht _

theorem memWf_arrive (h : memWf s.mem = true) (r : HomeReq) : memWf (s.arrive r).mem = true :=
  memWf_drainAll (by simpa using h) _

theorem memWf_takeWriteBack (h : memWf s.mem = true) (a k : Nat) (ws : List (Nat × Word × Bool)) :
    memWf (s.takeWriteBack a k ws).mem = true := by
  unfold State.takeWriteBack
  dsimp only
  (repeat' split) <;> first | exact h | simpa using memWf_writeWords h ws

theorem memWf_takeForward (h : memWf s.mem = true) (a k : Nat) (ws : List (Nat × Word × Bool)) :
    memWf (s.takeForward a k ws).mem = true := by
  unfold State.takeForward
  dsimp only
  split
  · exact h
  · split
    · split
      · exact memWf_drainAll (memWf_serve (by simpa using memWf_writeWords h ws) _) _
      · exact memWf_drainAll (by simpa using h) _
    · split
      · simpa using memWf_writeWords h ws
      · simpa using h
    · exact h

theorem memWf_revokeNow (h : memWf s.mem = true) (k a : Nat) : memWf (s.revokeNow k a).mem = true := by
  have end_ (t : State) (ht : memWf t.mem = true) : memWf (if t.waitsFor k a then
      (({ t with net := t.net.filter fun x => x.body != Body.revoke a k && x.body != Body.forward a k }).unstage k).drainAll k
      else t).mem = true := by
    split
    · exact memWf_drainAll (by simpa using ht) _
    · exact ht
  unfold State.revokeNow
  refine end_ _ ?_
  rw [State.surrender_mem]
  split
  · simpa using memWf_writeWords h _
  · exact h

theorem memWf_recallUnit (h : memWf s.mem = true) (k : Nat) : memWf (s.recallUnit k).mem = true := by
  unfold State.recallUnit
  dsimp only
  refine memWf_merge ?_ k
  (repeat' split) <;> first | exact h | exact memWf_revokeNow h _ _

theorem memWf_recall (h : memWf s.mem = true) (pa n : Nat) : memWf (s.recall pa n).mem = true :=
  foldl_memWf _ h fun _ _ ht => memWf_recallUnit ht _

theorem memWf_readUnit (h : memWf s.mem = true) (k : Nat) : memWf (s.readUnit k).mem = true := by
  have hm := memWf_merge h k
  have end_ (t : State) (ht : memWf t.mem = true) :
      memWf (if (t.unit k).got == .given then t.setUnit k { t.unit k with got := .used } else t).mem = true := by
    split
    · exact ht
    · exact ht
  unfold State.readUnit
  refine end_ _ ?_
  generalize s.merge k = s' at hm ⊢
  split
  · split
    · exact memWf_writeWords (by simpa using hm) _
    · exact hm
  · exact hm

theorem memWf_readOver (h : memWf s.mem = true) (pa n : Nat) : memWf (s.readOver pa n).mem = true := by
  unfold State.readOver
  split
  · exact h
  · exact foldl_memWf _ h fun _ _ ht => memWf_readUnit ht _

/-- A coherent read of the device keeps the canonical form. -/
theorem memWf_devRead (h : memWf s.mem = true) (pa n : Nat) : memWf (s.devRead pa n).1.mem = true := memWf_readOver h pa n

/-- A coherent write of the device keeps the canonical form. -/
theorem memWf_devWrite (h : memWf s.mem = true) (pa : Nat) (bs : List Byte) : memWf (s.devWrite pa bs).mem = true := by
  unfold State.devWrite
  dsimp only
  rw [State.wakeOver_mem]
  exact memWf_storeIx (memWf_recall h _ _) _

/-! ## Room in the registry (R121, R124) -/

/-- With fewer than 16 entries in the registry no set is full. -/
@[simp] theorem setFull_of_few (h : s.registry.length < 16) (k : Nat) : s.setFull k = false := by
  have : ¬16 ≤ s.registry.length := by omega
  simp [State.setFull, this]

/-! ## Areas and renumbering, which bring units home first -/

/-- A swap area cleared keeps the canonical form. -/
theorem memWf_clearArea (h : memWf s.mem = true) (area : Nat) : memWf (s.clearArea area).mem = true := by
  unfold State.clearArea
  refine memWf_filter _ (foldl_memWf _ h fun t x ht => ?_)
  split
  · exact memWf_recallUnit ht _
  · exact ht

/-- Memory moved to another package's number is in canonical form. -/
theorem memWf_renumber (h : memWf s.mem = true) (n : BitVec 5) : memWf (s.renumber n).mem = true := by
  unfold State.renumber
  split
  · exact h
  · exact memWf_foldl (m := []) rfl _ _ _

/-! ## What the HKC logs (R465) -/

/-- Noting a request that cannot be sent writes the HKC's log only. -/
theorem State.noteRemote_eq (s : State) (pas : List Nat) : s.noteRemote pas = { s with hkc := (s.noteRemote pas).hkc } := by
  unfold State.noteRemote; split <;> rfl

/-- Where every address can be reached nothing is noted. -/
theorem State.noteRemote_of_reach (s : State) (pas : List Nat) (h : ∀ pa ∈ pas, s.remoteBad pa = false) :
    s.noteRemote pas = s := by
  unfold State.noteRemote
  split
  · rename_i pa hf
    have hm := List.mem_of_find?_eq_some hf
    have hp := List.find?_some hf
    have := h pa hm
    simp only [State.remoteBad] at this
    simp_all
  · rfl

@[simp] theorem State.noteRemote_mem (s : State) (pas : List Nat) : (s.noteRemote pas).mem = s.mem := by
  rw [State.noteRemote_eq]
@[simp] theorem State.noteRemote_net (s : State) (pas : List Nat) : (s.noteRemote pas).net = s.net := by
  rw [State.noteRemote_eq]
@[simp] theorem State.noteRemote_l1 (s : State) (pas : List Nat) : (s.noteRemote pas).l1 = s.l1 := by
  rw [State.noteRemote_eq]
@[simp] theorem State.noteRemote_gangs (s : State) (pas : List Nat) : (s.noteRemote pas).gangs = s.gangs := by
  rw [State.noteRemote_eq]
@[simp] theorem State.noteRemote_lanes (s : State) (pas : List Nat) : (s.noteRemote pas).lanes = s.lanes := by
  rw [State.noteRemote_eq]
@[simp] theorem State.noteRemote_teams (s : State) (pas : List Nat) : (s.noteRemote pas).teams = s.teams := by
  rw [State.noteRemote_eq]
@[simp] theorem State.noteRemote_arrays (s : State) (pas : List Nat) : (s.noteRemote pas).arrays = s.arrays := by
  rw [State.noteRemote_eq]
@[simp] theorem State.noteRemote_home (s : State) (pas : List Nat) : (s.noteRemote pas).home = s.home := by
  rw [State.noteRemote_eq]
@[simp] theorem State.noteRemote_registry (s : State) (pas : List Nat) : (s.noteRemote pas).registry = s.registry := by
  rw [State.noteRemote_eq]
@[simp] theorem State.noteRemote_partials (s : State) (pas : List Nat) : (s.noteRemote pas).partials = s.partials := by
  rw [State.noteRemote_eq]
@[simp] theorem State.noteRemote_cores (s : State) (pas : List Nat) : (s.noteRemote pas).cores = s.cores := by
  rw [State.noteRemote_eq]
@[simp] theorem State.noteRemote_fresh (s : State) (pas : List Nat) : (s.noteRemote pas).fresh = s.fresh := by
  rw [State.noteRemote_eq]
@[simp] theorem State.noteRemote_free (s : State) (pas : List Nat) : (s.noteRemote pas).free = s.free := by
  rw [State.noteRemote_eq]
@[simp] theorem State.noteRemote_ps (s : State) (pas : List Nat) : (s.noteRemote pas).ps = s.ps := by
  rw [State.noteRemote_eq]
@[simp] theorem State.noteRemote_poison (s : State) (pas : List Nat) : (s.noteRemote pas).poison = s.poison := by
  rw [State.noteRemote_eq]

end Sys2Proof.Machine
end

