-- ==== Sys2Proof/Laws/Encoding.lean ====
section
/-!
SUPPORT. The laws of the encoding: the fields of a packed word are the fields packed, for each of the six formats, and
every coded field reads back as what was coded.
-/
namespace Sys2Proof

/-! ## The six formats -/

/-- The fields of a packed word of Format R. -/
@[simp] theorem unpackR_packR (f : FR) : unpackR (packR f) = f := by
  unfold unpackR packR bits
  obtain ⟨x0, x1, x2, x3, x4, x5, x6, x7, x8, x9, x10, x11, x12, x13⟩ := f
  congr 1
  all_goals
    repeat first
      | exact BitVec.extractLsb'_eq_self
      | refine (BitVec.extractLsb'_append_eq_of_le (by decide)).trans ?_
      | refine (BitVec.extractLsb'_append_eq_of_add_le (by decide)).trans ?_

/-- The fields of a packed word of Format I. -/
@[simp] theorem unpackI_packI (f : FI) : unpackI (packI f) = f := by
  unfold unpackI packI bits
  obtain ⟨x0, x1, x2, x3, x4, x5, x6, x7, x8, x9, x10⟩ := f
  congr 1
  all_goals
    repeat first
      | exact BitVec.extractLsb'_eq_self
      | refine (BitVec.extractLsb'_append_eq_of_le (by decide)).trans ?_
      | refine (BitVec.extractLsb'_append_eq_of_add_le (by decide)).trans ?_

/-- The fields of a packed word of Format B. -/
@[simp] theorem unpackB_packB (f : FB) : unpackB (packB f) = f := by
  unfold unpackB packB bits
  obtain ⟨x0, x1, x2, x3, x4, x5, x6, x7, x8⟩ := f
  congr 1
  all_goals
    repeat first
      | exact BitVec.extractLsb'_eq_self
      | refine (BitVec.extractLsb'_append_eq_of_le (by decide)).trans ?_
      | refine (BitVec.extractLsb'_append_eq_of_add_le (by decide)).trans ?_

/-- The fields of a packed word of Format M. -/
@[simp] theorem unpackM_packM (f : FM) : unpackM (packM f) = f := by
  unfold unpackM packM bits
  obtain ⟨x0, x1, x2, x3, x4, x5, x6, x7, x8, x9, x10, x11, x12, x13⟩ := f
  congr 1
  all_goals
    repeat first
      | exact BitVec.extractLsb'_eq_self
      | refine (BitVec.extractLsb'_append_eq_of_le (by decide)).trans ?_
      | refine (BitVec.extractLsb'_append_eq_of_add_le (by decide)).trans ?_

/-- The fields of a packed word of Format A. -/
@[simp] theorem unpackA_packA (f : FA) : unpackA (packA f) = f := by
  unfold unpackA packA bits
  obtain ⟨x0, x1, x2, x3, x4, x5, x6, x7, x8, x9, x10, x11, x12, x13, x14⟩ := f
  congr 1
  all_goals
    repeat first
      | exact BitVec.extractLsb'_eq_self
      | refine (BitVec.extractLsb'_append_eq_of_le (by decide)).trans ?_
      | refine (BitVec.extractLsb'_append_eq_of_add_le (by decide)).trans ?_

/-- The fields of a packed word of Format X. -/
@[simp] theorem unpackX_packX (f : FX) : unpackX (packX f) = f := by
  unfold unpackX packX bits
  obtain ⟨x0, x1, x2, x3, x4, x5, x6, x7, x8, x9, x10, x11, x12⟩ := f
  congr 1
  all_goals
    repeat first
      | exact BitVec.extractLsb'_eq_self
      | refine (BitVec.extractLsb'_append_eq_of_le (by decide)).trans ?_
      | refine (BitVec.extractLsb'_append_eq_of_add_le (by decide)).trans ?_

/-! ## Coded fields -/

@[simp] theorem ITy.ofBits_bits (x : ITy) : ITy.ofBits x.bits = x := by cases x <;> rfl
@[simp] theorem ICond.ofBits_bits (x : ICond) : ICond.ofBits x.bits = some x := by cases x <;> rfl
@[simp] theorem RMode.ofBits_bits (x : RMode) : RMode.ofBits x.bits = x := by cases x <;> rfl
@[simp] theorem FCond.ofBits_bits (x : FCond) : FCond.ofBits x.bits = some x := by cases x <;> rfl
@[simp] theorem CvtOp.ofBits_bits (x : CvtOp) : CvtOp.ofBits x.bits = x := by cases x <;> rfl
@[simp] theorem CvtpOp.ofBits_bits (x : CvtpOp) : CvtpOp.ofBits x.bits = some x := by cases x <;> rfl
@[simp] theorem MovkPart.ofBits_bits (x : MovkPart) : MovkPart.ofBits x.bits = some x := by cases x <;> rfl
@[simp] theorem LogiOp.ofBits_bits (x : LogiOp) : LogiOp.ofBits x.bits = x := by cases x <;> rfl
@[simp] theorem ShflMode.ofBits_bits (x : ShflMode) : ShflMode.ofBits x.bits = x := by cases x <;> rfl
@[simp] theorem VoteFn.ofBits_bits (x : VoteFn) : VoteFn.ofBits x.bits = some x := by cases x <;> rfl
@[simp] theorem GOp.ofBits_bits (x : GOp) : GOp.ofBits x.bits = some x := by cases x <;> rfl
@[simp] theorem Sz.ofBits_bits (x : Sz) : Sz.ofBits x.bits = some x := by cases x <;> rfl
@[simp] theorem Pol.ofBits_bits (x : Pol) : Pol.ofBits x.bits = some x := by cases x <;> rfl
@[simp] theorem Ord.ofBits_bits (x : Ord) : Ord.ofBits x.bits = some x := by cases x <;> rfl
@[simp] theorem AOp.ofBits_bits (x : AOp) : AOp.ofBits x.bits = some x := by cases x <;> rfl
@[simp] theorem Path.ofBits_bits (x : Path) : Path.ofBits x.bits = some x := by cases x <;> rfl
@[simp] theorem CopyConv.ofBits_bits (x : CopyConv) : CopyConv.ofBits x.bits = some x := by cases x <;> rfl
@[simp] theorem FillSz.ofBits_bits (x : FillSz) : FillSz.ofBits x.bits = some x := by cases x <;> rfl
@[simp] theorem PMode.ofBits_bits (x : PMode) : PMode.ofBits x.bits = some x := by cases x <;> rfl
@[simp] theorem Shp.ofBits_bits (x : Shp) : Shp.ofBits x.bits = some x := by cases x <;> rfl
@[simp] theorem Special.ofNum_num (x : Special) : Special.ofNum x.num = some x := by cases x <;> rfl
@[simp] theorem SpReg.ofNum_num (x : SpReg) : SpReg.ofNum x.num = some x := by
  cases x with
  | satc n => revert n; decide
  | rprog n => revert n; decide
  | _ => rfl

/-- An operand field and its indexed bit read back as the operand. -/
theorem opdOf_field (o : Opd) : opdOf o.field o.ixBit = o := by
  cases o with
  | v n ix => cases ix <;> (revert n; decide)
  | s n => revert n; decide
  | k n => revert n; decide
  | p sp => cases sp <;> rfl
  | c n => revert n; decide

end Sys2Proof
end

