-- ==== Sys2Proof/Laws/Issue.lean ====
section
/-!
SUPPORT. What the operations every instruction shares can do, said once: the checks at issue, the computed instructions, and
the one fault of the dispatcher.
-/
namespace Sys2Proof.Machine

variable {s : State}

/-- The thread that is to execute. -/
theorem State.admits_noView {u : Uses} (h : s.view = none) : s.admits u = .error (.fault .noAgent) := by
  simp [State.admits, h]

/-- What holds of an instruction that has passed its checks at issue (R36, R52, R64, R67, R461): it acts at its cycle with
the landed results, in the lanes whose guard passes, within the allotment and with no poisoned source. -/
theorem State.admits_ok {u : Uses} {s1 : State} {v : View} {ex : Mask} (h : s.admits u = .ok (s1, v, ex)) :
    ∃ v0, s.view = some v0 ∧ (v0.lane.isSome = true → u.safe = true) ∧ s.startIssue v0 = (s1, v) ∧ ex = v.exec u.p ∧
      v.t.vTop u.ixs (u.rd ++ u.wr) ≤ v.g.vallot ∧ v.poisoned u ex = none := by
  unfold State.admits at h
  split at h
  · cases h
  · rename_i v0 hv
    split at h
    · cases h
    · rename_i hs
      cases hi : s.startIssue v0 with | mk s' v' =>
      simp only [hi] at h
      (repeat' split at h) <;> cases h
      exact ⟨v0, hv, by simpa using hs, hi, rfl, by omega, ‹_›⟩

/-- Where an instruction does not pass its checks it still answers a next state, but where there is no thread at all. -/
theorem State.admits_error {u : Uses} {o : Out} (h : s.admits u = .error o) :
    (∃ t, o = .next t) ∨ (s.view = none ∧ o = .fault .noAgent) := by
  unfold State.admits at h
  split at h
  · cases h; exact .inr ⟨‹_›, rfl⟩
  · left
    dsimp only at h
    (repeat' split at h) <;> cases h <;> exact ⟨_, rfl⟩

/-- An instruction that passes its checks does what its body says. -/
theorem State.issue_ok {u : Uses} {body : State → View → Mask → Out} {s1 : State} {v : View} {ex : Mask}
    (h : s.admits u = .ok (s1, v, ex)) : s.issue u body = body s1 v ex := by simp [State.issue, h]

/-- What an instruction can answer: what its checks do instead, or what its body answers after them. -/
theorem State.issue_cases {u : Uses} {body : State → View → Mask → Out} {o : Out} (h : s.issue u body = o) :
    (∃ t, o = .next t) ∨ (s.view = none ∧ o = .fault .noAgent) ∨
    ∃ s1 v ex, s.admits u = .ok (s1, v, ex) ∧ o = body s1 v ex := by
  cases ha : s.admits u with
  | error e =>
    simp only [State.issue, ha] at h
    subst h
    exact (State.admits_error ha).imp_right .inl
  | ok r =>
    obtain ⟨s1, v, ex⟩ := r
    simp only [State.issue, ha] at h
    exact .inr (.inr ⟨s1, v, ex, rfl, h.symm⟩)

/-- A computed instruction that passes its checks ends with its results on their way. -/
theorem State.alu_ok {p : Pre} {ixs : BitVec 2} {lat : Nat} {d : Opd} {wide signed : Bool} {srcs : List (Opd × Rd)}
    {keep : Bool} {f : List Word → Word × FFlags} {s1 : State} {v : View} {ex : Mask}
    (h : s.admits (aluUses p ixs d wide srcs keep) = .ok (s1, v, ex)) :
    s.alu p ixs lat d wide signed srcs keep f = .next (s1.aluEnd v ex p ixs lat d wide signed srcs f) := by
  simp [State.alu, State.issue, h]

/-- A computed instruction always answers a next state while there is a thread. -/
theorem State.alu_next {p : Pre} {ixs : BitVec 2} {lat : Nat} {d : Opd} {wide signed : Bool} {srcs : List (Opd × Rd)}
    {keep : Bool} {f : List Word → Word × FFlags} (h : s.view ≠ none) :
    ∃ t, s.alu p ixs lat d wide signed srcs keep f = .next t := by
  rcases State.issue_cases (s := s) (u := aluUses p ixs d wide srcs keep) rfl with h1 | ⟨h1, -⟩ | ⟨s1, v, ex, -, h1⟩
  · exact h1
  · exact absurd h1 h
  · exact ⟨_, h1⟩

/-! ## The end of an instruction touches its thread alone -/

@[simp] theorem State.noteGot_mem (v : View) (w : List RegW) : (s.noteGot v w).mem = s.mem := by
  unfold State.noteGot; split <;> rfl

@[simp] theorem State.done_mem (v : View) (p : Pre) (lat : Nat) (w : List RegW) (fl : FFlags) :
    (s.done v p lat w fl).mem = s.mem := by simp [State.done]

@[simp] theorem State.aluEnd_mem (v : View) (ex : Mask) (p : Pre) (ixs : BitVec 2) (lat : Nat) (d : Opd)
    (wide signed : Bool) (srcs : List (Opd × Rd)) (f : List Word → Word × FFlags) :
    (s.aluEnd v ex p ixs lat d wide signed srcs f).mem = s.mem := by
  unfold State.aluEnd
  dsimp only
  (repeat' split) <;> simp

@[simp] theorem State.atIssue_mem (v : View) : (s.atIssue v).mem = s.mem := by
  unfold State.atIssue
  split <;> simp

@[simp] theorem State.startIssue_mem (v : View) : (s.startIssue v).1.mem = s.mem := by simp [State.startIssue]

@[simp] theorem State.whole_mem (u : Nat) (f : State → State) (h : (f s).mem = s.mem) : (s.whole u f).mem = s.mem := by
  unfold State.whole
  (repeat' split) <;> simp [h]

@[simp] theorem State.earlyReturn_mem (c : Nat) : (s.earlyReturn c).mem = s.mem := by
  unfold State.earlyReturn
  dsimp only
  (repeat' split) <;> simp

@[simp] theorem State.emulate_mem (v : View) (w : Word) (c : Nat) (n : BitVec 4) : (s.emulate v w c n).mem = s.mem := by
  have h (ls : List Nat) (t : State) : (ls.foldl State.earlyReturn t).mem = t.mem := by
    induction ls generalizing t with
    | nil => rfl
    | cons c ls ih => simp [ih]
  unfold State.emulate
  dsimp only
  (repeat' split) <;> simp [h]

/-- The checks at issue leave memory alone. -/
theorem State.admits_mem {u : Uses} {s1 : State} {v : View} {ex : Mask} (h : s.admits u = .ok (s1, v, ex)) :
    s1.mem = s.mem := by
  obtain ⟨v0, -, -, h, -⟩ := State.admits_ok h
  have := s.startIssue_mem v0
  rwa [h] at this

end Sys2Proof.Machine
end

