-- ==== Sys2Proof/Laws/PerInstr.lean ====
section
/-!
SUPPORT. One law for every instruction: the opcode of its word belongs to the group of opcodes (R79) its own decoder serves.
So no word of an instruction is a header, none has a reserved opcode, and each goes back to the decoder of its own format.
-/
namespace Sys2Proof

@[simp] theorem opByte_packR (f : FR) : opByte (packR f) = f.op := congrArg FR.op (unpackR_packR f)
@[simp] theorem opByte_packI (f : FI) : opByte (packI f) = f.op := congrArg FI.op (unpackI_packI f)
@[simp] theorem opByte_packB (f : FB) : opByte (packB f) = f.op := congrArg FB.op (unpackB_packB f)
@[simp] theorem opByte_packM (f : FM) : opByte (packM f) = f.op := congrArg FM.op (unpackM_packM f)
@[simp] theorem opByte_packA (f : FA) : opByte (packA f) = f.op := congrArg FA.op (unpackA_packA f)
@[simp] theorem opByte_packX (f : FX) : opByte (packX f) = f.op := congrArg FX.op (unpackX_packX f)

end Sys2Proof

namespace Sys2Proof.Laws.OpcodeGroup

/-- The group of opcodes an instruction belongs to (R79); events and host commands have no opcode. -/
def group : Instr → Option Grp
  | .nop .. => some .nop
  | .bra .. | .brcDiv .. | .brcAny .. | .brcAll .. | .brx .. | .call .. | .ret .. | .exit .. | .gjoin .. |
    .yield .. | .retu .. => some .br
  | .bkpt .. | .trapu .. | .iaddi .. | .imuli .. | .icmpi .. | .movi .. | .movk .. | .logi .. | .ixw .. | .srd .. |
    .swr .. => some .imm
  | .iadd .. | .isub .. | .imul .. | .imulh .. | .imad .. | .imin .. | .imax .. | .iabs .. | .icmp .. | .idiv .. |
    .lea .. => some .int
  | .and .. | .or .. | .xor .. | .andn .. | .shl .. | .shr .. | .sra .. | .rot .. | .bfe .. | .bfi .. | .popc .. |
    .clz .. | .brev .. | .sel .. | .mov .. => some .bit
  | .fadd .. | .fsub .. | .fmul .. | .ffma .. | .fmin .. | .fmax .. | .fcmp .. | .fclass .. | .frcp .. | .frsq .. |
    .fsqrt .. | .fdiv .. | .fexp2 .. | .flog2 .. | .fsin .. | .fcos .. => some .f32
  | .hadd2 .. | .hmul2 .. | .hfma2 .. | .hmin2 .. | .hmax2 .. | .dot4 .. | .ftanh .. | .fldx .. | .cvt .. |
    .cvtp .. | .frnd .. => some .pack
  | .kand .. | .kor .. | .kxor .. | .knot .. | .kbal .. | .kset .. | .shfl .. | .vote .. | .gred .. | .gscan .. |
    .rdlane .. | .wrlane .. => some .lane
  | .ld .. | .st .. | .bpk .. | .bpx .. | .pfch .. | .cwb .. | .icinv .. | .fbar .. => some .mem
  | .xlat .. | .bcopy .. | .bfill .. | .waitc .. | .icnt .. | .slbq .. | .amodeSto .. | .amodeRck .. | .macq .. |
    .mrel .. | .mloop .. | .mloopRes .. | .mstat .. | .mcal .. | .mxscl .. | .qcvt .. | .dqcvt .. => some .eng
  | .fence .. | .atom .. | .acas .. | .red .. | .mcas .. | .lda .. | .sta .. | .waitu .. => some .atm
  | .barSync .. | .barArrive .. | .barinit .. | .spawn .. | .qpush .. | .qpop .. | .qfree .. | .jdec .. |
    .commit .. | .forkg .. | .grwd .. | .gbar .. | .gcan .. | .evpost .. | .phintMem .. | .phintCmp .. | .pgmap .. |
    .pgunmap .. | .tlbinv .. | .pgtake .. | .rets .. | .pclr .. | .orclm .. | .haltg .. => some .tsk
  | .headerArrive .. | .laneMerge .. | .rjtDetach .. | .rendezvousTimeout .. | .earlyReturn .. | .rejoinDeadlock .. |
    .groupTimeout .. | .groupParentPushRetry .. | .joinPushRetry .. | .dispatchPlace .. | .launchPush .. |
    .gangEnd .. | .forwardProgressSwap .. | .teamSaved .. | .priorityRestore .. | .copyStart .. | .copyBeat .. |
    .copyComplete .. | .copyPageFault .. | .seqRunStart .. | .seqStepStart .. | .seqRow .. | .seqRunEnd .. |
    .pageWalk .. | .loadDataLand .. | .registrationRequest .. | .registrationGrant .. | .homeFill .. |
    .forwardedLoad .. | .revocation .. | .writeBack .. | .farStore .. | .farAtomic .. | .storeAck .. | .mcasLock .. |
    .waituWake .. | .waituPoll .. | .waituTimeout .. | .ownerLost .. | .ownerLostNotice .. | .remoteTimeout .. |
    .lateAnswer .. | .linkDown .. | .rmaWrite .. | .rmaRead .. | .winopen .. | .winclose .. | .launch .. | .halt .. |
    .resume .. | .kill .. | .strd .. | .stwr .. | .evdrain .. | .power .. | .dieGating .. | .setdst .. | .domain .. |
    .l1partSet .. | .l1partRead .. | .endpoints .. | .identity .. | .attest .. | .fwstage .. | .fwcommit .. |
    .logrd .. | .gridend .. | .reset | .islandEnterNear .. | .islandLeaveNear .. | .islandTransitionDone .. |
    .droop .. | .sag .. | .softError .. | .unsupportedFeaturePacket .. | .unknownOpc .. | .instructionCacheFill .. |
    .icinvRemovalAck .. | .droopEnd .. => none

/-- The word of the instruction, where it has one, has an opcode of its group. -/
def Statement (i : Instr) : Prop := ∀ w, encode i = some w → group i = some (grpOf (opByte w))

/-- An instruction whose word has an opcode of its group. -/
theorem of_word {i : Instr} {w : Word} {op : BitVec 8} (he : encode i = some w) (ho : opByte w = op)
    (hg : group i = some (grpOf op)) : Statement i := by
  intro w' h
  rw [he] at h
  cases h
  rw [hg, ho]

/-- An event or a command of the host has no word. -/
theorem of_none {i : Instr} (h : encode i = none) : Statement i := by
  intro w hw
  rw [h] at hw
  cases hw

theorem nop (p : Pre) : Statement (.nop p) := of_word rfl (opByte_packR _) rfl
theorem bra (stall : BitVec 4) (off : BitVec 32) : Statement (.bra stall off) := of_word rfl (opByte_packB _) rfl
theorem brcDiv (stall : BitVec 4) (bn : Bool) (bk : BitVec 3) (off : BitVec 32) : Statement (.brcDiv stall bn bk off) := of_word rfl (opByte_packB _) rfl
theorem brcAny (stall : BitVec 4) (bn : Bool) (bk : BitVec 3) (off : BitVec 32) : Statement (.brcAny stall bn bk off) := of_word rfl (opByte_packB _) rfl
theorem brcAll (stall : BitVec 4) (bn : Bool) (bk : BitVec 3) (off : BitVec 32) : Statement (.brcAll stall bn bk off) := of_word rfl (opByte_packB _) rfl
theorem brx (stall : BitVec 4) (a : BitVec 6) (off : BitVec 32) : Statement (.brx stall a off) := of_word rfl (opByte_packB _) rfl
theorem call (stall : BitVec 4) (a : BitVec 6) (off : BitVec 32) : Statement (.call stall a off) := of_word rfl (opByte_packB _) rfl
theorem ret (stall : BitVec 4) (a : BitVec 6) : Statement (.ret stall a) := of_word rfl (opByte_packB _) rfl
theorem exit (stall : BitVec 4) : Statement (.exit stall) := of_word rfl (opByte_packB _) rfl
theorem gjoin (stall : BitVec 4) (off : BitVec 32) : Statement (.gjoin stall off) := of_word rfl (opByte_packB _) rfl
theorem yield (stall : BitVec 4) : Statement (.yield stall) := of_word rfl (opByte_packB _) rfl
theorem bkpt (p : Pre) (code : BitVec 24) : Statement (.bkpt p code) := of_word rfl (opByte_packI _) rfl
theorem trapu (p : Pre) (code : BitVec 24) : Statement (.trapu p code) := of_word rfl (opByte_packI _) rfl
theorem retu (stall : BitVec 4) : Statement (.retu stall) := of_word rfl (opByte_packB _) rfl
theorem iadd (sat : Bool) (ty : ITy) (o : R3) : Statement (.iadd sat ty o) := of_word rfl (opByte_packR _) rfl
theorem isub (sat : Bool) (ty : ITy) (o : R3) : Statement (.isub sat ty o) := of_word rfl (opByte_packR _) rfl
theorem imul (ty : ITy) (o : R3) : Statement (.imul ty o) := of_word rfl (opByte_packR _) rfl
theorem imulh (ty : ITy) (o : R3) : Statement (.imulh ty o) := of_word rfl (opByte_packR _) rfl
theorem imad (sat : Bool) (ty : ITy) (o : R4) : Statement (.imad sat ty o) := of_word rfl (opByte_packR _) rfl
theorem imin (ty : ITy) (o : R3) : Statement (.imin ty o) := of_word rfl (opByte_packR _) rfl
theorem imax (ty : ITy) (o : R3) : Statement (.imax ty o) := of_word rfl (opByte_packR _) rfl
theorem iabs (sat : Bool) (ty : ITy) (o : R2) : Statement (.iabs sat ty o) := of_word rfl (opByte_packR _) rfl
theorem icmp (cond : ICond) (ty : ITy) (o : R3) : Statement (.icmp cond ty o) := of_word rfl (opByte_packR _) rfl
theorem idiv (rem : Bool) (ty : ITy) (o : R3) : Statement (.idiv rem ty o) := of_word rfl (opByte_packR _) rfl
theorem lea (ty : ITy) (o : R4) : Statement (.lea ty o) := of_word rfl (opByte_packR _) rfl
theorem iaddi (ty : ITy) (o : I2) : Statement (.iaddi ty o) := of_word rfl (opByte_packI _) rfl
theorem imuli (ty : ITy) (o : I2) : Statement (.imuli ty o) := of_word rfl (opByte_packI _) rfl
theorem icmpi (cond : ICond) (ty : ITy) (p : Pre) (ixs : BitVec 2) (d a : Opd) (imm : BitVec 21) : Statement (.icmpi cond ty p ixs d a imm) := of_word rfl (opByte_packI _) rfl
theorem movi (zx : Bool) (o : I1) : Statement (.movi zx o) := of_word rfl (opByte_packI _) rfl
theorem movk (part : MovkPart) (o : I1) : Statement (.movk part o) := of_word rfl (opByte_packI _) rfl
theorem and (w64 : Bool) (o : R3) : Statement (.and w64 o) := of_word rfl (opByte_packR _) rfl
theorem or (w64 : Bool) (o : R3) : Statement (.or w64 o) := of_word rfl (opByte_packR _) rfl
theorem xor (w64 : Bool) (o : R3) : Statement (.xor w64 o) := of_word rfl (opByte_packR _) rfl
theorem andn (w64 : Bool) (o : R3) : Statement (.andn w64 o) := of_word rfl (opByte_packR _) rfl
theorem shl (w64 : Bool) (o : R3) : Statement (.shl w64 o) := of_word rfl (opByte_packR _) rfl
theorem shr (w64 : Bool) (o : R3) : Statement (.shr w64 o) := of_word rfl (opByte_packR _) rfl
theorem sra (w64 : Bool) (o : R3) : Statement (.sra w64 o) := of_word rfl (opByte_packR _) rfl
theorem rot (w64 : Bool) (o : R3) : Statement (.rot w64 o) := of_word rfl (opByte_packR _) rfl
theorem bfe (signed : Bool) (w64 : Bool) (o : R4) : Statement (.bfe signed w64 o) := of_word rfl (opByte_packR _) rfl
theorem bfi (w64 : Bool) (o : R4) : Statement (.bfi w64 o) := of_word rfl (opByte_packR _) rfl
theorem popc (w64 : Bool) (o : R2) : Statement (.popc w64 o) := of_word rfl (opByte_packR _) rfl
theorem clz (w64 : Bool) (o : R2) : Statement (.clz w64 o) := of_word rfl (opByte_packR _) rfl
theorem brev (w64 : Bool) (o : R2) : Statement (.brev w64 o) := of_word rfl (opByte_packR _) rfl
theorem sel (w64 : Bool) (o : R4) : Statement (.sel w64 o) := of_word rfl (opByte_packR _) rfl
theorem mov (w64 : Bool) (o : R2) : Statement (.mov w64 o) := of_word rfl (opByte_packR _) rfl
theorem logi (op : LogiOp) (o : I2) : Statement (.logi op o) := of_word rfl (opByte_packI _) rfl
theorem fadd (f : FFn) (o : R3) : Statement (.fadd f o) := of_word rfl (opByte_packR _) rfl
theorem fsub (f : FFn) (o : R3) : Statement (.fsub f o) := of_word rfl (opByte_packR _) rfl
theorem fmul (f : FFn) (o : R3) : Statement (.fmul f o) := of_word rfl (opByte_packR _) rfl
theorem ffma (f : FFn) (o : R4) : Statement (.ffma f o) := of_word rfl (opByte_packR _) rfl
theorem fmin (ftz : Bool) (o : R3) : Statement (.fmin ftz o) := of_word rfl (opByte_packR _) rfl
theorem fmax (ftz : Bool) (o : R3) : Statement (.fmax ftz o) := of_word rfl (opByte_packR _) rfl
theorem fcmp (cond : FCond) (o : R3) : Statement (.fcmp cond o) := of_word rfl (opByte_packR _) rfl
theorem fclass (o : R3) : Statement (.fclass o) := of_word rfl (opByte_packR _) rfl
theorem frcp (sat ftz : Bool) (o : R2) : Statement (.frcp sat ftz o) := of_word rfl (opByte_packR _) rfl
theorem frsq (sat ftz : Bool) (o : R2) : Statement (.frsq sat ftz o) := of_word rfl (opByte_packR _) rfl
theorem fsqrt (f : FFn) (o : R2) : Statement (.fsqrt f o) := of_word rfl (opByte_packR _) rfl
theorem fdiv (f : FFn) (o : R3) : Statement (.fdiv f o) := of_word rfl (opByte_packR _) rfl
theorem fexp2 (sat ftz : Bool) (o : R2) : Statement (.fexp2 sat ftz o) := of_word rfl (opByte_packR _) rfl
theorem flog2 (sat ftz : Bool) (o : R2) : Statement (.flog2 sat ftz o) := of_word rfl (opByte_packR _) rfl
theorem fsin (sat ftz : Bool) (o : R2) : Statement (.fsin sat ftz o) := of_word rfl (opByte_packR _) rfl
theorem fcos (sat ftz : Bool) (o : R2) : Statement (.fcos sat ftz o) := of_word rfl (opByte_packR _) rfl
theorem hadd2 (h : HFn) (o : R3) : Statement (.hadd2 h o) := of_word rfl (opByte_packR _) rfl
theorem hmul2 (h : HFn) (o : R3) : Statement (.hmul2 h o) := of_word rfl (opByte_packR _) rfl
theorem hfma2 (h : HFn) (o : R4) : Statement (.hfma2 h o) := of_word rfl (opByte_packR _) rfl
theorem hmin2 (sat bf : Bool) (o : R3) : Statement (.hmin2 sat bf o) := of_word rfl (opByte_packR _) rfl
theorem hmax2 (sat bf : Bool) (o : R3) : Statement (.hmax2 sat bf o) := of_word rfl (opByte_packR _) rfl
theorem dot4 (sat bs as : Bool) (o : R4) : Statement (.dot4 sat bs as o) := of_word rfl (opByte_packR _) rfl
theorem ftanh (sat ftz : Bool) (o : R2) : Statement (.ftanh sat ftz o) := of_word rfl (opByte_packR _) rfl
theorem fldx (f : FFn) (o : R3) : Statement (.fldx f o) := of_word rfl (opByte_packR _) rfl
theorem cvt (op : CvtOp) (rm : RMode) (o : R2) : Statement (.cvt op rm o) := of_word rfl (opByte_packR _) rfl
theorem cvtp (op : CvtpOp) (hi : Bool) (rm : RMode) (o : R3) : Statement (.cvtp op hi rm o) := of_word rfl (opByte_packR _) rfl
theorem frnd (f : FFn) (o : R2) : Statement (.frnd f o) := of_word rfl (opByte_packR _) rfl
theorem kand (o : R3) : Statement (.kand o) := of_word rfl (opByte_packR _) rfl
theorem kor (o : R3) : Statement (.kor o) := of_word rfl (opByte_packR _) rfl
theorem kxor (o : R3) : Statement (.kxor o) := of_word rfl (opByte_packR _) rfl
theorem knot (o : R2) : Statement (.knot o) := of_word rfl (opByte_packR _) rfl
theorem kbal (o : R2) : Statement (.kbal o) := of_word rfl (opByte_packR _) rfl
theorem kset (o : R2) : Statement (.kset o) := of_word rfl (opByte_packR _) rfl
theorem shfl (w64 : Bool) (mode : ShflMode) (o : R4) : Statement (.shfl w64 mode o) := of_word rfl (opByte_packR _) rfl
theorem vote (fn : VoteFn) (o : R2) : Statement (.vote fn o) := of_word rfl (opByte_packR _) rfl
theorem gred (op : GOp) (ty : ITy) (o : R2) : Statement (.gred op ty o) := of_word rfl (opByte_packR _) rfl
theorem gscan (op : GOp) (ty : ITy) (o : R2) : Statement (.gscan op ty o) := of_word rfl (opByte_packR _) rfl
theorem rdlane (o : R3) : Statement (.rdlane o) := of_word rfl (opByte_packR _) rfl
theorem wrlane (o : R3) : Statement (.wrlane o) := of_word rfl (opByte_packR _) rfl
theorem ixw (p : Pre) (i : BitVec 2) (a : Opd) (imm : BitVec 24) : Statement (.ixw p i a imm) := of_word rfl (opByte_packI _) rfl
theorem srd (p : Pre) (ixs : BitVec 2) (d : Opd) (r : SpReg) : Statement (.srd p ixs d r) := of_word rfl (opByte_packI _) rfl
theorem swr (p : Pre) (ixs : BitVec 2) (a : Opd) (r : SpReg) : Statement (.swr p ixs a r) := of_word rfl (opByte_packI _) rfl
theorem ld (m : MF) : Statement (.ld m) := of_word rfl (opByte_packM _) rfl
theorem st (m : MF) : Statement (.st m) := of_word rfl (opByte_packM _) rfl
theorem bpk (m : MF) : Statement (.bpk m) := of_word rfl (opByte_packM _) rfl
theorem bpx (m : MF) : Statement (.bpx m) := of_word rfl (opByte_packM _) rfl
theorem pfch (m : MLineF) : Statement (.pfch m) := of_word rfl (opByte_packM _) rfl
theorem xlat (x : X1) (xr : BitVec 3) : Statement (.xlat x xr) := of_word rfl (opByte_packX _) rfl
theorem cwb (m : MLineF) : Statement (.cwb m) := of_word rfl (opByte_packM _) rfl
theorem icinv (m : MLineF) : Statement (.icinv m) := of_word rfl (opByte_packM _) rfl
theorem fbar (p : Pre) : Statement (.fbar p) := of_word rfl (opByte_packM _) rfl
theorem fence (p : Pre) (ord : Ord) : Statement (.fence p ord) := of_word rfl (opByte_packA _) rfl
theorem atom (op : AOp) (a : AF) : Statement (.atom op a) := of_word rfl (opByte_packA _) rfl
theorem acas (a : AF) : Statement (.acas a) := of_word rfl (opByte_packA _) rfl
theorem red (op : AOp) (a : AF) : Statement (.red op a) := of_word rfl (opByte_packA _) rfl
theorem mcas (n : BitVec 4) (a : AF) : Statement (.mcas n a) := of_word rfl (opByte_packA _) rfl
theorem lda (a : AF) : Statement (.lda a) := of_word rfl (opByte_packA _) rfl
theorem sta (a : AF) : Statement (.sta a) := of_word rfl (opByte_packA _) rfl
theorem waitu (eq : Bool) (a : AF) : Statement (.waitu eq a) := of_word rfl (opByte_packA _) rfl
theorem bcopy (x : X1) (xr slot1 slot2 : BitVec 3) (conv : CopyConv) (mask : BitVec 8) : Statement (.bcopy x xr slot1 slot2 conv mask) := of_word rfl (opByte_packX _) rfl
theorem bfill (x : X1) (xr : BitVec 3) (sz : FillSz) : Statement (.bfill x xr sz) := of_word rfl (opByte_packX _) rfl
theorem waitc (x : X1) (path : Path) : Statement (.waitc x path) := of_word rfl (opByte_packX _) rfl
theorem icnt (x : X1) (path : Path) : Statement (.icnt x path) := of_word rfl (opByte_packX _) rfl
theorem slbq (x : X1) (xr : BitVec 3) : Statement (.slbq x xr) := of_word rfl (opByte_packX _) rfl
theorem amodeSto (p : Pre) (sel : ArrSel) : Statement (.amodeSto p sel) := of_word rfl (opByte_packX _) rfl
theorem amodeRck (p : Pre) (sel : ArrSel) : Statement (.amodeRck p sel) := of_word rfl (opByte_packX _) rfl
theorem macq (p : Pre) (q : BitVec 2) : Statement (.macq p q) := of_word rfl (opByte_packX _) rfl
theorem mrel (p : Pre) (q : BitVec 2) : Statement (.mrel p q) := of_word rfl (opByte_packX _) rfl
theorem mloop (f : MLoopF) : Statement (.mloop f) := of_word rfl (opByte_packX _) rfl
theorem mloopRes (f : MLoopF) : Statement (.mloopRes f) := of_word rfl (opByte_packX _) rfl
theorem mstat (x : X1) (q : BitVec 2) : Statement (.mstat x q) := of_word rfl (opByte_packX _) rfl
theorem mcal (p : Pre) (sel : ArrSel) : Statement (.mcal p sel) := of_word rfl (opByte_packX _) rfl
theorem mxscl (x : X1) (xr slot : BitVec 3) : Statement (.mxscl x xr slot) := of_word rfl (opByte_packX _) rfl
theorem qcvt (x : X1) (xr slot : BitVec 3) : Statement (.qcvt x xr slot) := of_word rfl (opByte_packX _) rfl
theorem dqcvt (x : X1) (xr slot : BitVec 3) : Statement (.dqcvt x xr slot) := of_word rfl (opByte_packX _) rfl
theorem barSync (p : Pre) (b : BitVec 4) : Statement (.barSync p b) := of_word rfl (opByte_packX _) rfl
theorem barArrive (p : Pre) (b : BitVec 4) : Statement (.barArrive p b) := of_word rfl (opByte_packX _) rfl
theorem barinit (x : X1) (b : BitVec 4) : Statement (.barinit x b) := of_word rfl (opByte_packX _) rfl
theorem spawn (x : X1) : Statement (.spawn x) := of_word rfl (opByte_packX _) rfl
theorem qpush (x : X1) : Statement (.qpush x) := of_word rfl (opByte_packX _) rfl
theorem qpop (x : X1) : Statement (.qpop x) := of_word rfl (opByte_packX _) rfl
theorem qfree (x : X1) : Statement (.qfree x) := of_word rfl (opByte_packX _) rfl
theorem jdec (x : X1) : Statement (.jdec x) := of_word rfl (opByte_packX _) rfl
theorem commit (p : Pre) : Statement (.commit p) := of_word rfl (opByte_packX _) rfl
theorem forkg (x : X1) : Statement (.forkg x) := of_word rfl (opByte_packX _) rfl
theorem grwd (x : X1) : Statement (.grwd x) := of_word rfl (opByte_packX _) rfl
theorem gbar (x : X1) : Statement (.gbar x) := of_word rfl (opByte_packX _) rfl
theorem gcan (x : X1) : Statement (.gcan x) := of_word rfl (opByte_packX _) rfl
theorem evpost (x : X1) : Statement (.evpost x) := of_word rfl (opByte_packX _) rfl
theorem phintMem (p : Pre) : Statement (.phintMem p) := of_word rfl (opByte_packX _) rfl
theorem phintCmp (p : Pre) : Statement (.phintCmp p) := of_word rfl (opByte_packX _) rfl
theorem pgmap (x : X1) : Statement (.pgmap x) := of_word rfl (opByte_packX _) rfl
theorem pgunmap (x : X1) : Statement (.pgunmap x) := of_word rfl (opByte_packX _) rfl
theorem tlbinv (x : X1) : Statement (.tlbinv x) := of_word rfl (opByte_packX _) rfl
theorem pgtake (x : X1) : Statement (.pgtake x) := of_word rfl (opByte_packX _) rfl
theorem rets (p : Pre) : Statement (.rets p) := of_word rfl (opByte_packX _) rfl
theorem pclr (x : X1) : Statement (.pclr x) := of_word rfl (opByte_packX _) rfl
theorem orclm (x : X1) : Statement (.orclm x) := of_word rfl (opByte_packX _) rfl
theorem haltg (x : X1) : Statement (.haltg x) := of_word rfl (opByte_packX _) rfl
theorem headerArrive (a : Actor) : Statement (.headerArrive a) := of_none rfl
theorem laneMerge (ctx : Nat) : Statement (.laneMerge ctx) := of_none rfl
theorem rjtDetach (gang : Nat) : Statement (.rjtDetach gang) := of_none rfl
theorem rendezvousTimeout (gang : Nat) : Statement (.rendezvousTimeout gang) := of_none rfl
theorem earlyReturn (ctx : Nat) : Statement (.earlyReturn ctx) := of_none rfl
theorem rejoinDeadlock (gang : Nat) : Statement (.rejoinDeadlock gang) := of_none rfl
theorem groupTimeout (group : Nat) : Statement (.groupTimeout group) := of_none rfl
theorem groupParentPushRetry (n : Nat) : Statement (.groupParentPushRetry n) := of_none rfl
theorem joinPushRetry (n : Nat) : Statement (.joinPushRetry n) := of_none rfl
theorem dispatchPlace (die : Nat) : Statement (.dispatchPlace die) := of_none rfl
theorem launchPush (grid : Nat) : Statement (.launchPush grid) := of_none rfl
theorem gangEnd (gang : Nat) : Statement (.gangEnd gang) := of_none rfl
theorem forwardProgressSwap (core : Nat) : Statement (.forwardProgressSwap core) := of_none rfl
theorem teamSaved (team : Nat) : Statement (.teamSaved team) := of_none rfl
theorem priorityRestore (gang : Nat) : Statement (.priorityRestore gang) := of_none rfl
theorem copyStart (core : Nat) : Statement (.copyStart core) := of_none rfl
theorem copyBeat (core : Nat) : Statement (.copyBeat core) := of_none rfl
theorem copyComplete (core : Nat) : Statement (.copyComplete core) := of_none rfl
theorem copyPageFault (core : Nat) : Statement (.copyPageFault core) := of_none rfl
theorem seqRunStart (core q : Nat) : Statement (.seqRunStart core q) := of_none rfl
theorem seqStepStart (core q : Nat) : Statement (.seqStepStart core q) := of_none rfl
theorem seqRow (core q : Nat) : Statement (.seqRow core q) := of_none rfl
theorem seqRunEnd (core q : Nat) : Statement (.seqRunEnd core q) := of_none rfl
theorem pageWalk (agent : Nat) (ctx : BitVec 12) (va : Word) : Statement (.pageWalk agent ctx va) := of_none rfl
theorem loadDataLand (a : Actor) (flight : Nat) : Statement (.loadDataLand a flight) := of_none rfl
theorem registrationRequest (m : Nat) : Statement (.registrationRequest m) := of_none rfl
theorem registrationGrant (m : Nat) : Statement (.registrationGrant m) := of_none rfl
theorem homeFill (m : Nat) : Statement (.homeFill m) := of_none rfl
theorem forwardedLoad (m : Nat) : Statement (.forwardedLoad m) := of_none rfl
theorem revocation (m : Nat) : Statement (.revocation m) := of_none rfl
theorem writeBack (m : Nat) : Statement (.writeBack m) := of_none rfl
theorem farStore (m : Nat) : Statement (.farStore m) := of_none rfl
theorem farAtomic (m : Nat) : Statement (.farAtomic m) := of_none rfl
theorem storeAck (m : Nat) : Statement (.storeAck m) := of_none rfl
theorem mcasLock (m : Nat) : Statement (.mcasLock m) := of_none rfl
theorem waituWake (m : Nat) : Statement (.waituWake m) := of_none rfl
theorem waituPoll (a : Actor) : Statement (.waituPoll a) := of_none rfl
theorem waituTimeout (a : Actor) : Statement (.waituTimeout a) := of_none rfl
theorem ownerLost (unit : Nat) : Statement (.ownerLost unit) := of_none rfl
theorem ownerLostNotice (m : Nat) : Statement (.ownerLostNotice m) := of_none rfl
theorem remoteTimeout (m : Nat) : Statement (.remoteTimeout m) := of_none rfl
theorem lateAnswer (m : Nat) : Statement (.lateAnswer m) := of_none rfl
theorem linkDown (port : Nat) : Statement (.linkDown port) := of_none rfl
theorem rmaWrite (ep : BitVec 128) (key : Word) (off : Nat) (bytes : List Byte) : Statement (.rmaWrite ep key off bytes) := of_none rfl
theorem rmaRead (ep : BitVec 128) (key : Word) (off : Nat) (len : Nat) : Statement (.rmaRead ep key off len) := of_none rfl
theorem winopen (c : HostCmd) : Statement (.winopen c) := of_none rfl
theorem winclose (c : HostCmd) : Statement (.winclose c) := of_none rfl
theorem launch (c : HostCmd) : Statement (.launch c) := of_none rfl
theorem halt (c : HostCmd) : Statement (.halt c) := of_none rfl
theorem resume (c : HostCmd) : Statement (.resume c) := of_none rfl
theorem kill (c : HostCmd) : Statement (.kill c) := of_none rfl
theorem strd (c : HostCmd) : Statement (.strd c) := of_none rfl
theorem stwr (c : HostCmd) : Statement (.stwr c) := of_none rfl
theorem evdrain (c : HostCmd) : Statement (.evdrain c) := of_none rfl
theorem power (c : HostCmd) : Statement (.power c) := of_none rfl
theorem dieGating (die : Nat) : Statement (.dieGating die) := of_none rfl
theorem setdst (c : HostCmd) : Statement (.setdst c) := of_none rfl
theorem domain (c : HostCmd) : Statement (.domain c) := of_none rfl
theorem l1partSet (c : HostCmd) : Statement (.l1partSet c) := of_none rfl
theorem l1partRead (c : HostCmd) : Statement (.l1partRead c) := of_none rfl
theorem endpoints (c : HostCmd) : Statement (.endpoints c) := of_none rfl
theorem identity (c : HostCmd) : Statement (.identity c) := of_none rfl
theorem attest (c : HostCmd) : Statement (.attest c) := of_none rfl
theorem fwstage (c : HostCmd) : Statement (.fwstage c) := of_none rfl
theorem fwcommit (c : HostCmd) : Statement (.fwcommit c) := of_none rfl
theorem logrd (c : HostCmd) : Statement (.logrd c) := of_none rfl
theorem gridend (c : HostCmd) : Statement (.gridend c) := of_none rfl
theorem reset : Statement (.reset) := of_none rfl
theorem islandEnterNear (island : Nat) : Statement (.islandEnterNear island) := of_none rfl
theorem islandLeaveNear (island : Nat) : Statement (.islandLeaveNear island) := of_none rfl
theorem islandTransitionDone (island : Nat) : Statement (.islandTransitionDone island) := of_none rfl
theorem droop (cluster : Nat) : Statement (.droop cluster) := of_none rfl
theorem sag (cluster : Nat) (up : Bool) : Statement (.sag cluster up) := of_none rfl
theorem softError (site : SoftSite) : Statement (.softError site) := of_none rfl
theorem unsupportedFeaturePacket (ep : BitVec 128) (tag : Word) : Statement (.unsupportedFeaturePacket ep tag) := of_none rfl
theorem unknownOpc (c : HostCmd) : Statement (.unknownOpc c) := of_none rfl
theorem instructionCacheFill (a : Actor) (line : Word) : Statement (.instructionCacheFill a line) := of_none rfl
theorem icinvRemovalAck (a : Actor) (flight : Nat) : Statement (.icinvRemovalAck a flight) := of_none rfl
theorem droopEnd (cluster : Nat) : Statement (.droopEnd cluster) := of_none rfl

end Sys2Proof.Laws.OpcodeGroup
end

