-- ==== Sys2Proof/Laws/Regs.lean ====
section
/-!
SUPPORT. The laws of registers: what each write leaves alone, what is read after a write, and the registers that the spec
hard-wires.
-/
namespace Sys2Proof.Machine

variable (r : Regs)

/-! ## What a write leaves alone -/

@[simp] theorem Regs.setV_k (n l : Nat) (x : V32) : (r.setV n l x).k = r.k := rfl
@[simp] theorem Regs.setV_s (n l : Nat) (x : V32) : (r.setV n l x).s = r.s := rfl
@[simp] theorem Regs.setV_i (n l : Nat) (x : V32) : (r.setV n l x).i = r.i := rfl
@[simp] theorem Regs.setV_x (n l : Nat) (x : V32) : (r.setV n l x).x = r.x := rfl
@[simp] theorem Regs.setV_fpflags (n l : Nat) (x : V32) : (r.setV n l x).fpflags = r.fpflags := rfl
@[simp] theorem Regs.setV_bkconf (n l : Nat) (x : V32) : (r.setV n l x).bkconf = r.bkconf := rfl
@[simp] theorem Regs.setV_modez (n l : Nat) (x : V32) : (r.setV n l x).modez = r.modez := rfl
@[simp] theorem Regs.setV_polmis (n l : Nat) (x : V32) : (r.setV n l x).polmis = r.polmis := rfl

@[simp] theorem Regs.setS_v (n : Nat) (x : Word) : (r.setS n x).v = r.v := rfl
@[simp] theorem Regs.setS_vp (n : Nat) (x : Word) : (r.setS n x).vp = r.vp := rfl
@[simp] theorem Regs.setS_k (n : Nat) (x : Word) : (r.setS n x).k = r.k := rfl
@[simp] theorem Regs.setS_i (n : Nat) (x : Word) : (r.setS n x).i = r.i := rfl
@[simp] theorem Regs.setS_x (n : Nat) (x : Word) : (r.setS n x).x = r.x := rfl
@[simp] theorem Regs.setS_fpflags (n : Nat) (x : Word) : (r.setS n x).fpflags = r.fpflags := rfl
@[simp] theorem Regs.setS_bkconf (n : Nat) (x : Word) : (r.setS n x).bkconf = r.bkconf := rfl
@[simp] theorem Regs.setS_modez (n : Nat) (x : Word) : (r.setS n x).modez = r.modez := rfl
@[simp] theorem Regs.setS_polmis (n : Nat) (x : Word) : (r.setS n x).polmis = r.polmis := rfl

@[simp] theorem Regs.setX_v (n : Nat) (x : XReg) : (r.setX n x).v = r.v := rfl
@[simp] theorem Regs.setX_vp (n : Nat) (x : XReg) : (r.setX n x).vp = r.vp := rfl
@[simp] theorem Regs.setX_k (n : Nat) (x : XReg) : (r.setX n x).k = r.k := rfl
@[simp] theorem Regs.setX_s (n : Nat) (x : XReg) : (r.setX n x).s = r.s := rfl
@[simp] theorem Regs.setX_i (n : Nat) (x : XReg) : (r.setX n x).i = r.i := rfl
@[simp] theorem Regs.setX_fpflags (n : Nat) (x : XReg) : (r.setX n x).fpflags = r.fpflags := rfl
@[simp] theorem Regs.setX_bkconf (n : Nat) (x : XReg) : (r.setX n x).bkconf = r.bkconf := rfl
@[simp] theorem Regs.setX_modez (n : Nat) (x : XReg) : (r.setX n x).modez = r.modez := rfl
@[simp] theorem Regs.setX_polmis (n : Nat) (x : XReg) : (r.setX n x).polmis = r.polmis := rfl

@[simp] theorem Regs.raise_v (f : BitVec 5) : (r.raise f).v = r.v := rfl
@[simp] theorem Regs.raise_vp (f : BitVec 5) : (r.raise f).vp = r.vp := rfl
@[simp] theorem Regs.raise_k (f : BitVec 5) : (r.raise f).k = r.k := rfl
@[simp] theorem Regs.raise_s (f : BitVec 5) : (r.raise f).s = r.s := rfl
@[simp] theorem Regs.raise_i (f : BitVec 5) : (r.raise f).i = r.i := rfl
@[simp] theorem Regs.raise_x (f : BitVec 5) : (r.raise f).x = r.x := rfl
@[simp] theorem Regs.raise_bkconf (f : BitVec 5) : (r.raise f).bkconf = r.bkconf := rfl
@[simp] theorem Regs.raise_modez (f : BitVec 5) : (r.raise f).modez = r.modez := rfl
@[simp] theorem Regs.raise_polmis (f : BitVec 5) : (r.raise f).polmis = r.polmis := rfl

@[simp] theorem Regs.setK_v (n : Nat) (ls vs : Mask) : (r.setK n ls vs).v = r.v := by unfold Regs.setK; split <;> rfl
@[simp] theorem Regs.setK_vp (n : Nat) (ls vs : Mask) : (r.setK n ls vs).vp = r.vp := by unfold Regs.setK; split <;> rfl
@[simp] theorem Regs.setK_s (n : Nat) (ls vs : Mask) : (r.setK n ls vs).s = r.s := by unfold Regs.setK; split <;> rfl
@[simp] theorem Regs.setK_i (n : Nat) (ls vs : Mask) : (r.setK n ls vs).i = r.i := by unfold Regs.setK; split <;> rfl
@[simp] theorem Regs.setK_x (n : Nat) (ls vs : Mask) : (r.setK n ls vs).x = r.x := by unfold Regs.setK; split <;> rfl
@[simp] theorem Regs.setK_fpflags (n : Nat) (ls vs : Mask) : (r.setK n ls vs).fpflags = r.fpflags := by unfold Regs.setK; split <;> rfl
@[simp] theorem Regs.setK_bkconf (n : Nat) (ls vs : Mask) : (r.setK n ls vs).bkconf = r.bkconf := by unfold Regs.setK; split <;> rfl
@[simp] theorem Regs.setK_modez (n : Nat) (ls vs : Mask) : (r.setK n ls vs).modez = r.modez := by unfold Regs.setK; split <;> rfl
@[simp] theorem Regs.setK_polmis (n : Nat) (ls vs : Mask) : (r.setK n ls vs).polmis = r.polmis := by unfold Regs.setK; split <;> rfl

@[simp] theorem Regs.setI_v (n : Nat) (x : BitVec 16) : (r.setI n x).v = r.v := by unfold Regs.setI; split <;> rfl
@[simp] theorem Regs.setI_vp (n : Nat) (x : BitVec 16) : (r.setI n x).vp = r.vp := by unfold Regs.setI; split <;> rfl
@[simp] theorem Regs.setI_k (n : Nat) (x : BitVec 16) : (r.setI n x).k = r.k := by unfold Regs.setI; split <;> rfl
@[simp] theorem Regs.setI_s (n : Nat) (x : BitVec 16) : (r.setI n x).s = r.s := by unfold Regs.setI; split <;> rfl
@[simp] theorem Regs.setI_x (n : Nat) (x : BitVec 16) : (r.setI n x).x = r.x := by unfold Regs.setI; split <;> rfl
@[simp] theorem Regs.setI_fpflags (n : Nat) (x : BitVec 16) : (r.setI n x).fpflags = r.fpflags := by unfold Regs.setI; split <;> rfl
@[simp] theorem Regs.setI_bkconf (n : Nat) (x : BitVec 16) : (r.setI n x).bkconf = r.bkconf := by unfold Regs.setI; split <;> rfl
@[simp] theorem Regs.setI_modez (n : Nat) (x : BitVec 16) : (r.setI n x).modez = r.modez := by unfold Regs.setI; split <;> rfl
@[simp] theorem Regs.setI_polmis (n : Nat) (x : BitVec 16) : (r.setI n x).polmis = r.polmis := by unfold Regs.setI; split <;> rfl

@[simp] theorem Regs.apply_x (w : RegW) : (r.apply w).x = r.x := by cases w <;> simp [Regs.apply]
@[simp] theorem Regs.apply_fpflags (w : RegW) : (r.apply w).fpflags = r.fpflags := by cases w <;> simp [Regs.apply]
@[simp] theorem Regs.apply_bkconf (w : RegW) : (r.apply w).bkconf = r.bkconf := by cases w <;> simp [Regs.apply]
@[simp] theorem Regs.apply_modez (w : RegW) : (r.apply w).modez = r.modez := by cases w <;> simp [Regs.apply]
@[simp] theorem Regs.apply_polmis (w : RegW) : (r.apply w).polmis = r.polmis := by cases w <;> simp [Regs.apply]

@[simp] theorem Regs.applyAll_x (ws : List RegW) : (r.applyAll ws).x = r.x := by
  unfold Regs.applyAll
  induction ws generalizing r with
  | nil => rfl
  | cons w ws ih => simp [ih]
@[simp] theorem Regs.applyAll_fpflags (ws : List RegW) : (r.applyAll ws).fpflags = r.fpflags := by
  unfold Regs.applyAll
  induction ws generalizing r with
  | nil => rfl
  | cons w ws ih => simp [ih]
@[simp] theorem Regs.applyAll_bkconf (ws : List RegW) : (r.applyAll ws).bkconf = r.bkconf := by
  unfold Regs.applyAll
  induction ws generalizing r with
  | nil => rfl
  | cons w ws ih => simp [ih]
@[simp] theorem Regs.applyAll_modez (ws : List RegW) : (r.applyAll ws).modez = r.modez := by
  unfold Regs.applyAll
  induction ws generalizing r with
  | nil => rfl
  | cons w ws ih => simp [ih]
@[simp] theorem Regs.applyAll_polmis (ws : List RegW) : (r.applyAll ws).polmis = r.polmis := by
  unfold Regs.applyAll
  induction ws generalizing r with
  | nil => rfl
  | cons w ws ih => simp [ih]

/-! ## Hard-wired registers (R258) -/

@[simp] theorem Regs.getK_zero : r.getK 0 = BitVec.allOnes 64 := rfl
@[simp] theorem Regs.getI_zero : r.getI 0 = 0 := rfl
@[simp] theorem Regs.setK_zero (ls vs : Mask) : r.setK 0 ls vs = r := rfl
@[simp] theorem Regs.setI_zero (x : BitVec 16) : r.setI 0 x = r := rfl

/-! ## Reading after a write -/

theorem Regs.getV_setV_self (h : mapWf 0 r.v = true) (n l : Nat) (x : V32) : (r.setV n l x).getV n l = x :=
  mget_mset_self h _ _

/-- Registers of lanes below 64 have keys of their own. -/
theorem vkey_inj {n l n' l' : Nat} (h : l < 64) (h' : l' < 64) (e : vkey n l = vkey n' l') : n = n' ∧ l = l' := by
  unfold vkey at e; omega

theorem Regs.getV_setV_ne {n l n' l' : Nat} (x : V32) (h : vkey n' l' ≠ vkey n l) :
    (r.setV n l x).getV n' l' = r.getV n' l' := mget_mset_ne _ _ _ h

/-- A write clears poison (R461). -/
theorem Regs.vp_setV_self (h : mapWf false r.vp = true) (n l : Nat) (x : V32) :
    mget false (r.setV n l x).vp (vkey n l) = false := mget_mset_self h _ false

theorem Regs.getS_setS_self (h : mapWf 0 r.s = true) (n : Nat) (x : Word) : (r.setS n x).getS n = x :=
  mget_mset_self h _ _
theorem Regs.getS_setS_ne {n m : Nat} (x : Word) (h : m ≠ n) : (r.setS n x).getS m = r.getS m := mget_mset_ne _ _ _ h

theorem Regs.getX_setX_self (h : mapWf {} r.x = true) (n : Nat) (x : XReg) : (r.setX n x).getX n = x :=
  mget_mset_self h _ _
theorem Regs.getX_setX_ne {n m : Nat} (x : XReg) (h : m ≠ n) : (r.setX n x).getX m = r.getX m := mget_mset_ne _ _ _ h

theorem Regs.getI_setI_self (h : mapWf 0 r.i = true) {n : Nat} (hn : n ≠ 0) (x : BitVec 16) : (r.setI n x).getI n = x := by
  simp only [Regs.setI, Regs.getI, hn, if_false]; exact mget_mset_self h _ _
theorem Regs.getI_setI_ne {n m : Nat} (x : BitVec 16) (h : m ≠ n) : (r.setI n x).getI m = r.getI m := by
  unfold Regs.setI Regs.getI
  (repeat' split) <;> first | rfl | exact mget_mset_ne _ _ _ h

theorem Regs.getK_setK_self (h : mapWf 0 r.k = true) {n : Nat} (hn : n ≠ 0) (ls vs : Mask) :
    (r.setK n ls vs).getK n = (r.getK n &&& ~~~ls) ||| (vs &&& ls) := by
  simp only [Regs.setK, Regs.getK, hn, if_false]; exact mget_mset_self h _ _
theorem Regs.getK_setK_ne {n m : Nat} (ls vs : Mask) (h : m ≠ n) : (r.setK n ls vs).getK m = r.getK m := by
  unfold Regs.setK Regs.getK
  (repeat' split) <;> first | rfl | exact mget_mset_ne _ _ _ h

/-! ## The canonical form -/

theorem Regs.setV_wf (h : mapWf 0 r.v = true) (n l : Nat) (x : V32) : mapWf 0 (r.setV n l x).v = true := mapWf_mset h _ _
theorem Regs.setV_vp_wf (h : mapWf false r.vp = true) (n l : Nat) (x : V32) : mapWf false (r.setV n l x).vp = true :=
  mapWf_mset h _ false
theorem Regs.setS_wf (h : mapWf 0 r.s = true) (n : Nat) (x : Word) : mapWf 0 (r.setS n x).s = true := mapWf_mset h _ _
theorem Regs.setX_wf (h : mapWf {} r.x = true) (n : Nat) (x : XReg) : mapWf {} (r.setX n x).x = true := mapWf_mset h _ _
theorem Regs.setI_wf (h : mapWf 0 r.i = true) (n : Nat) (x : BitVec 16) : mapWf 0 (r.setI n x).i = true := by
  unfold Regs.setI; split
  · exact h
  · exact mapWf_mset h _ _
theorem Regs.setK_wf (h : mapWf 0 r.k = true) (n : Nat) (ls vs : Mask) : mapWf 0 (r.setK n ls vs).k = true := by
  unfold Regs.setK; split
  · exact h
  · exact mapWf_mset h _ _

end Sys2Proof.Machine
end

