-- ==== Sys2Proof/Tests/Slice0.lean ====
section
/-!
SUPPORT. Tests: a word for every instruction, laid out from the spec's tables, decodes to it; ill-formed terms are refused;
small instances of the rules; and for every statement with hypotheses a state and operands that meet them.
-/
-- The theorems are checked one after another, so that few of them wait for the kernel at once.
set_option Elab.async false

namespace Sys2Proof.Tests

open Sys2Proof Sys2Proof.Machine Sys2Proof.Claims

/-! ## Words laid out from the formats (R35, R39 to R43, R46, R47) -/

/-- No guard, no stall. -/
def p0 : Pre := ⟨0#4, false, 0#3⟩
/-- A v operand field. -/
def fv (n : BitVec 8) : BitVec 9 := 0b0#1 ++ n
/-- An s operand field. -/
def fs (n : BitVec 6) : BitVec 9 := 0b100#3 ++ n
/-- A k operand field. -/
def fk (n : BitVec 3) : BitVec 9 := 0b101000#6 ++ n
/-- A special operand field. -/
def fp (n : BitVec 6) : BitVec 9 := 0b110#3 ++ n
/-- A small constant field. -/
def fc (n : BitVec 6) : BitVec 9 := 0b111#3 ++ n
/-- Format R without prefix or index. -/
def wordR (op : BitVec 8) (fn : BitVec 6) (d a b c : BitVec 9) : Word := op ++ 0#8 ++ 0#6 ++ fn ++ d ++ a ++ b ++ c
/-- Format I without prefix or index. -/
def wordI (op : BitVec 8) (d a : BitVec 9) (fn2 : BitVec 2) (imm : BitVec 24) : Word := op ++ 0#8 ++ 0#4 ++ d ++ a ++ fn2 ++ imm
/-- Format M without prefix or index. -/
def wordM (op : BitVec 8) (v : BitVec 9) (xr : BitVec 3) (o : BitVec 9) (sz pol : BitVec 3) (chk : BitVec 1) (disp : BitVec 16) :
    Word := op ++ 0#8 ++ 0#4 ++ v ++ xr ++ o ++ sz ++ pol ++ chk ++ disp
/-- Format A without prefix or index. -/
def wordA (op : BitVec 8) (v : BitVec 9) (xr : BitVec 3) (o : BitVec 9) (sz ord : BitVec 3) (chk : BitVec 1) (aop : BitVec 4)
    (disp : BitVec 12) : Word := op ++ 0#8 ++ 0#4 ++ v ++ xr ++ o ++ sz ++ ord ++ chk ++ aop ++ disp
/-- Format X without prefix. -/
def wordX (op : BitVec 8) (sb : BitVec 6) (xr s1 s2 mode : BitVec 3) (a b c : BitVec 8) : Word :=
  op ++ 0#8 ++ 0#6 ++ sb ++ xr ++ s1 ++ s2 ++ mode ++ a ++ b ++ c

/-- d, a from v1 to v2. -/
def o2 : R2 := ⟨p0, 0#2, .v 1#8 false, .v 2#8 false⟩
/-- v1 from v2 and s3. -/
def o3 : R3 := ⟨p0, 0#2, .v 1#8 false, .v 2#8 false, .s 3#6⟩
/-- v1 from v2, s3 and the constant −4. -/
def o4 : R4 := ⟨p0, 0#2, .v 1#8 false, .v 2#8 false, .s 3#6, .c 0b111100#6⟩
/-- k1 from v2 and s3. -/
def k3 : R3 := ⟨p0, 0#2, .k 1#3, .v 2#8 false, .s 3#6⟩
/-- The word of two v operands. -/
def w2 (op : BitVec 8) (fn : BitVec 6) : Word := wordR op fn (fv 1#8) (fv 2#8) 0#9 0#9
/-- The word of `o3`. -/
def w3 (op : BitVec 8) (fn : BitVec 6) : Word := wordR op fn (fv 1#8) (fv 2#8) (fs 3#6) 0#9
/-- The word of `o4`. -/
def w4 (op : BitVec 8) (fn : BitVec 6) : Word := wordR op fn (fv 1#8) (fv 2#8) (fs 3#6) (fc 0b111100#6)
/-- The word of `k3`. -/
def wk3 (op : BitVec 8) (fn : BitVec 6) : Word := wordR op fn (fk 1#3) (fv 2#8) (fs 3#6) 0#9

/-! ## Words of the spec's own examples and programs -/

/-- R85: the guarded, indexed, checked streaming load, (!k2) LD.B32.STREAM.CHK.D2 v[i1+4], [x3 + v7 + 16]. -/
theorem test_decode_example_load : decode 0x702A602303A30010#64 =
    .ok (.ld ⟨⟨2#4, true, 2#3⟩, 1#2, .v 4#8 true, 3#3, .v 7#8 false, .b32, .stream, true, 16#16⟩) := rfl

/-- R269, R272: IADD.I32.SAT v4, v5, −3 and ICMPI.I32.GE k1, v2, 100. -/
theorem test_decode_example_integer :
    decode 0x100000402017FA00#64 = .ok (.iadd true .i32 ⟨p0, 0#2, .v 4#8 false, .v 5#8 false, .c 0b111101#6⟩) ∧
    decode 0x1D000A0808A00064#64 = .ok (.icmpi .ge .i32 p0 0#2 (.k 1#3) (.v 2#8 false) 100#21) := ⟨rfl, rfl⟩

/-- The examples of the branches, EXIT, GJOIN, YIELD and the traps, and of SRD s5, TIME. -/
theorem test_decode_example_control :
    decode 0x01000000FFFFFFF4#64 = .ok (.bra 0#4 0xFFFFFFF4#32) ∧
    decode 0x0200300000000005#64 = .ok (.brcDiv 0#4 false 3#3 5#32) ∧
    decode 0x0200B000FFFFFFF0#64 = .ok (.brcDiv 0#4 true 3#3 0xFFFFFFF0#32) ∧
    decode 0x0300010400000000#64 = .ok (.brx 0#4 4#6 0#32) ∧
    decode 0x0400013E00000028#64 = .ok (.call 0#4 62#6 40#32) ∧
    decode 0x0500013E00000000#64 = .ok (.ret 0#4 62#6) ∧
    decode 0x0600000000000000#64 = .ok (.exit 0#4) ∧
    decode 0x0700000000000003#64 = .ok (.gjoin 0#4 3#32) ∧
    decode 0x0800000000000000#64 = .ok (.yield 0#4) ∧
    decode 0x0900000000000005#64 = .ok (.bkpt p0 5#24) ∧
    decode 0x0A00000000000123#64 = .ok (.trapu p0 0x123#24) ∧
    decode 0x0B00000000000000#64 = .ok (.retu 0#4) ∧
    decode 0x6D00082800000011#64 = .ok (.srd p0 0#2 (.s 5#6) .time) :=
  ⟨rfl, rfl, rfl, rfl, rfl, rfl, rfl, rfl, rfl, rfl, rfl, rfl, rfl⟩

/-- The examples of the engines and of the conversions. -/
theorem test_decode_example_engines :
    decode 0x9200005002000000#64 = .ok (.waitc ⟨p0, 5#6⟩ .c) ∧
    decode 0x9300009004000000#64 = .ok (.icnt ⟨p0, 9#6⟩ .a) ∧
    decode 0x9400002E00000000#64 = .ok (.slbq ⟨p0, 2#6⟩ 7#3) ∧
    decode 0xA800010E80000000#64 = .ok (.mxscl ⟨p0, 16#6⟩ 7#3 2#3) ∧
    decode 0xA900010E80000000#64 = .ok (.qcvt ⟨p0, 16#6⟩ 7#3 2#3) ∧
    decode 0xAA00014EC0000000#64 = .ok (.dqcvt ⟨p0, 20#6⟩ 7#3 3#3) := ⟨rfl, rfl, rfl, rfl, rfl, rfl⟩

/-- The examples of the task instructions. -/
theorem test_decode_example_tasks :
    decode 0xB200014000000000#64 = .ok (.spawn ⟨p0, 20#6⟩) ∧
    decode 0xB300008000000000#64 = .ok (.qpush ⟨p0, 8#6⟩) ∧
    decode 0xB40000A000000000#64 = .ok (.qpop ⟨p0, 10#6⟩) ∧
    decode 0xB50000C000000000#64 = .ok (.qfree ⟨p0, 12#6⟩) ∧
    decode 0xB60000E000000000#64 = .ok (.jdec ⟨p0, 14#6⟩) ∧
    decode 0xBC00010000000000#64 = .ok (.evpost ⟨p0, 16#6⟩) ∧
    decode 0xB800014000000000#64 = .ok (.forkg ⟨p0, 20#6⟩) ∧
    decode 0xB900006000000000#64 = .ok (.grwd ⟨p0, 6#6⟩) ∧
    decode 0xBA00008000000000#64 = .ok (.gbar ⟨p0, 8#6⟩) ∧
    decode 0xBB0000C000000000#64 = .ok (.gcan ⟨p0, 12#6⟩) := ⟨rfl, rfl, rfl, rfl, rfl, rfl, rfl, rfl, rfl, rfl⟩

/-- Words of the assembled programs: LEA.I64.D3 v2, s1, LANE, 2; KOR.D3 k3, k3, k2; ST.B32 v4, [x0 + v2];
IMAD.I32.D5 v2, v2, 3, 1; ICMP.I32.GE.D3 k3, v3, s2. -/
theorem test_decode_example_programs :
    decode 0x1A300020140701C2#64 =
      .ok (.lea .i64 ⟨⟨3#4, false, 0#3⟩, 0#2, .v 2#8 false, .s 1#6, .p .lane, .c 2#6⟩) ∧
    decode 0x6130000A1D0E8400#64 = .ok (.kor ⟨⟨3#4, false, 0#3⟩, 0#2, .k 3#3, .k 3#3, .k 2#3⟩) ∧
    decode 0x7100002001200000#64 =
      .ok (.st ⟨p0, 0#2, .v 4#8 false, 0#3, .v 2#8 false, .b32, .page, false, 0#16⟩) ∧
    decode 0x14500000100B87C1#64 = .ok (.imad false .i32 ⟨⟨5#4, false, 0#3⟩, 0#2, .v 2#8 false, .v 2#8 false, .c 3#6, .c 1#6⟩) ∧
    decode 0x1830028A180E0400#64 = .ok (.icmp .ge .i32 ⟨⟨3#4, false, 0#3⟩, 0#2, .k 3#3, .v 3#8 false, .s 2#6⟩) :=
  ⟨rfl, rfl, rfl, rfl, rfl⟩

/-! ## A word for every instruction, from R79 and the FN tables -/

/-- NOP and the branch kinds (R41, R382). -/
theorem test_decode_branches :
    decode (0x00#8 ++ 0#56) = .ok (.nop p0) ∧
    decode (0x02#8 ++ 0#8 ++ 1#1 ++ 5#3 ++ 0b001#3 ++ 0#9 ++ 7#32) = .ok (.brcAny 0#4 true 5#3 7#32) ∧
    decode (0x02#8 ++ 0#8 ++ 0#1 ++ 6#3 ++ 0b010#3 ++ 0#9 ++ 7#32) = .ok (.brcAll 0#4 false 6#3 7#32) := ⟨rfl, rfl, rfl⟩

/-- FN of R269: SUB at [5:3], SAT at [2], TYPE at [1:0]. -/
theorem test_decode_integer :
    decode (w3 0x10#8 0b000101#6) = .ok (.iadd true .n32 o3) ∧
    decode (w3 0x11#8 0b000100#6) = .ok (.isub true .i32 o3) ∧
    decode (w3 0x12#8 0b000000#6) = .ok (.imul .i32 o3) ∧
    decode (w3 0x13#8 0b000011#6) = .error .group ∧
    decode (wordR 0x13#8 0b000011#6 (fv 4#8) (fv 2#8) (fs 3#6) 0#9) =
      .ok (.imulh .n64 ⟨p0, 0#2, .v 4#8 false, .v 2#8 false, .s 3#6⟩) ∧
    decode (w4 0x14#8 0b000100#6) = .ok (.imad true .i32 o4) ∧
    decode (w3 0x15#8 0b000001#6) = .ok (.imin .n32 o3) ∧
    decode (w3 0x16#8 0b000000#6) = .ok (.imax .i32 o3) ∧
    decode (w2 0x17#8 0b000100#6) = .ok (.iabs true .i32 o2) ∧
    decode (wk3 0x18#8 0b011001#6) = .ok (.icmp .le .n32 k3) ∧
    decode (w3 0x19#8 0b001000#6) = .ok (.idiv true .i32 o3) ∧
    decode (w4 0x1A#8 0b000000#6) = .ok (.lea .i32 o4) := ⟨rfl, rfl, rfl, rfl, rfl, rfl, rfl, rfl, rfl, rfl, rfl, rfl⟩

/-- FN2 of R272 and R274. -/
theorem test_decode_immediates :
    decode (wordI 0x1B#8 (fs 1#6) (fs 2#6) 0b10#2 0xFFFFFF#24) = .ok (.iaddi .i64 ⟨p0, 0#2, .s 1#6, .s 2#6, 0xFFFFFF#24⟩) ∧
    decode (wordI 0x1C#8 (fv 1#8) (fv 2#8) 0b01#2 9#24) = .ok (.imuli .n32 ⟨p0, 0#2, .v 1#8 false, .v 2#8 false, 9#24⟩) ∧
    decode (wordI 0x1E#8 (fv 1#8) 0#9 0b01#2 9#24) = .ok (.movi true ⟨p0, 0#2, .v 1#8 false, 9#24⟩) ∧
    decode (wordI 0x1F#8 (fs 1#6) 0#9 0b10#2 9#24) = .ok (.movk .h2 ⟨p0, 0#2, .s 1#6, 9#24⟩) ∧
    decode (wordI 0x2F#8 (fs 1#6) (fs 2#6) 0b11#2 9#24) = .ok (.logi .andn ⟨p0, 0#2, .s 1#6, .s 2#6, 9#24⟩) ∧
    decode (wordI 0x6C#8 0#9 (fs 2#6) 0b11#2 9#24) = .ok (.ixw p0 3#2 (.s 2#6) 9#24) ∧
    decode (wordI 0x6E#8 0#9 (fs 2#6) 0b00#2 0x022#24) = .ok (.swr p0 0#2 (.s 2#6) .modez) := ⟨rfl, rfl, rfl, rfl, rfl, rfl, rfl⟩

/-- FN of R273: S at [1], W at [0]. -/
theorem test_decode_bits :
    decode (w3 0x20#8 0#6) = .ok (.and false o3) ∧ decode (w3 0x21#8 0#6) = .ok (.or false o3) ∧
    decode (w3 0x22#8 0#6) = .ok (.xor false o3) ∧ decode (w3 0x23#8 0#6) = .ok (.andn false o3) ∧
    decode (w3 0x24#8 0#6) = .ok (.shl false o3) ∧ decode (w3 0x25#8 0#6) = .ok (.shr false o3) ∧
    decode (w3 0x26#8 0#6) = .ok (.sra false o3) ∧ decode (w3 0x27#8 0#6) = .ok (.rot false o3) ∧
    decode (w4 0x28#8 0b10#6) = .ok (.bfe true false o4) ∧ decode (w4 0x29#8 0#6) = .ok (.bfi false o4) ∧
    decode (w2 0x2A#8 0b01#6) = .ok (.popc true o2) ∧ decode (w2 0x2B#8 0b01#6) = .ok (.clz true o2) ∧
    decode (w2 0x2C#8 0#6) = .ok (.brev false o2) ∧
    decode (wordR 0x2D#8 0#6 (fv 1#8) (fv 2#8) (fs 3#6) (fk 4#3)) =
      .ok (.sel false ⟨p0, 0#2, .v 1#8 false, .v 2#8 false, .s 3#6, .k 4#3⟩) ∧
    decode (w2 0x2E#8 0#6) = .ok (.mov false o2) :=
  ⟨rfl, rfl, rfl, rfl, rfl, rfl, rfl, rfl, rfl, rfl, rfl, rfl, rfl, rfl, rfl⟩

/-- FN of R275: SAT at [3], FTZ at [2], RM at [1:0]; R278 and R279. -/
theorem test_decode_f32 :
    decode (w3 0x30#8 0b001001#6) = .ok (.fadd ⟨true, false, .rz⟩ o3) ∧
    decode (w3 0x31#8 0b000110#6) = .ok (.fsub ⟨false, true, .rp⟩ o3) ∧
    decode (w3 0x32#8 0b000011#6) = .ok (.fmul ⟨false, false, .rm⟩ o3) ∧
    decode (w4 0x33#8 0b000000#6) = .ok (.ffma ⟨false, false, .rn⟩ o4) ∧
    decode (w3 0x34#8 0b000100#6) = .ok (.fmin true o3) ∧ decode (w3 0x35#8 0b000000#6) = .ok (.fmax false o3) ∧
    decode (wk3 0x36#8 0b000110#6) = .ok (.fcmp .un k3) ∧ decode (wk3 0x37#8 0#6) = .ok (.fclass k3) ∧
    decode (w2 0x38#8 0b001000#6) = .ok (.frcp true false o2) ∧ decode (w2 0x39#8 0b000100#6) = .ok (.frsq false true o2) ∧
    decode (w2 0x3A#8 0b000010#6) = .ok (.fsqrt ⟨false, false, .rp⟩ o2) ∧
    decode (w3 0x3B#8 0b000001#6) = .ok (.fdiv ⟨false, false, .rz⟩ o3) ∧
    decode (w2 0x3C#8 0b001100#6) = .ok (.fexp2 true true o2) ∧ decode (w2 0x3D#8 0#6) = .ok (.flog2 false false o2) ∧
    decode (w2 0x3E#8 0#6) = .ok (.fsin false false o2) ∧ decode (w2 0x3F#8 0#6) = .ok (.fcos false false o2) :=
  ⟨rfl, rfl, rfl, rfl, rfl, rfl, rfl, rfl, rfl, rfl, rfl, rfl, rfl, rfl, rfl, rfl⟩

/-- FN of R281 to R284. -/
theorem test_decode_packed :
    decode (w3 0x40#8 0b001101#6) = .ok (.hadd2 ⟨true, true, .rz⟩ o3) ∧
    decode (w3 0x41#8 0b000000#6) = .ok (.hmul2 ⟨false, false, .rn⟩ o3) ∧
    decode (w4 0x42#8 0b000100#6) = .ok (.hfma2 ⟨false, true, .rn⟩ o4) ∧
    decode (w3 0x43#8 0b000100#6) = .ok (.hmin2 false true o3) ∧ decode (w3 0x44#8 0#6) = .ok (.hmax2 false false o3) ∧
    decode (w2 0x46#8 0#6) = .ok (.ftanh false false o2) ∧ decode (w3 0x47#8 0#6) = .ok (.fldx ⟨false, false, .rn⟩ o3) ∧
    decode (w2 0x48#8 0b010110#6) = .ok (.cvt .n32F32 .rp o2) ∧ decode (w2 0x4A#8 0b000001#6) = .ok (.frnd ⟨false, false, .rz⟩ o2) :=
  ⟨rfl, rfl, rfl, rfl, rfl, rfl, rfl, rfl, rfl⟩

/-- FN of R282 and R284. -/
theorem test_decode_dot4_cvtp :
    decode (w4 0x45#8 0b000101#6) = .ok (.dot4 true false true o4) ∧
    decode (w3 0x49#8 0b010110#6) = .ok (.cvtp .e4m3x2 true .rp o3) ∧
    decode (w3 0x49#8 0b000100#6) = .error .value := ⟨rfl, rfl, rfl⟩

/-- The K group and the lane instructions (R285 to R290). -/
theorem test_decode_lanes :
    decode (wordR 0x60#8 0#6 (fk 1#3) (fk 2#3) (fk 3#3) 0#9) = .ok (.kand ⟨p0, 0#2, .k 1#3, .k 2#3, .k 3#3⟩) ∧
    decode (wordR 0x62#8 0#6 (fk 1#3) (fk 2#3) (fk 3#3) 0#9) = .ok (.kxor ⟨p0, 0#2, .k 1#3, .k 2#3, .k 3#3⟩) ∧
    decode (wordR 0x63#8 0#6 (fk 1#3) (fk 2#3) 0#9 0#9) = .ok (.knot ⟨p0, 0#2, .k 1#3, .k 2#3⟩) ∧
    decode (wordR 0x64#8 0#6 (fs 1#6) (fk 2#3) 0#9 0#9) = .ok (.kbal ⟨p0, 0#2, .s 1#6, .k 2#3⟩) ∧
    decode (wordR 0x65#8 0#6 (fk 1#3) (fv 2#8) 0#9 0#9) = .ok (.kset ⟨p0, 0#2, .k 1#3, .v 2#8 false⟩) ∧
    decode (wordR 0x66#8 0b000111#6 (fv 4#8) (fv 2#8) (fs 3#6) (fc 1#6)) =
      .ok (.shfl true .xor ⟨p0, 0#2, .v 4#8 false, .v 2#8 false, .s 3#6, .c 1#6⟩) ∧
    decode (wordR 0x67#8 0b000010#6 (fv 1#8) (fk 2#3) 0#9 0#9) = .ok (.vote .uni ⟨p0, 0#2, .v 1#8 false, .k 2#3⟩) ∧
    decode (wordR 0x68#8 0b011000#6 (fs 1#6) (fv 2#8) 0#9 0#9) = .ok (.gred .fadd .i32 ⟨p0, 0#2, .s 1#6, .v 2#8 false⟩) ∧
    decode (wordR 0x69#8 0b000101#6 (fv 1#8) (fv 2#8) 0#9 0#9) = .ok (.gscan .min .n32 ⟨p0, 0#2, .v 1#8 false, .v 2#8 false⟩) ∧
    decode (wordR 0x6A#8 0#6 (fs 1#6) (fv 2#8) (fc 5#6) 0#9) = .ok (.rdlane ⟨p0, 0#2, .s 1#6, .v 2#8 false, .c 5#6⟩) ∧
    decode (wordR 0x6B#8 0#6 (fv 1#8) (fs 2#6) (fc 5#6) 0#9) = .ok (.wrlane ⟨p0, 0#2, .v 1#8 false, .s 2#6, .c 5#6⟩) :=
  ⟨rfl, rfl, rfl, rfl, rfl, rfl, rfl, rfl, rfl, rfl, rfl⟩

/-- Format M (R42, R171): the constant 0 is no offset operand. -/
theorem test_decode_memory :
    decode (wordM 0x70#8 (fv 4#8) 1#3 (fc 0#6) 0b100#3 0b100#3 0#1 0x8000#16) =
      .ok (.ld ⟨p0, 0#2, .v 4#8 false, 1#3, .c 0#6, .b128, .nol2, false, 0x8000#16⟩) ∧
    decode (wordM 0x72#8 (fv 5#8) 1#3 (fv 6#8) 0b101#3 0#3 0#1 0#16) =
      .ok (.bpk ⟨p0, 0#2, .v 5#8 false, 1#3, .v 6#8 false, .pw, .page, false, 0#16⟩) ∧
    decode (wordM 0x73#8 (fv 5#8) 1#3 (fv 6#8) 0b101#3 0#3 1#1 0#16) =
      .ok (.bpx ⟨p0, 0#2, .v 5#8 false, 1#3, .v 6#8 false, .pw, .page, true, 0#16⟩) ∧
    decode (wordM 0x74#8 0#9 1#3 (fs 6#6) 0#3 0b011#3 0#1 4#16) = .ok (.pfch ⟨p0, 0#2, 1#3, .s 6#6, .l2only, 4#16⟩) ∧
    decode (wordX 0x75#8 10#6 3#3 0#3 0#3 0#3 0#8 0#8 0#8) = .ok (.xlat ⟨p0, 10#6⟩ 3#3) ∧
    decode (wordM 0x76#8 0#9 1#3 (fs 6#6) 0#3 0#3 0#1 4#16) = .ok (.cwb ⟨p0, 0#2, 1#3, .s 6#6, .page, 4#16⟩) ∧
    decode (wordM 0x77#8 0#9 1#3 (fs 6#6) 0#3 0#3 0#1 4#16) = .ok (.icinv ⟨p0, 0#2, 1#3, .s 6#6, .page, 4#16⟩) ∧
    decode (wordM 0x78#8 0#9 0#3 0#9 0#3 0#3 0#1 0#16) = .ok (.fbar p0) :=
  ⟨rfl, rfl, rfl, rfl, rfl, rfl, rfl, rfl⟩

/-- Format A (R43, R58, R171, R183), with MCAS.B64.SC.E3 s4, [x0 + s10] as the spec assembles it. -/
theorem test_decode_atomics :
    decode (wordA 0x79#8 0#9 0#3 0#9 0#3 0b011#3 0#1 0#4 0#12) = .ok (.fence p0 .ar) ∧
    decode (wordA 0x80#8 (fv 5#8) 2#3 (fv 6#8) 0b010#3 0b001#3 1#1 0b1000#4 0xFFF#12) =
      .ok (.atom .xchg ⟨p0, 0#2, .v 5#8 false, 2#3, .v 6#8 false, .b32, .acq, true, 0xFFF#12⟩) ∧
    decode (wordA 0x81#8 (fv 4#8) 2#3 (fv 6#8) 0b011#3 0b010#3 0#1 0#4 0#12) =
      .ok (.acas ⟨p0, 0#2, .v 4#8 false, 2#3, .v 6#8 false, .b64, .rel, false, 0#12⟩) ∧
    decode (wordA 0x82#8 (fs 4#6) 2#3 (fv 6#8) 0b010#3 0b101#3 0#1 0b1001#4 0#12) =
      .ok (.red .fadd ⟨p0, 0#2, .s 4#6, 2#3, .v 6#8 false, .b32, .cmt, false, 0#12⟩) ∧
    decode 0x8300082085383000#64 = .ok (.mcas 3#4 ⟨p0, 0#2, .s 4#6, 0#3, .s 10#6, .b64, .sc, false, 0#12⟩) ∧
    decode (wordA 0x84#8 (fv 5#8) 2#3 (fv 6#8) 0b010#3 0b100#3 0#1 0#4 0#12) =
      .ok (.lda ⟨p0, 0#2, .v 5#8 false, 2#3, .v 6#8 false, .b32, .sc, false, 0#12⟩) ∧
    decode (wordA 0x85#8 (fv 5#8) 2#3 (fv 6#8) 0b010#3 0b010#3 0#1 0#4 0#12) =
      .ok (.sta ⟨p0, 0#2, .v 5#8 false, 2#3, .v 6#8 false, .b32, .rel, false, 0#12⟩) ∧
    decode (wordA 0x86#8 (fv 5#8) 2#3 (fv 6#8) 0b010#3 0b001#3 0#1 1#4 0#12) =
      .ok (.waitu true ⟨p0, 0#2, .v 5#8 false, 2#3, .v 6#8 false, .b32, .acq, false, 0#12⟩) :=
  ⟨rfl, rfl, rfl, rfl, rfl, rfl, rfl, rfl⟩

/-- The copy engine, arrays and sequencers (R59, R60). -/
theorem test_decode_engines :
    decode (wordX 0x90#8 10#6 7#3 1#3 2#3 0b001#3 0xF0#8 0#8 0#8) = .ok (.bcopy ⟨p0, 10#6⟩ 7#3 1#3 2#3 .qnt 0xF0#8) ∧
    decode (wordX 0x91#8 10#6 7#3 0#3 0#3 0b010#3 0#8 0#8 0#8) = .ok (.bfill ⟨p0, 10#6⟩ 7#3 .b32) ∧
    decode (wordX 0xA0#8 0#6 0#3 0#3 0#3 0#3 2#8 3#8 5#8) = .ok (.amodeSto p0 ⟨2#8, 3#8, 5#3⟩) ∧
    decode (wordX 0xA0#8 0#6 0#3 0#3 0#3 1#3 2#8 3#8 5#8) = .ok (.amodeRck p0 ⟨2#8, 3#8, 5#3⟩) ∧
    decode (wordX 0xA1#8 0#6 0#3 0#3 0#3 0#3 2#8 0#8 0#8) = .ok (.macq p0 2#2) ∧
    decode (wordX 0xA2#8 0#6 0#3 0#3 0#3 0#3 3#8 0#8 0#8) = .ok (.mrel p0 3#2) ∧
    decode (wordX 0xA3#8 20#6 7#3 1#3 2#3 0b101#3 2#8 9#8 0b0000_0001#8) =
      .ok (.mloop ⟨p0, 20#6, 7#3, 1#3, 2#3, .shp5, 2#2, 9#5, .avg1⟩) ∧
    decode (wordX 0xA3#8 20#6 7#3 1#3 2#3 0b101#3 2#8 9#8 0b0000_1000#8) =
      .ok (.mloopRes ⟨p0, 20#6, 7#3, 1#3, 2#3, .shp5, 2#2, 9#5, .exact⟩) ∧
    decode (wordX 0xA4#8 10#6 0#3 0#3 0#3 0#3 1#8 0#8 0#8) = .ok (.mstat ⟨p0, 10#6⟩ 1#2) ∧
    decode (wordX 0xA5#8 0#6 0#3 0#3 0#3 0#3 2#8 3#8 5#8) = .ok (.mcal p0 ⟨2#8, 3#8, 5#3⟩) :=
  ⟨rfl, rfl, rfl, rfl, rfl, rfl, rfl, rfl, rfl, rfl⟩

/-- Barriers, COMMIT, hints and the supervisor instructions (R59, R60, R79). -/
theorem test_decode_tasks :
    decode (wordX 0xB0#8 0#6 0#3 0#3 0#3 0#3 4#8 0#8 0#8) = .ok (.barSync p0 4#4) ∧
    decode (wordX 0xB0#8 0#6 0#3 0#3 0#3 1#3 4#8 0#8 0#8) = .ok (.barArrive p0 4#4) ∧
    decode (wordX 0xB1#8 9#6 0#3 0#3 0#3 0#3 4#8 0#8 0#8) = .ok (.barinit ⟨p0, 9#6⟩ 4#4) ∧
    decode (wordX 0xB7#8 0#6 0#3 0#3 0#3 0#3 0#8 0#8 0#8) = .ok (.commit p0) ∧
    decode (wordX 0xBD#8 0#6 0#3 0#3 0#3 0#3 0#8 0#8 0#8) = .ok (.phintMem p0) ∧
    decode (wordX 0xBD#8 0#6 0#3 0#3 0#3 1#3 0#8 0#8 0#8) = .ok (.phintCmp p0) ∧
    decode (wordX 0xC0#8 9#6 0#3 0#3 0#3 0#3 0#8 0#8 0#8) = .ok (.pgmap ⟨p0, 9#6⟩) ∧
    decode (wordX 0xC1#8 9#6 0#3 0#3 0#3 0#3 0#8 0#8 0#8) = .ok (.pgunmap ⟨p0, 9#6⟩) ∧
    decode (wordX 0xC2#8 9#6 0#3 0#3 0#3 0#3 0#8 0#8 0#8) = .ok (.tlbinv ⟨p0, 9#6⟩) ∧
    decode (wordX 0xC3#8 9#6 0#3 0#3 0#3 0#3 0#8 0#8 0#8) = .ok (.pgtake ⟨p0, 9#6⟩) ∧
    decode (wordX 0xC4#8 0#6 0#3 0#3 0#3 0#3 0#8 0#8 0#8) = .ok (.rets p0) ∧
    decode (wordX 0xC5#8 9#6 0#3 0#3 0#3 0#3 0#8 0#8 0#8) = .ok (.pclr ⟨p0, 9#6⟩) ∧
    decode (wordX 0xC6#8 9#6 0#3 0#3 0#3 0#3 0#8 0#8 0#8) = .ok (.orclm ⟨p0, 9#6⟩) ∧
    decode (wordX 0xC7#8 9#6 0#3 0#3 0#3 0#3 0#8 0#8 0#8) = .ok (.haltg ⟨p0, 9#6⟩) :=
  ⟨rfl, rfl, rfl, rfl, rfl, rfl, rfl, rfl, rfl, rfl, rfl, rfl, rfl, rfl⟩

/-- Words that the checks of R70 turn away: a reserved opcode, SUB 110 of ICMP, SAT of IMUL, a nonzero field marked —, an s
destination of a lane-scope register, an s destination of a load at v offsets, a run that passes s63, a reserved special
number. -/
theorem test_decode_refused :
    decode (0x5A#8 ++ 0#56) = .error .opcode ∧
    decode (wk3 0x18#8 0b110000#6) = .error .value ∧
    decode (w3 0x12#8 0b000100#6) = .error .value ∧
    decode (wordR 0x10#8 0#6 (fv 1#8) (fv 2#8) (fs 3#6) 1#9) = .error .bits ∧
    decode (wordI 0x6D#8 (fs 1#6) 0#9 0#2 0#24) = .error .cls ∧
    decode (wordM 0x70#8 (fs 4#6) 1#3 (fv 6#8) 0b010#3 0#3 0#1 0#16) = .error .cls ∧
    decode (wordX 0xB2#8 62#6 0#3 0#3 0#3 0#3 0#8 0#8 0#8) = .error .group ∧
    decode (wordR 0x2E#8 0#6 (fv 1#8) (fp 0x3F#6) 0#9 0#9) = .error .operand := ⟨rfl, rfl, rfl, rfl, rfl, rfl, rfl, rfl⟩

/-! ## Ill-formed terms, one for each check of `Instr.wf` -/

/-- The guard (!k0) (R36), an index register without an indexed operand (R51), an operand class that is not admitted (R55,
R56), an odd pair (R50), a v source under an s destination (R55). -/
theorem test_illformed_registers :
    Instr.wf (.nop ⟨0#4, true, 0#3⟩) = false ∧
    Instr.wf (.mov false ⟨p0, 1#2, .v 1#8 false, .v 2#8 false⟩) = false ∧
    Instr.wf (.iadd false .i32 ⟨p0, 0#2, .k 1#3, .v 2#8 false, .v 3#8 false⟩) = false ∧
    Instr.wf (.iadd false .i64 ⟨p0, 0#2, .v 1#8 false, .v 2#8 false, .v 4#8 false⟩) = false ∧
    Instr.wf (.iadd false .i32 ⟨p0, 0#2, .s 1#6, .v 2#8 false, .s 3#6⟩) = false ∧
    Instr.wf (.ffma ⟨false, false, .rn⟩ ⟨p0, 0#2, .v 1#8 false, .v 2#8 false, .v 3#8 false, .k 1#3⟩) = false := by decide

/-- Fields of R269, R272, R283, R284 and R289 with a value the instruction does not allow. -/
theorem test_illformed_functions :
    Instr.wf (.iabs false .n32 o2) = false ∧
    Instr.wf (.icmpi .eq .i32 p0 0#2 (.v 1#8 false) (.v 2#8 false) 0#21) = false ∧
    Instr.wf (.movi false ⟨p0, 0#2, .k 1#3, 0#24⟩) = false ∧
    Instr.wf (.movk .h2 ⟨p0, 0#2, .v 1#8 false, 0#24⟩) = false ∧
    Instr.wf (.movk .h2 ⟨p0, 0#2, .s 1#6, 0x10000#24⟩) = false ∧
    Instr.wf (.cvt .i8I32 .rz o2) = false ∧
    Instr.wf (.cvtp .f16x2 true .rn o3) = false ∧
    Instr.wf (.gred .fadd .n32 ⟨p0, 0#2, .s 1#6, .v 2#8 false⟩) = false ∧
    Instr.wf (.gscan .fmin .i64 ⟨p0, 0#2, .v 2#8 false, .v 4#8 false⟩) = false := by decide

/-- Special registers: a lane-scope one into an s register (R267), a write of one that is only read (R268); IXW from a v
register. -/
theorem test_illformed_special :
    Instr.wf (.srd p0 0#2 (.s 1#6) .lane) = false ∧
    Instr.wf (.srd p0 0#2 (.v 1#8 false) .time) = false ∧
    Instr.wf (.swr p0 0#2 (.s 1#6) .clk) = false ∧
    Instr.wf (.ixw p0 1#2 (.v 1#8 false) 0#24) = false := by decide

/-- Memory and atomics (R58, R171, R183): an s destination at v offsets, a 16-byte s operand, a checked store, a plane
instruction of a size that is none, a policy of CWB, XLAT of x6, FENCE with PLN, CMT outside RED, RED with XCHG, a float
operation of 8 bytes, MCAS of no entry or without SC, an atomic of 1 byte, ACAS on an odd group. -/
theorem test_illformed_memory :
    Instr.wf (.ld ⟨p0, 0#2, .s 4#6, 1#3, .v 6#8 false, .b32, .page, false, 0#16⟩) = false ∧
    Instr.wf (.ld ⟨p0, 0#2, .s 4#6, 1#3, .c 0#6, .b128, .page, false, 0#16⟩) = false ∧
    Instr.wf (.st ⟨p0, 0#2, .v 4#8 false, 1#3, .c 0#6, .b32, .page, true, 0#16⟩) = false ∧
    Instr.wf (.bpk ⟨p0, 0#2, .v 4#8 false, 1#3, .c 0#6, .b64, .page, false, 0#16⟩) = false ∧
    Instr.wf (.cwb ⟨p0, 0#2, 1#3, .s 6#6, .keep, 4#16⟩) = false ∧
    Instr.wf (.xlat ⟨p0, 10#6⟩ 6#3) = false ∧
    Instr.wf (.fence p0 .pln) = false ∧
    Instr.wf (.lda ⟨p0, 0#2, .v 5#8 false, 2#3, .v 6#8 false, .b32, .cmt, false, 0#12⟩) = false ∧
    Instr.wf (.red .xchg ⟨p0, 0#2, .v 5#8 false, 2#3, .v 6#8 false, .b32, .pln, false, 0#12⟩) = false ∧
    Instr.wf (.atom .fadd ⟨p0, 0#2, .v 4#8 false, 2#3, .v 6#8 false, .b64, .pln, false, 0#12⟩) = false ∧
    Instr.wf (.mcas 0#4 ⟨p0, 0#2, .s 4#6, 0#3, .s 10#6, .b64, .sc, false, 0#12⟩) = false ∧
    Instr.wf (.mcas 3#4 ⟨p0, 0#2, .s 4#6, 0#3, .s 10#6, .b64, .ar, false, 0#12⟩) = false ∧
    Instr.wf (.atom .add ⟨p0, 0#2, .v 5#8 false, 2#3, .v 6#8 false, .b8, .pln, false, 0#12⟩) = false ∧
    Instr.wf (.acas ⟨p0, 0#2, .v 5#8 false, 2#3, .v 6#8 false, .b32, .pln, false, 0#12⟩) = false := by decide

/-- Format X: runs past s63 (R59), and format slots of a RAW copy. -/
theorem test_illformed_runs :
    Instr.wf (.bcopy ⟨p0, 61#6⟩ 7#3 0#3 0#3 .raw 0#8) = false ∧
    Instr.wf (.bcopy ⟨p0, 10#6⟩ 7#3 1#3 0#3 .raw 0#8) = false ∧
    Instr.wf (.mloop ⟨p0, 59#6, 7#3, 1#3, 2#3, .shp0, 0#2, 0#5, .exact⟩) = false ∧
    Instr.wf (.forkg ⟨p0, 60#6⟩) = false ∧
    Instr.wf (.barSync ⟨0#4, true, 0#3⟩ 0#4) = false := by decide

/-- And well-formed ones beside them. -/
theorem test_wellformed :
    Instr.wf (.iadd true .i64 ⟨p0, 0#2, .v 2#8 false, .v 4#8 false, .s 3#6⟩) = true ∧
    Instr.wf (.movk .h2 ⟨p0, 0#2, .s 1#6, 0xFFFF#24⟩) = true ∧
    Instr.wf (.bcopy ⟨p0, 60#6⟩ 7#3 0#3 0#3 .raw 0#8) = true ∧
    Instr.wf (.mcas 8#4 ⟨p0, 0#2, .s 4#6, 0#3, .s 10#6, .b64, .sc, false, 0#12⟩) = true := by decide

/-! ## A small machine -/

/-- A gang of 16 lanes in a block of KIND 01, about to issue the word `w`. -/
def gang0 (w : Word) : Gang :=
  { thr := { pc := 0x1008, hdra := 0x1000, hdr := probeHdr, atHdr := false, fbuf := [(0x1000, probeHdr), (0x1008, w)] }
    team := 1, vallot := 256, stack := [⟨0x1008, none, 0xFFFF, 0, 0x1000, probeHdr⟩], sup := true }
/-- A machine whose gang 0, of team 1 and grid 2, on core 0, is the thread that executes. -/
def machine (w : Word) : State :=
  { State.reset with
    gangs := [(0, gang0 w)], teams := [(1, { grid := 2, gangs := [0], cores := [0] })]
    grids := [(2, { vallot := 256, teams := 1, pushed := 1 })], fresh := 5, cur := some (.gang 0)
    inputs := [.issue (.gang 0)] }
/-- The machine, its word being of no matter. -/
def base : State := machine 0
/-- The machine with registers of the gang set. -/
def withRegs (f : Regs → Regs) : State := base.modGang 0 fun g => { g with thr := { g.thr with regs := f g.thr.regs } }
/-- The machine with its gang changed. -/
def withGang (f : Gang → Gang) : State := base.modGang 0 f

/-- The gang of a machine. -/
def gang (s : State) : Gang := (tget s.gangs 0).getD {}
/-- The gang as its instructions see it. -/
def vw (s : State) : View :=
  { a := .gang 0, t := (gang s).thr, act := (gang s).active, g := gang s, uid := 0, lane := none, ctxNo := 0,
    now := s.clk (gang s).core }

/-- A computed instruction of these operands passes its checks on the machine, with lanes to act in. -/
def Meets (p : Pre) (ixs : BitVec 2) (d : Opd) (wide : Bool) (srcs : List (Opd × Rd)) (keep : Bool) : Prop :=
  ∃ s1 v ex, base.admits (aluUses p ixs d wide srcs keep) = .ok (s1, v, ex) ∧ ex ≠ 0

/-- v2 from v4 and s3, in 64 bits. -/
def l3 : R3 := ⟨p0, 0#2, .v 2#8 false, .v 4#8 false, .s 3#6⟩
/-- v2 from v4, s3 and k1 or the constant. -/
def l4 (c : Opd) : R4 := ⟨p0, 0#2, .v 2#8 false, .v 4#8 false, .s 3#6, c⟩

/-- Operands of every shape of the integer instructions. -/
theorem witness_IntegerArithmetic :
    Meets o3.p o3.ixs o3.d false [(o3.a, .u32), (o3.b, .u32)] false ∧
    Meets l3.p l3.ixs l3.d true [(l3.a, .u64), (l3.b, .u64)] false ∧
    Meets o2.p o2.ixs o2.d false [(o2.a, .u32)] false ∧
    Meets o4.p o4.ixs o4.d false [(o4.a, .u32), (o4.b, .u32), (o4.c, .u32)] false :=
  ⟨⟨_, _, _, rfl, by decide⟩, ⟨_, _, _, rfl, by decide⟩, ⟨_, _, _, rfl, by decide⟩, ⟨_, _, _, rfl, by decide⟩⟩

/-- Operands of the compares, LEA and the immediate forms, MOVK with its destination kept; LOGI of both widths. -/
theorem witness_IntegerComparesAndImmediates :
    Meets k3.p k3.ixs k3.d false [(k3.a, .u32), (k3.b, .u32)] false ∧
    Meets p0 0#2 (.v 2#8 false) true [(.v 4#8 false, .u64), (.s 3#6, .u64), (.c 2#6, .u32)] false ∧
    Meets p0 0#2 (.s 1#6) true [(.s 2#6, .u64)] false ∧
    Meets p0 0#2 (.v 1#8 false) false [] false ∧
    Meets p0 0#2 (.s 1#6) true [(.s 1#6, .u64)] true ∧
    Meets p0 0#2 (.v 1#8 false) false [(.v 2#8 false, .u32)] false :=
  ⟨⟨_, _, _, rfl, by decide⟩, ⟨_, _, _, rfl, by decide⟩, ⟨_, _, _, rfl, by decide⟩, ⟨_, _, _, rfl, by decide⟩,
    ⟨_, _, _, rfl, by decide⟩, ⟨_, _, _, rfl, by decide⟩⟩

/-- A word that decodes to LOGI, and operands of both widths. -/
theorem witness_LogicalImmediates :
    decode (wordI 0x2F#8 (fs 1#6) (fs 2#6) 0b11#2 9#24) = .ok (.logi .andn ⟨p0, 0#2, .s 1#6, .s 2#6, 9#24⟩) ∧
    Meets p0 0#2 (.s 1#6) true [(.s 2#6, .u64)] false ∧ Meets p0 0#2 (.v 1#8 false) false [(.v 2#8 false, .u32)] false :=
  ⟨rfl, ⟨_, _, _, rfl, by decide⟩, ⟨_, _, _, rfl, by decide⟩⟩

/-- Operands of the bit instructions, in 64 bits, with a k source and with a count. -/
theorem witness_BitwiseInstructions :
    Meets l3.p l3.ixs l3.d true [(l3.a, .u64), (l3.b, .u64)] false ∧
    Meets l3.p l3.ixs l3.d true [(l3.a, .u64), (l3.b, .u32)] false ∧
    Meets p0 0#2 (.v 2#8 false) true [(.v 4#8 false, .u64), (.s 3#6, .u32), (.c 2#6, .u32)] false ∧
    Meets p0 0#2 (.v 2#8 false) true [(.v 4#8 false, .u64), (.s 3#6, .u64), (.k 1#3, .u32)] false ∧
    Meets p0 0#2 (.v 2#8 false) false [(.v 4#8 false, .u64)] false :=
  ⟨⟨_, _, _, rfl, by decide⟩, ⟨_, _, _, rfl, by decide⟩, ⟨_, _, _, rfl, by decide⟩, ⟨_, _, _, rfl, by decide⟩,
    ⟨_, _, _, rfl, by decide⟩⟩

/-- Operands of the F32 instructions, of the approximate functions, and of FLDX, FCMP and FCLASS. -/
theorem witness_FloatInstructions :
    Meets o2.p o2.ixs o2.d false [(o2.a, .f32)] false ∧
    Meets o3.p o3.ixs o3.d false [(o3.a, .f32), (o3.b, .f32)] false ∧
    Meets o4.p o4.ixs o4.d false [(o4.a, .f32), (o4.b, .f32), (o4.c, .f32)] false ∧
    Meets o3.p o3.ixs o3.d false [(o3.a, .f32), (o3.b, .u32)] false ∧
    Meets k3.p k3.ixs k3.d false [(k3.a, .f32), (k3.b, .f32)] false :=
  ⟨⟨_, _, _, rfl, by decide⟩, ⟨_, _, _, rfl, by decide⟩, ⟨_, _, _, rfl, by decide⟩, ⟨_, _, _, rfl, by decide⟩,
    ⟨_, _, _, rfl, by decide⟩⟩

/-- Numbers and NaNs on both sides. -/
theorem witness_FloatSpecialCases :
    (FVal.fin false 3 0).isNan = false ∧ (FVal.inf true).isNan = false ∧ ((FVal.nan true).isNan || (FVal.inf true).isNan) = true ∧
    0 < 3 := by decide

/-- A magnitude of 5 rounded to a multiple of 2, in the four modes; a number of each format; patterns on each side of +1.0. -/
theorem witness_RoundingAndClamping :
    roundAt .rn false 5 0 (0 + 1) = (2, true) ∧ roundAt .rz false 5 0 (0 + 1) = (2, true) ∧
    roundAt .rp false 5 0 (0 + 1) = (3, true) ∧ roundAt .rm true 5 0 (0 + 1) = (3, true) ∧
    roundAt .rn false 4 0 (0 + 1) = (2, false) ∧
    f32.decode 0x3F800000 = .fin false 0x800000 (-23) ∧ f16.decode 0x0001 = .fin false 1 (-24) ∧
    bf16.decode 0xC000 = .fin true 0x80 (-6) ∧
    (f32.decode 0x7FC00001).isNan = true ∧ 0x3F800000 < 0x3F800001 ∧ 0x3F800001 ≤ 0x7F800000 := by decide

/-- A signalling and a quiet NaN, a zero, and a negative number that FTZ does not flush. -/
theorem witness_ApproximateInstructions :
    f32.decode 0x7F800001 = .nan true ∧ f32.decode 0x7FC00000 = .nan false ∧
    f32.flushIn true (f32.decode 0x80000001) = .fin true 0 (-149) ∧
    f32.flushIn false (f32.decode 0x80000001) = .fin true 1 (-149) ∧
    Meets o2.p o2.ixs o2.d false [(o2.a, .f32)] false :=
  ⟨by decide, by decide, by decide, by decide, ⟨_, _, _, rfl, by decide⟩⟩

/-- An instruction of these uses passes its checks on the machine, with lanes to act in. -/
def Admits (s : State) (u : Uses) : Prop := ∃ s1 v ex, s.admits u = .ok (s1, v, ex) ∧ ex ≠ 0

/-- Operands of the packed halves, of DOT4, of CVT from and to a pair, and of CVTP with the destination kept. -/
theorem witness_ConversionsAndPackedForms :
    Meets o4.p o4.ixs o4.d false [(o4.a, .f16), (o4.b, .f16), (o4.c, .f16)] false ∧
    Meets o3.p o3.ixs o3.d false [(o3.a, .bf16), (o3.b, .bf16)] false ∧
    Meets p0 0#2 (.v 2#8 false) true [(.v 1#8 false, .f32)] false ∧ Meets p0 0#2 (.v 1#8 false) false [(.v 2#8 false, .u64)] false ∧
    Meets o3.p o3.ixs o3.d false [(o3.a, .f32), (o3.b, .f32), (o3.d, .u32)] true :=
  ⟨⟨_, _, _, rfl, by decide⟩, ⟨_, _, _, rfl, by decide⟩, ⟨_, _, _, rfl, by decide⟩, ⟨_, _, _, rfl, by decide⟩,
    ⟨_, _, _, rfl, by decide⟩⟩

/-- A gang of 64 lanes. -/
def wide64 : State := withGang fun g => { g with width := 64, stack := [⟨0x1008, none, BitVec.allOnes 64, 0, 0x1000, probeHdr⟩] }

/-- The uses of a SHFL. -/
def shflUses : Uses :=
  { p := p0, rd := [(.v 2#8 false, 1), (.s 3#6, 1), (.c 4#6, 1)], wr := [(.v 1#8 false, 1)], safe := false }

/-- Predicates, KSET of both classes, KBAL with and without the odd pair, VOTE, SHFL at a width of the spec, a reduction, lane
moves and IXW; and a list of values of a type. -/
theorem witness_PredicateAndLaneInstructions :
    Meets p0 0#2 (.k 1#3) false [(.k 2#3, .u32), (.k 3#3, .u32)] false ∧
    Meets p0 0#2 (.k 1#3) false [(.v 2#8 false, .u32)] false ∧
    Admits base { p := p0, rd := [(.s 2#6, 1)], wr := [(.k 1#3, 1)] } ∧
    (∃ v, wide64.view = some v ∧ v.g.width = 64 ∧ (3#8).toNat % 2 = 1) ∧
    Admits base { p := p0, rd := [(.k 2#3, 1)], wr := [(.v 3#8 false, 1)] } ∧
    Admits base { p := p0, rd := [(.k 2#3, 1)], wr := [(.s 3#6, 1)], safe := false } ∧
    (∃ s1 v ex, base.admits shflUses = .ok (s1, v, ex) ∧ v.g.width ∈ [16, 32, 64]) ∧
    Admits base { p := p0, rd := [(.v 2#8 false, 1)], wr := [(.s 3#6, 1)], safe := false } ∧
    Admits base { p := p0, rd := [(.v 2#8 false, 1), (.s 3#6, 1)], wr := [(.s 1#6, 1)], safe := false } ∧
    Admits base { p := p0, rd := [(.s 2#6, 1)], wi := [3] } ∧
    ([0, 5] ≠ [] ∧ ∀ l ∈ [0, 5], (fun l => BitVec.ofNat 64 (l + 7) : Nat → Word) l = up (lo (Claims.bits .i32) (BitVec.ofNat 64 (l + 7)))) :=
  ⟨⟨_, _, _, rfl, by decide⟩, ⟨_, _, _, rfl, by decide⟩, ⟨_, _, _, rfl, by decide⟩, ⟨_, rfl, by decide, by decide⟩,
    ⟨_, _, _, rfl, by decide⟩, ⟨_, _, _, rfl, by decide⟩, ⟨_, _, _, rfl, by decide⟩, ⟨_, _, _, rfl, by decide⟩,
    ⟨_, _, _, rfl, by decide⟩, ⟨_, _, _, rfl, by decide⟩, by decide⟩

/-- A supervisor-only number in user mode, in supervisor mode, and an SWR; a record that R346 lets be written. -/
theorem witness_SpecialRegisters :
    (∃ v, (withGang fun g => { g with sup := false }).view = some v ∧ v.g.sup = false ∧ SpReg.supervisor .ctx = true) ∧
    (∃ v, base.view = some v ∧ v.g.sup = true) ∧
    Admits base { p := p0, wr := [(.v 2#8 false, 2)] } ∧ Admits base { p := p0, rd := [(.s 2#6, 1)] } :=
  ⟨⟨_, rfl, by decide, by decide⟩, ⟨_, rfl, by decide⟩, ⟨_, _, _, rfl, by decide⟩, ⟨_, _, _, rfl, by decide⟩⟩

/-- A gang and a grid in canonical form, and a record that R346 lets be written. -/
theorem witness_SpecialRegistersReadBack :
    (∃ v g gr, base.view = some v ∧ v.a = .gang v.uid ∧ v.lane = none ∧ tget base.gangs v.uid = some g ∧ v.g = g ∧
      tget base.grids (base.teamOf g).grid = some gr ∧ mapWf 0 gr.satc = true ∧ mapWf 0 g.rprog = true ∧
      base.rprogOk v.uid 2 0 = true) :=
  ⟨vw base, gang base, base.gridOf (gang base), rfl, rfl, rfl, rfl, rfl, rfl, rfl, rfl, rfl⟩

/-- A pending result of one cycle, and a thread that holds it. -/
def pend1 : Thr := { pend := [{ cycle := 9, w := [.v 1 0 7#32] }] }

/-- Moments before and from the cycle on which a pending result can be read, with registers in canonical form. -/
theorem witness_ResultsLandAtTheirLatency :
    (∀ p ∈ pend1.pend, 8 < p.cycle) ∧ (∀ p ∈ pend1.pend, p.cycle ≤ 9) ∧ RegsWf pend1.regs := by
  refine ⟨by decide, by decide, ?_⟩; unfold RegsWf; decide

/-- A gang's view, its landed registers in canonical form, results for a pair of v registers in the lanes of a mask and for an s
register, and a register no result names. -/
theorem witness_ResultsReachTheirRegisters :
    ∃ v g r r', base.view = some v ∧ v.a = .gang v.uid ∧ v.lane = none ∧ tget base.gangs v.uid = some g ∧
      RegsWf v.t.landAll.regs ∧
      landed (base.aluEnd v 5#64 p0 0#2 4 (.v 2#8 false) true false [] fun _ => (7, 0)) v.uid = some r ∧
      landed (base.aluEnd v 5#64 p0 0#2 4 (.s 2#6) true false [(.s 1#6, .u64)] fun _ => (7, 0)) v.uid = some r' ∧
      (∀ x, RegW.v 9 0 x ∉ [RegW.v 2 0 7#32]) :=
  ⟨_, _, _, _, rfl, by decide, by decide, rfl, by unfold RegsWf; decide, rfl, rfl, by simp⟩

/-- A gang within its allotment and past it; with the scoreboard on and a result pending; with a poisoned register; and none
of these. -/
theorem witness_IssueChecks :
    (∃ v, (withGang fun g => { g with vallot := 8 }).view = some v ∧ v.lane = none ∧
      v.g.vallot < v.t.vTop 0#2 [(.v 9#8 false, 1)]) ∧
    (∃ v, ({ withGang (fun g => { g with thr := { g.thr with pend := pend1.pend } }) with
        grids := [(2, { vallot := 256, teams := 1, pushed := 1, sbchk := true })] } : State).view = some v ∧
      v.t.pendingHit [.v 1] = true) ∧
    (∃ v, (withRegs fun r => { r with vp := [(vkey 2 0, true)] }).view = some v ∧
      v.poisoned { p := p0, rd := [(.v 2#8 false, 1)] } 1#64 = some (2, 1#64)) ∧
    (∃ v, base.view = some v ∧ v.poisoned { p := p0, rd := [(.v 2#8 false, 1)] } 1#64 = none) :=
  ⟨⟨_, rfl, by decide, by decide⟩, ⟨_, rfl, by decide⟩, ⟨_, rfl, by decide⟩, ⟨_, rfl, by decide⟩⟩

/-- A gang and register writes, for the issue distance. -/
theorem witness_IssueDistance :
    ∃ v g, base.view = some v ∧ v.a = .gang v.uid ∧ v.lane = none ∧ tget base.gangs v.uid = some g ∧
      [RegW.v 2 0 7#32] ≠ [] := ⟨_, _, rfl, by decide, by decide, rfl, by decide⟩

/-- An instruction on registers alone that answers a next state. -/
theorem witness_RegisterInstructionsTouchNothingElse :
    ∃ v t g g', registerOnly (.iadd true .i32 o3) = true ∧ base.view = some v ∧ v.lane = none ∧
      exec (.iadd true .i32 o3) base = .next t ∧ tget base.gangs v.uid = some g ∧ tget t.gangs v.uid = some g' :=
  ⟨_, _, _, _, rfl, rfl, by decide, rfl, rfl, rfl⟩

/-! ## Control flow -/

/-- The machine with page tables: a leaf of 1 GiB at address 0 with every permission, nothing above it, and its block's header
in memory. -/
def mapped : State :=
  { base with
    dst := 0x100
    mem := [(0x101, 0x02), (0x200, 0x01), (0x202, 0x20), (0x1005, 0x01), (0x1006, 0xFF), (0x1007, 0xFF), (0x3000, 0x3D),
      (0x200000, 0x03), (0x200001, 0x30)] }

/-- NOP; a target whose header passes, one that is no header, one on an absent page; s registers that hold targets; a predicate
that holds in some lanes, in none, and in all. -/
theorem witness_UniformTransfers :
    Admits mapped { p := p0 } ∧ Admits mapped { p := preB 0, rs := [4] } ∧ Admits mapped { p := preB 0, ws := [4] } ∧
    (mapped.checkTarget (vw mapped) 0x1000).2 = .ok probeHdr ∧
    (mapped.checkTarget (vw mapped) 0x1008).2 = .halt { cause := .framing } ∧
    (mapped.checkTarget (vw mapped) 0x40000000).2 = .fault 2 ∧
    hasLane ((vw base).act &&& ((withRegs fun r => r.setK 1 0xFFFF 0x00F0) |> fun s => (gang s).thr.regs.getK 1)) 4 = true ∧
    (∀ l < 64, ((vw base).act.getLsbD l && ((vw base).t.regs.getK 1).getLsbD l) = false) ∧
    (∀ l < 64, (vw base).act.getLsbD l = true → ((vw base).t.regs.getK 0).getLsbD l = true) ∧
    hasLane (vw base).act 0 = true :=
  ⟨⟨_, _, _, rfl, by decide⟩, ⟨_, _, _, rfl, by decide⟩, ⟨_, _, _, rfl, by decide⟩, by decide, by decide, by decide,
    by decide, by decide, by decide, by decide⟩

/-- A gang; a target that is no multiple of 8, and one whose word is fetched. -/
theorem witness_TransfersArriveAtTheirTarget :
    (vw base).a = .gang (vw base).uid ∧ (vw base).lane = none ∧ tget base.gangs (vw base).uid = some (gang base) ∧
    (0x1001#64 : Word).toNat % 8 ≠ 0 ∧ (0x1000#64 : Word).toNat % 8 = 0 ∧ (base.fetch (vw base) 0x1000).2 = .word probeHdr := by
  decide

/-- k1 holds in lanes 0 to 7. -/
def halves : State := withRegs fun r => r.setK 1 0xFFFF 0x00FF
/-- The same in a block of another kind. -/
def plain : State := withGang fun g => { g with thr := { g.thr with hdr := 0xFF02000000000000 } }
/-- The same below an entry that waits at the rejoin header. -/
def nested : State := halves.modGang 0 fun g =>
  { g with stack := [⟨0x1000, none, 0, 0, 0x1000, probeHdr⟩, ⟨0x1008, some 0x1000, 0xFFFF, 0, 0x1000, probeHdr⟩] }
/-- A block of one word more, so that the word after a branch is in it: LEN 255 of the machine's header. -/
theorem test_block_is_long : (vw halves).t.pc + 8 ≠ (vw halves).t.blockEnd := by decide

/-- In user mode, under a grid whose threshold of ejection is 8. -/
def ejects (s : State) : State :=
  { s.modGang 0 fun g => { g with sup := false } with grids := [(2, { vallot := 256, teams := 1, pushed := 1, ejdef := 8 })] }

/-- The conditions of a split whose second side is ejected, whether the running top is new at the rejoin header or an entry waits
there already. -/
theorem witness_EjectingBranches :
    ∀ s ∈ [ejects halves, ejects nested], let v := vw s
      (match s.admits { p := preB 0, rk := [1] } with | .ok (_, w, ex) => decide (w = v) && decide (ex ≠ 0) | _ => false) = true ∧
      v.t.hdra + hdrRj v.t.hdr = 0x1000 ∧ firstSide ⟨0xFF, 0x1000, 0x1000, probeHdr⟩ ⟨0xFF00, 0x1010, 0x1000, probeHdr⟩ = true ∧
      (0x1010#64 : Word) ≠ 0x1000 ∧ v.g.sup = false ∧ v.g.inEmu = false ∧ v.g.inPf = false ∧
      (lanesOf 0xFF00#64).length ≤ (s.freeCtx 0).length ∧ hdrEj v.t.hdr = 0 ∧ (lanesOf 0xFF00#64).length ≤ (s.gridOf v.g).ejdef ∧
      (gang nested).stack = ([] ++ [⟨0x1000, none, 0, 0, 0x1000, probeHdr⟩] ++ []) ++ [⟨0x1008, some 0x1000, 0xFFFF, 0, 0x1000, probeHdr⟩] := by
  decide +kernel

/-- The rest of the conditions of a split: k1 divides the lanes, the rejoin header (the block's own) is fetched, the target
(that header) passes its checks, and the second side is not ejected; the running top is new there, or waits there already. -/
theorem witness_DivergentBranches :
    Admits halves { p := preB 0, rk := [1] } ∧ hdrKind (vw plain).t.hdr ≠ 1 ∧ hdrKind (vw halves).t.hdr = 1 ∧
    (halves.fetch (vw halves) 0x1000).2 = .word probeHdr ∧ isHdr probeHdr = true ∧
    (vw halves).act &&& ((vw halves).t.regs.getK 1) = 0xFF ∧ (vw halves).act &&& ~~~((vw halves).t.regs.getK 1) = 0xFF00 ∧
    (vw base).act &&& ((vw base).t.regs.getK 1) = 0 ∧ (vw base).act &&& ~~~((vw base).t.regs.getK 0) = 0 ∧
    (halves.checkTarget (vw halves) 0x1000).2 = .ok probeHdr ∧
    firstSide ⟨0xFF, 0x1000, 0x1000, probeHdr⟩ ⟨0xFF00, 0x1010, 0x1000, probeHdr⟩ = true ∧
    halves.ejectAllowed (vw halves) ⟨0xFF00, 0x1010, 0x1000, probeHdr⟩ = false ∧
    (gang halves).stack = [] ++ [⟨0x1008, none, 0xFFFF, 0, 0x1000, probeHdr⟩] ∧
    (gang nested).stack = [⟨0x1000, none, 0, 0, 0x1000, probeHdr⟩] ++ [⟨0x1008, some 0x1000, 0xFFFF, 0, 0x1000, probeHdr⟩] ∧
    nested.ejectAllowed (vw nested) ⟨0xFF00, 0x1010, 0x1000, probeHdr⟩ = false :=
  ⟨⟨_, _, _, rfl, by decide⟩, by decide, by decide, by decide, by decide, by decide, by decide, by decide, by decide,
    by decide, by decide, by decide, by decide, by decide, by decide⟩

/-- Two lanes, with contexts free for them. -/
theorem witness_EjectionMovesLanesToTheCarryPool : (lanesOf 3#64).length ≤ (base.freeCtx 0).length ∧ (lanesOf 3#64) = [0, 1] := by
  decide

/-- A lane of gang 0 on the carry pool. -/
def lane3 : LaneCtx := { gang := 0, lane := 3, thr := { pc := 0x1010, hdra := 0x1000, hdr := probeHdr, atHdr := false } }
/-- A machine whose lane 3 runs in context 5. -/
def pool : State :=
  { withGang (fun g => { g with stack := [⟨0x1008, none, 0xFFF7, 8, 0x1000, probeHdr⟩] }) with
    lanes := [(5, lane3)], cur := some (.lane 5) }

/-- The pool's lane whose last instruction wrote v2, and whose gang keeps its registers in canonical form. -/
theorem witness_PoolLaneForms :
    Admits pool { p := p0 } ∧ (∃ v, pool.view = some v ∧ v.lane ≠ none) ∧ (gang pool).spilled = 0 ∧ RegsWf (gang pool).thr.regs ∧
    lane3.lane < 64 ∧ RegsWf lane3.thr.landAll.regs :=
  ⟨⟨_, _, _, rfl, by decide⟩, ⟨_, rfl, by decide⟩, rfl, by unfold RegsWf; decide, by decide, by unfold RegsWf; decide⟩

/-- EXIT, YIELD and GJOIN of a gang; EXIT of a lane on the carry pool with nothing in flight, the entry keeping other lanes. -/
theorem witness_ExitsJoinsAndYields :
    Admits base { p := preB 0 } ∧ Admits base { p := preB 0, safe := false } ∧ (vw base).lane = none ∧
    (∃ v, pool.view = some v ∧ v.lane = some lane3.lane ∧ v.ctxNo = 5) ∧ Admits pool { p := preB 0 } ∧
    tget pool.lanes 5 = some lane3 ∧ tget pool.gangs lane3.gang = some (gang pool) ∧
    lane3.thr.flights.all Flight.complete = true ∧
    (gang pool).stack = [] ++ [⟨0x1008, none, 0xFFF7, 8, 0x1000, probeHdr⟩] ∧
    ((0xFFF7#64 ||| 8#64) &&& ~~~laneBit 3 ≠ 0) :=
  ⟨⟨_, _, _, rfl, by decide⟩, ⟨_, _, _, rfl, by decide⟩, by decide, ⟨_, rfl, by decide, by decide⟩, ⟨_, _, _, rfl, by decide⟩,
    by decide, by decide, by decide, by decide, by decide⟩

/-- A gang in its emulation handler, entered from the block at 0x1000. -/
def inEmu : State := withGang fun g =>
  { g with inEmu := true, emuDepth := 1, emuMask := 0xFFFF, ehdra := 0x1000, ehdr := probeHdr, emu := { g.emu with pc := 0x1010 } }

/-- A guard that passes and one that fails; RETU outside a handler and in one; entry from outside with and without a handler
named, and from inside. -/
theorem witness_TrapsAndEmulation :
    Admits base { p := p0 } ∧ (∃ s1 v, base.admits { p := ⟨0, false, 1⟩ } = .ok (s1, v, 0)) ∧ Admits base { p := preB 0 } ∧
    (vw base).g.inEmu = false ∧
    Admits inEmu { p := preB 0 } ∧ (vw inEmu).lane = none ∧ (vw inEmu).g.inEmu = true ∧ (vw inEmu).g.inPf = false ∧
    (vw inEmu).g.stack.take ((vw inEmu).g.emuDepth - (vw inEmu).g.spilled) = [] ++ [⟨0x1008, none, 0xFFFF, 0, 0x1000, probeHdr⟩] ∧
    inBlock ((vw inEmu).g.emu.pc + 8) (vw inEmu).g.ehdra (vw inEmu).g.ehdr = true ∧
    tget base.gangs (vw base).uid = some (gang base) ∧ base.lanesAt 0 0x1008 = [] ∧ 9 < 10 ∧ (base.gridOf (gang base)).emuh = 0 ∧
    ((({ base with grids := [(2, { emuh := 0x2000 })] } : State).gridOf (gang base)).emuh ≠ 0) :=
  ⟨⟨_, _, _, rfl, by decide⟩, ⟨_, _, rfl⟩, ⟨_, _, _, rfl, by decide⟩, by decide, ⟨_, _, _, rfl, by decide⟩, by decide, by decide,
    by decide, by decide, by decide, by decide, by decide, by decide, by decide, by decide⟩

/-- A header word, a privileged word in user mode and in supervisor mode, a word that decodes and one that does not. -/
theorem witness_WordsThatFailTheirChecks :
    opByte probeHdr = 0xFF#8 ∧ opByte 0xC400000000000000#64 ≠ 0xFF#8 ∧ privileged 0xC400000000000000#64 = true ∧
    (vw (withGang fun g => { g with sup := false })).g.sup = false ∧ (vw base).g.sup = true ∧
    decode 0xC400000000000000#64 = .ok (.rets p0) ∧ decode (0x5A#8 ++ 0#56) = .error .opcode ∧ Cause.opcode ≠ Cause.guard :=
  ⟨by decide, by decide, by decide, by decide, by decide, rfl, rfl, by decide⟩

/-- A gang of a running team, and of a team that halts. -/
theorem witness_HaltsSaveTheirCause :
    tget base.gangs 0 = some (gang base) ∧ tget base.teams (gang base).team = some { grid := 2, gangs := [0], cores := [0] } ∧
    (({ grid := 2, gangs := [0], cores := [0] } : Team).st ≠ .halting ∧
      ({ grid := 2, gangs := [0], cores := [0] } : Team).st ≠ .halted) ∧
    ({ st := .halting } : Team).st = .halting := by decide


/-- A divergent branch to the block's own header, from which no lane, every lane and half the lanes go. -/
theorem witness_DivergentBranchesComplete :
    Admits halves { p := preB 0, rk := [1] } ∧ Admits halves { p := preB 0, rk := [2] } ∧
    (let v := vw halves
     v.lane = none ∧ v.a = .gang v.uid ∧ hdrKind v.t.hdr = 1 ∧ v.t.hdra + hdrRj v.t.hdr = 0x1000 ∧
     v.t.pc + 8 * (-1 : BitVec 32).signExtend 64 = 0x1000 ∧ (0x1000#64).toNat % 8 = 0 ∧ v.act &&& v.t.regs.getK 2 = 0 ∧
     v.act &&& v.t.regs.getK 1 ≠ 0 ∧ v.act &&& ~~~(v.act &&& v.t.regs.getK 1) ≠ 0 ∧ v.t.pc + 8 ≠ v.t.blockEnd ∧
     (halves.fetch v 0x1000).2 = .word probeHdr ∧ ((halves.fetch v 0x1000).1.fetch v 0x1000).2 = .word probeHdr ∧
     hdrOk probeHdr v.g.vallot = true ∧ (v.g.stack.map Entry.rpc).getLast? = some none) :=
  ⟨⟨_, _, _, rfl, by decide⟩, ⟨_, _, _, rfl, by decide⟩, by decide⟩
/-! ## Headers, merges and timed events -/

/-- The gang at its block's header. -/
def atHeader (f : Gang → Gang) : State :=
  withGang fun g => f { g with thr := { g.thr with pc := 0x1000, atHdr := true } }
/-- At a word that is no header. -/
def atWord : State := atHeader fun g => { g with thr := { g.thr with pc := 0x1008 } }
/-- At a header where an entry waits for it. -/
def atRejoin : State := atHeader fun g =>
  { g with stack := [⟨0x1000, none, 0xFF00, 0, 0x1000, probeHdr⟩, ⟨0x1000, some 0x1000, 0x00FF, 0, 0x1000, probeHdr⟩] }

/-- A header that passes, a word that fails, and a top entry whose rejoin header is reached. -/
theorem witness_HeadersBeginTheirBlock :
    (let s := atHeader id;
      s.viewOf (.gang 0) = some (vw s) ∧ (vw s).t.atHdr = true ∧ (vw s).g.ended = false ∧ (vw s).g.halted = false ∧
      (vw s).g.spilled = 0 ∧ (vw s).g.stack.length ≤ 16 ∧ (s.teamOf (vw s).g).cancelled = false ∧ (vw s).g.stack = [] ++ [⟨0x1008, none, 0xFFFF, 0, 0x1000, probeHdr⟩] ∧
      (vw s).g.exited &&& (vw s).g.all ≠ (vw s).g.all ∧ (s.fetch (vw s) 0x1000).2 = .word probeHdr ∧
      hdrOk probeHdr (vw s).g.vallot = true ∧ hdrKind probeHdr ≠ 3) ∧
    ((atWord.fetch (vw atWord) 0x1008).2 = .word 0 ∧ hdrOk 0 256 = false) ∧
    (vw atRejoin).g.stack = ([] ++ [⟨0x1000, none, 0xFF00, 0, 0x1000, probeHdr⟩]) ++ [⟨0x1000, some 0x1000, 0x00FF, 0, 0x1000, probeHdr⟩] ∧
    (atRejoin.fetch (vw atRejoin) 0x1000).2 = .word probeHdr := by decide

/-- A lane that waits at its header, where its gang waits for it. -/
def waiting : State :=
  { atHeader (fun g => { g with thr := { g.thr with wait := .waitMerge 0 }, stack := [⟨0x1000, none, 0xFFF7, 8, 0x1000, probeHdr⟩] }) with
    lanes := [(5, { gang := 0, lane := 3, st := .waiting, thr := { pc := 0x1000 } })] }
/-- A lane that is parked, where its gang waits at a rendezvous. -/
def parked : State :=
  { atHeader (fun g => { g with thr := { g.thr with wait := .rendezvous 0 }, stack := [⟨0x1000, none, 0xFFF7, 0, 0x1000, probeHdr⟩], dmask := 8 }) with
    lanes := [(5, { gang := 0, lane := 3, st := .parked, thr := { pc := 0x1000 } })] }
/-- The lane in context 5. -/
def ctx5 (s : State) : LaneCtx := (tget s.lanes 5).getD lane3

/-- A lane that waits at its rejoin header, one that is parked, and one with a posted error. -/
theorem witness_LanesMergeAtTheirHeader :
    (tget waiting.lanes 5 = some (ctx5 waiting) ∧ tget waiting.gangs (ctx5 waiting).gang = some (gang waiting) ∧
      (ctx5 waiting).thr.flights.all Flight.complete = true ∧ (gang waiting).thr.atHdr = true ∧
      (ctx5 waiting).thr.pc = (gang waiting).thr.pc ∧ (ctx5 waiting).thr.postErr = none ∧ (ctx5 waiting).st = .waiting ∧
      (gang waiting).thr.wait = .waitMerge 0 ∧ (gang waiting).stack = [] ++ [⟨0x1000, none, 0xFFF7, 8, 0x1000, probeHdr⟩] ∧
      hasLane 8 (ctx5 waiting).lane = true) ∧
    ((ctx5 parked).st = .parked ∧ (gang parked).thr.wait = .rendezvous 0 ∧ (gang parked).stack ≠ [] ∧
      (ctx5 parked).thr.pc = (gang parked).thr.pc) ∧
    (({ (ctx5 waiting).thr with postErr := some { remote := false, addr := 0 } } : Thr).postErr = some { remote := false, addr := 0 }) := by decide

/-- All lanes of the gang wait at a GJOIN. -/
def stuck : State := withGang fun g =>
  { g with stack := [⟨0x1008, none, 0, 0, 0x1000, probeHdr⟩], jw := 0xFFFF, jpc := [(0, 0x1010)], deadSince := some 0 }
/-- Later, by that many cycles and more. -/
def later (s : State) : State := { s with ps := 100000000 }

/-- A wait for ejected lanes and a rendezvous whose time is over, a lane at an ejection-unsafe word, a deadlock noted and not
yet noted, and a rank that ends. -/
theorem witness_TimedThreadEvents :
    (let s : State := { later waiting with grids := [(2, { rjt := 100 })] };
      (s.gridOf (gang s)).rjt ≠ 0 ∧ 0 + (s.gridOf (gang s)).rjt ≤ s.clk 0 ∧ 0xFFF7#64 &&& ~~~8#64 ≠ 0) ∧
    (let s : State := { later parked with grids := [(2, { rjt := 100 })], lanes := [] };
      0 + (s.gridOf (gang s)).rjt ≤ s.clk 0 ∧ (s.parkedOf 0).all (fun e => e.2.thr.pc != (gang s).thr.pc) = true) ∧
    (stuck.dead 0 (gang stuck) = true ∧ (gang stuck).deadSince = some 0 ∧ 0 + 1024 ≤ (later stuck).clk 0 ∧
      lowest (gang stuck).jw = some 0) ∧
    (let s := withGang fun g => { g with lowUntil := some 5 };
      (gang s).lowUntil = some 5 ∧ 5 ≤ (later s).clk 0) := by decide

/-- A lane at SHFL. -/
theorem witness_EarlyReturnEvent :
    decode (wordR 0x66#8 0b000011#6 (fv 4#8) (fv 2#8) (fs 3#6) (fc 1#6)) =
      .ok (.shfl false .xor ⟨p0, 0#2, .v 4#8 false, .v 2#8 false, .s 3#6, .c 1#6⟩) ∧
    Instr.unsafeOnPool (.shfl false .xor ⟨p0, 0#2, .v 4#8 false, .v 2#8 false, .s 3#6, .c 1#6⟩) = true ∧
    (let lc : LaneCtx := { lane3 with thr := { lane3.thr with fbuf :=
        [(0x1010, wordR 0x66#8 0b000011#6 (fv 4#8) (fv 2#8) (fs 3#6) (fc 1#6))] } }
     tget lc.thr.fbuf lc.thr.pc.toNat = some (wordR 0x66#8 0b000011#6 (fv 4#8) (fv 2#8) (fs 3#6) (fc 1#6)) ∧
     lc.st = .ejected ∧ lc.thr.atHdr = false) := ⟨rfl, rfl, rfl, rfl, rfl⟩

/-- A lane on the carry pool whose registers and whose gang's are in canonical form, held in its gang's EMASK. -/
theorem witness_EarlyReturnRestoresTheLane :
    tget pool.lanes 5 = some lane3 ∧ tget pool.gangs lane3.gang = some (gang pool) ∧ (gang pool).inEmu = false ∧
    (gang pool).inPf = false ∧ lane3.thr.flights.all Flight.complete = true ∧ RegsWf (gang pool).thr.regs ∧
    lane3.lane < 64 ∧ RegsWf lane3.thr.landAll.regs ∧ lane3.st = .ejected ∧
    (∃ e ∈ (gang pool).stack, hasLane e.emask lane3.lane = true) := by
  unfold RegsWf; decide

/-! ## Memory -/

/-- x1 reaches 4 KiB of physical memory from 0x10000 on. -/
def x1reg : XReg := { kind := .frame, base := 0x10000, limit := 0x1000 }
/-- The machine with x1 and a store's data in v4 and s4. -/
def dmem : State := withRegs fun r => ((r.setX 1 x1reg).setV 4 0 7#32).setS 4 9
/-- [x1 + 8], 4 bytes, v4. -/
def ldF : MF := ⟨p0, 0#2, .v 4#8 false, 1#3, .c 0#6, .b32, .page, false, 8#16⟩
/-- [x1 + 8], a plane word, v4. -/
def pwF : MF := ⟨p0, 0#2, .v 4#8 false, 1#3, .c 0#6, .pw, .page, false, 8#16⟩
/-- [x1 + 8], 4 bytes, v4, in an order. -/
def afF (ord : Ord) : AF := ⟨p0, 0#2, .v 4#8 false, 1#3, .c 0#6, .b32, ord, false, 8#12⟩

/-- An access passes its checks in some lanes, none faulting. -/
def Ready (s : State) (u : Uses) (m : AccF) : Prop :=
  ∃ r, s.accessReady u m = .ok r ∧ r.ok ≠ [] ∧ r.faults = []

/-- Offsets at each of the checks on an address, of both kinds of register, and one that passes. -/
theorem witness_AddressChecksInOrder :
    (let x : XReg := { kind := .spad, limit := 0x800400 };
      x.limit.toNat < 0x8003FF + 4 ∧ (0x7FFE < 0x800000 ∧ (0x7FFE < 1 * 0x8000 ∧ 1 * 0x8000 < 0x7FFE + 4)) ∧ 1 * 0x8000 ≤ 0x8000 ∧
      (0x8001FE - 0x800000) / 512 ≠ (0x8001FE + 4 - 1 - 0x800000) / 512 ∧ 0x8001FE + 4 ≤ x.limit.toNat) ∧
    x1reg.kind ≠ .spad ∧ ({} : XReg).kind = .none ∧ x1reg.limit.toNat < 0xFFE + 4 ∧ ¬x1reg.limit.toNat < 0xFFC + 4 ∧
    ({ x1reg with ro := true } : XReg).ro = true ∧ (x1reg.base + 2#64).toNat % 4 ≠ 0 ∧ (x1reg.base + 4#64).toNat % 4 = 0 := by
  decide

/-- LD, LDA with an acquire and BPX, in all 16 lanes. -/
theorem witness_LoadsStart :
    Ready dmem { p := p0, rd := [(.c 0#6, 1)], wr := [(.v 4#8 false, 1)] } (mAcc ldF .read false 4 1 false) ∧
    Ready dmem { p := p0, rd := [(.c 0#6, 1)], wr := [(.v 4#8 false, 1)] } (aAcc (afF .acq) .read false 4 .g .s) ∧
    Ready dmem { p := p0, rd := [(.c 0#6, 1)], wr := [(.v 4#8 false, 1)] } (mAcc pwF .read false 8 8 true) :=
  ⟨⟨_, rfl, by decide, by decide⟩, ⟨_, rfl, by decide, by decide⟩, ⟨_, rfl, by decide, by decide⟩⟩

/-- The parts of a 4-byte load. -/
def load4 : LoadF :=
  { kind := .load 4, dst := .v 4, n := 4, chk := false, acq := false, hold := false, sc := false, pol := .page, path := .g }
/-- One lane's target at 0x10008. -/
def one8 : List (Nat × Target) := [(0, .glob 0x10008 [⟨0, 4, 0x10008, false, 0, false⟩])]

/-- A load that starts. -/
theorem witness_StartedLoadsAreInFlight :
    (vw base).a = .gang (vw base).uid ∧ tget base.gangs (vw base).uid = some (gang base) ∧
    ∃ t, base.load (vw base) 1 false load4 one8 = .done t := ⟨by decide, by decide, _, rfl⟩

/-- A load in flight, all of whose bytes have come back. -/
def flight1 : Flight :=
  { id := 7, pc := 0x1008, path := .g, kind := .load 4, dst := .v 2
    bytes := (List.range 4).map fun j => { lane := 3, idx := j, pa := 0x10008 + j, va := 0, val := some 5, err := none } }
/-- The same, one byte of which met an error. -/
def flight2 : Flight := { flight1 with bytes := [{ lane := 3, idx := 0, pa := 0x10008, va := 0, val := none, err := some .poison }] }

/-- Loads that have come back, with data and with an error. -/
theorem witness_LoadedDataLands :
    (let s := withGang fun g => { g with thr := { g.thr with flights := [flight1] } };
      tget s.gangs 0 = some (gang s) ∧ flight1 ∈ (gang s).thr.flights ∧
      (gang s).thr.flights.find? (fun x => x.id == flight1.id) = some flight1 ∧ flight1.landed = false ∧ flight1.wait = 0 ∧
      flight1.mcas = none ∧ flight1.chk = false ∧ flight1.acq = false ∧ flight1.fills = [] ∧ (gang s).inPf = false ∧
      RegsWf (gang s).thr.regs ∧ (∀ b ∈ flight1.bytes, b.lane < 64) ∧
      (∀ h ∈ (gang s).thr.flights, h.id < flight1.id → h.wait = 0) ∧ flight1.due ≤ s.clk (gang s).core ∧
      (∀ b ∈ flight1.bytes, b.val.isSome = true ∧ b.err = none) ∧ flight1.dst = .v 2) ∧
    (∀ b ∈ flight2.bytes, b.val.isSome = true ∨ b.err.isSome = true) ∧ (∃ b ∈ flight2.bytes, b.err.isSome = true) := by
  unfold RegsWf; decide

/-- ST, and STA with and without a release. -/
theorem witness_StoresStart :
    Ready dmem { p := p0, rd := [(.c 0#6, 1), (.v 4#8 false, 1)] } (mAcc ldF .write true 4 1 false) ∧
    Ready dmem { p := p0, rd := [(.c 0#6, 1), (.v 4#8 false, 1)] } (aAcc (afF .pln) .write true 4 .g .s) ∧
    (∃ t, dmem.release (vw dmem) = .done t) :=
  ⟨⟨_, rfl, by decide, by decide⟩, ⟨_, rfl, by decide, by decide⟩, ⟨_, rfl⟩⟩

/-- One lane alone. -/
def lane0 (s : State) : State := s.modGang 0 fun g => { g with stack := [⟨0x1008, none, 1, 0, 0x1000, probeHdr⟩] }

/-- BPK of one lane into a plane word of this package that nobody holds; the merge as home meets it. -/
theorem witness_BitPlanesMergeAtHome :
    (∃ r l va p, (lane0 dmem).accessReady { p := p0, rd := [(.c 0#6, 1), (.v 4#8 false, 1)] } (mAcc pwF .write true 8 8 true) =
        .ok r ∧ pwF.sz = .pw ∧ r.faults = [] ∧ r.ok = [(l, .glob va [p])] ∧ p.off = 0 ∧ p.n = 8 ∧ p.pa % 8 = 0 ∧
      p.prpt = false ∧ r.s.remoteBad p.pa = false ∧ r.s.l1 = []) ∧
    (let q : HomeReq := { id := 7, agent := 0, ukey := ukeyOf 0x10008 0, sent := 0, req := .plane (.gang 0) 3 0 0x10008 8 1 1 0 };
      let s : State := { base with net := [⟨7, .req q⟩] };
      s.net = [⟨7, .req q⟩] ∧ q.timedOut = false ∧ s.inbound q = false ∧ s.paHalt (unitBase q.ukey) ≠ some .dieGated ∧ s.home = [] ∧ s.registry = [] ∧
        s.partials = [] ∧ s.poison = [] ∧ memWf s.mem = true) :=
  ⟨⟨_, _, _, _, rfl, rfl, rfl, rfl, rfl, rfl, by decide, rfl, by decide, rfl⟩, rfl, rfl, rfl, by decide, rfl, rfl, rfl, rfl, by decide⟩

/-- Memory in canonical form; a machine at rest. -/
theorem witness_MemoryBytes :
    memWf [(3, 1#8), (9, 2#8)] = true ∧ memWf [(3, 0#8)] = false ∧ memWf [(9, 2#8), (3, 1#8)] = false ∧ base.net = [] ∧
    base.home = [] ∧ base.partials = [] ∧ base.registry = [] ∧ base.poison = [] := by decide

/-- A byte stored to a unit of grain 0. -/
def sbyte : SByte := { pa := 0x10008, val := 7, far := false, ukey := ukeyOf 0x10008 0, va := 0x10008 }
/-- The machine whose agent 0 owns that unit, and the one whose agent has asked for it. -/
def owner : State :=
  { base with l1 := [(0, { owned := [sbyte.ukey], words := [(0x2001, { owned := true, dirty := false, data := 5, poison := false })] })] }
/-- The machine whose agent has asked for the unit. -/
def asked : State := { base with l1 := [(0, { asked := [sbyte.ukey] })] }

/-- A store to a unit that is owned, that is asked for, and neither. -/
theorem witness_StoresWaitForOwnership :
    base.remoteBad sbyte.pa = false ∧ sbyte.far = false ∧ sbyte.ukey ∈ (owner.l1Of 0).owned ∧
    sbyte.ukey ∉ (owner.l1Of 0).asked ∧ (vw owner).agent owner = 0 ∧
    tget (owner.l1Of 0).words (sbyte.pa / 8) = some { owned := true, dirty := false, data := 5, poison := false } ∧
    sbyte.ukey ∉ (asked.l1Of 0).owned ∧ sbyte.ukey ∈ (asked.l1Of 0).asked ∧ sbyte.ukey ∉ (base.l1Of 0).owned ∧
    sbyte.ukey ∉ (base.l1Of 0).asked ∧ (base.l1Of 0).owned = [] ∧ ({ sbyte with far := true } : SByte).far = true := by decide

/-- A store of one lane through the FRAME register of an agent that owns nothing. -/
theorem witness_FrameStoresReachTheirAddress :
    ∃ s1 v ex, (lane0 dmem).admits { p := p0, rd := [(.c 0#6, 1), (.v 4#8 false, 1)] } = .ok (s1, v, ex) ∧ ex ≠ 0 ∧
      Claims.Settled s1 v ∧ Claims.Reaches s1 v ex (mAcc ldF .write true 4 1 false) ∧
      (mAcc ldF .write true 4 1 false).lanes ex = [0] ∧ (v.t.regs.getX 1).pca = false ∧ ldF.pol ≠ .l2only ∧
      (s1.l1Of (v.agent s1)).owned = [] ∧ ∀ j, j < 4 → s1.remoteBad (0x10008 + j) = false := by
  unfold Claims.Settled Claims.Reaches
  exact ⟨_, _, _, rfl, by decide, by decide, by decide, by decide, by decide, by decide, by decide, by decide⟩

/-- ATOM and ACAS, and a RED whose entries may go; the CMT log with room and full. -/
theorem witness_AtomicsAndReductions :
    (afF .rel).ord ≠ .cmt ∧
    Ready dmem { p := p0, rd := [(.c 0#6, 1), (.v 4#8 false, 1)], wr := [(.v 4#8 false, 1)] } (aAcc (afF .rel) .rmw true 4 .a .a) ∧
    (∃ r, (lane0 dmem).accessReady { p := p0, rd := [(.c 0#6, 1), (.v 4#8 false, 1)] } (aAcc (afF .pln) .rmw true 4 .a .a) = .ok r ∧
      r.faults = [] ∧ r.ok ≠ [] ∧ r.v.a = .gang r.v.uid ∧ r.v.lane = none ∧
      (let es := redEntries r.s r.v (afF .pln) .add r.uni r.ok;
        (∀ e ∈ es, e.spad = false ∧ r.s.busyUnit (r.v.agent r.s) e.pa = false) ∧
        0 + es.length ≤ 4096 ∧ 4096 < 4096 + es.length ∧
        r.s.lockedOver (r.s.logPa (gang dmem) 0) (16 * es.length) = false)) ∧
    base.partials = [] :=
  ⟨by decide, ⟨_, rfl, by decide, by decide⟩, ⟨_, rfl, by decide, by decide, by decide, by decide, by decide⟩, rfl⟩

/-- An access that completes: it is admitted, the gang is settled and every lane's address is in order. -/
def Completes (s : State) (u : Uses) (m : AccF) : Prop :=
  ∃ s1 v ex, s.admits u = .ok (s1, v, ex) ∧ ex ≠ 0 ∧ Claims.Settled s1 v ∧ Claims.Reaches s1 v ex m

/-- LD, LDA and BPX. -/
theorem witness_LoadsComplete :
    Completes (lane0 dmem) { p := p0, rd := [(.c 0#6, 1)], wr := [(.v 4#8 false, 1)] } (mAcc ldF .read false 4 1 false) ∧
    Completes (lane0 dmem) { p := p0, rd := [(.c 0#6, 1)], wr := [(.v 4#8 false, 1)] } (aAcc (afF .acq) .read false 4 .g .s) ∧
    Completes (lane0 dmem) { p := p0, rd := [(.c 0#6, 1)], wr := [(.v 4#8 false, 1)] } (mAcc pwF .read false 8 8 true) := by
  unfold Completes Claims.Settled Claims.Reaches
  exact ⟨⟨_, _, _, rfl, by decide⟩, ⟨_, _, _, rfl, by decide⟩, ⟨_, _, _, rfl, by decide⟩⟩

/-- ST, STA and BPK. -/
theorem witness_StoresComplete :
    Completes (lane0 dmem) { p := p0, rd := [(.c 0#6, 1), (.v 4#8 false, 1)] } (mAcc ldF .write true 4 1 false) ∧
    Completes (lane0 dmem) { p := p0, rd := [(.c 0#6, 1), (.v 4#8 false, 1)] } (aAcc (afF .rel) .write true 4 .g .s) ∧
    Completes (lane0 dmem) { p := p0, rd := [(.c 0#6, 1), (.v 4#8 false, 1)] } (mAcc pwF .write true 8 8 true) := by
  unfold Completes Claims.Settled Claims.Reaches
  exact ⟨⟨_, _, _, rfl, by decide⟩, ⟨_, _, _, rfl, by decide⟩, ⟨_, _, _, rfl, by decide⟩⟩

/-- ATOM, ACAS and RED, and the room a held RED needs. -/
theorem witness_AtomicsAndReductionsComplete :
    Completes (lane0 dmem) { p := p0, rd := [(.c 0#6, 1), (.v 4#8 false, 1)], wr := [(.v 4#8 false, 1)] }
      (aAcc (afF .pln) .rmw true 4 .a .a) ∧
    Completes (lane0 dmem) { p := p0, rd := [(.c 0#6, 1), (.v 4#8 false, 2)], wr := [(.v 4#8 false, 1)] }
      (aAcc (afF .pln) .rmw true 4 .a .a) ∧
    Completes (lane0 dmem) { p := p0, rd := [(.c 0#6, 1), (.v 4#8 false, 1)] } (aAcc (afF .cmt) .rmw true 4 .a .a) ∧
    (gang (lane0 dmem)).cmtLog.length + ((aAcc (afF .cmt) .rmw true 4 .a .a).lanes 1).length ≤ 4096 ∧
    (∀ pa n, (lane0 dmem).lockedOver pa n = false) := by
  unfold Completes Claims.Settled Claims.Reaches
  exact ⟨⟨_, _, _, rfl, by decide⟩, ⟨_, _, _, rfl, by decide⟩, ⟨_, _, _, rfl, by decide⟩, by decide, fun _ _ => rfl⟩

/-! ## Multi-word compare-and-swap, fences, cache instructions -/

/-- One lane, with x1 whose frames may be written. -/
def mdmem : State := lane0 (withRegs fun r => r.setX 1 { x1reg with pw := true })
/-- [x1 + 8] as an MCAS of one entry names it, with its result in s4. -/
def mcF : AF := ⟨p0, 0#2, .s 4#6, 1#3, .c 0#6, .b64, .pln, false, 8#12⟩
/-- A line at x1. -/
def lnF : MLineF := ⟨p0, 0#2, 1#3, .c 0#6, .page, 8#16⟩

/-- An MCAS of one entry of zeros, which names the first 8 bytes of x1. -/
theorem witness_McasTakesItsFirstLock :
    ∃ r l va ps s2 t0 qs k ks, mdmem.accessReady { p := p0, rd := [(.c 0#6, mdmem.ogrp 1)], ws := [4] }
        { aAcc mcF .read false 24 .a .a with align := 8 } = .ok r ∧ r.faults = [] ∧ r.ok = [(l, .glob va ps)] ∧
      r.s.release r.v = .done r.s ∧
      r.s.readOwn r.v (r.v.agent r.s) ((List.range 24).map fun j => paAt ps j) none = .ok s2 ∧ ps.any Piece.prpt = false ∧
      (∀ j, j < 24 → s2.readErr (paAt ps j) (((pieceAt ps j).map fun q => q.2.cohg).getD 0) = none) ∧
      ((List.range 24).map fun j => s2.agentByte (r.v.agent r.s) (paAt ps j)) = List.replicate 24 0 ∧
      s2.mcasCheck r.v r.x [(0, 0, 0)] = .ok (.ok qs) ∧ r.x.kind = .frame ∧
      qs.foldl (init := ([] : List Nat)) (fun l p => insUnit p.2.1 l) = k :: ks ∧ s2.thr? r.v.a = some t0 ∧
      s2.remoteBad (unitBase k) = false :=
  ⟨_, _, _, _, _, _, _, _, _, rfl, rfl, rfl, rfl, rfl, by decide, by decide, by decide, rfl, rfl, rfl, rfl, by decide⟩

/-- An MCAS of one entry of zeros, with memory at rest. -/
theorem witness_McasCompletes :
    mcF.v = .s 4#6 ∧ uniform [mcF.o, mcF.v] = true ∧
    Completes mdmem { p := p0, rd := [(.c 0#6, 1)], ws := [4] } { aAcc mcF .read false 24 .a .a with align := 8 } ∧
    (mdmem.net = [] ∧ mdmem.home = [] ∧ mdmem.registry = [] ∧ mdmem.partials = [] ∧ mdmem.poison = [] ∧ mdmem.l1 = []) ∧
    memNat mdmem.mem 0x10008 8 % 8 = 0 ∧ mdmem.paHalt 0x10000 = none := by
  unfold Completes Claims.Settled Claims.Reaches
  exact ⟨rfl, rfl, ⟨_, _, _, rfl, by decide⟩, by decide, by decide, by decide⟩

/-- Cache instructions and fences that are admitted, with their lanes ready and room in the queue of the path; a store pending
for no line and for the line. -/
theorem witness_CacheInstructionsAndFences :
    (∃ s1 v ex s2, dmem.admits { p := lnF.p, ixs := lnF.ixs, rd := [(lnF.o, dmem.ogrp lnF.xr)] } = .ok (s1, v, ex) ∧ ex ≠ 0 ∧
      s1.laneReady v = some s2 ∧ v.t.count .g < 63 ∧
      (s2.lineLanes v lnF ex).1.l1 = [] ∧ (s2.lineLanes v lnF ex).2 ≠ []) ∧
    (∃ s1 v ex s2, base.admits { p := p0 } = .ok (s1, v, ex) ∧ ex ≠ 0 ∧ s1.laneReady v = some s2 ∧ v.t.flights = [] ∧
      (∀ t, s2.thr? v.a = some t → t.postErr = none) ∧ ∀ x ∈ (s2.l1Of (v.agent s2)).lostGangs, x.1 ≠ v.uid) :=
  ⟨⟨_, _, _, _, rfl, by decide, rfl, by decide, rfl, by decide⟩,
    ⟨_, _, _, _, rfl, by decide, rfl, by decide, by intro t h; cases h; rfl, by decide⟩⟩

/-- Whether a translation gives the line at 0x1000, all its words good. -/
def fetches : State × Xlat → Bool
  | (s, .ok ps) => paAt ps 0 == 0x1000 && (List.range 8).all fun j => s.fetchErr (0x1000 + 8 * j) 0 == none
  | _ => false

/-- A removal asked for and not yet done; a line that can be fetched; a walk that finds a leaf. -/
theorem witness_InstructionCachesAndWalks :
    (let f : Flight := { id := 7, path := .g, kind := .line, elems := [(0, 0x40)] };
      let s := withGang fun g => { g with thr := { g.thr with flights := [f] } };
      s.thr? (.gang 0) = some (gang s).thr ∧
      (gang s).thr.flights.find? (fun g => g.id == f.id && g.kind == .line && g.path == .g && !g.landed) = some f) ∧
    mapped.viewOf (.gang 0) = some (vw mapped) ∧
    fetches (mapped.xlatPage ((vw mapped).agent mapped) (vw mapped).g.ctx (vw mapped).sup .fetch (BitVec.ofNat 64 0x1000) 0 64) =
      true ∧
    (match mapped.walk 0 0x1000 with | .leaf _ => true | _ => false) = true :=
  ⟨by decide, by decide, by decide, by decide⟩

/-- XLAT with each kind of attribute word. -/
theorem witness_XlatMakesAnAddressRegister :
    Admits base { p := p0, rs := [2, 3, 4], ws := [4] } ∧
    (16 ≤ (16#64 : Word).toNat ∧ (3#64 : Word).toNat % 4 = 3 ∧ (15#64 : Word).toNat % 4 = 3) ∧ (4#64 : Word).toNat % 4 = 0 ∧
    (13#64 : Word).toNat % 4 = 1 ∧ (2#64 : Word).toNat % 4 = 2 :=
  ⟨⟨_, _, _, rfl, by decide⟩, by decide, by decide, by decide, by decide⟩

/-! ## The coherence messages -/

/-- A message on its way, all else at rest. -/
def wire (b : Body) (f : State → State := id) : State := f { base with net := [⟨7, b⟩] }
/-- A request of agent 0 to the home of a unit of grain 0. -/
def ask (r : Req) : HomeReq := { id := 7, agent := 0, ukey := ukeyOf 0x10008 0, sent := 0, req := r }

/-- Each request, at a home at rest. -/
theorem witness_HomeServesRequests :
    ∀ r ∈ [ask (.reg (some (.gang 0))), ask (.fill (some (.gang 0)) 7 0x10008 true .page),
        ask (.farStore (some (.gang 0)) 7 0 0x10008 [1] 0), ask (.farAtomic (some (.gang 0)) 7 0 0x10008 4 (some .add) 0 1 0),
        ask (.farAtomic (some (.gang 0)) 7 0 0x10008 4 none 0 1 0), ask (.lock (.gang 0) 7)],
      Claims.Only (wire (.req r)) 7 (.req r) r.ukey ∧ r.timedOut = false ∧ (wire (.req r)).inbound r = false ∧
      (wire (.req r)).paHalt (unitBase r.ukey) ≠ some .dieGated ∧ Claims.flightsOf (wire (.req r)) 0 = some [] ∧
      ∀ f ∈ ([] : List Flight), f.reads = true → f.id < 7 → f.wait = 0 := by
  unfold Claims.Only Claims.flightsOf; decide

/-- Agent 0 with a unit owned, one word of it dirty. -/
def ownerOf (s : State) : State :=
  { s with
    l1 := [(0, { owned := [sbyte.ukey], words := [(0x2001, { owned := true, dirty := true, data := 5, poison := false })] })]
    registry := [(ukeyOf 0x10008 0, { owner := some 0 })] }
/-- Agent 0 that has asked for the unit, with a store pending for it. -/
def askerOf (s : State) : State :=
  { s with l1 := [(0, { asked := [ukeyOf 0x10008 0], pend := [⟨0x10008, 1, ukeyOf 0x10008 0, .gang 0, 7, 0, 0, .page, none⟩] })] }

/-- A grant with its words and a denial, at the agent that has asked. -/
theorem witness_GrantsAndDenials :
    let k := ukeyOf 0x10008 0;
    (let ws : List (Nat × Word × Bool) := [(0x2000, 0, false), (0x2001, 5, false)];
      (wire (.grant 0 k ws none) askerOf).net = [⟨7, .grant 0 k ws none⟩] ∧ (ws.map Prod.fst).Nodup ∧
      (∀ p ∈ ((askerOf base).l1Of 0).pend, p.ukey = k → p.actor = .gang 0 ∧ p.flight = 7 ∧ p.lane = 0) ∧
      (0x2001, 5, false) ∈ ws ∧ k ∉ (askerOf base |>.l1Of 0).heldRev ∧
      k ∉ (askerOf base |>.l1Of 0).heldFwd ∧ (wire (.denied 0 k) askerOf).net = [⟨7, .denied 0 k⟩] ∧
      ((askerOf base).l1Of 0).owned = [] ∧ (∃ p ∈ ((askerOf base).l1Of 0).pend, p.ukey = k)) := by decide

/-- Each other answer, at an agent it concerns. -/
theorem witness_AgentsAnswerHome :
    let k := ukeyOf 0x10008 0;
    0 / 4096 = base.pkg.toNat ∧
    (k ∈ ((wire (.revoke 0 k) ownerOf).l1Of 0).owned ∧ 0x2001 ∈ unitWords k ∧
      tget ((wire (.revoke 0 k) ownerOf).l1Of 0).words 0x2001 = some { owned := true, dirty := true, data := 5, poison := false }) ∧
    (k ∉ ((wire (.revoke 0 k) askerOf).l1Of 0).owned ∧ k ∈ ((wire (.revoke 0 k) askerOf).l1Of 0).asked) ∧
    (let s := wire (.writeBack 0 k [(0x2001, 5, false)]) fun s => { ownerOf s with home := [(k, { stage := .revoking 0 9 })] };
      s.net = [⟨7, .writeBack 0 k [(0x2001, 5, false)]⟩] ∧ s.home = [(k, { stage := .revoking 0 9 })] ∧
      pkgOf (unitBase k) = s.pkg.toNat ∧ s.registry = [(k, { owner := some 0 })]) ∧
    (let r := ask (.fill (some (.gang 0)) 7 0x10008 true .page);
      let s := wire (.forward 0 k) fun s => { ownerOf s with home := [(k, { queue := [r], stage := .forwarding 0 9 })] };
      s.net = [⟨7, .forward 0 k⟩] ∧ k ∈ (s.l1Of 0).owned ∧ s.partials = [] ∧ r.timedOut = false ∧
      s.home = [(k, { queue := [r], stage := .forwarding 0 9 })] ∧ s.registry = [(k, { owner := some 0 })] ∧
      Claims.flightsOf s 0 = some [] ∧ s.poison = []) ∧
    tget (wire (.ack (some (.gang 0)) 7 0 none 0)).gangs 0 = some (gang base) := by unfold Claims.flightsOf; decide

/-- A unit of this package held by another package's agent; a notice of loss; a request to another package that has waited 100 µs. -/
theorem witness_LostOwnersTimeoutsAndSoftErrors :
    (let k := ukeyOf 0x10008 0;
      let s : State := { later base with home := [(k, { stage := .revoking 4096 5 })] };
      s.unit k = { stage := .revoking 4096 5 } ∧ 4096 / 4096 ≠ s.pkg.toNat ∧ pkgOf (unitBase k) = s.pkg.toNat ∧
      5 + 20000000 ≤ s.ps) ∧
    (let k := ukeyOf (2 ^ 47 + 0x10008) 0;
      let r : HomeReq := { id := 7, agent := 0, ukey := k, sent := 0,
                           req := .fill (some (.gang 0)) 7 (2 ^ 47 + 0x10008) true .page };
      let s : State := { later base with net := [⟨7, .req r⟩] };
      s.openReqs = [r] ∧ r.agent / 4096 = s.pkg.toNat ∧ pkgOf (unitBase r.ukey) ≠ s.pkg.toNat ∧ r.timedOut = false ∧
      r.sent + 100000000 ≤ s.ps ∧ tget s.gangs 0 = some (gang s)) ∧
    (let r : HomeReq := { id := 7, agent := 4096, ukey := ukeyOf (2 ^ 40) 0, sent := 0,
                           req := .farStore (some (.gang 9)) 3 0 (2 ^ 40) [1] 0 };
      (wire (.req r)).inbound r = true ∧ (wire (.req r)).paHalt (unitBase r.ukey) ≠ none) ∧
    base.down.getLsbD 17 = false ∧ (wire .late).net = [⟨7, .late⟩] ∧ (wire (.lost 0 5)).net = [⟨7, .lost 0 5⟩] := by decide

/-! ## WAITU, copies, counters -/

/-- The machine with one lane, x1 on the scratchpad of a one-array window, x2 on physical memory, and s registers set. -/
def rig (f : Regs → Regs := id) : State :=
  { lane0 (withRegs fun r => f (((r.setX 1 { kind := .spad, limit := 0x8000 }).setX 2 x1reg).setS 7 2)) with
    teams := [(1, { grid := 2, gangs := [0], cores := [0], window := [0] })]
    mem := [(0x10000, 1), (0x10002, 1), (0x10004, 1), (0x10006, 1)] }

/-- A lane that reads a word of the scratchpad, and one that reads a word of global memory. -/
theorem witness_WaituReadsUntilItsTestIsMet :
    (∃ s1 v ex s2 s3, rig.admits (Claims.waituUses (afF .acq) rig) = .ok (s1, v, ex) ∧
      rig.view = some (vw rig) ∧ (vw rig).t.wait = .none ∧ ex ≠ 0 ∧ s1.ordered v = some (s2, v) ∧
      s2.decideAccess v .read (v.t.regs.getX 1) false
        (((aAcc (afF .acq) .read false 4 .g .s).lanes ex).map (v.laneReq s2 (aAcc (afF .acq) .read false 4 .g .s) (v.t.regs.getX 1))) =
          (s3, .run [(0, .spad 8)] [] 0) ∧
      s3.spadRead (s3.teamOf v.g).window 8 4 = (([0, 0, 0, 0] : List Byte).map (fun b => (some b, none)), 0) ∧
      v.a = .gang v.uid ∧ v.lane = none ∧ tget s3.gangs v.uid = some (gang rig) ∧ (gang rig).thr = v.t ∧ (gang rig).inPf = false) ∧
    (∃ s1 v ex s2 s3 l va ps q, (lane0 dmem).admits (Claims.waituUses (afF .acq) (lane0 dmem)) = .ok (s1, v, ex) ∧ ex ≠ 0 ∧
      s1.ordered v = some (s2, v) ∧
      s2.decideAccess v .read (v.t.regs.getX 1) false
        (((aAcc (afF .acq) .read false 4 .g .s).lanes ex).map (v.laneReq s2 (aAcc (afF .acq) .read false 4 .g .s) (v.t.regs.getX 1))) =
          (s3, .run [(l, .glob va ps)] [] 0) ∧
      pieceAt ps 0 = some q ∧ s3.busyUnit (v.agent s2) q.1 = false ∧ s3.remoteBad q.1 = false) :=
  ⟨⟨_, _, _, _, _, rfl, rfl, rfl, by decide, rfl, rfl, by decide, rfl, rfl, rfl, rfl, rfl⟩,
    ⟨_, _, _, _, _, _, _, _, _, rfl, by decide, rfl, rfl, rfl, by decide, by decide⟩⟩

/-- A WAITU of s4 that waits for a word, and how its word stands. -/
def wword (met asked : Bool) : Watch := { Claims.watch 64 0x10008 0 0 0 asked (!asked) none with met := met }
/-- The WAITU. -/
def wu (met : Bool) (spad asked : Bool := false) : WaitU :=
  { eq := true, spad := spad, bytes := 4, dst := .s 4, lanes := 1, chk := false, acq := true, started := 0, polled := 0
    watches := [wword met asked], fault := [], level := 0 }
/-- The machine that waits in it, with a message on its way. -/
def waits (w : WaitU) (b : Body := .wake (.gang 0)) : State :=
  { withGang fun g => { g with thr := { g.thr with wait := .waitu w } } with net := [⟨7, b⟩] }

/-- A WAITU whose word does not meet its test: woken, due for its poll and its timeout, of scratchpad and of global memory, with
its read served; and one whose word meets it. -/
theorem witness_WaituIsWokenPolledAndTimedOut :
    (∀ b ∈ [true, false], let s := waits (wu b);
      s.viewOf (.gang 0) = some (vw s) ∧ tget s.gangs 0 = some (gang s) ∧ (vw s).t.wait = .waitu (wu b)) ∧
    ((waits (wu false)).net = [⟨7, .wake (.gang 0)⟩] ∧ (wu false).still = true ∧ (wu false).spad = false ∧
      (∃ x ∈ (wu false).watches, x.met = false ∧ x.err = none)) ∧
    ((wu false).polled + 1024 ≤ (vw (later (waits (wu false)))).now ∧ (∃ x ∈ (wu false).watches, x.monitored = false)) ∧
    ((wu false true).polled + 16 ≤ (vw (later (waits (wu false true)))).now ∧ (wu false true).spad = true ∧
      (wword false false).seen = true ∧ (wword false false).asked = false ∧
      rig.spadRead [0] 0x10 4 = (([0, 0, 0, 0] : List Byte).map (fun b => (some b, none)), 0)) ∧
    (wu false).started + 65536 ≤ (vw (later (waits (wu false)))).now ∧
    (let q : HomeReq := { id := 7, agent := 0, ukey := ukeyOf 0x10008 0, sent := 0, req := .watch (.gang 0) 64 0x10008 4 true };
      let w := wu false false true;
      Claims.Only (waits w (.req q)) 7 (.req q) q.ukey ∧ q.timedOut = false ∧ (waits w (.req q)).inbound q = false ∧
      (waits w (.req q)).paHalt (unitBase q.ukey) ≠ some .dieGated ∧ w.watches = [wword false true] ∧
      (wword false true).asked = true ∧ (wword false true).met = false ∧ (wword false true).err = none) ∧
    ((wu true).still = true ∧ (∀ x ∈ (wu true).watches, x.met = true) ∧ (∀ x ∈ (wu true).watches, x.err = none) ∧
      (wu true).fault = [] ∧ (wu true).dst = .s 4 ∧ (gang (waits (wu true))).inPf = false) := by
  unfold Claims.Only; decide

/-- A copy of one byte. -/
theorem witness_CopiesJoinTheirEngine :
    let x : X1 := ⟨p0, 4#6⟩;
    ∃ s1 v ex va s2 w s3 ps s4 g, rig.admits { p := x.p, rs := [4, 5, 6, 7], safe := false } = .ok (s1, v, ex) ∧ ex ≠ 0 ∧
      s1.ordered v = some (s2, w) ∧ v.t.count .c < 63 ∧ (s1.core v.g.core).copyQ.length < 16 ∧ w.t.regs.getS 7 = 2 ∧
      (w.t.regs.getX 1).kind = .spad ∧ (w.t.regs.getX 2).kind = .frame ∧
      formAddr (w.t.regs.getX 2) 0 (w.t.regs.getS 6).toNat 64 false none 64 = .ok va ∧
      s2.xlatReg (w.agent s2) w.g.ctx w.sup .read (w.t.regs.getX 2) va 64 = (s3, .ok ps) ∧
      s3.readOwn w (w.agent s3) (pasOf ps 64) none = .ok s4 ∧ ps.any Piece.prpt = false ∧
      s4.errPieces ps 64 = none ∧ (pasOf ps 64).map (s4.agentByte (w.agent s4)) = [1, 0, 1, 0, 1, 0, 1] ++ List.replicate 57 0 ∧
      spanOf 0 [(1, 0), (1, 0), (1, 0), (1, 0)] 1 = (0, 0) ∧ (s4.teamOf w.g).window.length = 1 ∧
      (w.t.regs.getX 2).limit = 0x1000 ∧ (w.t.regs.getX 1).limit = 0x8000 ∧ (w.t.regs.getX 1).ro = false ∧
      w.a = .gang w.uid ∧ w.lane = none ∧ tget s4.gangs w.uid = some g ∧ g.thr = w.t :=
  ⟨_, _, _, _, _, _, _, _, _, _, rfl, by decide, rfl, by decide, by decide, rfl, rfl, rfl, rfl, rfl, rfl, by decide, by decide,
    by decide, by decide, rfl, rfl, rfl, rfl, rfl, rfl, rfl, rfl⟩

/-- A fill of 3 rows of 5 bytes, 16 bytes apart. -/
theorem witness_FillsJoinTheirEngine :
    let x : X1 := ⟨p0, 4#6⟩;
    ∃ s1 v ex g, (rig fun r => r.setS 6 0x1000030005).admits { p := x.p, rs := [4, 5, 6], safe := false } = .ok (s1, v, ex) ∧
      ex ≠ 0 ∧ v.t.held = false ∧ v.t.count .c < 63 ∧ (s1.core v.g.core).copyQ.length < 16 ∧ v.t.regs.getS 6 = 0x1000030005 ∧
      (v.t.regs.getX 1).kind = .spad ∧ (v.t.regs.getX 1).ro = false ∧ (v.t.regs.getX 1).limit = 0x8000 ∧
      spanOf 0 [(5, 1), (3, 16), (1, 0), (1, 0)] 1 = (0, 36) ∧ (s1.teamOf v.g).window.length = 1 ∧
      v.a = .gang v.uid ∧ v.lane = none ∧ tget s1.gangs v.uid = some g ∧ g.thr = v.t :=
  ⟨_, _, _, _, rfl, by decide, rfl, by decide, by decide, rfl, rfl, rfl, rfl, by decide, rfl, rfl, rfl, rfl, rfl⟩

/-- A fill of 3 bytes, of slab 0 of array 0. -/
def fill3 : Job :=
  { base.newJob (vw base) with
    id := 9, fill := true, val := 5, ext := [3, 1, 1, 1], pstr := [1, 0, 0, 0], gstr := [0, 0, 0, 0], slabs := [(0, 0, 0)] }
/-- A machine whose first copy it is. -/
def copying (j : Job) : State := { rig with cores := [(0, { copyQ := [j] })] }

/-- A copy that may start, one that moves, one that has moved all, and one that is paused with its fault raised. -/
theorem witness_CopiesRun :
    ((copying fill3).core 0).copyQ = [fill3] ∧ (copying fill3).thr? (.gang fill3.gang) = some (gang rig).thr ∧
    (fill3.started = false ∧ fill3.taken = 0 ∧ (∀ f ∈ (gang rig).thr.flights, f.id ∈ fill3.earlier → f.complete = true) ∧
      (fill3.slabs.map fun x => (x.1, x.2.1)).Nodup ∧
      (copying fill3).lanes = [] ∧
      (∀ x ∈ fill3.slabs, ((copying fill3).arr x.1).rck = false ∧ ((copying fill3).arr x.1).ownerOf x.2.1 = .t ∧
        ((copying fill3).arr x.1).converting x.2.1 (copying fill3).ps = false)) ∧
    (let j := { fill3 with started := true };
      j.paused = false ∧ j.conv = .raw ∧ j.fill = true ∧ j.dests = [] ∧ 1 ≤ j.esz ∧ j.esz ≤ 8 ∧ j.pos < j.elements ∧
      (copying j).arrays = [] ∧ ((tget (copying j).teams j.team).map Team.window).getD [] = [0] ∧
      ∀ k, k < 3 → j.pAt k + j.esz ≤ 1 * 0x8000) ∧
    (let j := { fill3 with started := true, pos := 3, taken := 1 };
      let s : State := { copying j with arrays := [(0, { owner := [(0, .c 9)] })] };
      j.elements ≤ j.pos ∧ j.taken = j.slabs.length ∧
      ∀ x ∈ j.slabs, (s.arr x.1).ownerOf x.2.1 = .c j.id ∧ mapWf .t (s.arr x.1).owner = true) ∧
    (∃ f, ({ gang rig with engFaults := [⟨false, 0, 0, 3, 1⟩] } : Gang).engFaults.head? = some f ∧ f.seq = false) := by
  refine ⟨rfl, rfl, by decide, by decide, by decide, ⟨_, rfl, rfl⟩⟩

/-- A gang with a copy in flight, whose WAITC of none begins to wait, or has kept that threshold. -/
def counting (w : Wait) : State :=
  rig.modGang 0 fun g => { g with thr := { g.thr with flights := [{ id := 9, path := .c, kind := .write, wait := 1 }], wait := w } }

/-- WAITC with nothing in flight, ICNT, and SLBQ of the window's first byte. -/
theorem witness_CountersAndSlabStatus :
    Admits rig { p := p0, rs := [4] } ∧ Admits rig { p := p0, ws := [4] } ∧ Admits rig { p := p0, rs := [5], ws := [4] } ∧
    (∀ w ∈ [Wait.none, .waitc 0x1008 0], (match (counting w).admits { p := p0, rs := [4] } with
        | .ok (_, v, ex) => decide (v = vw (counting w)) && decide (ex ≠ 0)
        | _ => false) = true ∧
      (vw (counting w)).t.regs.getS 4 = 0 ∧ 0 < (vw (counting w)).t.count .c ∧ (vw (counting w)).t.wait = w) ∧
    (vw rig).t.count .c ≤ ((vw rig).t.regs.getS 4).toNat ∧ ((vw rig).t.regs.getX 1).kind = .spad ∧
    formAddr ((vw rig).t.regs.getX 1) (rig.teamOf (vw rig).g).window.length ((vw rig).t.regs.getS 5).toNat 1 false none 1 = .ok 0 :=
  ⟨⟨_, _, _, rfl, by decide⟩, ⟨_, _, _, rfl, by decide⟩, ⟨_, _, _, rfl, by decide⟩, by decide, by decide, by decide, rfl⟩

/-! ## Conversions, sequencers, arrays' modes -/

/-- The rig whose grid has code slots 1 (I8, bit planes) and 2 (I8), a window of two arrays, and s8 to s13 set. -/
def works (ss : List Word) (arrays : Tab Arr := []) (seq : Seq := {}) : State :=
  let regs (r : Regs) : Regs := (List.range 6).foldl (fun r j => r.setS (8 + j) ((ss[j]?).getD 0))
    (r.setX 7 { kind := .spad, limit := 0x10000 })
  { rig regs with
    grids := [(2, { vallot := 256, teams := 1, pushed := 1, slots := [(1, 0x16), (2, 0x06)] })]
    teams := [(1, { grid := 2, gangs := [0], cores := [0], window := [0, 1] })]
    arrays := arrays
    cores := [(0, { seqs := if seq = {} then [] else [(1, seq)] })] }
/-- 64 floats at 0, codes at 0x400, the stream at 0x500. -/
def convs : State := works [0, 0x400, 0x500, 64]
/-- Slot 2. -/
def i8slot : Machine.Slot := { ef := .i8, bpl := false, bl := 32, apl := 0, sath := 0, tq := 0, clean := true }
/-- The operands of the conversions. -/
def cx : X1 := ⟨p0, 8#6⟩
/-- Their blocks. -/
def conv64 : Conv := { slot := i8slot, slotNo := 2, win := [0, 1], n := 64, tag0 := 0, f := 0, c := 0x400, t := 0x500, id := 9 }

/-- Conversions whose blocks convert, and one whose stream is tagged from 0 where the run begins at 1. -/
theorem witness_ScratchpadConversions :
    (∃ s1 v ex s2, convs.admits { p := cx.p, rs := [8, 9, 10, 11] } = .ok (s1, v, ex) ∧ ex ≠ 0 ∧ v.t.held = false ∧
      s1.laneReady v = some s2 ∧ (v.t.regs.getX 1).kind = .spad ∧ (s2.gridOf v.g).codeSlot 2 = some i8slot ∧
      (v.t.regs.getS 11).toNat = 64 ∧ (64 + 65536) / 65536 % 256 = 1 ∧
      s2.regionCheck [0, 1] (v.t.regs.getX 1).ro
        [Claims.floats conv64 false, Claims.codes conv64 true, Claims.stream conv64 false] = none) ∧
    (∃ s1 v ex, convs.admits { p := cx.p, rs := [8, 10, 11] } = .ok (s1, v, ex) ∧ ex ≠ 0) ∧
    (match convBlocks (mxsclBlock (vw convs) conv64) [0, 1] convs with | .ok _ => true | _ => false) = true ∧
    (match convBlocks (qcvtBlock (vw convs) { conv64 with tag0 := 1 }) [0, 1] convs with | .ok _ => false | .halt _ _ => true) = true :=
  ⟨⟨_, _, _, _, rfl, by decide, by decide, rfl, by decide, by decide, by decide, by decide, by decide⟩, ⟨_, _, _, rfl, by decide⟩,
    by decide, by decide⟩

/-- A QCVT of 64 elements whose stream is tagged 0 and 1, with nothing Poisoned; the operands of the others are in order too. -/
theorem witness_ConversionsComplete :
    let tagged : State := convs.setArr 0 ((convs.arr 0).store [(0x503, 1)]).1;
    (∃ s1 v ex g, tagged.admits { p := cx.p, rs := [8, 9, 10, 11] } = .ok (s1, v, ex) ∧ ex ≠ 0 ∧ v.t.flights = [] ∧
      v.lane = none ∧ v.a = .gang v.uid ∧ tget s1.gangs v.uid = some g ∧ g.thr = v.t ∧ (v.t.regs.getX 1).kind = .spad ∧
      (s1.gridOf v.g).codeSlot 2 = some i8slot ∧
      (∀ rs ∈ [[Claims.floats conv64 false, Claims.codes conv64 true, Claims.stream conv64 false],
          [Claims.floats conv64 true, Claims.codes conv64 false, Claims.stream conv64 false],
          [Claims.floats conv64 false, Claims.stream conv64 true]], s1.regionCheck [0, 1] (v.t.regs.getX 1).ro rs = none) ∧
      (∀ k, k < 2 → s1.spNat [0, 1] (0x500 + 2 * k) 2 / 256 = (0 + k) % 256)) ∧
    (tagged.arrays.all fun a => decide (a.2.poison = [])) = true ∧ [0, 1].Nodup ∧
    Claims.Apart (Claims.codes conv64 true) (Claims.stream conv64 false) ∧
    Claims.Apart (Claims.floats conv64 true) (Claims.stream conv64 false) :=
  ⟨⟨_, _, _, _, rfl, by decide, rfl, rfl, rfl, rfl, rfl, by decide, by decide, by decide, by decide⟩, by decide, by decide,
    by unfold Claims.Apart; decide, by unfold Claims.Apart; decide⟩

/-- A block of 3 and −2 with its greatest magnitude between 2 and 4; 2.5 as a code of each kind of format; a threshold of T2; the
formats and a slot of codes with a bit-plane layout; a raise that crosses SATH. -/
theorem witness_ElementFormats :
    (units 3 0 (-5) = 96 ∧ units 1 1 (-5) = 64 ∧ units 1 1 (-5) ≤ 96 ∧ 96 < 2 * units 1 1 (-5) ∧ (-5 : Int) ≤ 1) ∧
    (let (b, q, _) := intCode .i8
     b = 8 ∧ (-4 : Int) ≤ -1 - ((127 : Int) - 127) + q ∧ units 5 (-1 + q) (-4) = 160 * units 1 0 (-4)) ∧
    (let (b, mb, bias, top) := smallFloat .e4m3
     b = 8 ∧ 66 ≤ top ∧ (-9 : Int) ≤ 1 - (bias : Int) - mb ∧
      units 5 (-1) (-9) = units (magnitude .e4m3 66).1 (magnitude .e4m3 66).2 (-9) ∧
      units (magnitude .e4m3 65).1 (magnitude .e4m3 65).2 (-9) < units 5 (-1) (-9) ∧
      units 5 (-1) (-9) < units (magnitude .e4m3 67).1 (magnitude .e4m3 67).2 (-9)) ∧
    f32.decode 0x3F000000 = .fin false 0x800000 (-24) ∧
    (let g : Grid := { slots := [(2, 0x100000006)] };
      mapWf 0 g.satc = true ∧ (mget 0 g.slots 2).toNat / 2 ^ 32 % 2 ^ 32 = 1 ∧ (mget 0 g.satc 2).toNat < 1 ∧
      1 ≤ (mget 0 g.satc 2 + 1).toNat ∧ ¬(mget 0 g.satc 3).toNat < (mget 0 g.slots 3).toNat / 2 ^ 32 % 2 ^ 32) := by
  decide +kernel

/-- Two blocks whose words are in order: the first has the tag expected, the second another. -/
theorem witness_ConversionBlocks :
    conv64.win.Nodup ∧ conv64.win.length ≤ 16 ∧ (∀ key, (convs.arr key).poison = [] ∧ mapWf 0 (convs.arr key).cells = true) ∧
    conv64.slot.ef ∈ codeFormats ∧ conv64.n % 64 = 0 ∧ 0 < conv64.slot.bl ∧ conv64.slot.bl % 32 = 0 ∧
    1 < conv64.n / conv64.slot.bl ∧ conv64.f + 4 * conv64.n ≤ 0x10000 ∧ conv64.c + conv64.n * 8 / 8 ≤ 0x10000 ∧
    conv64.t + 2 * (conv64.n / conv64.slot.bl) ≤ 0x10000 ∧ convs.spNat conv64.win (0x500 + 2 * 0) 2 / 256 = (0 + 0) % 256 ∧
    convs.spNat conv64.win (0x500 + 2 * 1) 2 / 256 ≠ (0 + 1) % 256 :=
  ⟨by decide, by decide, fun _ => ⟨rfl, rfl⟩, by decide, by decide, by decide, by decide, by decide, by decide, by decide, by decide,
    by decide, by decide⟩

/-- A step's formats. -/
theorem witness_ExactSegmentsAreDotProducts :
    (EFmt.i8 = .i8 ∨ EFmt.i8 = .i4) ∧ (EFmt.t2 = .i8 ∨ EFmt.t2 = .i4 ∨ EFmt.t2 = .t2) := by decide

/-- A run of one step of SHP0: activations in memory from x2 on, weights in array 0, C in array 1. -/
def run1 : Run :=
  { id := 9, gang := 0, team := 1, grid := 2, shp := .shp0, pm := .exact, slot1 := 1, slot2 := 2, first := 0, ctx := 0, sup := true
    ax := x1reg, aoff := 0, astr := 64, ainc := 0, coff := 0x8000, ascl := 0x400, cnt := 1, pc := 0x1008, lane := 0
    earlier := [], slabs := [(1, 0, 0x8000)], taken := 0, started := false, held := [], want := none, stepOn := false, step := 0
    row := 0, stop := none }
/-- Its operands. -/
def loop1 : MLoopF :=
  { p := p0, sb := 8, xr := 2, slot1 := 1, slot2 := 2, shp := .shp0, q := 1, first := 0, pm := .exact }
/-- The machine of that run, with array 0 in reckoning mode for its team. -/
def seqs (seq : Seq) : State := works [0, 64, 0, 0x8000, 1, 0x400] [(0, { rck := true, modeTeam := some 1 })] seq
/-- Its gang with a pending progress record. -/
def paused1 : State := (seqs { owner := some 0 }).setRprog 0 1 (BitVec.ofNat 64 (2 ^ 62))

/-- Sequencer 1 free and owned; MLOOP whose operands allow its run; MLOOP.RES with nothing pending, and with a record. -/
theorem witness_SequencersAndRuns :
    (∃ s1 v ex, (seqs {}).admits { p := p0, safe := false } = .ok (s1, v, ex) ∧ ex ≠ 0 ∧ (s1.seq 0 1).owner = none) ∧
    (∃ s1 v ex, (seqs { owner := some 0, queue := [4] }).admits { p := p0, safe := false } = .ok (s1, v, ex) ∧ ex ≠ 0 ∧
      (s1.seq 0 1).owner = some v.uid ∧ (s1.seq 0 1).run = none ∧ mapWf {} (s1.core 0).seqs = true) ∧
    Admits (seqs {}) { p := p0, ws := [8] } ∧
    (∃ s1 v ex g r, (seqs { owner := some 0 }).admits { p := p0, rs := [8, 9, 10, 11, 12, 13], safe := false } = .ok (s1, v, ex) ∧
      ex ≠ 0 ∧ v.a = .gang v.uid ∧ v.lane = none ∧ tget s1.gangs v.uid = some g ∧ g.thr = v.t ∧ v.t.count .m < 63 ∧
      (mget 0 v.g.rprog 1).getLsbD 62 = false ∧ s1.mloopRun v loop1 false = .ok r) ∧
    (∃ s1 v ex g r, paused1.admits { p := p0, rs := [8, 9, 10, 11, 12, 13], safe := false } = .ok (s1, v, ex) ∧
      ex ≠ 0 ∧ tget s1.gangs v.uid = some g ∧ (mget 0 v.g.rprog 1).getLsbD 62 = true ∧ s1.mloopRun v loop1 true = .ok r) :=
  ⟨⟨_, _, _, rfl, by decide, by decide⟩, ⟨_, _, _, rfl, by decide, by decide, by decide, by decide⟩, ⟨_, _, _, rfl, by decide⟩,
    ⟨_, _, _, _, _, rfl, by decide, rfl, rfl, rfl, rfl, by decide, by decide, rfl⟩,
    ⟨_, _, _, _, _, rfl, by decide, rfl, by decide, rfl⟩⟩

/-- The machine with a run. -/
def running (r : Run) : State := seqs { owner := some 0, run := some r }
/-- The run in its first row. -/
def row0 : Run := { run1 with started := true, stepOn := true, held := [0] }

/-- A run that may start, one whose step may start, one whose row is due, and one that is over. -/
theorem witness_RunsProceedRowByRow :
    (∀ r ∈ [run1, { run1 with started := true }, row0, { run1 with started := true, step := 1, taken := 1 }],
      ((running r).seq 0 1).run = some r ∧ (running r).thr? (.gang 0) = some (gang (running r)).thr ∧
      ((running r).teams.map fun e => (e.1, e.2.st)) = [(1, .running)] ∧ (gang (running r)).halted = false ∧ r.stop = none) ∧
    ((∀ f ∈ (gang (running run1)).thr.flights, f.id ∈ run1.earlier → f.complete = true) ∧
      (run1.slabs.map fun x => (x.1, x.2.1)).Nodup ∧
      (running run1).lanes = [] ∧
      (∀ x ∈ run1.slabs, ((running run1).arr x.1).rck = false ∧ ((running run1).arr x.1).ownerOf x.2.1 = .t ∧
        ((running run1).arr x.1).converting x.2.1 (running run1).ps = false)) ∧
    (let r := { run1 with started := true, step := 1, taken := 1 };
      let s : State := (running r).setArr 1 { owner := [(0, .m 9)] };
      r.cnt ≤ r.step ∧ r.taken = r.slabs.length ∧
      ∀ x ∈ r.slabs, (s.arr x.1).ownerOf x.2.1 = .m r.id ∧ mapWf .t (s.arr x.1).owner = true) ∧
    (let r := { run1 with started := true };
      (∀ o ∈ (running r).runs, o.id = r.id ∨ (o.held = [] ∧ o.want = none)) ∧
      (∀ k ∈ (running r).stepArrays r, ((running r).arr k.2).rck = true ∧ ((running r).arr k.2).modeTeam = some r.team)) ∧
    (row0.due ≤ (running row0).runClk row0 ∧
      (∃ a w s1 d, ((tget (running row0).grids 2).getD {}).actSlot 1 = some a ∧
        ((tget (running row0).grids 2).getD {}).wtSlot 2 = some w ∧ (running row0).rowData 0 row0 a = (s1, .ok d) ∧
        s1.rowPoison row0 w.ef = none ∧ s1.stopDue row0 = false ∧ (s1.rowAdd row0 a w d).stopDue row0 = false)) ∧
    mapWf {} ((running run1).core 0).seqs = true :=
  ⟨by decide, by decide, by decide, by decide, ⟨by decide, ⟨_, _, _, _, rfl, rfl, rfl, by decide, by decide, rfl⟩⟩, by decide⟩

/-- The team's only gang; array 0 computing for the team, and in storage. -/
theorem witness_ArrayModesAndCalibration :
    (∃ s1 v ex t g, (seqs {}).admits { p := p0, safe := false } = .ok (s1, v, ex) ∧ ex ≠ 0 ∧ v.a = .gang v.uid ∧ v.lane = none ∧
      tget s1.gangs v.uid = some g ∧ g = { v.g with thr := v.t } ∧ g.ended = false ∧ tget s1.teams g.team = some t ∧
      t.gangs = [v.uid] ∧ t.amode = {} ∧ g.inPf = false ∧ s1.lanesReach v.uid = false ∧ (s1.arr 1).conv = [] ∧ t.window[0]? = some 0 ∧ g.thr.pend = [] ∧ RegsWf g.thr.regs ∧ s1.release v = .done s1 ∧
      (s1.arr 0).rck = true ∧ (s1.arr 0).modeTeam = some g.team ∧ s1.stepHolds 0 = false ∧ (s1.arr 0).defer = [] ∧
      (s1.arr 1).rck = false ∧ (s1.arr 1).deg = false ∧ (s1.arr 1).owner = [] ∧ (s1.arr 1).defer = [] ∧ t.window[1]? = some 1) ∧
    Admits (seqs {}) { p := p0, wk := [1], safe := false } :=
  ⟨⟨_, _, _, _, _, rfl, by decide, rfl, rfl, rfl, rfl, rfl, rfl, rfl, rfl, rfl, rfl, rfl, rfl, rfl, by unfold RegsWf; decide, rfl, rfl, rfl, rfl,
    rfl, rfl, rfl, rfl, rfl, rfl⟩, ⟨_, _, _, rfl, by decide⟩⟩

/-- The team's other gang, which has arrived. -/
def other : Gang := { gang0 0 with gangid := 1, thr := { (gang0 0).thr with wait := .amode } }
/-- A team of two gangs, the second of which has arrived at an AMODE of the team's array `n`. -/
def meeting (rck : Bool) (n : BitVec 8) : State :=
  let s := seqs {}
  { s with
    gangs := s.gangs ++ [(6, other)]
    teams := [(1, { grid := 2, gangs := [0, 6], cores := [0], window := [0, 1], amode := { arrived := [1], rck := rck, sel := ⟨n, 1#8, 1#3⟩ } })] }

/-- The last gang of the team, at an AMODE of the array that computes, and of the one in storage. -/
theorem witness_TheLastGangArrives :
    ∀ c ∈ [(false, 0#8), (true, 1)], let s := meeting c.1 c.2
      (match s.admits { p := p0, wk := [1], safe := false } with
        | .ok (s1, v, ex) => decide (ex ≠ 0 ∧ v.a = .gang v.uid ∧ v.lane = none) && decide (s1.lanesReach v.uid = false) &&
          decide (tget s1.gangs v.uid = some { v.g with thr := v.t } ∧ v.g.ended = false ∧ v.g.inPf = false ∧ v.t.pend = []) &&
          decide (s1.gangs.length = 2 ∧ tget s1.gangs 6 = some other ∧ v.uid = 0) &&
          (match s1.release v with
            | .done t => decide (t = s1)
            | _ => false) &&
          (s1.teams.all fun t => decide (t.1 = v.g.team ∧ t.2.gangs = [0, 6] ∧ t.2.window[c.2.toNat]? = some c.2.toNat ∧
            t.2.amode = { arrived := [1], rck := c.1, sel := ⟨c.2, 1#8, 1#3⟩ }) && decide (v.g.gangid ∉ t.2.amode.arrived)) &&
          (let a := s1.arr c.2.toNat
           decide (a.rck = !c.1 ∧ a.deg = false ∧ a.owner = [] ∧ a.defer = [] ∧ a.conv = []))
        | _ => false) = true := by
  decide +kernel

/-- MLOOP of one step whose rows, arrays, scales and sums lie where they must, and MLOOP.RES of its start. -/
theorem witness_RunsStart :
    let s := seqs { owner := some 0 }
    let v := vw s
    let reg (j : Nat) : Word := v.t.regs.getS (8 + j)
    let d := shpDims loop1.shp
    ∃ a w, (s.gridOf v.g).actSlot 1 = some a ∧ (s.gridOf v.g).wtSlot 2 = some w ∧
      (let arrays := (d.2.1 + rodsOf w.ef - 1) / rodsOf w.ef
       let rows := spanOf (((reg 0).toNat : Int) + (rowSpan d.2.2 a).1) [(1, (reg 2).toInt), (d.1, (reg 1).toInt)]
         (rowSpan d.2.2 a).2
       (reg 4).toNat = 1 ∧ (s.seq 0 1).owner = some v.uid ∧ (s.seq 0 1).run = none ∧ (v.t.regs.getX 2).kind = .frame ∧
       (∀ j ∈ [0, 1, 2], (reg j).toNat % 8 = 0) ∧ (reg 3).toNat % 4 = 0 ∧ (reg 5).toNat % 2 = 0 ∧
       arrays ≤ (s.teamOf v.g).window.length ∧
       (∀ j, j < arrays → ∃ key, (s.teamOf v.g).window[j]? = some key ∧ (s.arr key).rck = true ∧
         (s.arr key).modeTeam = some v.g.team) ∧
       0 ≤ rows.1 ∧ rows.2.toNat < (v.t.regs.getX 2).limit.toNat ∧
       (reg 5).toNat + 2 * (d.1 * ((d.2.2 + a.bl - 1) / a.bl)) ≤ (v.t.regs.getX 2).limit.toNat ∧
       (reg 3).toNat + 4 * (d.1 * d.2.1) ≤ Nat.min (v.t.regs.getX 7).limit.toNat ((s.teamOf v.g).window.length * 0x8000) ∧
       (let rp := (mget 0 (gang paused1).rprog 1).toNat
        rp.testBit 62 = true ∧ rp / 2 ^ 40 % 256 < 1 ∧ rp / 2 ^ 32 % 256 < d.1)) :=
  ⟨_, _, rfl, rfl, by decide⟩
/-! ## Queues, joins, groups, barriers -/

/-- Sixty-four bytes of a queue descriptor of four slots from an address on, that is at its start. -/
def qb (kind esz free items grid : Nat) (slots : Word := 0x5000) : List Byte :=
  wbytes slots ++ bytesOf 4 4 ++ bytesOf 4 esz ++ wbytes 0 ++ wbytes (BitVec.ofNat 64 items) ++ bytesOf 4 free ++ bytesOf 4 items ++
    bytesOf 1 kind ++ bytesOf 1 (if kind = 1 then 1 else 0) ++ bytesOf 2 grid ++ List.replicate 20 0
/-- Bytes from an address on, as memory lists them. -/
def cells (a : Nat) : List Byte → List Host.Cell
  | [] => []
  | b :: bs => if b = 0#8 then cells (a + 1) bs else (a, b) :: cells (a + 1) bs
/-- The mapped machine with bytes placed from 0x4000, 0x6000 and 0x7000 on, and s8 to s13 set. -/
def desk (q r d : List Byte) (ss : List Word) : State :=
  let t := { mapped with
    mem := mapped.mem.take 7 ++ cells 0x4000 q ++ cells 0x6000 r ++ cells 0x7000 d ++ mapped.mem.drop 7
    grids := [(2, { vallot := 256, teams := 1, pushed := 1, evq := 0x4000 })] }
  t.modGang 0 fun g => { g with thr := { g.thr with
    regs := (List.range 6).foldl (fun r j => r.setS (8 + j) ((ss[j]?).getD 0)) g.thr.regs } }
/-- The parameter run of the queue instructions. -/
def qx : X1 := ⟨p0, 8#6⟩
/-- Uses that one execution on the uniform pipe passes with. -/
def u2 : Uses := { p := p0, rs := Claims.run qx 2, ws := [10] }
/-- A record that asks for one gang at 0x1000. -/
def rec1 : Rec := { hdr := 0x1000 }

/-- What an instruction that executes once finds when it passes its checks. -/
def once (s : State) (u : Uses) (safe : Bool) (k : State → View → Mask → Bool) : Bool :=
  match s.onceReady u safe with | .ok (s, v, ex) => k s v ex | _ => false
/-- What follows the translation of a device address. -/
def addr (s : State) (v : View) (w : Want) (va : Word) (n align : Nat) (k : State → List Piece → Bool) : Bool :=
  match s.deviceAddr v w va n align with | (s, .ok ps) => k s ps | _ => false
/-- What follows the reading of a record at its home. -/
def reads (s : State) (v : View) (ps : List Piece) (n : Nat) (k : State → List Byte → Bool) : Bool :=
  !s.busyReads ps && !s.ownPending v ps && (s.errPieces ps n).isNone && k (s.readAt ps) (s.readPieces ps n)
/-- What follows the translation of an address that answers without an error. -/
def place (s : State) (v : View) (w : Want) (va : Word) (n align : Nat) (k : State → List Piece → Bool) : Bool :=
  addr s v w va n align fun s ps => (s.errAt w ps n).isNone && k s ps
/-- What follows the reading of a queue descriptor that is in order. -/
def queue (s : State) (v : View) (va : Word) (k : State → QDesc → List Piece → Bool) : Bool :=
  addr s v .rmw va 64 64 fun s ps => reads s v ps 64 fun s b => (QDesc.ofBytes b).ok && k s (QDesc.ofBytes b) ps
/-- Whether the release is complete with nothing to do. -/
def released (s : State) (v : View) : Bool := match s.release v with | .done t => decide (t = s) | _ => false
/-- What follows the taking of some stretches at home. -/
def taken (s : State) (v : View) (ps : List Piece) (k : State → Bool := fun _ => true) : Bool :=
  !s.queueBusy v ps && k (s.recallAt ps)
/-- The same after a release that is complete. -/
def acts (s : State) (v : View) (ps : List Piece) (k : State → Bool := fun _ => true) : Bool := released s v && taken s v ps k
/-- What follows where a queue has room. -/
def roomy (s : State) (v : View) (q : QDesc) (ps : List Piece) : Bool :=
  decide (q.free ≠ 0 ∧ q.hook = 0) && place s v .write (q.slot q.tail) q.esz 1 fun s slot => acts s v (ps ++ slot)

/-- QPUSH into a full queue and into one with room; SPAWN likewise, of a record for grid 2. -/
theorem witness_QueuesArePushed :
    (once (desk (qb 0 8 0 4 0) [] [] [0x4000, 77]) u2 false fun s v _ => queue s v (Claims.reg v qx 0) fun s q ps =>
      decide (q.kind = 0 ∧ q.free = 0) && acts s v ps) = true ∧
    (once (desk (qb 2 8 3 1 0) [] [] [0x4000, 77]) u2 false fun s v _ => queue s v (Claims.reg v qx 0) fun s q ps =>
      decide (q.kind = 2 ∧ q.esz = 8) && roomy s v q ps) = true ∧
    (∀ n ∈ [0, 3], once (desk (qb 1 64 n (4 - n) 2) rec1.bytes [] [0x4000, 0x6000]) u2 false fun s v _ =>
      queue s v (Claims.reg v qx 0) fun s q ps =>
        match s.liveGrid q.grid with
        | some g => addr s v .read (Claims.reg v qx 1) 64 64 fun s src => reads s v src 64 fun s b =>
          v.sup && decide (recCheck b g v.sup = none ∧ q.kind = 1) &&
          if n = 0 then decide (q.free = 0) && acts s v ps else decide (q.esz = 64) && roomy s v q ps
        | none => false) := by
  decide +kernel

/-- QPOP of a queue with items, QFREE of one of its slots, EVPOST into an event queue with room. -/
theorem witness_QueuesAreTaken :
    (once (desk (qb 0 8 1 2 0) [] [] [0x4000]) { p := p0, rs := [8], ws := [9] } false fun s v _ =>
      queue s v (Claims.reg v qx 0) fun s q ps =>
        decide (q.kind ≠ 1 ∧ q.items ≠ 0) && decide (v.t.count .a < 63) && taken s v ps) = true ∧
    (once (desk (qb 0 8 1 2 0) [] [] [0x4000, 1]) { p := p0, rs := Claims.run qx 2 } true fun s v _ =>
      queue s v (Claims.reg v qx 0) fun s q ps =>
        decide ((Claims.reg v qx 1).toNat = 1 ∧ q.free + 1 + q.items ≤ q.cap ∧ v.t.flights = []) && taken s v ps) = true ∧
    (once (desk (qb 3 64 1 2 0) [] [] [9]) { p := p0, rs := Claims.run qx 3, ws := [8] } true fun s v _ =>
      decide ((Claims.reg v qx 0).toNat % 65536 = 9 ∧ (s.gridOf v.g).evq ≠ 0) && queue s v (s.gridOf v.g).evq fun s q ps =>
        roomy s v q ps) = true := by
  decide +kernel

/-- Memory at rest, and the pieces of a descriptor and of a slot. -/
theorem witness_APushWritesItsSlotAndCounts :
    base.net = [] ∧ base.home = [] ∧ base.partials = [] ∧ base.registry = [] ∧ base.poison = [] ∧
    ({ off := 0, n := 64, pa := 0x4000, uc := false, cohg := 0, prpt := false } : Piece).n = 64 := by decide

/-- JDEC of a counter at 1 and at 2, and a push that is due to be tried again. -/
theorem witness_JoinCounters :
    (∀ c ∈ [1, 2], once (desk [] (bytesOf 8 c) [] [0x6000, 1]) { p := p0, rs := Claims.run qx 2 } true fun s v _ =>
      addr s v .rmw (Claims.reg v qx 0) 32 32 fun s ps => reads s v ps 32 fun s b => acts s v ps fun s =>
        decide ((Claims.reg v qx 1).toNat = 1 ∧ fieldN b 0 8 = c ∧ fieldN (s.readPieces ps 32) 0 8 = c)) ∧
    (let r : RetryPush := { ctx := 0, grid := 2, counter := 0x6000, cont := 0, queue := 0, due := 5, group := false, sup := true };
      let s : State := { later base with retries := [(4, r)] };
      tget s.retries 4 = some r ∧ r.due ≤ s.ps) := by
  decide +kernel

/-- A group of two slots in a state, the first of them in a state of its own, its time of 50 used up. -/
def gb (state slot0 : Nat) : List Byte :=
  bytesOf 2 2 ++ bytesOf 2 1 ++ bytesOf 4 50 ++ bytesOf 4 0 ++ bytesOf 1 state ++ List.replicate 15 0 ++ bytesOf 4 50 ++
    wbytes 0x6000 ++ List.replicate 32 0 ++ bytesOf 1 slot0 ++ List.replicate 15 0
/-- Whether FORKG passes its checks up to the queue's room. -/
def forks (state n : Nat) (k : State → View → GDesc → QDesc → List Piece → List Piece → Bool) : Bool :=
  once (desk (qb 1 64 n 0 2) rec1.bytes (gb state 0) [0x7000, 0x8000, 0, 0x4000])
    { p := p0, rs := Claims.run qx 4, ws := [12] } false fun s v _ =>
      addr s v .rmw (Claims.reg v qx 0) 64 64 fun s hps => reads s v hps 64 fun s hb =>
        let d := GDesc.ofBytes hb
        decide (d.ok ∧ d.tmpl.toNat % 64 = 0 ∧ (Claims.reg v qx 1).toNat % 64 = 0) && addr s v .read d.tmpl 64 1 fun s tps =>
          reads s v tps 64 fun s tb => !recReserved tb && decide (Rec.ofBytes tb = { rec1 with args := [0, 0, 0, 0] }) &&
            queue s v (Claims.reg v qx 3) fun s q ps =>
              match s.liveGrid q.grid with
              | some gr => (Rec.ofBytes tb).shapeOk gr.width gr.vallot && decide (q.kind = 1) &&
                k (s.modThr v.a fun t => { t with wait := .acting }) v d q hps ps
              | none => false

/-- Whether the slots of a group's records translate, and nothing stands before them and the other stretches. -/
def opens (s : State) (v : View) (rs : List (Word × Nat)) (ps : List Piece) : Bool :=
  match s.tMany v .write rs fun s slots =>
      if acts (s.modThr v.a fun t => { t with wait := .acting }) v (ps ++ slots.flatten) then .done s else .wait s with
  | .done _ => true
  | _ => false

/-- FORKG of a group that is not idle, of one whose queue lacks room, and of one that opens. -/
theorem witness_GroupsOpen :
    (forks 1 4 fun s v d _ hps ps => decide (d.state ≠ 0) && acts s v (hps ++ ps)) = true ∧
    (forks 0 1 fun s v d q hps ps => decide (d.state = 0 ∧ q.free < d.g) && acts s v (hps ++ ps)) = true ∧
    (forks 0 4 fun s v d q _ ps => decide (d.state = 0 ∧ d.g ≤ q.free ∧ q.hook = 0 ∧ rec1.flen = 0) &&
      place s v .rmw (Claims.reg v qx 0) (64 + 16 * d.g) 1 fun s dps => place s v .write (Claims.reg v qx 1) (64 * d.g) 1 fun s rps =>
        opens s v ((List.range d.g).map fun i => (q.slot (q.tail + i), 64)) (ps ++ dps ++ rps)) = true := by
  decide +kernel

/-- Memory at rest, and the stretches of two records and of their group. -/
theorem witness_ForkWritesARecordAndASlot :
    base.net = [] ∧ base.home = [] ∧ base.partials = [] ∧ base.registry = [] ∧ base.poison = [] ∧ base.groups = [] ∧
    rec1.flen = 0 ∧ (1 < 2 ∧ 2 ≤ 256) ∧
    ({ off := 0, n := 64 * 2, pa := 0x8000, uc := false, cohg := 0, prpt := false } : Piece).n = 128 ∧
    ({ off := 0, n := 64 + 16 * 2, pa := 0x7000, uc := false, cohg := 0, prpt := false } : Piece).n = 96 := by decide

/-- The desk's gang as sibling 0 of the group at 0x7000. -/
def sibling (state slot0 : Nat) (ss : List Word) : State :=
  (desk [] [] (gb state slot0) ss).modGang 0 fun g => { g with sib := 0, gdesc := 0x7000 }
/-- GCAN's uses. -/
def uc : Uses := { p := p0, rs := Claims.run qx 2, ws := [10] }
/-- An open group whose time has come. -/
def timed : State :=
  { later (sibling 1 1 []) with
    groups := [(3, { desc := 0x7000, pa := 0x7000, pieces := [{ off := 0, n := 96, pa := 0x7000, uc := false, cohg := 0, prpt := false }], sup := true, grid := 2 })] }

/-- GBAR of a closed group; GCAN of a group that is not open, of one none of whose named slots runs, and of one that stays
open; a group whose time has come. -/
theorem witness_SampleGroups :
    (once (sibling 2 2 []) { p := p0, ws := [8, 9] } false fun s v _ => decide (v.g.sib ≠ 0xFFFFFFFF) &&
      addr s v .read v.g.gdesc 64 64 fun s hps => addr s v .read (v.g.gdesc + 64) 16 1 fun s sps =>
        let ps := hps ++ sps.map fun p => { p with off := p.off + 64 }
        taken s v ps fun s => reads s v (ps.filter fun p => p.off < 64) 64 fun s _ =>
          reads s v ((ps.filter fun p => 64 ≤ p.off).map fun p => { p with off := p.off - 64 }) 16 fun s _ =>
            decide (s.gGet ps 12 1 ≠ 1)) = true ∧
    (∀ c ∈ [(2, 2, 0#64), (1, 0, BitVec.allOnes 64), (1, 1, 0)],
      once (sibling c.1 c.2.1 [0x7000, c.2.2]) uc true fun s v _ => addr s v .rmw (Claims.reg v qx 0) 64 64 fun s hps =>
        reads s v hps 64 fun s hb =>
          let d := GDesc.ofBytes hb
          place s v .rmw (Claims.reg v qx 0) (64 + 16 * d.g) 1 fun s ps => acts s v ps fun s5 =>
            let s := s5.closeDue ps
            decide (s.gGet ps 12 1 = c.1 ∧ d.g = 2 ∧ s.gGet ps 72 1 = c.2.1 ∧ s.gGet ps 88 1 = 0 ∧ d.ndep + d.ncan + 1 ≠ d.g)) ∧
    (∃ g ∈ timed.groups, g.1 = 3 ∧ timed.busyPieces g.2.pieces = false ∧
      (timed.recallAt g.2.pieces).groupAt (paAt g.2.pieces 0) = some g ∧ (timed.recallAt g.2.pieces).gGet g.2.pieces 12 1 = 1 ∧
      (timed.recallAt g.2.pieces).gGet g.2.pieces 4 4 = 50 ∧ (timed.recallAt g.2.pieces).gGet g.2.pieces 28 4 = 50 ∧
      50 ≤ g.2.us timed.ps) := by
  decide +kernel

/-- Rewards of each status: too few, an overflowing sum, all one pattern, and two that differ. -/
theorem witness_GroupStatistics :
    (closeStats 2 0 [0x3F800000]).status = 3 ∧ (closeStats 1 0 [0x7F7FFFFF, 0x7F7FFFFF]).status = 4 ∧
    (closeStats 1 0 [0x3F800000, 0x3F800000]).status = 2 ∧
    closeStats 1 0 [0x3F800000, 0x40400000] = ⟨1, 0x40000000, 0x3F800000, some [0xBF7FFFF0, 0x3F7FFFF0]⟩ := by
  decide +kernel

/-- The machine whose team has barrier 1 set to 3, and s8 to 5. -/
def atBar : State :=
  { withRegs fun r => r.setS 8 5 with
    teams := [(1, { grid := 2, gangs := [0], cores := [0], bars := [(1, { set := some 3 })] })] }

/-- A team's only gang, at a barrier that is not set and at one that is set to 3, at BARINIT, at PHINT, at COMMIT, and at GRWD as
a sibling. -/
theorem witness_TeamBarriersAndHints :
    (∃ s1 v ex t g, atBar.admits { p := p0, safe := false } = .ok (s1, v, ex) ∧ v.a = .gang v.uid ∧ v.lane = none ∧
      tget s1.gangs v.uid = some g ∧ g = { v.g with thr := v.t } ∧ g.ended = false ∧ tget s1.teams g.team = some t ∧
      t.gangs = [v.uid] ∧ mapWf {} t.bars = true ∧ ex ≠ 0 ∧ v.t.wait = .none ∧ g.pfWait = .none ∧ s1.release v = .done s1 ∧
      mget {} t.bars 0 = {} ∧ mget {} t.bars 1 = { set := some 3 } ∧ t.shape.grp = false ∧ t.reca = 0 ∧ t.commit = [] ∧
      t.grwd = [] ∧ g.cmtLog = []) ∧
    (∃ s1 v ex, atBar.admits { p := p0, rs := [8], safe := false } = .ok (s1, v, ex) ∧ (v.t.regs.getS 8).toNat = 5) ∧
    Admits atBar { p := p0 } :=
  ⟨⟨_, _, _, _, _, rfl, rfl, rfl, rfl, rfl, rfl, rfl, rfl, rfl, by decide, rfl, rfl, rfl, rfl, rfl, rfl, rfl, rfl, rfl, rfl⟩,
    ⟨_, _, _, rfl, rfl⟩, ⟨_, _, _, rfl, by decide⟩⟩

/-- GRWD of a sibling, alone in its team. -/
theorem witness_Rewards :
    (let s0 : State := { sibling 1 1 [] with teams := [(1, { grid := 2, gangs := [0], cores := [0], shape := { grp := true } })] };
     match s0.admits { p := p0, rs := [8], safe := false } with
      | .ok (s, v, ex) => decide (ex ≠ 0) && addr s v .rmw v.g.gdesc 64 64 fun s hps =>
          addr s v .rmw (v.g.gdesc + 64) 16 1 fun s sps =>
            let ps := hps ++ sps.map fun p => { p with off := p.off + 64 }
            released (s.modGang v.uid fun g => { g with gplace := ps }) v &&
            (ps.all fun p => (s.errPieces [{ p with off := 0 }] p.n).isNone) && decide (s.home = [] ∧ s.net = [] ∧ s.registry = [] ∧
              tget s.gangs v.uid = some { v.g with thr := v.t } ∧ v.g.cmtLog = [] ∧
            (tget s.teams v.g.team).map (fun t => (t.reca, t.grwd, t.gangs, t.shape.grp)) = some (0, [], [v.uid], true))
      | _ => false) = true := by
  decide +kernel

/-- A team of two gangs, all lanes of the first having exited. -/
def ending : State :=
  { withGang fun g => { g with exited := g.all } with
    gangs := [(0, { gang0 0 with exited := (gang0 0).all }), (6, gang0 0)]
    teams := [(1, { grid := 2, gangs := [0, 6], cores := [0] })] }

/-- A gang that ends, beside one that lives. -/
theorem witness_GangsEnd :
    ∃ v t g2, ending.viewOf (.gang 0) = some v ∧ v.g.ended = false ∧ v.g.halted = false ∧ tget ending.teams v.g.team = some t ∧
      t.st = .running ∧ v.g.exited &&& v.g.all = v.g.all ∧ ending.lanes = [] ∧ ending.hasRun 0 = false ∧ ending.hasCopy 0 = false ∧
      (ending.dropSeqs 0).release v = .done (ending.dropSeqs 0) ∧ t.gangs = [0, 6] ∧ tget ending.gangs 6 = some g2 ∧
      g2.ended = false ∧ t.bars = [] ∧ t.amode = {} ∧ t.commit = [] ∧ t.grwd = [] :=
  ⟨_, _, _, rfl, rfl, rfl, rfl, rfl, rfl, rfl, rfl, rfl, rfl, rfl, rfl, rfl, rfl, rfl, rfl, rfl⟩

/-! ## Page faults, supervisor instructions, dispatch -/

/-- A gang outside the handler and one in it, with memory at rest; a fault frame that exists, one on a gated die and one that no
die backs. -/
theorem witness_PageFaultEntryAndReturn :
    (tget base.gangs 0 = some (gang base) ∧ (gang base).inPf = false ∧ Claims.Quiet base ∧ memWf base.mem = true ∧
      base.paHalt 0x21000 = none ∧ (match base.readEntry (base.dst + 8) with | .ok _ => true | _ => false) = true ∧
      (gang base).stack = [] ++ [⟨0x1008, none, 0xFFFF, 0, 0x1000, probeHdr⟩] ∧ (gang base).thr.regs.vp = []) ∧
    ({ base with dies := [(0, { gated := true })] } : State).paHalt 0x21000 = some .dieGated ∧
    base.paHalt (2 ^ 40) = some .paUnbacked ∧ (gang (withGang fun g => { g with inPf := true })).inPf = true ∧
    (∀ b, ∃ s1 v ex g, (withGang fun g => { g with inPf := b, pfFrame := 0x21000 }).admits { p := p0, safe := false } = .ok (s1, v, ex) ∧
      ex ≠ 0 ∧ tget s1.gangs v.uid = some g ∧ v.a = .gang v.uid ∧ Claims.Quiet s1 ∧ v.g.inPf = b ∧ RegsWf v.t.regs) := by
  refine ⟨by unfold Claims.Quiet; decide, by decide, by decide, by decide, fun b => ?_⟩
  cases b <;> exact ⟨_, _, _, _, rfl, by decide, rfl, rfl, ⟨rfl, rfl, rfl, rfl, rfl, rfl⟩, rfl, by unfold RegsWf; decide⟩

/-- The desk with tables down to 4 KiB pages for the second GiB: its page 0 absent, its page 1 at 0x5000; a frame pool at 0x4000. -/
def paged (q : List Byte) (ss : List Word) : State :=
  let s := desk q [] [] ss
  { s with
    mem := [(0x101, 0x02), (0x111, 0x40), (0x131, 0x40), (0x200, 0x01), (0x202, 0x20), (0x1005, 0x01), (0x1006, 0xFF), (0x1007, 0xFF),
      (0x3000, 0x3D), (0x3008, 0x03), (0x3009, 0x90)] ++ cells 0x4000 q ++ [(0x9000, 0x03), (0x9001, 0xA0), (0xA008, 0x3D),
      (0xA009, 0x50)] ++ mapped.mem.drop 7 }
/-- What a walk towards a level finds. -/
def slotOf (s : State) (va : Word) (k : State → Nat → Bool) : Bool :=
  let s := s.walkRead 0 va
  match s.rootOf 0 with | .ok root => (match s.mapWalk va 0 3 root with | .slot a => k s a | _ => false) | _ => false

/-- PGTAKE from a pool that holds frames; PGMAP of an absent page and of a present one; PGUNMAP; TLBINV; PCLR; ORCLM with and
without an entry; HALTG. -/
theorem witness_SupervisorInstructions :
    (once (paged (qb 0 8 2 2 0) []) { p := p0, rs := [9], ws := [8] } false fun s v _ =>
      decide ((Claims.reg v qx 1).toNat = 0 ∧ v.t.count .g < 63) &&
      match s.dstField 16 with
      | (s, .ok pool) => decide (pool ≠ 0) && queue s v pool fun s q ps => decide (q.items ≠ 0) &&
        addr s v .read (q.slot q.head) 8 1 fun s slot => reads s v slot 8 fun s _ => taken s v ps
      | _ => false) = true ∧
    ([(0x40000000#64, false), (0x40001000, true)].all fun c => once (paged [] [c.1, 0x503D, 0])
        { p := p0, rs := Claims.run qx 3, ws := [9, 11] } false fun s v _ =>
      decide (Claims.reg v qx 2 = 0 ∧ leafMalformed (Claims.reg v qx 1) 0 = false ∧ canonical (Claims.reg v qx 0) = true ∧
        v.g.ctx = 0 ∧ (Claims.reg v qx 1).getLsbD 10 = false) && slotOf s (Claims.reg v qx 0) fun s a =>
          acts s v (slotPieces [a]) fun s => (s.slotsBad [a]).isNone && match s.readEntry a with
            | .ok e => decide (e.getLsbD 0 = c.2 ∧ e.getLsbD 1 = false ∧ leafMalformed e 0 = false)
            | _ => false) = true ∧
    (once (paged [] [0x40001000, 0]) { p := p0, rs := Claims.run qx 2, ws := [9] } false fun s v _ =>
      decide (Claims.reg v qx 1 = 0) && canonical (Claims.reg v qx 0) && slotOf s (Claims.reg v qx 0) fun s a =>
        taken s v (slotPieces [a]) fun s => match s.readEntry a with
          | .ok e => decide (e.getLsbD 0 = true ∧ e.getLsbD 1 = false ∧ e.getLsbD 10 = false ∧ leafMalformed e 0 = false)
          | _ => false) = true ∧
    (once (paged [] [0, 4096, 0]) { p := p0, rs := Claims.run qx 3 } false fun s v _ => released s v &&
      decide (v.t.flights = [] ∧ s.lanes = []) &&
      s.gangs.all fun e => decide (e.2.thr.flights = [] ∧ e.2.cmtLog = [] ∧ e.2.thr.wait = .none)) = true ∧
    (once (paged [] [0x6000, 5]) { p := p0, rs := Claims.run qx 2, ws := [10] } false fun s v _ =>
      addr s v .write (Claims.reg v qx 0) 8 8 fun s ps => acts s v ps fun s => !s.remoteBad (paAt ps 0) &&
        match pieceAt ps 0 with | some c => c.1 == paAt ps 0 && !(s.entry (ukeyOf (paAt ps 0) c.2.cohg)).ol | none => false) = true ∧
    ([false, true].all fun b =>
      once { paged [] [0x6000] with registry := if b then [(ukeyOf 0x6000 0, { owner := some 7, ol := true })] else [] }
          { p := p0, rs := [8], ws := [9] } false fun s v _ =>
        addr s v .read (Claims.reg v qx 0) 1 1 fun s ps => released s v && !s.remoteBad (paAt ps 0) &&
          match pieceAt ps 0 with
          | some c => c.1 == paAt ps 0 && decide (c.2.cohg = 0) && (s.unit (ukeyOf (paAt ps 0) 0)).still && !s.ownPending v ps &&
            (tget s.registry (ukeyOf (paAt ps 0) 0)).isSome == b
          | none => false) = true ∧
    (once (paged [] [7]) { p := p0, rs := [8] } false fun s v _ => released s v) = true := by
  decide +kernel

/-- A seat of one gang on core 0. -/
def seat1 : Seat := { core := 0, gangs := [(0, 0)], arrays := [0], new := [0] }

/-- The seat of gang 0. -/
theorem witness_PlacedTeamsStartAtTheirHeader :
    (seatList [seat1])[0]? = some (0, 0) ∧ rec1.flen = 0 ∧ ({} : Grid).share = false := by decide

/-- Die 0 holds the record. -/
def listed (r : Rec) : State :=
  { paged (qb 0 8 2 2 0) [] with dies := [(0, { list := [{ grid := 2, record := r, reca := 0x6000, teamid := 9 }] })] }

/-- The dispatch queue of grid 2 at 0x7000, which holds the record at 0x6000 for die 0. -/
def queued : State :=
  { desk [] rec1.bytes (qb 1 64 0 1 2 0x6000) [] with grids := [(2, { dq := 0x7000, dmask := 1, vallot := 256, teams := 1, pushed := 1 })] }

/-- A record that can be placed, from a die's list and from the queue of the only grid; a launch whose next record can be
pushed. -/
theorem witness_DispatchPlaces :
    (let s := listed rec1;
      let d := (tget s.dies 0).getD {};
      d.gated = false ∧ d.gating = false ∧ d.list.length = 1 ∧ (d.list.map DieRec.area) = [none] ∧
      (match tget s.grids 2 with
        | some gr => (match s.places 0 gr 2 rec1 0 with
          | p :: ps => (match (s.choose p (p :: ps)).1.takeArea gr.ctx with
            | .area s2 _ => decide (tget s2.dies 0 = some d)
            | _ => false)
          | [] => false)
        | none => false) = true) ∧
    (let s : State := { queued with
        mem := (listed rec1).mem.filter (fun c => decide (c.1 < 0x6000)) ++ (queued.mem.filter fun c => decide (0x6000 ≤ c.1)),
        dies := [(0, {})] };
      s.grids.all (fun e =>
        decide ([] ++ e :: [] = (s.grids.filter fun g => decide (0 < g.1)) ++ (s.grids.filter fun g => decide (g.1 ≤ 0))) &&
        match s.eQueue { agent := s.coreAgent 0, ctx := e.2.ctx, sup := true, grid := e.1 } e.2.dq with
        | (s1, .ok q _) => decide (q.kind = 1 ∧ q.grid = e.1 ∧ q.items ≠ 0) && q.dmask.testBit 0 && e.2.dmask.getLsbD 0 &&
          (match s1.eAddr { agent := s.coreAgent 0, ctx := e.2.ctx, sup := true, grid := e.1 } .read (q.slot q.head) 64 1 with
            | (s2, .ok ps) =>
              let b := s2.readPieces ps 64
              !recReserved b && decide (Rec.ofBytes b = { rec1 with args := [0, 0, 0, 0] }) && rec1.shapeOk e.2.width e.2.vallot &&
              (match s2.places 0 e.2 e.1 (Rec.ofBytes b) 0 with
                | p :: cs => (match (s2.choose p (p :: cs)).1.takeArea e.2.ctx with | .area _ _ => true | _ => false)
                | [] => false)
            | _ => false)
        | _ => false) = true) ∧
    (let g : Grid := { dq := 0x4000, recb := 0x8000, teams := 3, pushed := 1, hdr := 0x1000, vallot := 8 };
      let s := { desk (qb 1 64 4 0 2) [] [] [] with grids := [(2, g)] };
      let e : Env := { agent := s.coreAgent 0, ctx := 0, sup := true, grid := 2 }
      (match s.eQueue e g.dq with
        | (s1, .ok q qps) => decide (q.free ≠ 0) &&
          (match s1.eAddr e .write (g.recb + 64) 64 1 with
            | (s2, .ok ps) => (match (s2.writePieces ps (g.launchRec 1).bytes).ePush e q qps (g.launchRec 1).bytes
                (some (g.recb + 64, some 1)) with | (_, .ok) => true | _ => false)
            | _ => false)
        | _ => false) = true) := by
  decide +kernel

/-- The machine whose team waits at a barrier while its die holds a record that no core has the arrays for. -/
def blocked : State :=
  { later (listed { rec1 with arrays := 40 }) with
    gangs := [(0, { gang0 0 with thr := { (gang0 0).thr with wait := .bar 1 } })] }
/-- The machine whose team leaves. -/
def leaving (st : TeamSt) : State :=
  { base with teams := [(1, { grid := 2, gangs := [0], cores := [0], st := st })] }

/-- A core that has issued nothing for 4096 cycles; teams that leave and have drained. -/
theorem witness_DispatchSwaps :
    ((blocked.core 0).lastIssue + 4096 ≤ blocked.clk 0 ∧ (blocked.teams.filter fun x => x.2.cores.contains 0).length = 1 ∧
      (∀ x ∈ blocked.teams, x.2.st = .running ∧ blocked.blockedTeam x.2 = true) ∧ blocked.teams.length = 1 ∧
      (match blocked.serve1 0 with | .stuck => true | _ => false) = true) ∧
    (∀ x ∈ (leaving .discarding).teams, (leaving .discarding).drained x.2 true = true) ∧
    (∀ st ∈ [TeamSt.swapping, .halting], ∀ x ∈ (leaving st).teams,
      let s1 := ((leaving st).endHaltedCopies x.2).teamCheck 1;
      ∀ y ∈ s1.teams, y.2.st = st ∧ s1.barrierFull y.2 = false ∧ s1.drained y.2 false = true ∧ s1.lockedOver y.2.area 0x800000 = false) := by
  decide +kernel

/-! ## The host, power, reset, the step -/

/-- A command of an endpoint with the 8-byte operands given. -/
def cmd (opc len : Nat) (ws : List Word) : HostCmd :=
  { ep := 7, words := [BitVec.ofNat 64 (opc + len * 2 ^ 32), 0, 0, 0] ++ ws }
/-- The machine with that endpoint listed, after start-up. -/
def hosted (s : State) : State := { s with hosts := [7], hkc := { s.hkc with started := true } }
/-- Whether a command passes its checks. -/
def takes (s : State) (i : Instr) (c : HostCmd) (opc : Nat) (k : State → Bool := fun _ => true) : Bool :=
  match s.cmdReady i c opc with | .ok t => s.begun.isNone && !s.behindRod c && k t | .error _ => false

/-- A command in order, one of another endpoint and one of no known code. -/
theorem witness_CommandsAreChecked :
    (hosted base).hosts ≠ [] ∧ (hosted base).waiting = [] ∧ (hosted base).hkc.started = true ∧ cmdOpc (cmd 1 24 []) = 1 ∧
    (cmd 1 24 []).ep ∈ (hosted base).hosts ∧ cmdStatus (cmd 1 24 []) = 0 ∧ cmdReserved (cmd 1 24 []) = 0 ∧
    cmdLen (cmd 1 24 []) = 24 ∧ lenRange 1 = (24, 24) ∧ ({ ep := 8, words := [1] } : HostCmd).ep ∉ (hosted base).hosts ∧
    cmdOpc { ep := 8, words := [1] } = 1 ∧ 0x14 < cmdOpc (cmd 0x15 0 []) ∧ cmdOpc (cmd 0 0 []) = 0 ∧
    (let i := Instr.halt { cmd 4 16 [] with rod := some 3 };
      let c := { cmd 1 24 [] with rod := some 3 };
      let s : State := { hosted base with waiting := [(3, i, some 0)] };
      cmdOpc c = 1 ∧ c.rod ≠ none ∧ rodOf i = c.rod ∧ tget s.waiting 3 = some (i, some 0) ∧ s.op = none) := by decide

/-- Window 3, closed and open. -/
def window (b : Bool) : State := { hosted base with windows := if b then [(3, { base := 0x6000, len := 0x1000 })] else [] }
/-- WINOPEN of it. -/
def wopen : HostCmd := cmd 1 24 [3, 0x6000, 0x1000]
/-- WINCLOSE of it. -/
def wclose : HostCmd := cmd 2 8 [3]

/-- WINOPEN of a free window, WINCLOSE of an open one, and accesses up to the last byte of it. -/
theorem witness_WindowsAndRemoteMemory :
    (takes (window false) (.winopen wopen) wopen 1 fun s => decide (tget s.windows 3 = none) && decide
      (Claims.operand wopen 0 = 3 ∧ Claims.operand wopen 8 = 0x6000 ∧ Claims.operand wopen 16 = 0x1000)) = true ∧
    (takes (window true) (.winclose wclose) wclose 2 fun s => (tget s.windows 3).isSome && decide (s.windowBusy 3 = false ∧
      Claims.operand wclose 0 = 3)) = true ∧
    (Claims.Quiet (window true) ∧ 7 ∈ (window true).hosts ∧ (tget (window true).windows 3).isSome = true ∧
      (window true).op = none ∧ 0xFFF + [5#8].length ≤ 0x1000 ∧ (window true).noHome (0x6000 + 0xFFF + 0) = false) := by
  unfold Claims.Quiet; decide +kernel

/-- A launch record of one team of one gang at 0x1000, its queue at 0x4000. -/
def lrec : List Byte :=
  wbytes 0x1000 ++ wbytes 0x8000 ++ wbytes 0 ++ bytesOf 4 0 ++ bytesOf 4 1 ++ bytesOf 2 1 ++ [0, 1, 0, 0, 1, 0] ++ wbytes 0 ++
    wbytes 0 ++ wbytes 0x4000 ++ wbytes 0 ++ [0, 0, 0, 0, 4] ++ List.replicate 179 0
/-- LAUNCH of it. -/
def launch1 : HostCmd := cmd 3 16 [0x6000, 0]
/-- GRIDEND of grid 2. -/
def end2 : HostCmd := cmd 0x14 8 [2]

/-- LAUNCH of that record; GRIDEND of a grid without teams. -/
theorem witness_Grids :
    (takes (hosted (desk (qb 1 64 4 0 0) lrec [] [])) (.launch launch1) launch1 3 fun s =>
      let e : Env := { agent := s.coreAgent 0, ctx := 0, sup := true }
      match s.eAddr e .read 0x6000 256 256 with
      | (s, .ok ps) =>
        let r := s.readPieces ps 256
        let g := gridOfRecord 0x6000 r 0 0
        decide (launchReserved r = none ∧ g.teams = 1 ∧ g.dmask ≠ 0 ∧ g.vallot = 8 ∧ g.evq = 0 ∧ fieldN r 80 2 = 0 ∧ g.teams ≤ 2 ^ 24 ∧
          g.shape.shapeOk g.width g.vallot = true) &&
          match s.eQueue e g.dq with
          | (s, .ok q qps) => decide (q.kind = 1 ∧ s.liveGrid q.grid = none ∧ s.freeGrid = some 1) &&
            let w := s.putFieldW qps 42 2 1
            let t := ({ w with grids := tput w.grids 1 { g with dqPa := paAt qps 0 } } : State).launchFill 1 g.teams
            (match tget t.grids 1 with | some g' => decide (g'.teams ≤ g'.pushed) | none => false)
          | _ => false
      | _ => false) = true ∧
    (takes { hosted base with teams := [] } (.gridend end2) end2 0x14 fun s =>
      match s.liveGrid (Claims.operand end2 0) with
      | some g => decide (s.teams = [] ∧ s.dies = [] ∧ g.teams ≤ g.pushed ∧ s.posts = [] ∧ s.lockedOver (g.dqPa + 42) 2 = false)
      | none => false) =
      true := by
  decide +kernel

/-- Commands on team 9 of the launch at 0x6000. -/
def halt9 : HostCmd := cmd 4 16 [0x6000, 9]
/-- A machine with that team. -/
def team9 (st : TeamSt) : State :=
  { hosted base with
    teams := [(1, { grid := 2, teamid := 9, gangs := [0], cores := [0], st := st, area := 0xA0000 })]
    grids := [(2, { launch := 0x6000, vallot := 256, teams := 1, pushed := 1 })] }
/-- A command on its area. -/
def onArea (opc len : Nat) : HostCmd := cmd opc len [0xA0000, 0, 8]

/-- HALT of a running team and its reply; the commands on a halted team; EVDRAIN of an event queue. -/
theorem witness_HaltedTeams :
    (takes (team9 .running) (.halt halt9) halt9 4 fun s => decide (∃ x ∈ s.teams, s.named (cmdBody halt9) [.running, .swapping, .discarding] = [x]) &&
      s.teams.all fun x => decide ((s.alive x.2).length = 1) && (s.alive x.2).all fun g =>
        decide ((s.haltGang g.1 .host g.2.thr.pc g.2.active 0).named (cmdBody halt9) [.halting] ≠ [])) = true ∧
    (let s : State := { team9 .halted with waiting := [(0, .halt halt9, some 0)], op := some 0 };
      s.begun = some 0 ∧ s.behindRod halt9 = false ∧ s.named (cmdBody halt9) [.halting] = []) ∧
    (∀ x ∈ [(5, 8), (6, 8), (7, 24), (8, 24)], let c := onArea x.1 x.2;
      takes (team9 .halted) (if x.1 = 5 then .resume c else if x.1 = 6 then .kill c else if x.1 = 7 then .strd c else .stwr c) c x.1
        (fun s => (s.haltedAt (Claims.operand c 0)).isSome && decide (Claims.operand c 0 < 2 ^ 52 ∧
          s.lockedOver (0xA0000 + Claims.operand c 8) 8 = false ∧ s.readBusy (0xA0000 + Claims.operand c 8) 8 = false)) = true) ∧
    (let c := cmd 9 24 [0x4000, 1, 0]; takes (hosted (desk (qb 3 64 2 2 0) [] [] [])) (.evdrain c) c 9 fun s =>
      match s.eQueue { agent := s.coreAgent 0, ctx := 0, sup := true } (BitVec.ofNat 64 (Claims.operand c 0)) with
      | (_, .ok q _) => decide (q.kind = 3 ∧ Claims.operand c 8 = 1 ∧ Claims.operand c 16 = 0)
      | _ => false) = true := by
  decide +kernel

/-- The machine without grids. -/
def noGrids : State := { hosted base with grids := [], teams := [] }

/-- Each configuration command in order, and an image of the least size. Whether an image verifies depends on the vendor's key,
which is the model's free value (assumption 71): any image that does meets FWCOMMIT's other conditions. -/
theorem witness_ConfigurationAndAttestation :
    noGrids.hkc.mlog.length < 256 ∧ noGrids.grids = [] ∧
    (let c := cmd 0x0B 8 [0x100]; takes noGrids (.setdst c) c 0x0B (fun _ => decide (Claims.operand c 0 = 0x100)) = true) ∧
    (let c := cmd 0x0C 16 [1, 3]; takes noGrids (.domain c) c 0x0C (fun _ => decide (Claims.operand c 0 = 1)) = true) ∧
    (let c := cmd 0x0E 24 [1, 7, 0]; takes noGrids (.endpoints c) c 0x0E (fun _ => decide ((cmdBody c).length = 24)) = true) ∧
    (let c := cmd 0x12 8 [256]; takes noGrids (.fwcommit c) c 0x12 (fun _ => decide (Claims.operand c 0 = 256)) = true) ∧
    (let c := cmd 0x0D 32 [5, 4095, 0, 0xFF]; takes noGrids (.l1partSet c) c 0x0D (fun _ => decide
      ((c.words[6]?).getD 0 = 0 ∧ Claims.operand c 16 = 0 ∧ Claims.operand c 24 = 0xFF ∧ Claims.operand c 8 = 4095)) = true) ∧
    (let c := cmd 0x0D 32 [1023, 0, 1, 0]; takes noGrids (.l1partRead c) c 0x0D (fun _ => decide
      ((c.words[6]?).getD 0 = 1 ∧ Claims.operand c 16 = 1 ∧ Claims.operand c 24 = 0 ∧ Claims.operand c 0 = 1023)) = true) ∧
    (let c := cmd 0x0F 0 []; takes noGrids (.identity c) c 0x0F = true) ∧
    (let c := cmd 0x10 64 []; takes noGrids (.attest c) c 0x10 = true) ∧
    (let c := cmd 0x11 16 [4, 0x55]; takes noGrids (.fwstage c) c 0x11 (fun s => mapWf 0#8 s.hkc.stage && decide
      (Claims.operand c 0 + ((cmdBody c).drop 8).length ≤ 2 ^ 26)) = true) ∧
    (let c := cmd 0x13 16 [255, 32]; takes noGrids (.logrd c) c 0x13 (fun _ => decide
      (Claims.operand c 0 = 255 ∧ Claims.operand c 8 = 32)) = true) := by
  decide +kernel

/-- POWER; islands that move and that have moved; droops; a die to be gated that holds no team, and one that holds one. -/
theorem witness_PowerAndClocks :
    (let c := cmd 0x0A 32 [1, 1075, 3, 0]; takes noGrids (.power c) c 0x0A (fun _ => decide
      (Claims.operand c 0 = 1 ∧ Claims.operand c 8 = 1075 ∧ Claims.operand c 16 = 3 ∧ Claims.operand c 24 = 0)) = true) ∧
    (let s : State := { base with dies := [(0, { policy := 3 })] };
      (s.island 5).toward = none ∧ (s.island 5).st = .nominal ∧ (s.dieOf (5 / 64)).policy = 3) ∧
    (let s : State := { base with dies := [(0, { policy := 2 })], islands := [(5, { st := .near })] };
      (s.island 5).toward = none ∧ (s.island 5).st = .near ∧ (s.dieOf (5 / 64)).policy = 2) ∧
    (let s : State := { later base with islands := [(5, { toward := some .near, until_ := 9 })] };
      (s.island 5).toward = some .near ∧ (s.island 5).until_ ≤ s.ps) ∧
    (base.cluster 3).droop = false ∧ (({ base with clusters := [(3, { droop := true })] } : State).cluster 3).droop = true ∧
    (let s : State := { noGrids with dies := [(2, { gating := true })] }; (s.dieOf 2).gating = true ∧ s.teams = [] ∧ s.dieBusy 2 = false) ∧
    (let s : State := { base with dies := [(0, { gating := true })] };
      (s.dieOf 0).gating = true ∧ ∀ x ∈ s.teams, x.2.st = .running ∧ x.2.cores.any (fun c => c / 128 == 0) = true ∧
        x.2.shape.ganged = false) := by
  decide +kernel

/-- A package numbered 0, as the one after reset. -/
theorem witness_ResetAndStartUp : State.reset.pkg = 0 ∧ base.pkg = 0 := by decide

/-- IDIV's operands, and the corners of both widths. -/
theorem witness_DivisionCorners :
    Meets o3.p o3.ixs o3.d false [(o3.a, .u32), (o3.b, .u32)] false ∧
    Claims.lo (Claims.bits .i32) (2 ^ 32) = 0 ∧ ITy.signed .i64 = true ∧
    Claims.lo (Claims.bits .i64) (2 ^ 63) = BitVec.intMin (Claims.bits .i64) ∧
    Claims.lo (Claims.bits .i64) (-1) = BitVec.allOnes (Claims.bits .i64) :=
  ⟨⟨_, _, _, rfl, by decide⟩, by decide, by decide, by decide, by decide⟩

/-- A user-mode gang about to issue IADD, and no privileged instruction. -/
def adds : State := (machine (wordR 0x10#8 0 (fv 2#8) (fv 4#8) (fs 3#6) 0)).modGang 0 fun g => { g with sup := false }

/-- A gang that issues, in user mode, an instruction that decodes and answers a next state. -/
theorem witness_StepRunsTheDecodedInstruction :
    ∃ s1 v s2 w i s3, adds.inputs = .issue (.gang 0) :: [] ∧
      ({ adds with inputs := [], cur := some (.gang 0) } : State).unspill 0 = .ok s1 ∧ s1.viewOf (.gang 0) = some v ∧
      v.g.engFaults = [] ∧ (s1.teamOf v.g).cancelled = false ∧ s1.mayIssue v = true ∧ v.act ≠ 0 ∧ v.t.atHdr = false ∧
      isHdr v.t.hdr = true ∧ (s1.atIssue v).fetch v v.t.pc = (s2, .word w) ∧
      opByte w ≠ 0xFF#8 ∧ (privileged w = true → v.sup = true) ∧ decode w = .ok i ∧
      exec i (s2.setThr v.a { v.t with fbuf := tput v.t.fbuf v.t.pc.toNat w }) = .next s3 :=
  ⟨_, _, _, _, _, _, rfl, rfl, rfl, rfl, rfl, by decide, by decide, rfl, by decide, rfl, by decide, by decide, rfl, rfl⟩

/-- A well-formed instruction and its word. -/
theorem witness_DecodeAndEncode :
    Instr.wf (.iadd false .i32 ⟨p0, 0#2, .v 2#8 false, .v 4#8 false, .s 3#6⟩) = true ∧
    encode (.iadd false .i32 ⟨p0, 0#2, .v 2#8 false, .v 4#8 false, .s 3#6⟩) =
      some (wordR 0x10#8 0 (fv 2#8) (fv 4#8) (fs 3#6) 0) ∧
    decode (wordR 0x10#8 0 (fv 2#8) (fv 4#8) (fs 3#6) 0) = .ok (.iadd false .i32 ⟨p0, 0#2, .v 2#8 false, .v 4#8 false, .s 3#6⟩) :=
  ⟨rfl, rfl, rfl⟩

/-- A machine that steps, its memory in canonical form. -/
theorem witness_StepKeepsMemoryCanonical : MemInv adds ∧ ∃ t, step adds = .next t := ⟨by unfold MemInv; decide, _, rfl⟩

/-! ## One instruction each, against the words of the rules -/

/-- s3 after an instruction with s1 and s2 as given, once its result can be read. -/
def s3of (i : Instr) (a b : Word) : Option Word :=
  match exec i (withRegs fun r => (r.setS 1 a).setS 2 b) with
  | .next t => some ((gang t).thr.landAll.regs.getS 3)
  | _ => none
/-- s3 from s1 and s2. -/
def r3s : R3 := ⟨p0, 0#2, .s 3#6, .s 1#6, .s 2#6⟩
/-- s3 from s1. -/
def r2s : R2 := ⟨p0, 0#2, .s 3#6, .s 1#6⟩
/-- F32 under RNE. -/
def rn : FFn := { sat := false, ftz := false, rm := .rn }

/-- R87: the spec's example address, 0x62_0003_4A80: die 3, channel 7, slice 199, offset 0x800_0D80. -/
theorem test_address_example :
    dieOfPa 0x6200034A80 = 3 ∧ channelOf 0x6200034A80 = 7 ∧ sliceOf 0x6200034A80 = 199 ∧ channelOffset 0x6200034A80 = 0x8000D80 := by
  decide

/-- R270, R50: a 32-bit sum wraps, and with SAT is clamped to the greatest value; an s destination takes it sign-extended. -/
theorem test_iadd : s3of (.iadd false .i32 r3s) 0x7FFFFFFF 1 = some 0xFFFFFFFF80000000 ∧
    s3of (.iadd true .i32 r3s) 0x7FFFFFFF 1 = some 0x7FFFFFFF ∧ s3of (.iadd false .n32 r3s) 0x7FFFFFFF 1 = some 0x80000000 := by
  decide +kernel
/-- R271: a quotient by zero is all ones, the remainder is A; the most negative value by −1 gives itself. -/
theorem test_idiv : s3of (.idiv false .n64 r3s) 7 0 = some (BitVec.allOnes 64) ∧ s3of (.idiv true .n64 r3s) 7 0 = some 7 ∧
    s3of (.idiv false .i64 r3s) 0x8000000000000000 0xFFFFFFFFFFFFFFFF = some 0x8000000000000000 := by decide +kernel
/-- R273: a count of the width gives 0, or copies of the sign bit. -/
theorem test_shifts : s3of (.shl true r3s) 1 64 = some 0 ∧ s3of (.sra true r3s) 0x8000000000000000 64 = some (BitVec.allOnes 64) ∧
    s3of (.rot true r3s) 1 65 = some 2 := by decide +kernel
/-- R273: CLZ of 0 is the width. -/
theorem test_clz : s3of (.clz false r2s) 0 0 = some 32 ∧ s3of (.popc true r2s) (BitVec.allOnes 64) 0 = some 64 := by decide +kernel
/-- R275: 1 + 2^−24 is a tie, which goes to the even 1. -/
theorem test_fadd_tie : s3of (.fadd rn r3s) 0x3F800000 0x33800000 = some 0x3F800000 := by decide +kernel
/-- R275: 1 / 3 under RNE. -/
theorem test_fdiv : s3of (.fdiv rn r3s) 0x3F800000 0x40400000 = some 0x3EAAAAAB := by decide +kernel

end Sys2Proof.Tests
end

namespace Sys2Proof.Machine

/-! ## Bytes and numbers (R5) -/

theorem memNat_zero (m : List Host.Cell) (a : Nat) : memNat m a 0 = 0 := rfl

/-- The byte at the lowest address holds the low bits of a number. -/
theorem memNat_succ (m : List Host.Cell) (a n : Nat) :
    memNat m a (n + 1) = (memByte m a).toNat + 256 * memNat m (a + 1) n := rfl

/-- What a write of a run of bytes leaves at the addresses of the run is the run, lowest address first. -/
theorem memRead_memWrite {m : List Host.Cell} (h : memWf m = true) (a : Nat) (bs : List Byte) :
    memRead (memWrite m a bs) a bs.length = bs := by
  induction bs generalizing m a with
  | nil => rfl
  | cons b bs ih =>
    have first : memByte (memWrite (memSetByte m a b) (a + 1) bs) a = b := by
      rw [memByte_memWrite_out _ _ _ (by omega), memByte_memSetByte_self h]
    simp only [memWrite, List.length_cons, memRead, first, ih (memWf_memSetByte h a b)]

/-- A value written reads as its low bytes. -/
theorem memNat_memSetNat {m : List Host.Cell} (h : memWf m = true) (a n x : Nat) :
    memNat (memSetNat m a n x) a n = x % 2 ^ (8 * n) := by
  have run := memRead_memWrite h a (bytesOf n x)
  rw [bytesOf_length] at run
  rw [memNat, memSetNat, run, valOf_bytesOf]

/-- A run of bytes written one by one at rising addresses is the run written at once. -/
theorem foldl_memSetByte_run (m : List Host.Cell) (a : Nat) (bs : List Byte) :
    ((List.range bs.length).map fun j => (a + j, (bs[j]?).getD 0)).foldl (fun m e => memSetByte m e.1 e.2) m =
      memWrite m a bs := by
  induction bs generalizing m a with
  | nil => rfl
  | cons b bs ih =>
    have shift : (fun j => (a + j, ((b :: bs)[j]?).getD 0)) ∘ Nat.succ = fun j => (a + 1 + j, (bs[j]?).getD 0) := by
      funext j
      simp [Nat.succ_eq_add_one, Nat.add_assoc, Nat.add_comm 1]
    rw [List.length_cons, List.range_succ_eq_map, List.map_cons, List.map_map, shift, List.foldl_cons, ih]
    rfl

/-! ## Writes of the device where nothing is shared (R121, R131, R137) -/

/-- With no poisoned word, bytes stored at home reach memory one by one, and nothing else moves. -/
theorem State.storeIx_of_no_poison (s : State) (h : s.poison = []) (ix : List (Nat × Byte)) :
    (s.storeIx ix).1 = { s with mem := ix.foldl (fun m e => memSetByte m e.1 e.2) s.mem } := by
  have clear (a : Nat) : isPoisoned s a = false := by simp [isPoisoned, h]
  simp only [State.storeIx, clear, Bool.false_and, Bool.false_eq_true, if_false]
  clear clear
  induction ix generalizing s with
  | nil => rfl
  | cons e ix ih =>
    have still : mset false s.poison (e.1 / 8) false = s.poison := by simp [h, mset, tdel]
    rw [List.foldl_cons, still]
    exact ih { s with mem := memSetByte s.mem e.1 e.2 } h

/-- Where home holds no monitors nothing is woken. -/
theorem State.wakeOver_of_no_home (s : State) (h : s.home = []) (pa n : Nat) : s.wakeOver pa n = s := by
  simp [State.wakeOver, State.wakeIf, h]

/-- Where the registry is empty no unit has to come home. -/
theorem State.recall_of_no_registry (s : State) (h : s.registry = []) (pa n : Nat) : s.recall pa n = s := by
  simp [State.recall, h]

theorem State.devWrite_of_unshared (s : State) (pa : Nat) (bs : List Byte) (hh : s.home = []) (hr : s.registry = [])
    (hp : s.poison = []) : s.devWrite pa bs = { s with mem := memWrite s.mem pa bs } := by
  have none_gone : (s.registry.any fun e => e.2.ol) = false := by simp [hr]
  simp only [State.devWrite, s.recall_of_no_registry hr, none_gone, Bool.false_eq_true, if_false]
  rw [s.storeIx_of_no_poison hp, foldl_memSetByte_run, State.wakeOver_of_no_home]
  exact hh

/-- Where the registry is empty no partial has to merge. -/
theorem State.mergeOver_of_no_registry (s : State) (h : s.registry = []) (pa n : Nat) : s.mergeOver pa n = s := by
  simp [State.mergeOver, h]

/-- An aligned word at its home is the number its eight bytes hold, where no partial waits. -/
theorem State.homeWord_of_no_registry (s : State) (h : s.registry = []) (pa : Nat) :
    s.homeWord pa = BitVec.ofNat 64 (memNat s.mem (pa / 8 * 8) 8) := by
  rw [State.homeWord, s.mergeOver_of_no_registry h, memWord, Nat.mul_comm]

/-! ## The statements about bytes -/

theorem memoryReadsBackWhatWasWritten : Claims.MemoryReadsBackWhatWasWritten := fun m a n x bs h =>
  ⟨memRead_memWrite h a bs, fun _ out => memByte_memWrite_out m a bs out, memWf_memWrite h a bs, memNat_memSetNat h a n x⟩

theorem deviceWritesReachTheirBytes : Claims.DeviceWritesReachTheirBytes := fun s pa bs _ hh _ hr hp =>
  s.devWrite_of_unshared pa bs hh hr hp

/-- Settles O31: a run read back is the run written, by induction on the run; a device write without sharing is one such
run. -/
theorem memoryBytes : Obligations.MemoryBytes := ⟨memoryReadsBackWhatWasWritten, deviceWritesReachTheirBytes⟩

/-- Settles O60: the recursions of memory, records and values all put the low byte first. -/
theorem bytesAreLittleEndian : Obligations.BytesAreLittleEndian := by
  refine ⟨fun m a n => ⟨memNat_zero m a, memNat_succ m a n⟩, fun b bs off n => ⟨?_, ?_, ?_⟩, fun n x => ⟨rfl, rfl⟩,
    fun s pa h => s.homeWord_of_no_registry h pa⟩
  · simp [fieldN, valOf]
  · simp [fieldN, valOf]
  · simp [fieldN]

end Sys2Proof.Machine

namespace Sys2Proof.Machine

/-! ## Register writes out of range (R50, R61) -/

/-- A state with one gang whose thread has issued nothing. -/
def oneGang : State := { State.reset with gangs := [(0, {})] }

/-- What an instruction of that gang sees. -/
def oneGangView : View := { a := .gang 0, t := {}, act := 0, g := {}, uid := 0, lane := none, ctxNo := 0, now := 0 }

/-- The slot of a register write is one number, 64 · n + lane: lane 64 of v0 is lane 0 of v1. -/
theorem vkey_lane_64 : vkey 0 64 = vkey 1 0 := rfl

/-- Refutes O19: its first part speaks of any list of register writes and does not bound their lanes. Retiring
with a write of lane 64 of v0 alone changes v1 in lane 0 (`vkey_lane_64`), though the list names no write of it. -/
theorem not_resultsReachTheirRegisters : ¬ Obligations.ResultsReachTheirRegisters := by
  rintro ⟨h, -, -⟩
  obtain ⟨-, -, -, alone, -⟩ := h oneGang oneGangView {} ⟨0#4, false, 0#3⟩ 4 [.v 0 64 1] 0 rfl rfl rfl
  have unnamed : ∀ x, RegW.v 1 0 x ∉ [RegW.v 0 64 1] := by simp
  exact absurd (alone 1 0 unnamed) (by decide)

end Sys2Proof.Machine

namespace Sys2Proof.Machine

/-! ## Canonical memory, step by step (O6)

What a step may answer, and what it means that the memory in the answer is canonical. Below stands one lemma for each
function of the model that answers a state, in the model's order: `f_mem` (for `simp`) where `f` leaves the memory
alone, `memWf_f`, `outWf_f`, … where it may write. A proof goes through the branches of `f` and cites the lemma of what
each branch calls. Where it is `grind` that does so, its arithmetic is switched off: no branch turns on a number. -/

/-- The memory of an outcome's next state is canonical. -/
def OutWf : Out → Prop
  | .next t => memWf t.mem = true
  | .fault _ | .refused _ => True

/-- The memory of the state an access is decided with is canonical. -/
def GoWf : Go → Prop
  | .wait t | .done t => memWf t.mem = true
  | .halt _ => True

/-- The memory of the state a device operation gives is canonical. -/
def ResWf : Res → Prop
  | .wait t | .halt t _ | .fault t _ _ _ | .done t => memWf t.mem = true

/-- The memory of the state the steps of COMMIT give is canonical. -/
def CommitWf : Commit → Prop
  | .wait t | .stopped t | .done t => memWf t.mem = true

/-- The memory after a block of a conversion is canonical. -/
def BlockWf : BlockRes → Prop
  | .ok t | .halt t _ => memWf t.mem = true

/-- The memory after a command is canonical. -/
def CmdWf : CmdRes → Prop
  | .reply t _ _ _ | .wait t _ => memWf t.mem = true

/-- The memory after a dispatch unit has served is canonical. -/
def ServeWf : Serve → Prop
  | .idle | .stuck => True
  | .wait t | .done t => memWf t.mem = true

/-- The memory after a swap area has been taken is canonical. -/
def AreaWf : AreaTake → Prop
  | .none => True
  | .wait t | .area t _ => memWf t.mem = true

/-- Either side of a result has its property. -/
def ExceptWf {ε α : Type} (P : ε → Prop) (Q : α → Prop) : Except ε α → Prop
  | .error e => P e
  | .ok a => Q a

/-- A result that is there has a property. -/
def OptWf {α : Type} (P : α → Prop) : Option α → Prop
  | none => True
  | some a => P a

section
variable (t : State)

@[simp] theorem outWf_next : OutWf (.next t) ↔ memWf t.mem = true := Iff.rfl
@[simp] theorem outWf_fault (r : Fault) : OutWf (.fault r) ↔ True := Iff.rfl
@[simp] theorem outWf_refused (r : Refusal) : OutWf (.refused r) ↔ True := Iff.rfl
@[simp] theorem goWf_wait : GoWf (.wait t) ↔ memWf t.mem = true := Iff.rfl
@[simp] theorem goWf_done : GoWf (.done t) ↔ memWf t.mem = true := Iff.rfl
@[simp] theorem goWf_halt (h : HaltWhy) : GoWf (.halt h) ↔ True := Iff.rfl
@[simp] theorem resWf_wait : ResWf (.wait t) ↔ memWf t.mem = true := Iff.rfl
@[simp] theorem resWf_done : ResWf (.done t) ↔ memWf t.mem = true := Iff.rfl
@[simp] theorem resWf_halt (h : HaltWhy) : ResWf (.halt t h) ↔ memWf t.mem = true := Iff.rfl
@[simp] theorem resWf_fault (w : Want) (l : Nat) (va : Word) : ResWf (.fault t w l va) ↔ memWf t.mem = true := Iff.rfl
@[simp] theorem commitWf_wait : CommitWf (.wait t) ↔ memWf t.mem = true := Iff.rfl
@[simp] theorem commitWf_stopped : CommitWf (.stopped t) ↔ memWf t.mem = true := Iff.rfl
@[simp] theorem commitWf_done : CommitWf (.done t) ↔ memWf t.mem = true := Iff.rfl
@[simp] theorem blockWf_ok : BlockWf (.ok t) ↔ memWf t.mem = true := Iff.rfl
@[simp] theorem blockWf_halt (h : HaltWhy) : BlockWf (.halt t h) ↔ memWf t.mem = true := Iff.rfl
@[simp] theorem cmdWf_reply (st r : Nat) (bs : List Byte) : CmdWf (.reply t st r bs) ↔ memWf t.mem = true := Iff.rfl
@[simp] theorem cmdWf_wait (n : Nat) : CmdWf (.wait t n) ↔ memWf t.mem = true := Iff.rfl
@[simp] theorem serveWf_idle : ServeWf .idle ↔ True := Iff.rfl
@[simp] theorem serveWf_stuck : ServeWf .stuck ↔ True := Iff.rfl
@[simp] theorem serveWf_wait : ServeWf (.wait t) ↔ memWf t.mem = true := Iff.rfl
@[simp] theorem serveWf_done : ServeWf (.done t) ↔ memWf t.mem = true := Iff.rfl
@[simp] theorem areaWf_none : AreaWf .none ↔ True := Iff.rfl
@[simp] theorem areaWf_wait : AreaWf (.wait t) ↔ memWf t.mem = true := Iff.rfl
@[simp] theorem areaWf_area (a : Nat) : AreaWf (.area t a) ↔ memWf t.mem = true := Iff.rfl

end

section
variable {ε α : Type} {P : ε → Prop} {Q : α → Prop}

@[simp] theorem exceptWf_error (e : ε) : ExceptWf P Q (.error e) ↔ P e := Iff.rfl
@[simp] theorem exceptWf_ok (a : α) : ExceptWf P Q (.ok a) ↔ Q a := Iff.rfl
@[simp] theorem optWf_none : OptWf Q none ↔ True := Iff.rfl
@[simp] theorem optWf_some (a : α) : OptWf Q (some a) ↔ Q a := Iff.rfl

end

section
variable {ε α : Type} {P : ε → Prop} {Q : α → Prop} {t : State}

theorem OutWf.of_next {o : Out} (h : OutWf o) (e : o = .next t) : memWf t.mem = true := (outWf_next t).mp (e ▸ h)

theorem ExceptWf.of_error {r : Except ε α} {x : ε} (h : ExceptWf P Q r) (e : r = .error x) : P x := by
  simpa [e] using h

theorem ExceptWf.of_ok {r : Except ε α} {a : α} (h : ExceptWf P Q r) (e : r = .ok a) : Q a := by
  simpa [e] using h

theorem OptWf.of_some {o : Option α} {a : α} (h : OptWf Q o) (e : o = some a) : Q a := by
  simpa [e] using h

theorem memWf_of_fst {r : State × α} {a : α} (h : memWf r.1.mem = true) (e : r = (t, a)) : memWf t.mem = true := by
  simpa [e] using h

end

/-- Both branches of a choice give canonical memory. -/
theorem resWf_ite {c : Prop} [Decidable c] {a b : Res} (ha : ResWf a) (hb : ResWf b) :
    ResWf (if c then a else b) := by
  split
  · exact ha
  · exact hb

theorem cmdWf_ite {c : Prop} [Decidable c] {a b : CmdRes} (ha : CmdWf a) (hb : CmdWf b) :
    CmdWf (if c then a else b) := by
  split
  · exact ha
  · exact hb

/-- A fold that carries a result beside the state keeps the canonical form if its steps do. -/
theorem foldl_fst_memWf {α β : Type} {f : State × β → α → State × β} (xs : List α) {r : State × β}
    (hr : memWf r.1.mem = true) (step : ∀ (r : State × β) x, memWf r.1.mem = true → memWf (f r x).1.mem = true) :
    memWf (xs.foldl f r).1.mem = true :=
  foldl_keeps (P := fun r : State × β => memWf r.1.mem = true) xs hr step

section
variable {s : State}

/-! ### The state, memory and threads -/

@[simp] theorem setPoison_mem (a : Nat) (b : Bool) : (setPoison s a b).mem = s.mem := rfl

theorem memWf_whole {u : Nat} {f : State → State} (hs : memWf s.mem = true)
    (hk : ∀ t, memWf t.mem = true → memWf (f t).mem = true) : memWf (s.whole u f).mem = true := by
  unfold State.whole
  (repeat' split) <;> simp [hs, hk]

/-! ### Caches and homes -/

@[simp] theorem State.noteInbound_mem (r : HomeReq) : (s.noteInbound r).mem = s.mem := rfl

@[simp] theorem State.forget_mem : s.forget.mem = s.mem :=
  foldl_mem _ _ fun _ _ => State.setUnit_mem ..

theorem memWf_mergeOver (hs : memWf s.mem = true) (pa n : Nat) : memWf (s.mergeOver pa n).mem = true :=
  foldl_memWf _ hs fun _ _ ht => memWf_merge ht ..

/-! ### Operand forms -/

theorem exceptWf_admits (hs : memWf s.mem = true) (u : Uses) :
    ExceptWf OutWf (fun r => memWf r.1.mem = true) (s.admits u) := by
  unfold State.admits
  split
  · trivial
  · rename_i v0 _
    split
    · simpa using hs
    · have hi : memWf (s.startIssue v0).1.mem = true := by simpa using hs
      generalize s.startIssue v0 = r at hi ⊢
      dsimp only
      (repeat' split) <;> simpa using hi

theorem outWf_issue {u : Uses} {body : State → View → Mask → Out} (hs : memWf s.mem = true)
    (hk : ∀ t v ex, memWf t.mem = true → OutWf (body t v ex)) : OutWf (s.issue u body) := by
  have ha := exceptWf_admits hs u
  unfold State.issue
  split <;> simp_all

theorem outWf_alu (hs : memWf s.mem = true) (p : Pre) (ixs : BitVec 2) (lat : Nat) (d : Opd) (wide signed : Bool)
    (srcs : List (Opd × Rd)) (keep : Bool) (f : List Word → Word × FFlags) :
    OutWf (s.alu p ixs lat d wide signed srcs keep f) :=
  outWf_issue hs fun _ _ _ ht => by simpa using ht

/-! ### Addresses and translation -/

@[simp] theorem State.choose_mem {α : Type} [DecidableEq α] (d : α) (cs : List α) :
    (s.choose d cs).1.mem = s.mem := by
  unfold State.choose
  (repeat' split) <;> rfl

@[simp] theorem State.noteWalk_mem (c : Cause2) (pa : Word) : (s.noteWalk c pa).mem = s.mem := by
  unfold State.noteWalk
  split <;> simp

theorem memWf_walkRead (hs : memWf s.mem = true) (ctx : BitVec 12) (va : Word) :
    memWf (s.walkRead ctx va).mem = true :=
  foldl_memWf _ hs fun _ _ ht => memWf_readOver ht ..

@[simp] theorem State.setFront_mem (a : Nat) (f : Front) : (s.setFront a f).mem = s.mem := rfl

theorem memWf_lookup (hs : memWf s.mem = true) (agent : Nat) (ctx : BitVec 12) (va : Word) :
    memWf (s.lookup agent ctx va).1.mem = true := by
  unfold State.lookup
  grind -ring -order -lia -linarith [memWf_walkRead, State.choose_mem, State.useFree_mem, State.setFront_mem]

theorem memWf_xlatPage (hs : memWf s.mem = true) (agent : Nat) (ctx : BitVec 12) (sup : Bool) (w : Want) (va : Word)
    (off n : Nat) : memWf (s.xlatPage agent ctx sup w va off n).1.mem = true := by
  unfold State.xlatPage
  grind -ring -order -lia -linarith [memWf_lookup]

theorem memWf_xlatVirt (hs : memWf s.mem = true) (agent : Nat) (ctx : BitVec 12) (sup : Bool) (w : Want) (va : Word)
    (n : Nat) : memWf (s.xlatVirt agent ctx sup w va n).1.mem = true := by
  unfold State.xlatVirt
  grind -ring -order -lia -linarith [memWf_xlatPage, foldl_fst_memWf]

theorem memWf_xlatReg (hs : memWf s.mem = true) (agent : Nat) (ctx : BitVec 12) (sup : Bool) (w : Want) (x : XReg)
    (a : Word) (n : Nat) : memWf (s.xlatReg agent ctx sup w x a n).1.mem = true := by
  unfold State.xlatReg
  (repeat' split) <;> simp [memWf_xlatVirt, hs]

@[simp] theorem State.stirReads_mem (ps : List Piece) (grid : Nat) : (s.stirReads ps grid).mem = s.mem :=
  foldl_mem _ _ fun _ _ => State.stirRead_mem ..

@[simp] theorem State.stirPieces_mem (ps : List Piece) (grid : Nat) : (s.stirPieces ps grid).mem = s.mem :=
  foldl_mem _ _ fun _ _ => State.stir_mem ..

theorem memWf_readAt (hs : memWf s.mem = true) (ps : List Piece) : memWf (s.readAt ps).mem = true :=
  foldl_memWf _ hs fun _ _ ht => memWf_readOver ht ..

theorem memWf_recallAt (hs : memWf s.mem = true) (ps : List Piece) : memWf (s.recallAt ps).mem = true :=
  foldl_memWf _ hs fun _ _ ht => memWf_recall ht ..

theorem memWf_writePieces (hs : memWf s.mem = true) (ps : List Piece) (bs : List Byte) :
    memWf (s.writePieces ps bs).mem = true :=
  foldl_memWf _ hs fun _ _ ht => memWf_devWrite ht ..

@[simp] theorem State.cacheWords_mem (agent : Nat) (ws : List (Nat × Word)) :
    (s.cacheWords agent ws).mem = s.mem := by
  unfold State.cacheWords
  exact foldl_mem _ _ fun _ _ => by dsimp only; (repeat' split) <;> simp

theorem memWf_fetch (hs : memWf s.mem = true) (v : View) (va : Word) : memWf (s.fetch v va).1.mem = true := by
  unfold State.fetch
  grind -ring -order -lia -linarith [memWf_xlatPage, memWf_mergeOver, State.noteWalk_mem, State.noteRemote_mem,
    State.choose_mem, State.cacheWords_mem]

/-! ### Page faults -/

theorem memWf_frameReg (hs : memWf s.mem = true) (g : Gang) (r l : Nat) (x : V32) :
    memWf (s.frameReg g r l x).mem = true := by
  unfold State.frameReg
  grind -ring -order -lia -linarith [memWf_devWrite, setPoison_mem]

theorem memWf_toFrame (hs : memWf s.mem = true) (g : Gang) (w : RegW) : memWf (s.toFrame g w).1.mem = true := by
  unfold State.toFrame
  (repeat' split) <;> simp [memWf_frameReg, memWf_devWrite, hs]

theorem memWf_landRegs (hs : memWf s.mem = true) (a : Actor) (issuedAt : Nat) (ws : List RegW) :
    memWf (s.landRegs a issuedAt ws).mem = true := by
  unfold State.landRegs
  grind -ring -order -lia -linarith [memWf_toFrame, State.modThr_mem, foldl_memWf]

theorem memWf_pageFault (hs : memWf s.mem = true) (u : Nat) (fmask : Mask) (fva : List (Nat × Word)) (fcause : Word) :
    memWf (s.pageFault u fmask fva fcause).mem = true := by
  have hr := memWf_readOver hs (s.dst + 8) 8
  unfold State.pageFault
  dsimp only
  split
  · exact hs
  · split
    · simpa using hs
    · split
      · simpa using hs
      · split
        · simpa using hr
        · simpa using hr
        · refine foldl_memWf _ (memWf_devWrite (foldl_memWf _ hr fun _ _ ht => memWf_devWrite ht ..) ..) fun t l ht => ?_
          exact foldl_memWf _ ht fun t n ht => by split <;> simpa using ht

theorem memWf_pageFaultV (hs : memWf s.mem = true) (v : View) (fmask : Mask) (fva : List (Nat × Word)) (w : Want)
    (level : Nat) : memWf (s.pageFaultV v fmask fva w level).mem = true := by
  unfold State.pageFaultV
  split <;> simp [memWf_pageFault, hs]

theorem memWf_rets (hs : memWf s.mem = true) (v : View) (stall : BitVec 4) : memWf (s.rets v stall).mem = true :=
  memWf_readOver hs ..

theorem memWf_decideAccess (hs : memWf s.mem = true) (v : View) (w : Want) (x : XReg) (writes : Bool)
    (reqs : List LaneReq) : memWf (s.decideAccess v w x writes reqs).1.mem = true := by
  unfold State.decideAccess
  grind -ring -order -lia -linarith [memWf_xlatReg, State.noteWalk_mem, foldl_fst_memWf]

theorem memWf_deviceAddr (hs : memWf s.mem = true) (v : View) (w : Want) (va : Word) (n align : Nat) :
    memWf (s.deviceAddr v w va n align).1.mem = true := by
  unfold State.deviceAddr
  grind -ring -order -lia -linarith [memWf_xlatVirt, State.noteWalk_mem]

/-! ### Landing -/

theorem memWf_deliver (hs : memWf s.mem = true) (v : View) (f : Flight) : memWf (s.deliver v f).mem = true := by
  unfold State.deliver
  grind -ring -order -lia -linarith [memWf_landRegs, State.acquire_mem, State.modThr_mem, State.noteGot_mem,
    State.haltGang_mem]

/-! ### Scratchpad arrays -/

@[simp] theorem State.setArr_mem (key : Nat) (a : Arr) : (s.setArr key a).mem = s.mem := rfl

@[simp] theorem State.modFlier_mem (id : Nat) (f : Thr → Thr) : (s.modFlier id f).mem = s.mem := by
  unfold State.modFlier
  split <;> simp

@[simp] theorem State.deferPartDone_mem (key : Nat) (e : DefEntry) (l : Nat × Nat × List Byte) (old : Word)
    (err : Bool) : (s.deferPartDone key e l old err).mem = s.mem := by
  unfold State.deferPartDone
  split <;> simp

theorem memWf_deferDone (hs : memWf s.mem = true) (f : Option (Actor × Nat)) : memWf (s.deferDone f).mem = true := by
  unfold State.deferDone
  split
  · exact hs
  · dsimp only
    (repeat' split) <;> simp [memWf_deliver, hs]

theorem memWf_applyDefer (hs : memWf s.mem = true) (key : Nat) : memWf (s.applyDefer key).mem = true := by
  unfold State.applyDefer
  grind -ring -order -lia -linarith [memWf_deferDone, State.acquire_mem, State.deferPartDone_mem, State.setArr_mem,
    foldl_memWf]

theorem memWf_flip (hs : memWf s.mem = true) (key : Nat) (slabs : List Nat) (o : Owner) :
    memWf (s.flip key slabs o).mem = true := by
  unfold State.flip
  split <;> simp [memWf_applyDefer, hs]

@[simp] theorem State.bkconf_mem (a : Actor) (cost : Nat) : (s.bkconf a cost).mem = s.mem := by simp [State.bkconf]

@[simp] theorem State.spadTime_mem (v : View) (parts : List (Nat × Nat × Nat × Nat)) :
    (s.spadTime v parts).1.mem = s.mem := by
  simp [State.spadTime]

@[simp] theorem State.spadUse_mem (v : View) (parts : List (Nat × Nat × Nat × Nat)) :
    (s.spadUse v parts).1.mem = s.mem := by
  unfold State.spadUse
  split <;> simp

theorem memWf_spadWrite (hs : memWf s.mem = true) (v : View) (i : Instr) (word : Word) (flight : Nat)
    (window : List Nat) (ops : List SpadOp) (keys : List Nat) :
    memWf (s.spadWrite v i word flight window ops keys).1.mem = true := by
  unfold State.spadWrite
  grind -ring -order -lia -linarith [State.setArr_mem, foldl_mem, foldl_fst_memWf]

/-! ### The shared parts of the memory instructions -/

theorem goWf_release (hs : memWf s.mem = true) (v : View) : GoWf (s.release v) := by
  unfold State.release
  (repeat' split) <;> simp [hs]

theorem optWf_laneReady (hs : memWf s.mem = true) (v : View) :
    OptWf (fun r => memWf r.mem = true) (s.laneReady v) := by
  unfold State.laneReady
  grind -ring -order -lia -linarith [State.acquire_mem, OptWf]

theorem optWf_ordered (hs : memWf s.mem = true) (v : View) : OptWf (fun r => memWf r.1.mem = true) (s.ordered v) := by
  unfold State.ordered
  grind -ring -order -lia -linarith [optWf_laneReady, State.acquire_mem, State.setThr_mem, OptWf]

@[simp] theorem State.fly_mem (a : Actor) (f : Flight) : (s.fly a f).mem = s.mem := by simp [State.fly]

theorem exceptWf_accessReady (hs : memWf s.mem = true) (u : Uses) (m : AccF) :
    ExceptWf OutWf (fun r => memWf r.s.mem = true) (s.accessReady u m) := by
  have ha := exceptWf_admits hs u
  unfold State.accessReady
  split
  · exact hs
  · split
    · simp_all
    · rename_i t v ex heq
      rw [heq] at ha
      have ho := optWf_ordered (s := t) ha v
      grind -ring -order -lia -linarith [memWf_decideAccess, State.retire_mem, State.haltV_mem, State.earlyReturn_mem,
        State.stir_mem, OutWf, OptWf, ExceptWf]

theorem outWf_accFinish {r : Acc} (hs : memWf r.s.mem = true) (m : AccF) (g : Go) (hg : GoWf g) :
    OutWf (r.finish m g) := by
  cases g with
  | wait s => exact hg
  | halt h => simpa [Acc.finish] using hs
  | done s =>
    have ht : memWf (if m.writes then (s.noteRemote (r.ok.flatMap fun t => t.2.pas)).noSpin r.v
        else s.noteRemote (r.ok.flatMap fun t => t.2.pas)).mem = true := by
      split <;> simpa using hg
    dsimp only [Acc.finish]
    generalize (if m.writes then _ else _ : State) = t at ht ⊢
    (repeat' split) <;> simp [memWf_pageFaultV, ht]

theorem outWf_access {u : Uses} {m : AccF} {body : State → View → Mask → Bool → XReg → List (Nat × Target) → Go}
    (hs : memWf s.mem = true) (hk : ∀ t v ex uni x ok, memWf t.mem = true → GoWf (body t v ex uni x ok)) :
    OutWf (s.access u m body) := by
  have ha := exceptWf_accessReady hs u m
  unfold State.access
  split
  · rename_i heq
    exact ha.of_error heq
  · rename_i r heq
    have hr : memWf r.s.mem = true := ha.of_ok heq
    refine outWf_accFinish hr m _ ?_
    split
    · exact hr
    · exact hk _ _ _ _ _ _ hr

@[simp] theorem State.countLine_mem (agent ctx : Nat) (f : LineCnt → LineCnt) :
    (s.countLine agent ctx f).mem = s.mem := by
  unfold State.countLine
  split <;> rfl

@[simp] theorem State.notePol_mem (a : Actor) (pol : Pol) (ok : List (Nat × Target)) :
    (s.notePol a pol ok).mem = s.mem := by
  unfold State.notePol
  split <;> simp

theorem goWf_load (hs : memWf s.mem = true) (v : View) (ex : Mask) (uni : Bool) (f : LoadF)
    (ok : List (Nat × Target)) : GoWf (s.load v ex uni f ok) := by
  unfold State.load
  grind -ring -order -lia -linarith [State.bump_mem, State.countLine_mem, State.setL1_mem, State.request_mem,
    State.spadUse_mem, State.fly_mem, State.notePol_mem, foldl_mem, GoWf]

theorem memWf_farTouch (hs : memWf s.mem = true) (agent pa n : Nat) : memWf (s.farTouch agent pa n).mem = true :=
  foldl_memWf _ hs fun _ _ ht => memWf_revokeNow ht ..

theorem memWf_storeBytes (hs : memWf s.mem = true) (v : View) (id lane : Nat) (pol : Pol) (bs : List SByte) :
    memWf (s.storeBytes v id lane pol bs).1.mem = true := by
  unfold State.storeBytes
  grind -ring -order -lia -linarith [memWf_farTouch, State.countLine_mem, State.setL1_mem, State.request_mem,
    foldl_memWf, foldl_fst_memWf]

theorem memWf_stores (hs : memWf s.mem = true) (v : View) (id : Nat) (pol : Pol) (lanes : List (Nat × List SByte)) :
    memWf (s.stores v id pol lanes).1.mem = true := by
  unfold State.stores
  grind -ring -order -lia -linarith [memWf_storeBytes, foldl_fst_memWf]

theorem goWf_store (hs : memWf s.mem = true) (v : View) (ex : Mask) (uni : Bool) (i : Instr) (pol : Pol) (path : Path)
    (hold : Bool) (ok : List (Nat × Target × List Byte)) : GoWf (s.store v ex uni i pol path hold ok) := by
  unfold State.store
  grind -ring -order -lia -linarith [memWf_spadWrite, memWf_stores, State.bump_mem, State.spadUse_mem,
    State.modThr_mem, State.fly_mem, State.notePol_mem, GoWf]

theorem memWf_evict (hs : memWf s.mem = true) (agent line : Nat) (ctx : BitVec 12) :
    memWf (s.evict agent line ctx).mem = true := by
  unfold State.evict
  grind -ring -order -lia -linarith [memWf_revokeNow, State.cancelFills_mem, State.setL1_mem, State.countLine_mem,
    foldl_memWf]

theorem memWf_allocLine (hs : memWf s.mem = true) (agent line : Nat) (ctx : BitVec 12) (pol : Pol)
    (stays : Nat → Bool) : memWf (s.allocLine agent line ctx pol stays).mem = true := by
  unfold State.allocLine
  grind -ring -order -lia -linarith [memWf_evict, State.setL1_mem, State.useFree_mem]

theorem memWf_install (hs : memWf s.mem = true) (agent : Nat) (ctx : BitVec 12) (epoch : Nat) (f : Fill) :
    memWf (s.install agent ctx epoch f).mem = true := by
  unfold State.install
  grind -ring -order -lia -linarith [memWf_allocLine, State.setL1_mem, State.modAgent_mem]

theorem memWf_land (hs : memWf s.mem = true) (v : View) (f : Flight) : memWf (s.land v f).mem = true := by
  unfold State.land
  grind -ring -order -lia -linarith [memWf_install, memWf_deliver, foldl_memWf]

/-! ### Loads, stores, fences and cache instructions -/

theorem outWf_execLd (hs : memWf s.mem = true) (m : MF) : OutWf (execLd m s) := by
  unfold execLd
  grind -ring -order -lia -linarith [outWf_access, goWf_load]

theorem outWf_execSt (hs : memWf s.mem = true) (m : MF) : OutWf (execSt m s) := by
  unfold execSt
  grind -ring -order -lia -linarith [outWf_access, goWf_store]

theorem outWf_execBpx (hs : memWf s.mem = true) (m : MF) : OutWf (execBpx m s) := by
  unfold execBpx
  grind -ring -order -lia -linarith [outWf_access, goWf_load]

theorem outWf_execBpk (hs : memWf s.mem = true) (m : MF) : OutWf (execBpk m s) := by
  unfold execBpk
  extract_lets p
  refine outWf_access hs fun s v ex uni x ok hs => ?_
  extract_lets agent win grid lane sp ups live id t t'
  split
  · exact hs
  · split
    · trivial
    · extract_lets r t'' dead t'''
      have hr : memWf r.1.mem = true := memWf_spadWrite (by simpa [t', t] using hs) ..
      have ht : memWf t''.mem = true := foldl_memWf _ hr fun t u ht => by simpa using memWf_farTouch ht ..
      simpa [t'''] using ht

theorem goWf_after {v : View} {rel : Bool} {k : State → Go} (hs : memWf s.mem = true)
    (hk : ∀ t, memWf t.mem = true → GoWf (k t)) : GoWf (s.after v rel k) := by
  unfold State.after
  grind -ring -order -lia -linarith [goWf_release, GoWf]

theorem outWf_execLda (hs : memWf s.mem = true) (a : AF) : OutWf (execLda a s) := by
  unfold execLda
  grind -ring -order -lia -linarith [outWf_access, goWf_load, GoWf]

theorem outWf_execSta (hs : memWf s.mem = true) (a : AF) : OutWf (execSta a s) := by
  unfold execSta
  grind -ring -order -lia -linarith [outWf_access, goWf_after, goWf_store]

theorem outWf_execFence (hs : memWf s.mem = true) (p : Pre) (ord : Ord) : OutWf (execFence p ord s) := by
  unfold execFence
  grind -ring -order -lia -linarith [outWf_issue, optWf_laneReady, goWf_after, State.retire_mem, State.haltV_mem,
    State.acquire_mem, OutWf, GoWf, OptWf]

theorem memWf_lineLanes (hs : memWf s.mem = true) (v : View) (m : MLineF) (ex : Mask) :
    memWf (s.lineLanes v m ex).1.mem = true := by
  unfold State.lineLanes
  grind -ring -order -lia -linarith [memWf_xlatReg, foldl_fst_memWf]

theorem outWf_lineOp {m : MLineF} {f : State → View → List Piece → Go} (hs : memWf s.mem = true)
    (hk : ∀ t v ps, memWf t.mem = true → GoWf (f t v ps)) : OutWf (s.lineOp m f) := by
  unfold State.lineOp
  split
  · exact hs
  · refine outWf_issue hs fun s v ex hs => ?_
    split
    · simpa using hs
    · split
      · exact hs
      · rename_i t heq
        have ht : memWf t.mem = true := (optWf_laneReady hs v).of_some heq
        have hr := memWf_lineLanes ht v m ex
        have hf := hk _ v (t.lineLanes v m ex).2 hr
        extract_lets r
        change memWf r.1.mem = true at hr
        change GoWf (f r.1 v r.2) at hf
        cases h : f r.1 v r.2 with
        | wait s => simpa [h] using hf
        | halt w => simpa using ht
        | done s => simpa [h] using hf

theorem memWf_prefetchLine (hs : memWf s.mem = true) (agent : Nat) (ctx : BitVec 12) (pol : Pol) (p : Piece) :
    memWf (s.prefetchLine agent ctx pol p).mem = true := by
  unfold State.prefetchLine
  grind -ring -order -lia -linarith [memWf_readOver, memWf_allocLine, State.bump_mem, State.setL1_mem]

theorem outWf_execPfch (hs : memWf s.mem = true) (m : MLineF) : OutWf (execPfch m s) :=
  outWf_lineOp hs fun s v ps hs => by
    simpa using foldl_memWf ps hs fun t p ht => memWf_prefetchLine (s := t) ht _ _ _ p

theorem outWf_execCwb (hs : memWf s.mem = true) (m : MLineF) : OutWf (execCwb m s) := by
  refine outWf_lineOp hs fun s v ps hs => ?_
  split
  · exact hs
  · dsimp only
    split
    · exact hs
    · rw [goWf_done, State.fly_mem, State.bump_mem]
      refine foldl_memWf _ hs fun t ln ht => ?_
      split
      · exact foldl_memWf _ ht fun _ _ h => memWf_revokeNow h ..
      · exact ht

theorem outWf_execIcinv (hs : memWf s.mem = true) (m : MLineF) : OutWf (execIcinv m s) :=
  outWf_lineOp hs fun _ _ _ ht => by
    split <;> simp [ht]

@[simp] theorem State.dropLines_mem (lines : List Nat) : (s.dropLines lines).mem = s.mem := rfl

theorem outWf_execIcinvRemovalAck (hs : memWf s.mem = true) (a : Actor) (flight : Nat) :
    OutWf (execIcinvRemovalAck a flight s) := by
  unfold execIcinvRemovalAck
  (repeat' split) <;> simp [hs]

theorem outWf_execFbar (hs : memWf s.mem = true) (p : Pre) : OutWf (execFbar p s) := by
  unfold execFbar
  grind -ring -order -lia -linarith [outWf_issue, optWf_laneReady, State.retire_mem, OutWf, OptWf]

theorem outWf_execXlat (hs : memWf s.mem = true) (x : X1) (xr : BitVec 3) : OutWf (execXlat x xr s) := by
  unfold execXlat
  grind -ring -order -lia -linarith [outWf_issue, State.retire_mem, State.haltV_mem, OutWf]

/-! ### Atomics, reductions and WAITU -/

theorem goWf_atomics (hs : memWf s.mem = true) (v : View) (ex : Mask) (uni : Bool) (i : Instr) (a : AF)
    (ls : List AtomLane) : GoWf (s.atomics v ex uni i a ls) := by
  unfold State.atomics
  grind -ring -order -lia -linarith [memWf_spadWrite, memWf_farTouch, State.bump_mem, State.spadUse_mem,
    State.request_mem, State.fly_mem, foldl_memWf, GoWf]

theorem outWf_execAtom (hs : memWf s.mem = true) (op : AOp) (a : AF) : OutWf (execAtom op a s) := by
  unfold execAtom
  grind -ring -order -lia -linarith [outWf_access, goWf_after, goWf_atomics]

theorem outWf_execAcas (hs : memWf s.mem = true) (a : AF) : OutWf (execAcas a s) := by
  unfold execAcas
  grind -ring -order -lia -linarith [outWf_access, goWf_after, goWf_atomics]

theorem goWf_startReds (hs : memWf s.mem = true) (v : View) (ex : Mask) (i : Instr) (acq : Bool)
    (es : List CmtEntry) : GoWf (s.startReds v ex i acq es) := by
  unfold State.startReds
  grind -ring -order -lia -linarith [memWf_spadWrite, memWf_farTouch, State.bump_mem, State.spadUse_mem,
    State.request_mem, State.modThr_mem, State.fly_mem, foldl_memWf, GoWf]

theorem outWf_execRed (hs : memWf s.mem = true) (op : AOp) (a : AF) : OutWf (execRed op a s) := by
  unfold execRed
  grind -ring -order -lia -linarith [outWf_access, memWf_devWrite, goWf_after, goWf_startReds, State.stir_mem,
    State.modGang_mem, State.bump_mem, GoWf]

theorem goWf_performHeld (hs : memWf s.mem = true) (u : Nat) : GoWf (s.performHeld u) := by
  unfold State.performHeld
  split
  · exact hs
  · rename_i v _
    have ho := optWf_ordered hs v
    grind -ring -order -lia -linarith [goWf_startReds, State.noteRemote_mem, State.modGang_mem, GoWf, OptWf]

theorem exceptWf_readOwn (hs : memWf s.mem = true) (v : View) (agent : Nat) (pas : List Nat) (prpt : Option Nat) :
    ExceptWf (fun r => memWf r.mem = true) (fun r => memWf r.mem = true) (s.readOwn v agent pas prpt) := by
  unfold State.readOwn
  grind -ring -order -lia -linarith [memWf_readOver, State.stirRead_mem, foldl_memWf, ExceptWf]

@[simp] theorem State.sendLock_mem (a : Actor) (agent flight k : Nat) (prpt : Option Nat) :
    (s.sendLock a agent flight k prpt).mem = s.mem :=
  rfl

theorem outWf_execMcas (hs : memWf s.mem = true) (cnt : BitVec 4) (a : AF) : OutWf (execMcas cnt a s) := by
  unfold execMcas
  extract_lets n sv
  refine outWf_access hs fun s v ex w x ok hs => ?_
  have hr := goWf_release hs v
  split
  · simp_all
  · trivial
  · split
    · simp_all
    · rename_i s heq _ p _
      have hs : memWf s.mem = true := by simpa [heq] using hr
      extract_lets agent win blk grid told
      split
      · rename_i heq
        exact (exceptWf_readOwn hs ..).of_error heq
      · rename_i s heq
        have hs : memWf s.mem = true := (exceptWf_readOwn hs ..).of_ok heq
        extract_lets sp t bs bad raw es id start done entered
        have ht : memWf t.mem = true := by
          dsimp only [t]
          split
          · simpa using hs
          · exact hs
        have hstart {s : State} (hs : memWf s.mem = true) (st : McasSt) (k : Option Nat) : GoWf (start s st k) := by
          cases k <;> simpa [start] using hs
        clear_value start
        have hdone {s : State} (hs : memWf s.mem = true) (w : Word) : GoWf (done s w) := by
          dsimp only [done]
          exact hstart hs ..
        have he : memWf entered.mem = true := by
          dsimp only [entered]
          split
          · exact ht
          · exact foldl_memWf _ ht fun _ _ h => memWf_walkRead h ..
        clear_value bad done entered
        cases bad with
        | some j => exact hdone ht _
        | none =>
          dsimp only
          split
          · trivial
          · exact hdone he _
          · split
            · exact hdone he _
            · split
              · exact hdone (by simpa using he) _
              · exact hstart he ..

theorem memWf_unlock (hs : memWf s.mem = true) (a : Actor) (ks : List Nat) : memWf (s.unlock a ks).mem = true := by
  unfold State.unlock
  grind -ring -order -lia -linarith [memWf_drainAll, State.setUnit_mem, foldl_memWf]

theorem memWf_mcasFinish (hs : memWf s.mem = true) (v : View) (f : Flight) (w : Word) :
    memWf (s.mcasFinish v f w).mem = true := by
  simp [State.mcasFinish, memWf_landRegs, hs]

@[simp] theorem State.mcasSeen_mem (ks : List (Nat × Nat)) : (s.mcasSeen ks).mem = s.mem := by
  unfold State.mcasSeen
  grind -ring -order -lia -linarith [State.modThr_mem, State.request_mem, foldl_mem]

theorem memWf_mcasStep (hs : memWf s.mem = true) (v : View) (f : Flight) (st : McasSt) :
    memWf (s.mcasStep v f st).mem = true := by
  unfold State.mcasStep
  grind -ring -order -lia -linarith [memWf_mcasFinish, memWf_devWrite, memWf_unlock, memWf_memSetNat, State.modThr_mem,
    State.stir_mem, State.noteRemote_mem, State.sendLock_mem, State.wakeOver_mem, State.mcasSeen_mem, foldl_memWf]

@[simp] theorem State.endMonitors_mem (a : Actor) : (s.endMonitors a).mem = s.mem := by
  unfold State.endMonitors
  exact foldl_mem _ _ fun _ _ => by split <;> simp

@[simp] theorem State.rereadSpad_mem (v : View) (w : WaitU) : (s.rereadSpad v w).1.mem = s.mem := by
  simp [State.rereadSpad]

@[simp] theorem State.askWatches_mem (v : View) (w : WaitU) (mon : Bool) (pick : Watch → Bool) :
    (s.askWatches v w mon pick).mem = s.mem := by
  unfold State.askWatches
  grind -ring -order -lia -linarith [State.modThr_mem, State.request_mem, foldl_mem]

theorem memWf_waituEnd (hs : memWf s.mem = true) (v : View) (w : WaitU) : memWf (s.waituEnd v w).mem = true := by
  unfold State.waituEnd
  (repeat' split) <;> simp [memWf_landRegs, memWf_pageFaultV, hs]

theorem memWf_waituDone (hs : memWf s.mem = true) (v : View) (w : WaitU) : memWf (s.waituDone v w).mem = true := by
  unfold State.waituDone
  split <;> simp [memWf_waituEnd, hs]

theorem memWf_waituJudge (hs : memWf s.mem = true) (a : Actor) : memWf (s.waituJudge a).mem = true := by
  unfold State.waituJudge
  grind -ring -order -lia -linarith [memWf_waituDone]

theorem memWf_settleWaits (hs : memWf s.mem = true) : memWf s.settleWaits.mem = true :=
  foldl_memWf _ hs fun _ _ ht => memWf_waituJudge ht ..

theorem outWf_execWaitu (hs : memWf s.mem = true) (eq : Bool) (a : AF) : OutWf (execWaitu eq a s) := by
  unfold execWaitu
  grind -ring -order -lia -linarith [outWf_issue, optWf_ordered, memWf_decideAccess, memWf_waituJudge,
    State.retire_mem, State.haltV_mem, State.earlyReturn_mem, State.rereadSpad_mem, State.noteRemote_mem,
    State.askWatches_mem, OutWf, OptWf]

theorem outWf_execWaituWake (hs : memWf s.mem = true) (m : Nat) : OutWf (execWaituWake m s) := by
  unfold execWaituWake
  (repeat' split) <;> simp [memWf_waituJudge, hs]

theorem outWf_execWaituPoll (hs : memWf s.mem = true) (a : Actor) : OutWf (execWaituPoll a s) := by
  unfold execWaituPoll
  grind -ring -order -lia -linarith [memWf_waituJudge, State.rereadSpad_mem, State.modThr_mem, State.askWatches_mem,
    OutWf]

theorem outWf_execWaituTimeout (hs : memWf s.mem = true) (a : Actor) : OutWf (execWaituTimeout a s) := by
  unfold execWaituTimeout
  (repeat' split) <;> simp [memWf_waituDone, hs]

/-! ### Integer instructions -/

theorem outWf_int3 (hs : memWf s.mem = true) (sat : Bool) (ty : ITy) (lat : Nat) (o : R3) (g : Int → Int → Int) :
    OutWf (s.int3 sat ty lat o g) :=
  outWf_alu hs ..

theorem outWf_execIadd (hs : memWf s.mem = true) (sat : Bool) (ty : ITy) (o : R3) : OutWf (execIadd sat ty o s) :=
  outWf_int3 hs ..

theorem outWf_execIsub (hs : memWf s.mem = true) (sat : Bool) (ty : ITy) (o : R3) : OutWf (execIsub sat ty o s) :=
  outWf_int3 hs ..

theorem outWf_execImul (hs : memWf s.mem = true) (ty : ITy) (o : R3) : OutWf (execImul ty o s) :=
  outWf_int3 hs ..

theorem outWf_execImulh (hs : memWf s.mem = true) (ty : ITy) (o : R3) : OutWf (execImulh ty o s) :=
  outWf_int3 hs ..

theorem outWf_execImin (hs : memWf s.mem = true) (ty : ITy) (o : R3) : OutWf (execImin ty o s) :=
  outWf_int3 hs ..

theorem outWf_execImax (hs : memWf s.mem = true) (ty : ITy) (o : R3) : OutWf (execImax ty o s) :=
  outWf_int3 hs ..

theorem outWf_execIdiv (hs : memWf s.mem = true) (rem : Bool) (ty : ITy) (o : R3) : OutWf (execIdiv rem ty o s) :=
  outWf_int3 hs ..

/-! ### Bit instructions -/

theorem outWf_bit3 (hs : memWf s.mem = true) (w64 : Bool) (o : R3) (b : Rd) (g : Word → Word → Word) :
    OutWf (s.bit3 w64 o b g) :=
  outWf_alu hs ..

theorem outWf_execAnd (hs : memWf s.mem = true) (w64 : Bool) (o : R3) : OutWf (execAnd w64 o s) :=
  outWf_bit3 hs ..

theorem outWf_execOr (hs : memWf s.mem = true) (w64 : Bool) (o : R3) : OutWf (execOr w64 o s) :=
  outWf_bit3 hs ..

theorem outWf_execXor (hs : memWf s.mem = true) (w64 : Bool) (o : R3) : OutWf (execXor w64 o s) :=
  outWf_bit3 hs ..

theorem outWf_execAndn (hs : memWf s.mem = true) (w64 : Bool) (o : R3) : OutWf (execAndn w64 o s) :=
  outWf_bit3 hs ..

theorem outWf_execShl (hs : memWf s.mem = true) (w64 : Bool) (o : R3) : OutWf (execShl w64 o s) :=
  outWf_bit3 hs ..

theorem outWf_execShr (hs : memWf s.mem = true) (w64 : Bool) (o : R3) : OutWf (execShr w64 o s) :=
  outWf_bit3 hs ..

theorem outWf_execSra (hs : memWf s.mem = true) (w64 : Bool) (o : R3) : OutWf (execSra w64 o s) :=
  outWf_bit3 hs ..

theorem outWf_execRot (hs : memWf s.mem = true) (w64 : Bool) (o : R3) : OutWf (execRot w64 o s) :=
  outWf_bit3 hs ..

/-! ### Control flow and the rejoin stack -/

theorem memWf_checkTarget (hs : memWf s.mem = true) (v : View) (target : Word) :
    memWf (s.checkTarget v target).1.mem = true := by
  unfold State.checkTarget
  grind -ring -order -lia -linarith [memWf_fetch]

@[simp] theorem State.backward_mem (v : View) (target : Word) : (s.backward v target).mem = s.mem := by
  unfold State.backward
  split <;> rfl

@[simp] theorem State.enterAt_mem (v : View) (t : Thr) (target : Word) (base : Nat) (stall : BitVec 4) :
    (s.enterAt v t target base stall).mem = s.mem := by
  simp [State.enterAt]

theorem memWf_fetchFault (hs : memWf s.mem = true) (v : View) (va : Word) (level : Nat) :
    memWf (s.fetchFault v va level).mem = true :=
  memWf_pageFaultV hs ..

theorem outWf_loadHeader (hs : memWf s.mem = true) (v : View) : OutWf (s.loadHeader v) := by
  unfold State.loadHeader
  grind -ring -order -lia -linarith [memWf_fetch, memWf_fetchFault, State.haltV_mem, State.modThr_mem, OutWf]

theorem outWf_transfer (hs : memWf s.mem = true) (v : View) (t : Thr) (target : Word) (stall : BitVec 4) :
    OutWf (s.transfer v t target stall) := by
  unfold State.transfer
  grind -ring -order -lia -linarith [memWf_checkTarget, memWf_fetchFault, State.haltV_mem, State.enterAt_mem,
    State.backward_mem, OutWf]

@[simp] theorem State.switchTop_mem (u : Nat) : (s.switchTop u).mem = s.mem := by
  unfold State.switchTop
  split <;> rfl

@[simp] theorem State.unpark_mem (u core : Nat) : (s.unpark u core).mem = s.mem := by
  unfold State.unpark
  grind -ring -order -lia -linarith [State.modGang_mem, State.acquire_mem, foldl_mem]

theorem memWf_tryJoin (hs : memWf s.mem = true) (u : Nat) : memWf (s.tryJoin u).mem = true := by
  unfold State.tryJoin
  split
  · exact hs
  · rename_i v _
    dsimp only
    split
    · exact hs
    · rename_i at_ _
      have hf := memWf_fetch hs v at_
      grind -ring -order -lia -linarith [memWf_pageFault, memWf_checkTarget, State.haltGang_mem, State.modGang_mem,
        State.hold_mem]

theorem memWf_settleTop (hs : memWf s.mem = true) (u n : Nat) (popped : Bool) :
    memWf (s.settleTop u n popped).mem = true := by
  induction n generalizing s popped with
  | zero => exact hs
  | succ n ih =>
    unfold State.settleTop
    dsimp only
    (repeat' split) <;> simp [memWf_tryJoin, ih, hs]

theorem memWf_settleGang (hs : memWf s.mem = true) (u : Nat) : memWf (s.settleGang u).mem = true := by
  unfold State.settleGang
  split <;> simp [memWf_tryJoin, memWf_settleTop, hs]

theorem memWf_spillSlot (hs : memWf s.mem = true) (v : View) (w : Want) (n : Nat) :
    memWf (s.spillSlot v w n).1.mem = true := by
  unfold State.spillSlot
  grind -ring -order -lia -linarith [memWf_xlatVirt]

theorem exceptWf_unspillFrom (hs : memWf s.mem = true) (u n : Nat) :
    ExceptWf (fun _ => True) (fun r => memWf r.mem = true) (s.unspillFrom u n) := by
  induction n generalizing s with
  | zero => exact hs
  | succ n ih =>
    unfold State.unspillFrom
    split
    · exact hs
    · rename_i v _
      have hp := memWf_spillSlot hs v .read n
      split <;> simp_all [memWf_readAt]

theorem exceptWf_unspill (hs : memWf s.mem = true) (u : Nat) :
    ExceptWf (fun _ => True) (fun r => memWf r.mem = true) (s.unspill u) :=
  exceptWf_unspillFrom hs ..

theorem memWf_spillAll (hs : memWf s.mem = true) (v : View) (n : Nat) (es : List Entry) :
    memWf (s.spillAll v n es).1.mem = true := by
  induction es generalizing s n with
  | nil => exact hs
  | cons e es ih =>
    have hp := memWf_spillSlot hs v .write n
    unfold State.spillAll
    split <;> simp_all
    split <;> simp [memWf_writePieces, ih, hp]

theorem memWf_respill {before : State} (hb : memWf before.mem = true) (hs : memWf s.mem = true) (u : Nat) :
    memWf (before.respill s u).mem = true := by
  unfold State.respill
  split
  · exact hs
  · rename_i v _
    extract_lets n halt
    have hh (c : Cause2) (ad : Word) : memWf (halt c ad).mem = true := by
      dsimp only [halt]
      split
      · exact hs
      · simpa using hb
    split
    · split
      · exact hs
      · exact hh ..
    · split
      · exact hs
      · split
        · exact hh ..
        · split
          · exact hh ..
          · simpa using hb
          · rename_i heq
            simpa using memWf_of_fst (memWf_spillAll hs ..) heq

theorem outWf_withStack {u : Nat} {f : State → Out} (hs : memWf s.mem = true)
    (hk : ∀ t, memWf t.mem = true → OutWf (f t)) : OutWf (s.withStack u f) := by
  unfold State.withStack
  grind -ring -order -lia -linarith [exceptWf_unspill, memWf_respill, State.stirReads_mem, OutWf, ExceptWf]

theorem outWf_execNop (hs : memWf s.mem = true) (p : Pre) : OutWf (execNop p s) :=
  outWf_issue hs fun _ _ _ ht => by
    simp [ht]

theorem outWf_execBra (hs : memWf s.mem = true) (stall : BitVec 4) (off : BitVec 32) : OutWf (execBra stall off s) :=
  outWf_issue hs fun _ _ _ ht => outWf_transfer ht ..

theorem outWf_branchAll (hs : memWf s.mem = true) (v : View) (stall : BitVec 4) (off : BitVec 32) (taken : Bool) :
    OutWf (s.branchAll v stall off taken) := by
  unfold State.branchAll
  split <;> simp [outWf_transfer, hs]

theorem outWf_execBrcAny (hs : memWf s.mem = true) (stall : BitVec 4) (bn : Bool) (bk : BitVec 3) (off : BitVec 32) :
    OutWf (execBrcAny stall bn bk off s) :=
  outWf_issue hs fun _ _ _ ht => outWf_branchAll ht ..

theorem outWf_execBrcAll (hs : memWf s.mem = true) (stall : BitVec 4) (bn : Bool) (bk : BitVec 3) (off : BitVec 32) :
    OutWf (execBrcAll stall bn bk off s) :=
  outWf_issue hs fun _ _ _ ht => outWf_branchAll ht ..

theorem memWf_eject (hs : memWf s.mem = true) (v : View) (side : BrSide) (rj : Word) :
    memWf (s.eject v side rj).mem = true := by
  unfold State.eject
  grind -ring -order -lia -linarith [foldl_memWf]

theorem outWf_diverge (hs : memWf s.mem = true) (v : View) (stall : BitVec 4) (rj : Word) (tk fl : BrSide) :
    OutWf (s.diverge v stall rj tk fl) := by
  unfold State.diverge
  grind -ring -order -lia -linarith [memWf_whole, memWf_eject, State.haltV_mem, State.issued_mem, State.setThr_mem,
    State.backward_mem, State.modGang_mem, OutWf]

theorem outWf_execBrcDiv (hs : memWf s.mem = true) (stall : BitVec 4) (bn : Bool) (bk : BitVec 3) (off : BitVec 32) :
    OutWf (execBrcDiv stall bn bk off s) := by
  unfold execBrcDiv
  grind -ring -order -lia -linarith [outWf_issue, memWf_fetch, memWf_fetchFault, outWf_transfer, memWf_checkTarget,
    outWf_diverge, State.earlyReturn_mem, State.haltV_mem, State.retire_mem, State.haltGang_mem, OutWf]

theorem outWf_execBrx (hs : memWf s.mem = true) (stall : BitVec 4) (a : BitVec 6) (off : BitVec 32) :
    OutWf (execBrx stall a off s) :=
  outWf_issue hs fun _ _ _ ht => outWf_transfer ht ..

theorem outWf_execCall (hs : memWf s.mem = true) (stall : BitVec 4) (a : BitVec 6) (off : BitVec 32) :
    OutWf (execCall stall a off s) :=
  outWf_issue hs fun _ _ _ ht => outWf_transfer ht ..

theorem outWf_execRet (hs : memWf s.mem = true) (stall : BitVec 4) (a : BitVec 6) : OutWf (execRet stall a s) :=
  outWf_issue hs fun _ _ _ ht => outWf_transfer ht ..

theorem memWf_exitLane (hs : memWf s.mem = true) (v : View) : memWf (s.exitLane v).mem = true := by
  unfold State.exitLane
  split
  · exact hs
  · split
    · exact hs
    · refine memWf_whole hs fun t ht => ?_
      dsimp only
      (repeat' split) <;> simp [memWf_settleGang, ht]

theorem memWf_leaveStack (hs : memWf s.mem = true) (v : View) (stall : BitVec 4) (mark : Gang → Gang) :
    memWf (s.leaveStack v stall mark).mem = true :=
  memWf_whole hs fun _ ht => memWf_settleGang (by simpa using ht) ..

theorem outWf_execExit (hs : memWf s.mem = true) (stall : BitVec 4) : OutWf (execExit stall s) :=
  outWf_issue hs fun _ _ _ ht => by
    split <;> simp [memWf_exitLane, memWf_leaveStack, ht]

theorem outWf_execGjoin (hs : memWf s.mem = true) (stall : BitVec 4) (off : BitVec 32) :
    OutWf (execGjoin stall off s) :=
  outWf_issue hs fun _ _ _ ht => memWf_leaveStack ht ..

theorem outWf_execYield (hs : memWf s.mem = true) (stall : BitVec 4) : OutWf (execYield stall s) :=
  outWf_issue hs fun _ _ _ ht => by
    split <;> simp [ht]

theorem outWf_execBkpt (hs : memWf s.mem = true) (p : Pre) (code : BitVec 24) : OutWf (execBkpt p code s) :=
  outWf_issue hs fun _ _ _ ht => by
    split <;> simp [ht]

theorem outWf_execTrapu (hs : memWf s.mem = true) (p : Pre) (code : BitVec 24) : OutWf (execTrapu p code s) :=
  outWf_issue hs fun _ _ _ ht => by
    split <;> simp [ht]

theorem outWf_execRetu (hs : memWf s.mem = true) (stall : BitVec 4) : OutWf (execRetu stall s) :=
  outWf_issue hs fun _ _ _ ht => by
    split <;> simp [ht]

@[simp] theorem State.beginBlock_mem (v : View) (h hdr : Word) : (s.beginBlock v h hdr).mem = s.mem := by
  simp [State.beginBlock]

theorem memWf_arriveGang (hs : memWf s.mem = true) (v : View) (hdr : Word) :
    memWf (s.arriveGang v hdr).mem = true := by
  unfold State.arriveGang
  grind -ring -order -lia -linarith [memWf_settleGang, State.modGang_mem, State.delay_mem, State.switchTop_mem,
    State.beginBlock_mem]

@[simp] theorem State.arriveLane_mem (v : View) (hdr : Word) : (s.arriveLane v hdr).mem = s.mem := by
  unfold State.arriveLane
  grind -ring -order -lia -linarith [State.beginBlock_mem]

@[simp] theorem State.dropLane_mem (c : Nat) : (s.dropLane c).mem = s.mem := by
  unfold State.dropLane
  grind -ring -order -lia -linarith [State.modGang_mem]

@[simp] theorem State.cancelGang_mem (u : Nat) : (s.cancelGang u).mem = s.mem :=
  foldl_mem _ _ fun _ _ => State.dropLane_mem ..

theorem outWf_arriveHeader (hs : memWf s.mem = true) (a : Actor) : OutWf (s.arriveHeader a) := by
  unfold State.arriveHeader
  split
  · trivial
  · rename_i v _
    have hf := memWf_fetch hs v v.t.pc
    split
    · exact hs
    · split
      · split <;> simpa using hs
      · split
        · exact memWf_settleGang hs ..
        · split
          · exact hs
          · grind -ring -order -lia -linarith [State.haltV_mem, memWf_fetchFault, memWf_arriveGang,
            State.arriveLane_mem,
              OutWf]

theorem outWf_execHeaderArrive (hs : memWf s.mem = true) (a : Actor) : OutWf (execHeaderArrive a s) := by
  unfold execHeaderArrive
  grind -ring -order -lia -linarith [outWf_withStack, outWf_arriveHeader, OutWf]

@[simp] theorem State.mergeLane_mem (c : Nat) (lc : LaneCtx) (g : Gang) : (s.mergeLane c lc g).mem = s.mem := by
  simp [State.mergeLane]

theorem memWf_tryMerge (hs : memWf s.mem = true) (c : Nat) (lc : LaneCtx) (g : Gang) :
    memWf (s.tryMerge c lc g).mem = true := by
  unfold State.tryMerge
  grind -ring -order -lia -linarith [memWf_whole, State.haltGang_mem, State.clearPosted_mem, State.mergeLane_mem]

theorem outWf_execLaneMerge (hs : memWf s.mem = true) (c : Nat) : OutWf (execLaneMerge c s) := by
  unfold execLaneMerge
  grind -ring -order -lia -linarith [outWf_withStack, memWf_tryMerge, OutWf]

theorem memWf_detach (hs : memWf s.mem = true) (u : Nat) (m : Mask) : memWf (s.detach u m).mem = true := by
  unfold State.detach
  grind -ring -order -lia -linarith [memWf_settleGang, State.modGang_mem]

theorem outWf_execRjtDetach (hs : memWf s.mem = true) (u : Nat) : OutWf (execRjtDetach u s) := by
  unfold execRjtDetach
  split
  · trivial
  · dsimp only
    split
    · split
      · exact hs
      · exact outWf_withStack hs fun _ ht => memWf_whole ht fun _ ht => memWf_detach ht ..
    · exact hs

theorem outWf_execRendezvousTimeout (hs : memWf s.mem = true) (u : Nat) : OutWf (execRendezvousTimeout u s) := by
  unfold execRendezvousTimeout
  grind -ring -order -lia -linarith [State.beginBlock_mem, OutWf]

theorem outWf_execEarlyReturn (hs : memWf s.mem = true) (c : Nat) : OutWf (execEarlyReturn c s) := by
  unfold execEarlyReturn
  grind -ring -order -lia -linarith [outWf_withStack, State.earlyReturn_mem, OutWf]

theorem outWf_execRejoinDeadlock (hs : memWf s.mem = true) (u : Nat) : OutWf (execRejoinDeadlock u s) := by
  unfold execRejoinDeadlock
  (repeat' split) <;> simp [hs]

/-! ### Events of the memory system -/

theorem outWf_execLoadDataLand (hs : memWf s.mem = true) (a : Actor) (id : Nat) :
    OutWf (execLoadDataLand a id s) := by
  unfold execLoadDataLand
  (repeat' split) <;> simp [memWf_mcasStep, memWf_land, hs]

@[simp] theorem State.answerRevoke_mem (a k : Nat) : (s.answerRevoke a k).mem = s.mem := by simp [State.answerRevoke]

theorem memWf_answerForward (hs : memWf s.mem = true) (a k : Nat) : memWf (s.answerForward a k).mem = true := by
  simp [State.answerForward, memWf_takeForward, hs]

theorem memWf_honour (hs : memWf s.mem = true) (a k : Nat) : memWf (s.honour a k).mem = true := by
  unfold State.honour
  grind -ring -order -lia -linarith [memWf_answerForward, State.setL1_mem, State.answerRevoke_mem]

@[simp] theorem State.unpend_mem (a k : Nat) : (s.unpend a k).mem = s.mem := rfl

@[simp] theorem State.dropPending_mem (a k : Nat) (er : MemErr) : (s.dropPending a k er).mem = s.mem := by
  simp [State.dropPending]

theorem memWf_goFar (hs : memWf s.mem = true) (a k : Nat) : memWf (s.goFar a k).mem = true := by
  unfold State.goFar
  grind -ring -order -lia -linarith [memWf_farTouch, State.storesDone_mem, State.unpend_mem, State.request_mem,
    State.modThr_mem, foldl_memWf]

theorem memWf_allocUnit (hs : memWf s.mem = true) (a k : Nat) : memWf (s.allocUnit a k).mem = true := by
  unfold State.allocUnit
  grind -ring -order -lia -linarith [memWf_allocLine, foldl_memWf]

theorem outWf_execRegistrationGrant (hs : memWf s.mem = true) (m : Nat) : OutWf (execRegistrationGrant m s) := by
  unfold execRegistrationGrant
  grind -ring -order -lia -linarith [memWf_honour, memWf_allocUnit, memWf_goFar, State.unsend_mem, State.takeGrant_mem,
    State.dropPending_mem, OutWf]

theorem outWf_execForwardedLoad (hs : memWf s.mem = true) (m : Nat) : OutWf (execForwardedLoad m s) := by
  unfold execForwardedLoad
  grind -ring -order -lia -linarith [memWf_answerForward, State.unsend_mem, State.setL1_mem, OutWf]

theorem outWf_execRevocation (hs : memWf s.mem = true) (m : Nat) : OutWf (execRevocation m s) := by
  unfold execRevocation
  grind -ring -order -lia -linarith [State.unsend_mem, State.setL1_mem, State.answerRevoke_mem, OutWf]

theorem outWf_execWriteBack (hs : memWf s.mem = true) (m : Nat) : OutWf (execWriteBack m s) := by
  unfold execWriteBack
  grind -ring -order -lia -linarith [memWf_takeForward, memWf_drainAll, memWf_takeWriteBack, State.unsend_mem, OutWf]

theorem outWf_execStoreAck (hs : memWf s.mem = true) (m : Nat) : OutWf (execStoreAck m s) := by
  unfold execStoreAck
  (repeat' split) <;> simp [hs]

theorem memWf_poisonUnit (hs : memWf s.mem = true) (k : Nat) : memWf (s.poisonUnit k).mem = true := by
  unfold State.poisonUnit
  grind -ring -order -lia -linarith [foldl_memWf]

theorem outWf_execOwnerLost (hs : memWf s.mem = true) (k : Nat) : OutWf (execOwnerLost k s) := by
  unfold execOwnerLost
  grind -ring -order -lia -linarith [memWf_poisonUnit, memWf_serve, State.setEntry_mem, State.setUnit_mem,
    State.send_mem, State.logErr_mem, foldl_memWf, OutWf]

theorem outWf_execOwnerLostNotice (hs : memWf s.mem = true) (m : Nat) : OutWf (execOwnerLostNotice m s) := by
  unfold execOwnerLostNotice
  grind -ring -order -lia -linarith [State.unsend_mem, State.logErr_mem, State.cancelFills_mem, State.setL1_mem,
    OutWf]

@[simp] theorem State.failed_mem (r : HomeReq) (er : MemErr) : (s.failed r er).mem = s.mem := by
  unfold State.failed
  (repeat' split) <;> simp

@[simp] theorem State.turnAway_mem (r : HomeReq) : (s.turnAway r).mem = s.mem := by
  unfold State.turnAway
  split <;> simp

theorem outWf_reqEvent (hs : memWf s.mem = true) (m : Nat) (kind : Req → Bool) : OutWf (s.reqEvent m kind) := by
  unfold State.reqEvent
  (repeat' split) <;> simp [memWf_arrive, hs]

theorem outWf_execRegistrationRequest (hs : memWf s.mem = true) (m : Nat) : OutWf (execRegistrationRequest m s) :=
  outWf_reqEvent hs ..

theorem outWf_execHomeFill (hs : memWf s.mem = true) (m : Nat) : OutWf (execHomeFill m s) :=
  outWf_reqEvent hs ..

theorem outWf_execFarStore (hs : memWf s.mem = true) (m : Nat) : OutWf (execFarStore m s) :=
  outWf_reqEvent hs ..

theorem outWf_execFarAtomic (hs : memWf s.mem = true) (m : Nat) : OutWf (execFarAtomic m s) :=
  outWf_reqEvent hs ..

theorem outWf_execMcasLock (hs : memWf s.mem = true) (m : Nat) : OutWf (execMcasLock m s) :=
  outWf_reqEvent hs ..

@[simp] theorem State.failReq_mem (r : HomeReq) : (s.failReq r).mem = s.mem := by simp [State.failReq]

@[simp] theorem State.markTimed_mem (sel : HomeReq → Bool) : (s.markTimed sel).mem = s.mem := rfl

theorem outWf_execRemoteTimeout (hs : memWf s.mem = true) (m : Nat) : OutWf (execRemoteTimeout m s) := by
  unfold execRemoteTimeout
  (repeat' split) <;> simp [hs]

theorem outWf_execLateAnswer (hs : memWf s.mem = true) (m : Nat) : OutWf (execLateAnswer m s) := by
  unfold execLateAnswer
  split <;> simp [hs]

theorem outWf_execLinkDown (hs : memWf s.mem = true) (port : Nat) : OutWf (execLinkDown port s) := by
  unfold execLinkDown
  grind -ring -order -lia -linarith [State.failReq_mem, State.markTimed_mem, foldl_mem, OutWf]

theorem outWf_execPageWalk (hs : memWf s.mem = true) (agent : Nat) (ctx : BitVec 12) (va : Word) :
    OutWf (execPageWalk agent ctx va s) := by
  unfold execPageWalk
  grind -ring -order -lia -linarith [memWf_walkRead, State.setFront_mem, State.useFree_mem, OutWf]

theorem memWf_fetchFaultAt (hs : memWf s.mem = true) (v : View) (level : Nat) :
    memWf (s.fetchFaultAt v level).mem = true :=
  memWf_pageFaultV hs ..

theorem outWf_execInstructionCacheFill (hs : memWf s.mem = true) (a : Actor) (line : Word) :
    OutWf (execInstructionCacheFill a line s) := by
  unfold execInstructionCacheFill
  grind -ring -order -lia -linarith [memWf_xlatPage, memWf_mergeOver, memWf_fetchFaultAt, State.cacheWords_mem,
    State.haltV_mem, OutWf]

@[simp] theorem State.noteLasting_mem (what : Nat) (x : Word) (pa : Option Nat) :
    (s.noteLasting what x pa).mem = s.mem := by
  unfold State.noteLasting
  grind -ring -order -lia -linarith [State.logErr_mem, foldl_mem]

theorem outWf_execSoftError (hs : memWf s.mem = true) (site : SoftSite) : OutWf (execSoftError site s) := by
  unfold execSoftError
  grind -ring -order -lia -linarith [State.useFree_mem, State.noteLasting_mem, setPoison_mem, State.setL1_mem,
    State.cancelFills_mem, State.modThr_mem, State.setArr_mem, OutWf]

/-! ### Queues, continuations, joins and events -/

theorem resWf_tAddr {v : View} {w : Want} {va : Word} {n align : Nat} {k : State → List Piece → Res}
    (hs : memWf s.mem = true) (hk : ∀ t ps, memWf t.mem = true → ResWf (k t ps)) :
    ResWf (s.tAddr v w va n align k) := by
  unfold State.tAddr
  grind -ring -order -lia -linarith [memWf_deviceAddr, ResWf]

theorem resWf_tPlace {v : View} {w : Want} {va : Word} {n align : Nat} {k : State → List Piece → Res}
    (hs : memWf s.mem = true) (hk : ∀ t ps, memWf t.mem = true → ResWf (k t ps)) :
    ResWf (s.tPlace v w va n align k) := by
  unfold State.tPlace
  grind -ring -order -lia -linarith [resWf_tAddr, State.noteRemote_mem, ResWf]

theorem resWf_await (hs : memWf s.mem = true) (v : View) (ps : List Piece) : ResWf (s.await v ps) := by
  simp [State.await, hs]

theorem resWf_whenFree {v : View} {ps : List Piece} {k : State → Res} (hs : memWf s.mem = true)
    (hk : ∀ t, memWf t.mem = true → ResWf (k t)) : ResWf (s.whenFree v ps k) := by
  unfold State.whenFree
  grind -ring -order -lia -linarith [resWf_await, memWf_recallAt]

theorem resWf_tRead {v : View} {ps : List Piece} {n : Nat} {va : Word} {k : State → List Byte → Res}
    (hs : memWf s.mem = true) (hk : ∀ t bs, memWf t.mem = true → ResWf (k t bs)) : ResWf (s.tRead v ps n va k) := by
  unfold State.tRead
  grind -ring -order -lia -linarith [memWf_readAt, State.stirReads_mem, State.noteRemote_mem, ResWf]

theorem resWf_tQueue {v : View} {va : Word} {k : State → QDesc → List Piece → Res} (hs : memWf s.mem = true)
    (hk : ∀ t q ps, memWf t.mem = true → ResWf (k t q ps)) : ResWf (s.tQueue v va k) := by
  unfold State.tQueue
  grind -ring -order -lia -linarith [resWf_tAddr, resWf_tRead, ResWf]

theorem memWf_putFieldW (hs : memWf s.mem = true) (ps : List Piece) (off n x : Nat) :
    memWf (s.putFieldW ps off n x).mem = true :=
  memWf_devWrite hs ..

@[simp] theorem State.putS_mem (a : Actor) (n : Nat) (x : Word) : (s.putS a n x).mem = s.mem := by simp [State.putS]

theorem resWf_tRelease {v : View} {k : State → Res} (hs : memWf s.mem = true)
    (hk : ∀ t, memWf t.mem = true → ResWf (k t)) : ResWf (s.tRelease v k) := by
  unfold State.tRelease
  grind -ring -order -lia -linarith [goWf_release, GoWf, ResWf]

theorem exceptWf_onceReady (hs : memWf s.mem = true) (u : Uses) (safe : Bool) :
    ExceptWf OutWf (fun r => memWf r.1.mem = true) (s.onceReady u safe) := by
  have ha := exceptWf_admits hs { u with safe := safe }
  unfold State.onceReady
  split
  · simp_all
  · rename_i t v ex heq
    rw [heq] at ha
    have hl := optWf_laneReady (s := t) ha v
    grind -ring -order -lia -linarith [State.retire_mem, OutWf, OptWf, ExceptWf]

theorem outWf_resFinish {r : Res} (hr : ResWf r) (v : View) (ex : Mask) (p : Pre) : OutWf (r.finish v ex p) := by
  cases r with
  | wait s => exact hr
  | halt s h => simpa [Res.finish] using hr
  | fault s w l va =>
    simp only [Res.finish]
    split <;> simp [memWf_pageFaultV, show memWf s.mem = true from hr]
  | done s => simpa [Res.finish] using hr

theorem outWf_once {u : Uses} {safe : Bool} {body : State → View → Mask → Res} (hs : memWf s.mem = true)
    (hk : ∀ t v ex, memWf t.mem = true → ResWf (body t v ex)) : OutWf (s.once u safe body) := by
  unfold State.once
  grind -ring -order -lia -linarith [exceptWf_onceReady, outWf_resFinish, ExceptWf]

theorem memWf_pushAt (hs : memWf s.mem = true) (qps slot : List Piece) (hook : Option (List Piece)) (q : QDesc)
    (item : List Byte) (side : Option (Word × Option Nat)) :
    memWf (s.pushAt qps slot hook q item side).mem = true := by
  unfold State.pushAt
  grind -ring -order -lia -linarith [memWf_writePieces, memWf_putFieldW, memWf_devWrite]

theorem resWf_tHook {v : View} {q : QDesc} {k : State → Option (List Piece) → Res} (hs : memWf s.mem = true)
    (hk : ∀ t hook, memWf t.mem = true → ResWf (k t hook)) : ResWf (s.tHook v q k) := by
  unfold State.tHook
  grind -ring -order -lia -linarith [resWf_tPlace]

theorem outWf_execQpush (hs : memWf s.mem = true) (x : X1) : OutWf (execQpush x s) := by
  refine outWf_once hs fun s v _ hs => resWf_tQueue hs fun s q qps hs => ?_
  dsimp only
  split
  · exact hs
  · split
    · exact resWf_tRelease hs fun s hs => resWf_whenFree hs fun s hs => by simpa using hs
    · refine resWf_tPlace hs fun s slot hs => resWf_tHook hs fun s hook hs => ?_
      have act {s : State} (hs : memWf s.mem = true) (bs : List Byte) : ResWf (s.tRelease v fun s =>
          s.whenFree v (qps ++ slot ++ hook.getD []) fun s => .done
            (((s.pushAt qps slot hook q bs none).putS v.a (x.sb.toNat + 2) 0).noSpin v)) :=
        resWf_tRelease hs fun s hs => resWf_whenFree hs fun s hs => by simpa using memWf_pushAt hs ..
      split
      · exact act hs _
      · exact resWf_tAddr hs fun s src hs => resWf_tRead hs fun s bs hs => act hs bs

theorem outWf_execSpawn (hs : memWf s.mem = true) (x : X1) : OutWf (execSpawn x s) := by
  refine outWf_once hs fun s v _ hs => resWf_tQueue hs fun s q qps hs => ?_
  split
  · exact hs
  · split
    · exact hs
    · split
      · exact hs
      · refine resWf_tAddr hs fun s src hs => resWf_tRead hs fun s bs hs => ?_
        split
        · exact hs
        · split
          · exact resWf_tRelease hs fun s hs => resWf_whenFree hs fun s hs => by simpa using hs
          · exact resWf_tPlace hs fun s slot hs => resWf_tHook hs fun s hook hs => resWf_tRelease hs fun s hs =>
              resWf_whenFree hs fun s hs => by simpa using memWf_pushAt hs ..

theorem outWf_execQpop (hs : memWf s.mem = true) (x : X1) : OutWf (execQpop x s) := by
  unfold execQpop
  grind -ring -order -lia -linarith [outWf_once, resWf_tQueue, resWf_whenFree, memWf_putFieldW, State.noSpin_mem,
    State.fly_mem, State.bump_mem, OutWf, ResWf]

theorem outWf_execQfree (hs : memWf s.mem = true) (x : X1) : OutWf (execQfree x s) := by
  unfold execQfree
  grind -ring -order -lia -linarith [outWf_once, resWf_tQueue, resWf_whenFree, memWf_putFieldW, State.noSpin_mem,
    ResWf]

theorem memWf_eAddr (hs : memWf s.mem = true) (e : Env) (w : Want) (va : Word) (n align : Nat) :
    memWf (s.eAddr e w va n align).1.mem = true := by
  unfold State.eAddr
  grind -ring -order -lia -linarith [memWf_xlatVirt, memWf_readAt, memWf_recallAt, State.stirReads_mem,
    State.stirPieces_mem, State.noteRemote_mem, State.noteWalk_mem]

theorem memWf_eQueue (hs : memWf s.mem = true) (e : Env) (va : Word) : memWf (s.eQueue e va).1.mem = true := by
  unfold State.eQueue
  grind -ring -order -lia -linarith [memWf_eAddr]

theorem memWf_ePush (hs : memWf s.mem = true) (e : Env) (q : QDesc) (qps : List Piece) (item : List Byte)
    (side : Option (Word × Option Nat)) : memWf (s.ePush e q qps item side).1.mem = true := by
  unfold State.ePush
  grind -ring -order -lia -linarith [memWf_eAddr, memWf_pushAt]

theorem memWf_ePushRec (hs : memWf s.mem = true) (e : Env) (cont queue : Word) :
    memWf (s.ePushRec e cont queue).1.mem = true := by
  unfold State.ePushRec
  grind -ring -order -lia -linarith [memWf_eQueue, memWf_eAddr, memWf_ePush]

theorem memWf_postOne (hs : memWf s.mem = true) (p : Post) : memWf (s.postOne p).mem = true := by
  unfold State.postOne
  grind -ring -order -lia -linarith [memWf_eQueue, memWf_ePush, memWf_putFieldW, State.logErr_mem]

theorem memWf_flushPosts (hs : memWf s.mem = true) : memWf s.flushPosts.mem = true :=
  foldl_memWf _ hs fun _ _ ht => memWf_postOne ht ..

@[simp] theorem State.post_mem (p : Post) : (s.post p).mem = s.mem := rfl

theorem outWf_execEvpost (hs : memWf s.mem = true) (x : X1) : OutWf (execEvpost x s) := by
  unfold execEvpost
  grind -ring -order -lia -linarith [outWf_once, resWf_tRelease, resWf_tQueue, resWf_whenFree, memWf_putFieldW,
    resWf_tPlace, resWf_tHook, memWf_pushAt, State.putS_mem, State.noSpin_mem, ResWf]

theorem memWf_startCont (hs : memWf s.mem = true) (e : Env) (grid : Nat) (counter cont queue : Word) (group : Bool) :
    memWf (s.startCont e grid counter cont queue group).mem = true := by
  unfold State.startCont
  grind -ring -order -lia -linarith [memWf_ePushRec, State.post_mem]

theorem memWf_countDown (hs : memWf s.mem = true) (e : Env) (grid : Nat) (va : Word) (ps : List Piece) (n : Nat) :
    memWf (s.countDown e grid va ps n).1.mem = true := by
  unfold State.countDown
  grind -ring -order -lia -linarith [memWf_putFieldW, memWf_startCont]

theorem outWf_execJdec (hs : memWf s.mem = true) (x : X1) : OutWf (execJdec x s) := by
  unfold execJdec
  grind -ring -order -lia -linarith [outWf_once, resWf_tAddr, resWf_tRead, resWf_tRelease, resWf_whenFree,
    memWf_countDown, State.noSpin_mem, ResWf]

theorem outWf_retry (hs : memWf s.mem = true) (n : Nat) (group : Bool) : OutWf (s.retry n group) := by
  unfold State.retry
  (repeat' split) <;> simp [memWf_startCont, hs]

theorem memWf_dstField (hs : memWf s.mem = true) (off : Nat) : memWf (s.dstField off).1.mem = true :=
  memWf_readOver hs ..

theorem resWf_tDst {off : Nat} {k : State → Word → Res} (hs : memWf s.mem = true)
    (hk : ∀ t w, memWf t.mem = true → ResWf (k t w)) : ResWf (s.tDst off k) := by
  unfold State.tDst
  grind -ring -order -lia -linarith [memWf_dstField, ResWf]

theorem memWf_tookFrom (hs : memWf s.mem = true) (qps : List Piece) (q : QDesc) (k : Nat) :
    memWf (s.tookFrom qps q k).mem = true := by
  unfold State.tookFrom
  grind -ring -order -lia -linarith [memWf_putFieldW]

theorem memWf_poolTake (hs : memWf s.mem = true) (e : Env) (q : QDesc) (qps : List Piece) :
    memWf (s.poolTake e q qps).1.mem = true := by
  unfold State.poolTake
  grind -ring -order -lia -linarith [memWf_eAddr, memWf_tookFrom]

theorem resWf_tItems {v : View} {q : QDesc} {n : Nat} {acc : List Word} {k : State → List Word → Res}
    (hs : memWf s.mem = true) (hk : ∀ t l, memWf t.mem = true → ResWf (k t l)) : ResWf (s.tItems v q n acc k) := by
  induction n generalizing s acc with
  | zero => exact hk _ _ hs
  | succ n ih => exact resWf_tAddr hs fun t ps ht => resWf_tRead ht fun t b ht => ih ht

theorem outWf_execPgtake (hs : memWf s.mem = true) (x : X1) : OutWf (execPgtake x s) := by
  unfold execPgtake
  grind -ring -order -lia -linarith [outWf_once, resWf_tDst, resWf_tQueue, resWf_tItems, resWf_whenFree,
    memWf_tookFrom, State.fly_mem, State.bump_mem, OutWf, ResWf]

theorem resWf_mapLeaf {v : View} {va : Word} {size : Nat} {pte : Word} {tables : List (Nat × Word)} {slot : Nat}
    {took : State → State} {finish : State → Nat → Option Word → Res} (hs : memWf s.mem = true)
    (ht : ∀ t, memWf t.mem = true → memWf (took t).mem = true)
    (hf : ∀ t st e, memWf t.mem = true → ResWf (finish t st e)) :
    ResWf (s.mapLeaf v va size pte tables slot took finish) := by
  refine resWf_whenFree hs fun s hs => ?_
  split
  · exact hs
  · exact hs
  · exact hf _ _ _ hs
  · exact hf _ _ _ (foldl_memWf _ (foldl_memWf _ (ht _ hs) fun _ _ h => memWf_devWrite h ..) fun _ _ h =>
      memWf_devWrite h ..)

theorem outWf_execPgmap (hs : memWf s.mem = true) (x : X1) : OutWf (execPgmap x s) := by
  refine outWf_once hs fun s v _ hs => ?_
  have hw := memWf_walkRead hs v.g.ctx (v.t.regs.getS x.sb.toNat)
  dsimp only
  split
  · exact hs
  · split
    · exact hs
    · split
      · exact hw
      · have finish {s : State} (hs : memWf s.mem = true) (st : Nat) (found : Option Word) : ResWf (.done
            (((match found with | some e => s.putS v.a (x.sb.toNat + 1) e | none => s).putS v.a (x.sb.toNat + 3)
              (BitVec.ofNat 64 st)).noSpin v)) := by
          cases found <;> simpa using hs
        refine resWf_tRelease hw fun s hs => ?_
        split
        · exact hs
        · exact finish hs 2 (some _)
        · exact resWf_mapLeaf hs (fun _ ht => ht) fun _ st e ht => finish ht st e
        · refine resWf_tDst hs fun s pool hs => ?_
          split
          · exact finish hs 3 none
          · refine resWf_tQueue hs fun s q qps hs => ?_
            split
            · exact finish hs 3 none
            · exact resWf_tItems hs fun s fs hs => resWf_whenFree hs fun s hs => resWf_mapLeaf hs
                (fun _ ht => memWf_tookFrom ht ..) fun _ st e ht => finish ht st e

theorem outWf_execPgunmap (hs : memWf s.mem = true) (x : X1) : OutWf (execPgunmap x s) := by
  refine outWf_once hs fun s v _ hs => ?_
  have hw := memWf_walkRead hs v.g.ctx (v.t.regs.getS x.sb.toNat)
  dsimp only
  split
  · simpa using hs
  · split
    · exact hw
    · split
      · exact hw
      · simpa using hw
      · simpa using hw
      · refine resWf_whenFree hw fun s hs => ?_
        split
        · exact hs
        · split
          · simpa using hs
          · grind -ring -order -lia -linarith [foldl_memWf, memWf_devWrite, State.putS_mem, State.noSpin_mem, ResWf]

@[simp] theorem State.tlbDrop_mem (ctxOk : BitVec 12 → Bool) (hit : Nat → Nat → Bool) :
    (s.tlbDrop ctxOk hit).mem = s.mem :=
  rfl

theorem outWf_execTlbinv (hs : memWf s.mem = true) (x : X1) : OutWf (execTlbinv x s) := by
  unfold execTlbinv
  grind -ring -order -lia -linarith [outWf_once, resWf_tRelease, State.tlbDrop_mem, ResWf]

@[simp] theorem State.resumeCopy_mem (u : Nat) : (s.resumeCopy u).mem = s.mem := rfl

theorem outWf_execRets (hs : memWf s.mem = true) (p : Pre) : OutWf (execRets p s) := by
  unfold execRets
  grind -ring -order -lia -linarith [outWf_issue, memWf_rets, State.retire_mem, State.haltV_mem, State.stirRead_mem,
    State.issued_mem, State.resumeCopy_mem, OutWf]

theorem outWf_execPclr (hs : memWf s.mem = true) (x : X1) : OutWf (execPclr x s) := by
  unfold execPclr
  grind -ring -order -lia -linarith [outWf_once, resWf_tAddr, resWf_tRelease, resWf_whenFree, memWf_farTouch,
    memWf_recall, memWf_devWrite, State.noteRemote_mem, State.putS_mem, State.noSpin_mem, ResWf]

theorem outWf_execOrclm (hs : memWf s.mem = true) (x : X1) : OutWf (execOrclm x s) := by
  unfold execOrclm
  grind -ring -order -lia -linarith [outWf_once, resWf_tAddr, resWf_tRelease, State.noteRemote_mem, State.putS_mem,
    State.setEntry_mem, ResWf]

theorem outWf_execHaltg (hs : memWf s.mem = true) (x : X1) : OutWf (execHaltg x s) :=
  outWf_once hs fun _ _ _ ht => by
    simp [resWf_tRelease, ht]

/-! ### Narrow and scaled formats -/

@[simp] theorem State.raiseSat_mem (grid slot src team : Nat) (pc : Word) (k : Nat) :
    (s.raiseSat grid slot src team pc k).mem = s.mem := by
  induction k generalizing s with
  | zero => rfl
  | succ k ih =>
    unfold State.raiseSat
    dsimp only
    (repeat' split) <;> simp [ih]

theorem memWf_spPut (hs : memWf s.mem = true) (win : List Nat) (xs : List (Nat × Byte)) :
    memWf (s.spPut win xs).1.mem = true := by
  unfold State.spPut
  grind -ring -order -lia -linarith [State.setArr_mem, foldl_fst_memWf]

@[simp] theorem State.holdSlabs_mem (win : List Nat) (rs : List Region) (till : Nat) :
    (s.holdSlabs win rs till).mem = s.mem :=
  foldl_mem _ _ fun _ _ => State.setArr_mem ..

theorem blockWf_convBlocks {body : State → Nat → BlockRes} (hs : memWf s.mem = true)
    (hk : ∀ t k, memWf t.mem = true → BlockWf (body t k)) (ks : List Nat) : BlockWf (convBlocks body ks s) := by
  induction ks generalizing s with
  | nil => exact hs
  | cons k ks ih =>
    have hb := hk s k hs
    unfold convBlocks
    split <;> simp_all

theorem blockWf_convRead (hs : memWf s.mem = true) (c : Conv) (off n : Nat) (k : BlockRes) (hk : BlockWf k) :
    BlockWf (s.convRead c off n k) := by
  unfold State.convRead
  grind -ring -order -lia -linarith [BlockWf]

theorem memWf_convWrite (hs : memWf s.mem = true) (v : View) (c : Conv) (rmw : Bool) (xs : List (Nat × Byte)) :
    memWf (s.convWrite v c rmw xs).mem = true := by
  unfold State.convWrite
  grind -ring -order -lia -linarith [memWf_spPut, State.modThr_mem]

theorem memWf_convWords (hs : memWf s.mem = true) (v : View) (c : Conv) (rmw : Bool) (xs : List (Nat × Byte)) :
    memWf (s.convWords v c rmw xs).mem = true :=
  foldl_memWf _ hs fun _ _ ht => memWf_convWrite ht ..

theorem blockWf_mxsclBlock (hs : memWf s.mem = true) (v : View) (c : Conv) (k : Nat) :
    BlockWf (mxsclBlock v c s k) := by
  simp [mxsclBlock, blockWf_convRead, memWf_convWrite, hs]

theorem blockWf_convScale {c : Conv} {k : Nat} {body : Nat → BlockRes} (hs : memWf s.mem = true)
    (hk : ∀ x, BlockWf (body x)) : BlockWf (s.convScale c k body) := by
  unfold State.convScale
  grind -ring -order -lia -linarith [blockWf_convRead, BlockWf]

theorem blockWf_qcvtBlock (hs : memWf s.mem = true) (v : View) (c : Conv) (k : Nat) :
    BlockWf (qcvtBlock v c s k) := by
  unfold qcvtBlock
  grind -ring -order -lia -linarith [blockWf_convScale, blockWf_convRead, memWf_convWords, State.raiseSat_mem,
    BlockWf]

theorem blockWf_dqcvtBlock (hs : memWf s.mem = true) (v : View) (c : Conv) (k : Nat) :
    BlockWf (dqcvtBlock v c s k) := by
  unfold dqcvtBlock
  grind -ring -order -lia -linarith [blockWf_convScale, memWf_convWrite, foldl_memWf, BlockWf]

theorem outWf_conv {x : X1} {xr slot : BitVec 3} {regions : Conv → List Region} {useC : Bool} {cyc : Nat → Nat}
    {body : View → Conv → State → Nat → BlockRes} (hs : memWf s.mem = true)
    (hk : ∀ v c t k, memWf t.mem = true → BlockWf (body v c t k)) :
    OutWf (s.conv x xr slot regions useC cyc body) := by
  refine outWf_issue hs fun s v ex hs => ?_
  have hl := optWf_laneReady hs v
  split
  · simpa using hs
  · split
    · exact hs
    · split
      · exact hs
      · rename_i t heq
        rw [heq] at hl
        have ht : memWf t.bump.mem = true := hl
        have hb (c : Conv) := blockWf_convBlocks ht (hk v c)
        grind -ring -order -lia -linarith [State.haltV_mem, State.retire_mem, State.noSpin_mem, State.bkconf_mem,
          State.modCore_mem, State.holdSlabs_mem, State.modThr_mem, State.hold_mem, OutWf, BlockWf, OptWf]

theorem outWf_execMxscl (hs : memWf s.mem = true) (x : X1) (xr slot : BitVec 3) : OutWf (execMxscl x xr slot s) := by
  unfold execMxscl
  grind -ring -order -lia -linarith [outWf_conv, blockWf_mxsclBlock]

theorem outWf_execQcvt (hs : memWf s.mem = true) (x : X1) (xr slot : BitVec 3) : OutWf (execQcvt x xr slot s) := by
  unfold execQcvt
  grind -ring -order -lia -linarith [outWf_conv, blockWf_qcvtBlock]

theorem outWf_execDqcvt (hs : memWf s.mem = true) (x : X1) (xr slot : BitVec 3) : OutWf (execDqcvt x xr slot s) := by
  unfold execDqcvt
  grind -ring -order -lia -linarith [outWf_conv, blockWf_dqcvtBlock]

/-! ### Bulk copies -/

theorem outWf_enqueue (hs : memWf s.mem = true) (v : View) (xp : XReg) (j : Job) (mask : Nat) (stall : BitVec 4) :
    OutWf (s.enqueue v xp j mask stall) := by
  unfold State.enqueue
  grind -ring -order -lia -linarith [State.haltV_mem, State.modCore_mem, State.bump_mem, State.fly_mem,
    State.retire_mem, OutWf]

theorem outWf_execBcopy (hs : memWf s.mem = true) (x : X1) (xr slot1 slot2 : BitVec 3) (conv : CopyConv)
    (mask : BitVec 8) : OutWf (execBcopy x xr slot1 slot2 conv mask s) := by
  unfold execBcopy
  split
  · exact hs
  · refine outWf_issue hs fun s v ex hs => ?_
    split
    · simpa using hs
    · split
      · exact hs
      · rename_i t v heq
        have ht : memWf t.mem = true := (optWf_ordered hs _).of_some heq
        dsimp only
        split
        · simpa using ht
        · split
          · simpa using ht
          · split
            · simpa using ht
            · split
              · rename_i heq
                simpa using memWf_of_fst (memWf_xlatReg ht ..) heq
              · rename_i heq
                exact memWf_pageFaultV (memWf_of_fst (memWf_xlatReg ht ..) heq) ..
              · rename_i heq
                have hx := memWf_of_fst (memWf_xlatReg ht ..) heq
                split
                · rename_i heq
                  exact (exceptWf_readOwn hx ..).of_error heq
                · rename_i u heq
                  have hu : memWf u.mem = true := (exceptWf_readOwn hx ..).of_ok heq
                  split
                  · simpa using hu
                  · split
                    · simpa using hu
                    · exact outWf_enqueue hu ..

theorem outWf_execBfill (hs : memWf s.mem = true) (x : X1) (xr : BitVec 3) (sz : FillSz) :
    OutWf (execBfill x xr sz s) := by
  unfold execBfill
  grind -ring -order -lia -linarith [outWf_issue, outWf_enqueue, State.retire_mem, State.haltV_mem, OutWf]

theorem outWf_execWaitc (hs : memWf s.mem = true) (x : X1) (path : Path) : OutWf (execWaitc x path s) := by
  unfold execWaitc
  grind -ring -order -lia -linarith [outWf_issue, State.retire_mem, State.setThr_mem, State.acquire_mem, OutWf]

theorem outWf_execIcnt (hs : memWf s.mem = true) (x : X1) (path : Path) : OutWf (execIcnt x path s) :=
  outWf_issue hs fun _ _ _ ht => by
    simp [ht]

theorem outWf_execSlbq (hs : memWf s.mem = true) (x : X1) (xr : BitVec 3) : OutWf (execSlbq x xr s) := by
  unfold execSlbq
  grind -ring -order -lia -linarith [outWf_issue, State.retire_mem, State.haltV_mem, State.done_mem, OutWf]

theorem memWf_endJob (hs : memWf s.mem = true) (core : Nat) (j : Job) : memWf (s.endJob core j).mem = true := by
  unfold State.endJob
  grind -ring -order -lia -linarith [memWf_flip, State.modCore_mem, State.modGang_mem, State.modThr_mem, foldl_memWf]

theorem memWf_haltJob (hs : memWf s.mem = true) (core : Nat) (j : Job) (c : Cause2) (addr : Word) :
    memWf (s.haltJob core j c addr).mem = true := by
  simp [State.haltJob, memWf_endJob, hs]

@[simp] theorem State.setJob_mem (core : Nat) (j : Job) : (s.setJob core j).mem = s.mem := rfl

theorem memWf_takeSlabs (hs : memWf s.mem = true) (own : Owner) (xs : List (Nat × Nat × Nat)) (n : Nat) :
    memWf (s.takeSlabs own xs n).1.mem = true := by
  induction xs generalizing s n with
  | nil => exact hs
  | cons x xs ih =>
    unfold State.takeSlabs
    dsimp only
    (repeat' split) <;> simp [memWf_flip, ih, hs]

theorem outWf_execCopyStart (hs : memWf s.mem = true) (core : Nat) : OutWf (execCopyStart core s) := by
  unfold execCopyStart
  grind -ring -order -lia -linarith [memWf_takeSlabs, memWf_haltJob, State.setJob_mem, OutWf]

theorem memWf_jobAddr (hs : memWf s.mem = true) (core : Nat) (j : Job) (w : Want) (off : Int) (n : Nat) :
    memWf (s.jobAddr core j w off n).1.mem = true := by
  unfold State.jobAddr
  grind -ring -order -lia -linarith [memWf_xlatReg, memWf_readAt, State.stirReads_mem, State.stirPieces_mem]

@[simp] theorem State.noteSource_mem (j : Job) (va : Word) (pa : Option Nat) :
    (s.noteSource j va pa).mem = s.mem := by
  unfold State.noteSource
  split <;> rfl

theorem memWf_jobGet (hs : memWf s.mem = true) (core : Nat) (j : Job) (off : Int) (n : Nat) :
    memWf (s.jobGet core j off n).1.mem = true := by
  unfold State.jobGet
  grind -ring -order -lia -linarith [memWf_jobAddr, State.noteSource_mem]

@[simp] theorem State.notePad_mem (j : Job) (off : Nat) (bs : List (Byte × Bool)) :
    (s.notePad j off bs).mem = s.mem := by
  unfold State.notePad
  split <;> rfl

@[simp] theorem State.jobPost_mem (j : Job) (remote : Bool) (va : Word) : (s.jobPost j remote va).mem = s.mem := by
  simp [State.jobPost]

theorem memWf_putWord (hs : memWf s.mem = true) (j : Job) (xs : List GlobByte) :
    memWf (State.putWord j s xs).mem = true := by
  unfold State.putWord
  grind -ring -order -lia -linarith [memWf_recall, memWf_devWrite, State.jobPost_mem, setPoison_mem, foldl_memWf]

theorem memWf_putGlobal (hs : memWf s.mem = true) (j : Job) (xs : List GlobByte) :
    memWf (s.putGlobal j xs).mem = true := by
  unfold State.putGlobal
  grind -ring -order -lia -linarith [memWf_putWord, foldl_memWf]

theorem memWf_engWrite (hs : memWf s.mem = true) (w : List Nat) (xs : List (Nat × Byte × Bool)) :
    memWf (State.engWrite w s xs).mem = true := by
  unfold State.engWrite
  grind -ring -order -lia -linarith [memWf_spPut, State.setArr_mem, foldl_mem]

theorem memWf_engPut (hs : memWf s.mem = true) (wins : List (List Nat)) (xs : List (Nat × Byte × Bool)) :
    memWf (s.engPut wins xs).mem = true := by
  unfold State.engPut
  grind -ring -order -lia -linarith [memWf_engWrite, foldl_memWf]

@[simp] theorem State.pauseJob_mem (core : Nat) (j : Job) (level : Nat) (va : Word) :
    (s.pauseJob core j level va).mem = s.mem :=
  rfl

theorem memWf_jobStop (hs : memWf s.mem = true) (core : Nat) (j : Job) (e : GAcc) :
    memWf (s.jobStop core j e).mem = true := by
  unfold State.jobStop
  split <;> simp [memWf_haltJob, hs]

@[simp] theorem Beat.moved_mem (b : Beat) (gw : List GlobByte) (pw : List (Nat × Byte × Bool)) :
    (b.moved s gw pw).1.s.mem = s.mem := rfl

@[simp] theorem Beat.stopped_mem (b : Beat) (e : GAcc) : (b.stopped s e).1.s.mem = s.mem := rfl

theorem exceptWf_beatPut {b : Beat} (hs : memWf b.s.mem = true) (core : Nat) (off : Int) (bs : List (Byte × Bool)) :
    ExceptWf (fun r => memWf r.1.mem = true) (fun r => memWf r.1.mem = true) (b.put core off bs) := by
  unfold Beat.put
  grind -ring -order -lia -linarith [memWf_jobAddr, ExceptWf]

theorem memWf_beatRaw {b : Beat} (hs : memWf b.s.mem = true) (core : Nat) : memWf (b.raw core).1.s.mem = true := by
  unfold Beat.raw
  grind -ring -order -lia -linarith [exceptWf_beatPut, memWf_jobGet, Beat.moved_mem, State.notePad_mem,
    Beat.stopped_mem, ExceptWf]

theorem memWf_beatQntIn {b : Beat} (hs : memWf b.s.mem = true) (core : Nat) (cs fs : Slot) :
    memWf (b.qntIn core cs fs).1.s.mem = true := by
  unfold Beat.qntIn
  grind -ring -order -lia -linarith [memWf_jobGet, Beat.stopped_mem, Beat.moved_mem, State.raiseSat_mem]

theorem memWf_beatQntOut {b : Beat} (hs : memWf b.s.mem = true) (core : Nat) (cs fs : Slot) :
    memWf (b.qntOut core cs fs).1.s.mem = true := by
  unfold Beat.qntOut
  extract_lets j e first floats d done mine ws put
  have hput : ExceptWf (fun r => memWf r.1.mem = true) (fun r => memWf r.1.mem = true) (ws.foldl put (.ok (b.s,
    []))) := by
    refine foldl_keeps ws hs fun acc w ha => ?_
    dsimp only [put]
    split
    · exact ha
    · rename_i s gw
      have hp := exceptWf_beatPut (b := { b with s := s }) ha core (j.cAt e + (w.1 : Int)) [(w.2, d.2.2.2)]
      split
      · rename_i heq
        exact hp.of_error heq
      · rename_i heq
        have ht := hp.of_ok heq
        exact ht
  split
  · rename_i heq
    exact hput.of_error heq
  · rename_i s gw heq
    have hs : memWf s.mem = true := hput.of_ok heq
    have hp := exceptWf_beatPut (b := { b with s := s }) hs core (j.soff + 2 * (e / cs.bl : Nat)) (entryBytes d.2.1)
    split
    · exact hs
    · split
      · rename_i heq
        exact hp.of_error heq
      · rename_i t g heq
        have ht : memWf t.mem = true := hp.of_ok heq
        rw [Beat.moved_mem, State.raiseSat_mem]
        split
        · simpa using ht
        · exact ht

theorem memWf_beatDqtOut {b : Beat} (hs : memWf b.s.mem = true) (core : Nat) (cs fs : Slot) :
    memWf (b.dqtOut core cs fs).1.s.mem = true := by
  unfold Beat.dqtOut
  grind -ring -order -lia -linarith [exceptWf_beatPut, Beat.stopped_mem, State.notePad_mem, Beat.moved_mem, ExceptWf]

theorem memWf_beatDqtIn {b : Beat} (hs : memWf b.s.mem = true) (core : Nat) (cs fs : Slot) :
    memWf (b.dqtIn core cs fs).1.s.mem = true := by
  unfold Beat.dqtIn
  grind -ring -order -lia -linarith [memWf_jobGet, Beat.stopped_mem, Beat.moved_mem, foldl_fst_memWf]

theorem memWf_beatRun {b : Beat} (hs : memWf b.s.mem = true) (core : Nat) (cs fs : Slot) (n : Nat) :
    memWf (b.run core cs fs n).1.s.mem = true := by
  induction n generalizing b with
  | zero => exact hs
  | succ n ih =>
    unfold Beat.run
    grind -ring -order -lia -linarith [memWf_beatRaw, memWf_beatQntIn, memWf_beatQntOut, memWf_beatDqtIn,
      memWf_beatDqtOut]

theorem memWf_beat (hs : memWf s.mem = true) (core : Nat) (j : Job) (cs fs : Slot) :
    memWf (s.beat core j cs fs).mem = true := by
  unfold State.beat
  grind -ring -order -lia -linarith [memWf_beatRun, memWf_engPut, memWf_putGlobal, memWf_jobStop, State.setJob_mem,
    State.bkconf_mem]

theorem outWf_execCopyBeat (hs : memWf s.mem = true) (core : Nat) : OutWf (execCopyBeat core s) := by
  unfold execCopyBeat
  (repeat' split) <;> simp [memWf_beat, hs]

theorem outWf_execCopyComplete (hs : memWf s.mem = true) (core : Nat) : OutWf (execCopyComplete core s) := by
  unfold execCopyComplete
  (repeat' split) <;> simp [memWf_endJob, hs]

theorem memWf_takeEngFault (hs : memWf s.mem = true) (u : Nat) : memWf (s.takeEngFault u).mem = true := by
  unfold State.takeEngFault
  (repeat' split) <;> simp [memWf_pageFault, hs]

theorem outWf_execCopyPageFault (hs : memWf s.mem = true) (core : Nat) : OutWf (execCopyPageFault core s) := by
  unfold execCopyPageFault
  grind -ring -order -lia -linarith [memWf_takeEngFault, OutWf]

/-! ### Floating forms -/

theorem outWf_flt3 (hs : memWf s.mem = true) (f : FFn) (lat : Nat) (o : R3) (g : FVal → FVal → FRes) :
    OutWf (s.flt3 f lat o g) :=
  outWf_alu hs ..

theorem outWf_execFadd (hs : memWf s.mem = true) (f : FFn) (o : R3) : OutWf (execFadd f o s) :=
  outWf_flt3 hs ..

theorem outWf_execFsub (hs : memWf s.mem = true) (f : FFn) (o : R3) : OutWf (execFsub f o s) :=
  outWf_flt3 hs ..

theorem outWf_execFmul (hs : memWf s.mem = true) (f : FFn) (o : R3) : OutWf (execFmul f o s) :=
  outWf_flt3 hs ..

theorem outWf_execFmin (hs : memWf s.mem = true) (ftz : Bool) (o : R3) : OutWf (execFmin ftz o s) :=
  outWf_flt3 hs ..

theorem outWf_execFmax (hs : memWf s.mem = true) (ftz : Bool) (o : R3) : OutWf (execFmax ftz o s) :=
  outWf_flt3 hs ..

theorem outWf_approx (hs : memWf s.mem = true) (sat ftz : Bool) (o : R2) (g : Bool → Nat → FRes) :
    OutWf (s.approx sat ftz o g) :=
  outWf_alu hs ..

theorem outWf_execFdiv (hs : memWf s.mem = true) (f : FFn) (o : R3) : OutWf (execFdiv f o s) :=
  outWf_flt3 hs ..

/-! ### Sample groups -/

theorem memWf_gPut (hs : memWf s.mem = true) (ps : List Piece) (off n x : Nat) :
    memWf (s.gPut ps off n x).mem = true := by
  unfold State.gPut
  split <;> simp [memWf_putFieldW, hs]

theorem memWf_closeGroup (hs : memWf s.mem = true) (e : Env) (grid : Nat) (desc : Word) (ps : List Piece) :
    memWf (s.closeGroup e grid desc ps).mem = true := by
  unfold State.closeGroup
  grind -ring -order -lia -linarith [memWf_gPut, memWf_startCont, foldl_memWf]

theorem memWf_closeDue (hs : memWf s.mem = true) (ps : List Piece) : memWf (s.closeDue ps).mem = true := by
  unfold State.closeDue
  grind -ring -order -lia -linarith [memWf_closeGroup]

theorem memWf_deposit (hs : memWf s.mem = true) (e : Env) (grid : Nat) (desc : Word) (ps : List Piece) (sib : Nat)
    (reward : Option Nat) : memWf (s.deposit e grid desc ps sib reward).mem = true := by
  unfold State.deposit
  grind -ring -order -lia -linarith [memWf_closeDue, memWf_gPut, memWf_closeGroup]

theorem outWf_execGroupTimeout (hs : memWf s.mem = true) (n : Nat) : OutWf (execGroupTimeout n s) := by
  unfold execGroupTimeout
  grind -ring -order -lia -linarith [memWf_recallAt, memWf_gPut, memWf_closeDue, State.stirPieces_mem, OutWf]

theorem resWf_tMany {v : View} {w : Want} {l : List (Word × Nat)} {k : State → List (List Piece) → Res}
    (hs : memWf s.mem = true) (hk : ∀ t ps, memWf t.mem = true → ResWf (k t ps)) : ResWf (s.tMany v w l k) := by
  induction l generalizing s k with
  | nil => exact hk _ _ hs
  | cons a l ih => exact resWf_tPlace hs fun t ps ht => ih ht fun t qs ht => hk _ _ ht

theorem memWf_forkOne (hs : memWf s.mem = true) (r : Rec) (fbase recb desc : Word) (sps fps rps dps : List Piece)
    (i : Nat) : memWf (State.forkOne r fbase recb desc sps fps rps dps s i).mem = true := by
  unfold State.forkOne
  grind -ring -order -lia -linarith [memWf_writePieces, memWf_gPut, foldl_memWf]

theorem memWf_forkAll (hs : memWf s.mem = true) (v : View) (d : GDesc) (r : Rec) (desc recb fbase : Word) (q : QDesc)
    (qps dps rps fps sps : List Piece) (slots : List (List Piece)) (hook : Option (List Piece)) :
    memWf (s.forkAll v d r desc recb fbase q qps dps rps fps sps slots hook).mem = true := by
  unfold State.forkAll
  grind -ring -order -lia -linarith [memWf_forkOne, memWf_gPut, memWf_pushAt, foldl_memWf, foldl_fst_memWf]

theorem outWf_execForkg (hs : memWf s.mem = true) (x : X1) : OutWf (execForkg x s) := by
  have act {s : State} {v : View} {k : State → Res} (hs : memWf s.mem = true)
      (hk : ∀ t, memWf t.mem = true → ResWf (k t)) :
      ResWf ((s.modThr v.a fun t => { t with wait := .acting }).tRelease v k) :=
    resWf_tRelease (by simpa using hs) hk
  have done {s : State} (hs : memWf s.mem = true) (v : View) (n : Nat) : ResWf (.done
      ((s.putS v.a (x.sb.toNat + 4) (BitVec.ofNat 64 n)).modThr v.a fun t => { t with wait := .none })) := by
    simpa using hs
  refine outWf_once hs fun s v _ hs => resWf_tAddr hs fun s hps hs => resWf_tRead hs fun s hb hs =>
    resWf_ite hs <| resWf_ite hs <| resWf_ite hs <| resWf_tAddr hs fun s tps hs => resWf_tRead hs fun s tb hs =>
    resWf_tQueue hs fun s q qps hs => resWf_ite hs <| resWf_ite hs <| resWf_ite hs <| ?_
  have status (n : Nat) := act (v := v) hs fun s hs =>
    resWf_whenFree (v := v) (ps := hps ++ qps) hs fun s hs => done hs v n
  refine resWf_ite (status 1) <| resWf_ite (status 2) <| resWf_tPlace hs fun s dps hs => resWf_tPlace hs fun s rps hs =>
    resWf_tMany hs fun s fps hs => resWf_tMany hs fun s sps hs => resWf_tMany hs fun s slots hs =>
    resWf_tHook hs fun s hook hs => resWf_tRead hs fun s _ hs => act hs fun s hs => resWf_whenFree hs fun s hs =>
    done ?_ v 0
  rw [State.noSpin_mem]
  exact memWf_forkAll hs ..

theorem resWf_tSibling {v : View} {w : Want} {k : State → List Piece → Res} (hs : memWf s.mem = true)
    (hk : ∀ t ps, memWf t.mem = true → ResWf (k t ps)) : ResWf (s.tSibling v w k) := by
  unfold State.tSibling
  grind -ring -order -lia -linarith [resWf_tAddr]

@[simp] theorem State.watchHeader_mem (v : View) (ps : List Piece) : (s.watchHeader v ps).mem = s.mem := by
  unfold State.watchHeader
  grind -ring -order -lia -linarith [State.setEntry_mem, State.setUnit_mem]

theorem outWf_execGbar (hs : memWf s.mem = true) (x : X1) : OutWf (execGbar x s) := by
  unfold execGbar
  grind -ring -order -lia -linarith [outWf_once, resWf_tSibling, resWf_whenFree, resWf_tRead, State.endMonitors_mem,
    State.watchHeader_mem, State.acquire_mem, State.putS_mem, ResWf]

@[simp] theorem State.cancelTeams_mem (pa : Nat) (ids : List Nat) : (s.cancelTeams pa ids).mem = s.mem := rfl

theorem outWf_execGcan (hs : memWf s.mem = true) (x : X1) : OutWf (execGcan x s) := by
  unfold execGcan
  grind -ring -order -lia -linarith [outWf_once, resWf_tAddr, resWf_tRead, resWf_tPlace, resWf_tRelease,
    resWf_whenFree, memWf_closeDue, memWf_gPut, memWf_closeGroup, State.putS_mem, State.cancelTeams_mem,
    State.noSpin_mem, foldl_memWf, ResWf]

/-! ### Matrix sequencers -/

@[simp] theorem State.setSeq_mem (core q : Nat) (x : Seq) : (s.setSeq core q x).mem = s.mem := rfl

@[simp] theorem State.setRprog_mem (u q : Nat) (w : Word) : (s.setRprog u q w).mem = s.mem := rfl

theorem outWf_execMacq (hs : memWf s.mem = true) (p : Pre) (q : BitVec 2) : OutWf (execMacq p q s) := by
  unfold execMacq
  grind -ring -order -lia -linarith [outWf_issue, State.retire_mem, State.setSeq_mem, OutWf]

theorem outWf_execMrel (hs : memWf s.mem = true) (p : Pre) (q : BitVec 2) : OutWf (execMrel p q s) := by
  unfold execMrel
  grind -ring -order -lia -linarith [outWf_issue, State.retire_mem, State.setSeq_mem, OutWf]

theorem outWf_execMstat (hs : memWf s.mem = true) (x : X1) (q : BitVec 2) : OutWf (execMstat x q s) :=
  outWf_issue hs fun _ _ _ ht => by
    simp [ht]

theorem outWf_mloop (hs : memWf s.mem = true) (f : MLoopF) (res : Bool) : OutWf (s.mloop f res) := by
  unfold State.mloop
  grind -ring -order -lia -linarith [outWf_issue, State.retire_mem, State.haltV_mem, State.setSeq_mem, State.bump_mem,
    State.setRprog_mem, State.fly_mem, OutWf]

@[simp] theorem State.setRun_mem (core q : Nat) (r : Run) : (s.setRun core q r).mem = s.mem := rfl

@[simp] theorem State.stopRun_mem (core q : Nat) (r : Run) (cause : Nat) : (s.stopRun core q r cause).mem = s.mem :=
  rfl

@[simp] theorem State.haltRun_mem (core q : Nat) (r : Run) (cause : Nat) (c : Cause2) (addr : Word) :
    (s.haltRun core q r cause c addr).mem = s.mem := by
  simp [State.haltRun]

theorem outWf_execSeqRunStart (hs : memWf s.mem = true) (core q : Nat) : OutWf (execSeqRunStart core q s) := by
  unfold execSeqRunStart
  grind -ring -order -lia -linarith [memWf_takeSlabs, State.stopRun_mem, State.haltRun_mem, State.setRun_mem, OutWf]

theorem outWf_execSeqStepStart (hs : memWf s.mem = true) (core q : Nat) : OutWf (execSeqStepStart core q s) := by
  unfold execSeqStepStart
  (repeat' split) <;> simp [hs]

theorem memWf_runRead (hs : memWf s.mem = true) (core : Nat) (r : Run) (off : Int) (n : Nat) :
    memWf (s.runRead core r off n).1.mem = true := by
  unfold State.runRead
  grind -ring -order -lia -linarith [memWf_xlatReg, memWf_readAt, State.noteWalk_mem, State.stirReads_mem,
    State.noteRemote_mem]

theorem memWf_runReads (hs : memWf s.mem = true) (core : Nat) (r : Run) (xs : List (Int × Nat)) :
    memWf (s.runReads core r xs).1.mem = true := by
  induction xs generalizing s with
  | nil => exact hs
  | cons x xs ih =>
    have hr := memWf_runRead hs core r x.1 x.2
    unfold State.runReads
    grind -ring -order -lia -linarith

theorem memWf_rowData (hs : memWf s.mem = true) (core : Nat) (r : Run) (a : Slot) :
    memWf (s.rowData core r a).1.mem = true := by
  unfold State.rowData
  grind -ring -order -lia -linarith [memWf_runReads]

theorem memWf_rowAdd (hs : memWf s.mem = true) (r : Run) (a w : Slot) (d : RowData) :
    memWf (s.rowAdd r a w d).mem = true := by
  unfold State.rowAdd
  (repeat' split) <;> simp [memWf_spPut, hs]

theorem outWf_execSeqRow (hs : memWf s.mem = true) (core q : Nat) : OutWf (execSeqRow core q s) := by
  unfold execSeqRow
  grind -ring -order -lia -linarith [memWf_rowData, memWf_rowAdd, State.setRun_mem, State.stopRun_mem,
    State.haltRun_mem, State.modGang_mem, State.setRprog_mem, OutWf]

theorem outWf_execSeqRunEnd (hs : memWf s.mem = true) (core q : Nat) : OutWf (execSeqRunEnd core q s) := by
  unfold execSeqRunEnd
  grind -ring -order -lia -linarith [memWf_flip, State.setSeq_mem, State.setRprog_mem, State.modThr_mem, foldl_memWf,
    OutWf]

/-! ### Team barriers, AMODE, COMMIT -/

@[simp] theorem State.freeGang_mem (u n : Nat) : (s.freeGang u n).mem = s.mem := by
  unfold State.freeGang
  split <;> simp

@[simp] theorem State.leave_mem (u n : Nat) : (s.leave u n).mem = s.mem := by
  unfold State.leave
  split <;> simp

@[simp] theorem State.barCheck_mem (n b : Nat) : (s.barCheck n b).mem = s.mem := by
  unfold State.barCheck
  grind -ring -order -lia -linarith [State.modTeam_mem, State.freeGang_mem, foldl_mem]

@[simp] theorem State.barArrive_mem (n b : Nat) : (s.barArrive n b).mem = s.mem := by simp [State.barArrive]

theorem outWf_bar (hs : memWf s.mem = true) (p : Pre) (b : BitVec 4) (sync : Bool) : OutWf (s.bar p b sync) := by
  unfold State.bar
  grind -ring -order -lia -linarith [outWf_issue, goWf_release, State.retire_mem, State.haltV_mem, State.barArrive_mem,
    OutWf, GoWf]

theorem outWf_execBarinit (hs : memWf s.mem = true) (x : X1) (b : BitVec 4) : OutWf (execBarinit x b s) := by
  unfold execBarinit
  grind -ring -order -lia -linarith [outWf_issue, State.retire_mem, State.haltV_mem, State.modTeam_mem,
    State.barCheck_mem, OutWf]

theorem outWf_teamBar {u : Uses} {arrived : Team → Nat → Bool} {enter : State → View → Res}
    {finish : State → View → State} (hs : memWf s.mem = true) (he : ∀ t v, memWf t.mem = true → ResWf (enter t v))
    (hf : ∀ t v, memWf t.mem = true → memWf (finish t v).mem = true) : OutWf (s.teamBar u arrived enter finish) := by
  refine outWf_issue hs fun s v ex hs => ?_
  have he := he s v hs
  split
  · simpa using hs
  · split
    · exact hf s v hs
    · cases h : enter s v with
      | wait t => simpa [h] using he
      | halt t w => simpa [h] using he
      | fault t w l va => exact memWf_pageFaultV (by simpa [h] using he) ..
      | done t => exact hf t v (by simpa [h] using he)

@[simp] theorem State.waitIn_mem (u : Nat) (w : Wait) : (s.waitIn u w).mem = s.mem := rfl

@[simp] theorem State.haltAll_mem (us : List Nat) (h : HaltWhy) : (s.haltAll us h).mem = s.mem := by
  unfold State.haltAll
  exact foldl_mem _ _ fun _ _ => by split <;> simp

@[simp] theorem State.calibrate_mem : s.calibrate.1.mem = s.mem := rfl

theorem optWf_switchArray (hs : memWf s.mem = true) (team key : Nat) (rck : Bool) :
    OptWf (fun r => memWf r.1.mem = true) (s.switchArray team key rck) := by
  unfold State.switchArray
  grind -ring -order -lia -linarith [memWf_applyDefer, State.calibrate_mem, State.setArr_mem, OptWf]

theorem memWf_switchArrays (hs : memWf s.mem = true) (n : Nat) (keys : List Nat) :
    memWf (s.switchArrays n keys).1.mem = true := by
  induction keys generalizing s with
  | nil => exact hs
  | cons key rest ih =>
    unfold State.switchArrays
    split
    · exact hs
    · rename_i t _
      have ha := optWf_switchArray hs n key t.amode.rck
      split <;> simp_all

@[simp] theorem State.setKAll_mem (u n : Nat) (b : Bool) : (s.setKAll u n b).mem = s.mem := rfl

theorem memWf_amodeTry (hs : memWf s.mem = true) (n : Nat) : memWf (s.amodeTry n).mem = true := by
  unfold State.amodeTry
  split
  · exact hs
  · extract_lets gs us a first count drop named foreign t r
    have hd : memWf (drop s).mem = true := by simpa [drop] using hs
    have ht : memWf t.mem = true := by simpa [t] using hs
    have hr : memWf r.1.mem = true := memWf_switchArrays ht ..
    split
    · exact hs
    · split
      · simpa using hd
      · split
        · simpa using hd
        · clear_value foreign
          cases foreign with
          | some k => simpa using hd
          | none =>
            dsimp only
            split
            · exact hr
            · split
              · exact hr
              · rw [foldl_mem _ _ fun _ _ => by simp]
                simpa [drop] using hr

theorem outWf_amode (hs : memWf s.mem = true) (p : Pre) (sel : ArrSel) (rck : Bool) : OutWf (s.amode p sel rck) := by
  unfold State.amode
  grind -ring -order -lia -linarith [outWf_teamBar, resWf_tRelease, memWf_amodeTry, State.modTeam_mem,
    State.waitIn_mem, ResWf]

theorem outWf_execMcal (hs : memWf s.mem = true) (p : Pre) (sel : ArrSel) : OutWf (execMcal p sel s) := by
  unfold execMcal
  grind -ring -order -lia -linarith [outWf_issue, State.retire_mem, State.haltV_mem, State.calibrate_mem,
    State.setArr_mem, State.hold_mem, foldl_fst_memWf, OutWf]

theorem commitWf_performAll {k : State → Commit} (hs : memWf s.mem = true)
    (hk : ∀ t, memWf t.mem = true → CommitWf (k t)) (us : List Nat) : CommitWf (s.performAll k us) := by
  induction us generalizing s with
  | nil => exact hk _ hs
  | cons u us ih =>
    have hp := goWf_performHeld hs u
    unfold State.performAll
    split
    · simp_all
    · simp only [CommitWf]
      split <;> simpa using hs
    · simp_all

theorem commitWf_commitRead (hs : memWf s.mem = true) (n : Nat) (t : Team) (v : View) (us : List Nat) :
    CommitWf (s.commitRead n t v us) := by
  unfold State.commitRead
  grind -ring -order -lia -linarith [memWf_deviceAddr, memWf_pageFaultV, memWf_readAt, State.haltV_mem,
    State.stirReads_mem, State.noteRemote_mem, State.haltAll_mem, State.modTeam_mem, CommitWf]

theorem commitWf_commitSteps (hs : memWf s.mem = true) (n : Nat) : CommitWf (s.commitSteps n) := by
  unfold State.commitSteps
  grind -ring -order -lia -linarith [commitWf_performAll, commitWf_commitRead, CommitWf]

theorem resWf_tGroup {v : View} {k : State → Res} (hs : memWf s.mem = true)
    (hk : ∀ t, memWf t.mem = true → ResWf (k t)) : ResWf (s.tGroup v k) := by
  unfold State.tGroup
  grind -ring -order -lia -linarith [resWf_tSibling, State.modGang_mem]

theorem memWf_groupPlace (hs : memWf s.mem = true) (t : Team) (v : View) : memWf (s.groupPlace t v).1.mem = true := by
  unfold State.groupPlace
  grind -ring -order -lia -linarith [memWf_recallAt, State.stirPieces_mem]

@[simp] theorem State.unarrive_mem (n : Nat) : (s.unarrive n).mem = s.mem :=
  foldl_mem _ _ fun _ _ => State.waitIn_mem ..

theorem memWf_commitEnd (hs : memWf s.mem = true) (n : Nat) (t : Team) (reward : Option Nat) (clear : Team → Team) :
    memWf (s.commitEnd n t reward clear).mem = true := by
  unfold State.commitEnd
  grind -ring -order -lia -linarith [commitWf_commitSteps, memWf_groupPlace, memWf_deposit, State.unarrive_mem,
    State.leave_mem, State.modTeam_mem, State.haltV_mem, State.noteRemote_mem, foldl_mem, CommitWf]

theorem memWf_commitTry (hs : memWf s.mem = true) (n : Nat) : memWf (s.commitTry n).mem = true := by
  unfold State.commitTry
  grind -ring -order -lia -linarith [memWf_commitEnd]

theorem outWf_execCommit (hs : memWf s.mem = true) (p : Pre) : OutWf (execCommit p s) := by
  unfold execCommit
  grind -ring -order -lia -linarith [outWf_teamBar, resWf_tGroup, resWf_tRelease, memWf_commitTry, State.waitIn_mem,
    State.modTeam_mem, ResWf]

theorem memWf_grwdTry (hs : memWf s.mem = true) (n : Nat) : memWf (s.grwdTry n).mem = true := by
  unfold State.grwdTry
  grind -ring -order -lia -linarith [memWf_commitEnd]

theorem outWf_execGrwd (hs : memWf s.mem = true) (x : X1) : OutWf (execGrwd x s) := by
  unfold execGrwd
  grind -ring -order -lia -linarith [outWf_teamBar, resWf_tGroup, resWf_tRelease, memWf_grwdTry, State.waitIn_mem,
    State.modTeam_mem, ResWf]

theorem outWf_phint (hs : memWf s.mem = true) (p : Pre) (h : Hint) : OutWf (s.phint p h) :=
  outWf_issue hs fun _ _ _ ht => by
    split <;> simp [ht]

theorem outWf_execPriorityRestore (hs : memWf s.mem = true) (u : Nat) : OutWf (execPriorityRestore u s) := by
  unfold execPriorityRestore
  split <;> simp [hs]

theorem memWf_teamCheck (hs : memWf s.mem = true) (n : Nat) : memWf (s.teamCheck n).mem = true := by
  unfold State.teamCheck
  grind -ring -order -lia -linarith [memWf_grwdTry, memWf_commitTry, memWf_amodeTry, State.barCheck_mem, foldl_mem]

@[simp] theorem State.returnArea_mem (ctx : BitVec 12) (area : Nat) : (s.returnArea ctx area).mem = s.mem := rfl

theorem memWf_returnOne (hs : memWf s.mem = true) (x : BitVec 12 × Nat) : memWf (s.returnOne x).mem = true := by
  unfold State.returnOne
  grind -ring -order -lia -linarith [memWf_dstField, memWf_eQueue, memWf_ePush]

theorem memWf_flushAreas (hs : memWf s.mem = true) : memWf s.flushAreas.mem = true :=
  foldl_memWf _ hs fun _ _ ht => memWf_returnOne ht ..

@[simp] theorem State.dropSeqs_mem (u : Nat) : (s.dropSeqs u).mem = s.mem := rfl

@[simp] theorem State.sweepShare_mem : s.sweepShare.mem = s.mem := rfl

@[simp] theorem State.forgetTeam_mem (n : Nat) : (s.forgetTeam n).mem = s.mem := by
  unfold State.forgetTeam
  grind -ring -order -lia -linarith [State.dropSeqs_mem, State.sweepShare_mem, foldl_mem]

theorem memWf_joinPlace (hs : memWf s.mem = true) (t : Team) : memWf (s.joinPlace t).1.mem = true := by
  unfold State.joinPlace
  split <;> simp [memWf_eAddr, hs]

theorem memWf_endTeam (hs : memWf s.mem = true) (n : Nat) (t : Team) (e : Env) (join : Got) :
    memWf (s.endTeam n t e join).mem = true := by
  unfold State.endTeam
  grind -ring -order -lia -linarith [memWf_countDown, State.post_mem, State.forgetTeam_mem, State.returnArea_mem]

theorem outWf_execGangEnd (hs : memWf s.mem = true) (u : Nat) : OutWf (execGangEnd u s) := by
  unfold execGangEnd
  grind -ring -order -lia -linarith [goWf_release, memWf_teamCheck, memWf_joinPlace, memWf_endTeam, State.dropSeqs_mem,
    State.haltV_mem, State.modGang_mem, OutWf, GoWf]

/-! ### Pre-emption and restore -/

@[simp] theorem State.preempt_mem (n : Nat) (discard : Bool) : (s.preempt n discard).mem = s.mem := by
  unfold State.preempt
  (repeat' split) <;> rfl

theorem memWf_endHaltedCopies (hs : memWf s.mem = true) (t : Team) : memWf (s.endHaltedCopies t).mem = true := by
  unfold State.endHaltedCopies
  grind -ring -order -lia -linarith [memWf_endJob, foldl_memWf]

theorem memWf_zeroState (hs : memWf s.mem = true) (area : Nat) : memWf (s.zeroState area).mem = true :=
  memWf_devWrite hs ..

@[simp] theorem State.areaPoison_mem (pas : List Nat) : (s.areaPoison pas).mem = s.mem :=
  foldl_mem _ _ fun _ _ => setPoison_mem ..

theorem memWf_saveGang (hs : memWf s.mem = true) (area : Nat) (g : Gang) (off : Nat) :
    memWf (s.saveGang area g off).mem = true := by
  unfold State.saveGang
  grind -ring -order -lia -linarith [memWf_areaWrite, State.areaPoison_mem]

theorem memWf_saveArray (hs : memWf s.mem = true) (area j key : Nat) : memWf (s.saveArray area j key).mem = true := by
  unfold State.saveArray
  grind -ring -order -lia -linarith [memWf_areaWrite, State.areaPoison_mem, foldl_memWf]

@[simp] theorem State.letGo_mem (t : Team) : (s.letGo t).mem = s.mem := by
  unfold State.letGo
  grind -ring -order -lia -linarith [State.dropSeqs_mem, State.endMonitors_mem, foldl_mem]

theorem memWf_saveTeam (hs : memWf s.mem = true) (n : Nat) (st : TeamSt) : memWf (s.saveTeam n st).mem = true := by
  unfold State.saveTeam
  grind -ring -order -lia -linarith [memWf_clearArea, memWf_areaWrite, memWf_saveGang, memWf_saveArray,
    State.areaPoison_mem, State.letGo_mem, State.sweepShare_mem, State.modTeam_mem, foldl_memWf]

@[simp] theorem State.requeue_mem (die : Nat) (r : DieRec) (front : Bool) : (s.requeue die r front).mem = s.mem := rfl

@[simp] theorem State.dropTeam_mem (n : Nat) (t : Team) : (s.dropTeam n t).mem = s.mem := by simp [State.dropTeam]

@[simp] theorem State.discardTeam_mem (n : Nat) : (s.discardTeam n).mem = s.mem := by
  unfold State.discardTeam
  split <;> simp

theorem outWf_execTeamSaved (hs : memWf s.mem = true) (n : Nat) : OutWf (execTeamSaved n s) := by
  unfold execTeamSaved
  grind -ring -order -lia -linarith [memWf_teamCheck, memWf_endHaltedCopies, memWf_saveTeam, State.stir_mem,
    State.discardTeam_mem, State.requeue_mem, OutWf]

theorem memWf_frameX0 (hs : memWf s.mem = true) (g : Gang) (pa : Nat) : memWf (s.frameX0 g pa).1.mem = true := by
  unfold State.frameX0
  grind -ring -order -lia -linarith [memWf_areaWrite]

theorem memWf_laneBack (hs : memWf s.mem = true) (core : Nat) (lc : LaneCtx) :
    memWf (s.laneBack core lc).mem = true := by
  unfold State.laneBack
  grind -ring -order -lia -linarith [memWf_whole, State.modGang_mem, State.switchTop_mem, State.earlyReturn_mem]

theorem memWf_arrayRestore (hs : memWf s.mem = true) (n area j key : Nat) (queue : List DefEntry) :
    memWf (s.arrayRestore n area j key queue).mem = true := by
  unfold State.arrayRestore
  grind -ring -order -lia -linarith [memWf_applyDefer, State.setArr_mem, State.calibrate_mem]

@[simp] theorem State.seqBack_mem (due : List (Nat × Nat)) : (s.seqBack due).mem = s.mem := by
  unfold State.seqBack
  exact foldl_mem _ _ fun _ _ => by dsimp only; (repeat' split) <;> simp

theorem memWf_restoreTeam (hs : memWf s.mem = true) (n : Nat) (cores : List Nat) (seats : List (Nat × Nat))
    (window : List Nat) : memWf (s.restoreTeam n cores seats window).mem = true := by
  unfold State.restoreTeam
  split
  · exact hs
  · extract_lets area s₁ gr bs gs defs bad x7 s₂ lanes restart s₃ s₄ s₅ s₆ s₇ s₈ s₉
    have h₁ : memWf s₁.mem = true := memWf_readOver hs ..
    have h₂ : memWf s₂.mem = true := by
      refine foldl_memWf _ h₁ fun t g ht => ?_
      dsimp only
      rw [State.modGang_mem]
      have hx := memWf_frameX0 ht g.2 (t.framePa g.2)
      split
      · rename_i heq
        exact (exceptWf_unspill (s := { State.bump _ with gangs := _ }) hx _).of_ok heq
      · exact hx
    have h₃ : memWf s₃.mem = true := h₂
    have h₄ : memWf s₄.mem = true := by
      refine foldl_memWf _ h₃ fun t e ht => ?_
      split
      · exact ht
      · exact memWf_laneBack (by simpa using ht) ..
    have h₅ : memWf s₅.mem = true := foldl_memWf _ h₄ fun t g ht => memWf_respill ht ht ..
    have h₆ : memWf s₆.mem = true := by
      dsimp only [s₆]
      split
      · exact h₅
      · exact foldl_memWf _ h₅ fun t j ht => memWf_arrayRestore ht ..
    have h₇ : memWf s₇.mem = true := foldl_memWf _ h₆ fun t c ht => by simpa using ht
    have h₉ : memWf s₉.mem = true := memWf_zeroState (by simpa [s₈] using h₇) ..
    clear_value s₉ bad gs
    cases bad with
    | none => exact h₉
    | some pa =>
      cases gs with
      | nil => exact h₉
      | cons g gs => simpa using h₉

/-! ### Dispatch of teams -/

@[simp] theorem State.allot_mem (gr : Grid) (grid : Nat) (seats : List Seat) :
    (s.allot gr grid seats).mem = s.mem := by
  unfold State.allot
  grind -ring -order -lia -linarith [State.setArr_mem, State.modCore_mem, foldl_mem]

theorem memWf_startTeam (hs : memWf s.mem = true) (gr : Grid) (grid : Nat) (r : Rec) (reca teamid : Word)
    (seats : List Seat) (area : Nat) : memWf (s.startTeam gr grid r reca teamid seats area).mem = true := by
  unfold State.startTeam
  grind -ring -order -lia -linarith [memWf_zeroState, State.allot_mem, State.acquire_mem, foldl_mem]

theorem areaWf_takeArea (hs : memWf s.mem = true) (ctx : BitVec 12) : AreaWf (s.takeArea ctx) := by
  unfold State.takeArea
  grind -ring -order -lia -linarith [memWf_dstField, memWf_eQueue, memWf_poolTake, State.stir_mem, AreaWf]

@[simp] theorem State.timersOn_mem : s.timersOn.mem = s.mem := rfl

theorem serveWf_serveList (hs : memWf s.mem = true) (die : Nat) (r : DieRec) : ServeWf (s.serveList die r) := by
  unfold State.serveList
  grind -ring -order -lia -linarith [memWf_restoreTeam, areaWf_takeArea, memWf_startTeam, State.choose_mem,
    State.allot_mem, State.timersOn_mem, ServeWf, AreaWf]

theorem memWf_takeItem (hs : memWf s.mem = true) (q : QDesc) (qps : List Piece) :
    memWf (s.takeItem q qps).1.mem = true := by
  unfold State.takeItem
  grind -ring -order -lia -linarith [memWf_putFieldW]

theorem serveWf_serveQueue (hs : memWf s.mem = true) (die grid : Nat) (gr : Grid) :
    ServeWf (s.serveQueue die grid gr) := by
  unfold State.serveQueue
  extract_lets e
  split
  · trivial
  · rename_i heq
    exact memWf_of_fst (memWf_eQueue hs ..) heq
  · rename_i t q qps heq
    have ht := memWf_of_fst (memWf_eQueue hs ..) heq
    split
    · trivial
    · extract_lets slot
      have ha := memWf_eAddr ht e .read slot 64 1
      split
      · trivial
      · simp_all
      · grind -ring -order -lia -linarith [State.post_mem, State.choose_mem, areaWf_takeArea, memWf_takeItem,
          memWf_startTeam, AreaWf, ServeWf]

theorem serveWf_serveQueues (hs : memWf s.mem = true) (die : Nat) (gs : List (Nat × Grid)) (stuck : Bool) :
    ServeWf (s.serveQueues die gs stuck) := by
  induction gs generalizing stuck with
  | nil => cases stuck <;> trivial
  | cons g gs ih =>
    have hq := serveWf_serveQueue hs die g.1 g.2
    unfold State.serveQueues
    split
    · exact ih _
    · exact ih _
    · simp_all
    · simp_all

theorem serveWf_serve1 (hs : memWf s.mem = true) (die : Nat) : ServeWf (s.serve1 die) := by
  unfold State.serve1
  grind -ring -order -lia -linarith [serveWf_serveList, serveWf_serveQueues, ServeWf]

theorem outWf_execDispatchPlace (hs : memWf s.mem = true) (die : Nat) : OutWf (execDispatchPlace die s) := by
  unfold execDispatchPlace
  grind -ring -order -lia -linarith [serveWf_serve1, OutWf, ServeWf]

theorem memWf_launchNext (hs : memWf s.mem = true) (n : Nat) : memWf (s.launchNext n).1.mem = true := by
  unfold State.launchNext
  grind -ring -order -lia -linarith [memWf_eQueue, memWf_eAddr, memWf_writePieces, memWf_ePush, State.logErr_mem]

theorem memWf_launchFill (hs : memWf s.mem = true) (n k : Nat) : memWf (s.launchFill n k).mem = true := by
  induction k generalizing s with
  | zero => exact hs
  | succ k ih =>
    have hl := memWf_launchNext hs n
    unfold State.launchFill
    split <;> simp_all

theorem outWf_execForwardProgressSwap (hs : memWf s.mem = true) (core : Nat) :
    OutWf (execForwardProgressSwap core s) := by
  unfold execForwardProgressSwap
  grind -ring -order -lia -linarith [State.preempt_mem, OutWf]

/-! ### Islands and power -/

@[simp] theorem State.setDie_mem (d : Nat) (x : Die) : (s.setDie d x).mem = s.mem := rfl

@[simp] theorem State.retuneAt_mem (ps i : Nat) : (s.retuneAt ps i).mem = s.mem := rfl

@[simp] theorem State.retune_mem (i : Nat) : (s.retune i).mem = s.mem := rfl

@[simp] theorem State.modIsland_mem (i : Nat) (f : Island → Island) : (s.modIsland i f).mem = s.mem := by
  simp [State.modIsland]

@[simp] theorem State.towards_mem (i : Nat) (t : IslandSt) : (s.towards i t).mem = s.mem := rfl

@[simp] theorem State.newWindow_mem (i : Nat) : (s.newWindow i).mem = s.mem := rfl

@[simp] theorem State.countIssue_mem (core cycles : Nat) : (s.countIssue core cycles).mem = s.mem := rfl

theorem memWf_watchIslands (hs : memWf s.mem = true) (before : State) : memWf (s.watchIslands before).mem = true := by
  unfold State.watchIslands
  grind -ring -order -lia -linarith

theorem outWf_execIslandEnterNear (hs : memWf s.mem = true) (i : Nat) : OutWf (execIslandEnterNear i s) := by
  have ht (t : IslandSt) : OutWf (.next (s.towards i t)) := by simpa using hs
  have hn : OutWf (.next (s.newWindow i)) := by simpa using hs
  simp only [execIslandEnterNear]
  split
  · exact hs
  · split
    · exact ht _
    · split
      · exact ht _
      · split
        · exact hs
        · split
          · exact hs
          · split
            · exact ht _
            · exact hn

theorem outWf_execIslandLeaveNear (hs : memWf s.mem = true) (i : Nat) : OutWf (execIslandLeaveNear i s) := by
  have ht (t : IslandSt) : OutWf (.next (s.towards i t)) := by simpa using hs
  have hn : OutWf (.next (s.newWindow i)) := by simpa using hs
  simp only [execIslandLeaveNear]
  split
  · exact hs
  · split
    · exact ht _
    · split
      · exact hs
      · split
        · exact ht _
        · exact hn

theorem outWf_execIslandTransitionDone (hs : memWf s.mem = true) (i : Nat) :
    OutWf (execIslandTransitionDone i s) := by
  unfold execIslandTransitionDone
  grind -ring -order -lia -linarith [State.retuneAt_mem, OutWf]

@[simp] theorem State.modCluster_mem (c : Nat) (f : Cluster → Cluster) : (s.modCluster c f).mem = s.mem :=
  foldl_mem _ _ fun _ _ => State.retune_mem ..

theorem outWf_execDroop (hs : memWf s.mem = true) (c : Nat) : OutWf (execDroop c s) := by
  unfold execDroop
  split <;> simp [hs]

theorem outWf_execDroopEnd (hs : memWf s.mem = true) (c : Nat) : OutWf (execDroopEnd c s) := by
  unfold execDroopEnd
  split <;> simp [hs]

theorem outWf_execSag (hs : memWf s.mem = true) (c : Nat) (up : Bool) : OutWf (execSag c up s) := by
  unfold execSag
  split <;> simp [hs]

@[simp] theorem State.moveRecords_mem : s.moveRecords.mem = s.mem := by
  unfold State.moveRecords
  grind -ring -order -lia -linarith [State.setDie_mem, foldl_mem]

theorem memWf_mergeDie (hs : memWf s.mem = true) (d : Nat) : memWf (s.mergeDie d).mem = true := by
  unfold State.mergeDie
  grind -ring -order -lia -linarith [memWf_merge, foldl_memWf]

theorem memWf_emptyHome (hs : memWf s.mem = true) (d : Nat) : memWf (s.emptyHome d).mem = true := by
  unfold State.emptyHome
  grind -ring -order -lia -linarith [memWf_recallUnit, State.wakeOne_mem, State.send_mem, State.endMon_mem,
    State.setUnit_mem, foldl_memWf]

theorem memWf_emptyCaches (hs : memWf s.mem = true) (d : Nat) : memWf (s.emptyCaches d).mem = true := by
  unfold State.emptyCaches
  grind -ring -order -lia -linarith [memWf_recallUnit, foldl_memWf]

@[simp] theorem State.stirDie_mem (d : Nat) : (s.stirDie d).mem = s.mem :=
  foldl_mem _ _ fun _ _ => State.stir_mem ..

@[simp] theorem State.dieIslands_mem (d : Nat) (st : IslandSt) : (s.dieIslands d st).mem = s.mem :=
  foldl_mem _ _ fun _ _ => State.modIsland_mem ..

@[simp] theorem State.freshIslands_mem (d : Nat) : (s.freshIslands d).mem = s.mem :=
  foldl_mem _ _ fun _ _ => State.retune_mem ..

theorem outWf_execDieGating (hs : memWf s.mem = true) (d : Nat) : OutWf (execDieGating d s) := by
  unfold execDieGating
  grind -ring -order -lia -linarith [memWf_emptyCaches, memWf_emptyHome, memWf_mergeDie, State.preempt_mem,
    State.stirDie_mem, State.setDie_mem, State.moveRecords_mem, State.dieIslands_mem, foldl_mem, OutWf]

@[simp] theorem State.powerUp_mem (d : Nat) : (s.powerUp d).mem = s.mem := by simp [State.powerUp]

/-! ### The host attachment and its commands -/

@[simp] theorem State.answerTo_mem (ep : BitVec 128) (b : ReplyBody) : (s.answerTo ep b).mem = s.mem := rfl

@[simp] theorem State.closeOp_mem : s.closeOp.mem = s.mem := rfl

@[simp] theorem State.keepOp_mem (i : Instr) (n : Option Nat) : (s.keepOp i n).mem = s.mem := by
  unfold State.keepOp
  split <;> rfl

@[simp] theorem State.openOp_mem (i : Instr) (n : Nat) : (s.openOp i n).mem = s.mem := by simp [State.openOp]

theorem outWf_execUnsupportedFeaturePacket (hs : memWf s.mem = true) (ep : BitVec 128) (tag : Word) :
    OutWf (execUnsupportedFeaturePacket ep tag s) :=
  hs

theorem memWf_rmaStore (hs : memWf s.mem = true) (pa : Nat) (bs : List Byte) :
    memWf (s.rmaStore pa bs).1.mem = true := by
  unfold State.rmaStore
  grind -ring -order -lia -linarith [memWf_recall, memWf_devWrite, foldl_fst_memWf]

theorem outWf_execRmaWrite (hs : memWf s.mem = true) (ep : BitVec 128) (key : Word) (off : Nat) (bytes : List Byte) :
    OutWf (execRmaWrite ep key off bytes s) := by
  unfold execRmaWrite
  grind -ring -order -lia -linarith [memWf_rmaStore, State.answerTo_mem, State.closeOp_mem, State.openOp_mem,
    State.stir_mem, State.logErr_mem, OutWf]

theorem outWf_execRmaRead (hs : memWf s.mem = true) (ep : BitVec 128) (key : Word) (off len : Nat) :
    OutWf (execRmaRead ep key off len s) := by
  unfold execRmaRead
  grind -ring -order -lia -linarith [memWf_readOver, State.answerTo_mem, State.closeOp_mem, State.openOp_mem,
    State.stirRead_mem, State.logErr_mem, OutWf]

theorem optWf_measure (hs : memWf s.mem = true) (comp svn : Nat) (d : BitVec 512) :
    OptWf (fun r => memWf r.mem = true) (s.measure comp svn d) := by
  unfold State.measure
  split <;> simp [hs]

theorem memWf_measureAll (hs : memWf s.mem = true) (cs : List (Nat × Nat × List Byte)) :
    memWf (s.measureAll cs).1.mem = true := by
  induction cs generalizing s with
  | nil => exact hs
  | cons c cs ih =>
    have hm := optWf_measure hs c.1 c.2.1 (sha512 c.2.2)
    unfold State.measureAll
    split <;> simp_all

theorem memWf_startUp (hs : memWf s.mem = true) : memWf s.startUp.mem = true := by
  simp [State.startUp, memWf_measureAll, hs]

theorem outWf_execReset (hs : memWf s.mem = true) : OutWf (execReset s) := by
  simp [execReset, memWf_renumber, memWf_startUp, hs]

@[simp] theorem cmdWf_cmdResDone : CmdWf (CmdRes.done s) ↔ memWf s.mem = true := Iff.rfl

@[simp] theorem cmdWf_cmdResBad (off : Nat) : CmdWf (CmdRes.bad s off) ↔ memWf s.mem = true := Iff.rfl

@[simp] theorem cmdWf_cmdResState : CmdWf (CmdRes.state s) ↔ memWf s.mem = true := Iff.rfl

theorem exceptWf_entered (hs : memWf s.mem = true) (ep : BitVec 128) :
    ExceptWf (fun _ => True) (fun r => memWf r.mem = true) (s.entered ep) := by
  unfold State.entered
  grind -ring -order -lia -linarith [optWf_measure, ExceptWf, OptWf]

@[simp] theorem State.reply_mem (i : Instr) (c : HostCmd) (status reason : Nat) (data : List Byte) :
    (s.reply i c status reason data).mem = s.mem :=
  rfl

theorem memWf_finish {r : CmdRes} (hr : CmdWf r) (i : Instr) (c : HostCmd) :
    memWf (State.finish r i c).mem = true := by
  cases r <;> simpa [State.finish] using hr

theorem exceptWf_cmdReady (hs : memWf s.mem = true) (i : Instr) (c : HostCmd) (opc : Nat) :
    ExceptWf OutWf (fun r => memWf r.mem = true) (s.cmdReady i c opc) := by
  unfold State.cmdReady
  grind -ring -order -lia -linarith [exceptWf_entered, State.reply_mem, OutWf, ExceptWf]

theorem outWf_command {i : Instr} {c : HostCmd} {opc : Nat} {run : State → List Byte → CmdRes}
    {again : State → Nat → CmdRes} (hs : memWf s.mem = true) (hr : ∀ t b, memWf t.mem = true → CmdWf (run t b))
    (ha : ∀ t n, memWf t.mem = true → CmdWf (again t n)) : OutWf (s.command i c opc run again) := by
  unfold State.command
  grind -ring -order -lia -linarith [memWf_finish, exceptWf_cmdReady, State.keepOp_mem, OutWf, ExceptWf]

theorem outWf_command1 {i : Instr} {c : HostCmd} {opc : Nat} {run : State → List Byte → CmdRes}
    (hs : memWf s.mem = true) (hk : ∀ t b, memWf t.mem = true → CmdWf (run t b)) :
    OutWf (s.command1 i c opc run) := by
  unfold State.command1
  grind -ring -order -lia -linarith [outWf_command, cmdWf_cmdResDone]

theorem outWf_execUnknownOpc (hs : memWf s.mem = true) (c : HostCmd) : OutWf (execUnknownOpc c s) := by
  unfold execUnknownOpc
  grind -ring -order -lia -linarith [exceptWf_entered, State.keepOp_mem, State.reply_mem, OutWf, ExceptWf]

theorem outWf_execWinopen (hs : memWf s.mem = true) (c : HostCmd) : OutWf (execWinopen c s) := by
  unfold execWinopen
  grind -ring -order -lia -linarith [outWf_command1, cmdWf_cmdResBad, cmdWf_cmdResState, CmdWf]

theorem outWf_execWinclose (hs : memWf s.mem = true) (c : HostCmd) : OutWf (execWinclose c s) := by
  unfold execWinclose
  grind -ring -order -lia -linarith [cmdWf_cmdResDone, outWf_command, cmdWf_cmdResBad, cmdWf_cmdResState, CmdWf]

theorem cmdWf_launchDone (hs : memWf s.mem = true) (n : Nat) : CmdWf (s.launchDone n) := by
  unfold State.launchDone
  (repeat' split) <;> simp [hs]

theorem memWf_evqOk (hs : memWf s.mem = true) (e : Env) (evq : Word) : memWf (s.evqOk e evq).1.mem = true := by
  unfold State.evqOk
  grind -ring -order -lia -linarith [memWf_eQueue]

theorem cmdWf_launch (hs : memWf s.mem = true) (b : List Byte) : CmdWf (s.launch b) := by
  unfold State.launch
  dsimp only
  split
  · exact hs
  · split
    · rename_i heq
      exact memWf_of_fst (memWf_eAddr hs ..) heq
    · rename_i heq
      exact memWf_of_fst (memWf_eAddr hs ..) heq
    · rename_i t ps heq
      have ht := memWf_of_fst (memWf_eAddr hs ..) heq
      split
      · exact ht
      · refine cmdWf_ite ht <| cmdWf_ite ht <| cmdWf_ite ht ?_
        split
        · rename_i heq
          exact memWf_of_fst (memWf_eQueue ht ..) heq
        · rename_i heq
          exact memWf_of_fst (memWf_eQueue ht ..) heq
        · rename_i heq
          have hq := memWf_of_fst (memWf_eQueue ht ..) heq
          refine cmdWf_ite hq ?_
          split
          · rename_i heq
            exact memWf_of_fst (memWf_evqOk hq ..) heq
          · rename_i heq
            exact memWf_of_fst (memWf_evqOk hq ..) heq
          · rename_i heq
            have hv := memWf_of_fst (memWf_evqOk hq ..) heq
            refine cmdWf_ite hv <| cmdWf_ite hv <| cmdWf_ite hv ?_
            split
            · exact hv
            · apply cmdWf_launchDone
              apply memWf_launchFill
              exact memWf_putFieldW hv ..

theorem outWf_execLaunch (hs : memWf s.mem = true) (c : HostCmd) : OutWf (execLaunch c s) := by
  unfold execLaunch
  grind -ring -order -lia -linarith [outWf_command, cmdWf_launch, cmdWf_launchDone]

theorem cmdWf_haltDone (hs : memWf s.mem = true) (b : List Byte) : CmdWf (s.haltDone b) := by
  unfold State.haltDone
  split <;> simp [hs]

theorem outWf_execHalt (hs : memWf s.mem = true) (c : HostCmd) : OutWf (execHalt c s) := by
  unfold execHalt
  grind -ring -order -lia -linarith [outWf_command, cmdWf_cmdResState, cmdWf_haltDone, State.haltGang_mem, foldl_mem]

theorem cmdWf_withHalted {b : List Byte} {k : Nat → Team → CmdRes} (hs : memWf s.mem = true)
    (hk : ∀ n team, CmdWf (k n team)) : CmdWf (s.withHalted b k) := by
  unfold State.withHalted
  grind -ring -order -lia -linarith [cmdWf_cmdResBad, cmdWf_cmdResState]

theorem outWf_execResume (hs : memWf s.mem = true) (c : HostCmd) : OutWf (execResume c s) :=
  outWf_command1 hs fun _ _ ht => by
    simp [cmdWf_withHalted, ht]

theorem outWf_execKill (hs : memWf s.mem = true) (c : HostCmd) : OutWf (execKill c s) :=
  outWf_command1 hs fun _ _ ht => by
    simp [cmdWf_withHalted, ht]

theorem outWf_command2 {i : Instr} {c : HostCmd} {opc : Nat} {run : State → List Byte → CmdRes}
    (hs : memWf s.mem = true) (hk : ∀ t b, memWf t.mem = true → CmdWf (run t b)) :
    OutWf (s.command2 i c opc run) := by
  unfold State.command2
  grind -ring -order -lia -linarith [outWf_command]

theorem outWf_execStrd (hs : memWf s.mem = true) (c : HostCmd) : OutWf (execStrd c s) := by
  unfold execStrd
  grind -ring -order -lia -linarith [outWf_command2, cmdWf_cmdResBad, cmdWf_withHalted, memWf_readOver,
    State.stirRead_mem, CmdWf]

theorem outWf_execStwr (hs : memWf s.mem = true) (c : HostCmd) : OutWf (execStwr c s) := by
  unfold execStwr
  grind -ring -order -lia -linarith [outWf_command2, cmdWf_cmdResBad, cmdWf_withHalted, cmdWf_cmdResDone,
    memWf_devWrite, State.stir_mem, CmdWf]

theorem outWf_execGridend (hs : memWf s.mem = true) (c : HostCmd) : OutWf (execGridend c s) := by
  refine outWf_command2 hs fun s b hs => ?_
  dsimp only
  split
  · exact hs
  · have hf := memWf_flushPosts hs
    refine cmdWf_ite hs <| cmdWf_ite ?_ <| cmdWf_ite hf ?_
    · simpa using hf
    · exact memWf_devWrite hf ..

theorem memWf_takeRecords (hs : memWf s.mem = true) (e : Env) (q : QDesc) (n i : Nat) :
    memWf (s.takeRecords e q n i).1.mem = true := by
  induction n generalizing s i with
  | zero => exact hs
  | succ n ih =>
    have ha := memWf_eAddr hs e .read (q.slot i) q.esz 1
    unfold State.takeRecords
    split <;> simp_all

theorem cmdWf_evdrain {s0 : State} (hs : memWf s0.mem = true) (b : List Byte) : CmdWf (s0.evdrain b) := by
  unfold State.evdrain
  grind -ring -order -lia -linarith [cmdWf_cmdResBad, memWf_eQueue, memWf_takeRecords, memWf_putFieldW, CmdWf]

theorem outWf_execEvdrain (hs : memWf s.mem = true) (c : HostCmd) : OutWf (execEvdrain c s) :=
  outWf_command2 hs fun _ _ ht => cmdWf_evdrain ht ..

theorem cmdWf_powerDone (hs : memWf s.mem = true) (mask : Nat) : CmdWf (s.powerDone mask) := by
  unfold State.powerDone
  split <;> simp [hs]

theorem outWf_execPower (hs : memWf s.mem = true) (c : HostCmd) : OutWf (execPower c s) := by
  refine outWf_command hs (fun s b hs => ?_) fun s n hs => cmdWf_powerDone hs n
  refine cmdWf_ite hs <| cmdWf_ite hs <| cmdWf_ite hs <| cmdWf_ite hs <| cmdWf_ite hs ?_
  apply cmdWf_powerDone
  rw [foldl_mem _ _ fun _ _ => State.setDie_mem .., foldl_mem _ _ fun _ _ => State.powerUp_mem .., foldl_mem]
  · exact hs
  · intro t d
    rw [foldl_mem _ _ fun _ _ => State.retune_mem .., State.setDie_mem]

theorem cmdWf_configure {b : List Byte} {f : State → State} (hs : memWf s.mem = true)
    (hk : ∀ t, memWf t.mem = true → memWf (f t).mem = true) : CmdWf (s.configure b f) := by
  unfold State.configure
  grind -ring -order -lia -linarith [optWf_measure, cmdWf_cmdResState, cmdWf_cmdResDone, OptWf]

theorem outWf_execSetdst (hs : memWf s.mem = true) (c : HostCmd) : OutWf (execSetdst c s) :=
  outWf_command1 hs fun _ _ ht => by
    (repeat' split) <;> simp [cmdWf_configure, ht]

theorem outWf_execDomain (hs : memWf s.mem = true) (c : HostCmd) : OutWf (execDomain c s) := by
  unfold execDomain
  grind -ring -order -lia -linarith [outWf_command2, cmdWf_cmdResBad, cmdWf_cmdResState, cmdWf_configure,
    memWf_renumber, State.stir_mem, CmdWf]

theorem outWf_execEndpoints (hs : memWf s.mem = true) (c : HostCmd) : OutWf (execEndpoints c s) := by
  unfold execEndpoints
  grind -ring -order -lia -linarith [outWf_command1, cmdWf_cmdResBad, cmdWf_configure]

theorem cmdWf_l1part {b : List Byte} {k : Nat → BitVec 12 → CmdRes} (hs : memWf s.mem = true)
    (hk : ∀ n ctx, CmdWf (k n ctx)) : CmdWf (s.l1part b k) := by
  unfold State.l1part
  grind -ring -order -lia -linarith [cmdWf_cmdResBad]

theorem cmdWf_setWays (hs : memWf s.mem = true) (b : List Byte) (agent : Nat) (ctx : BitVec 12) :
    CmdWf (s.setWays b agent ctx) :=
  hs

theorem cmdWf_readCounters (hs : memWf s.mem = true) (agent : Nat) (ctx : BitVec 12) :
    CmdWf (s.readCounters agent ctx) :=
  hs

theorem outWf_execL1partSet (hs : memWf s.mem = true) (c : HostCmd) : OutWf (execL1partSet c s) := by
  unfold execL1partSet
  grind -ring -order -lia -linarith [outWf_command1, cmdWf_l1part, cmdWf_setWays, OutWf]

theorem outWf_execL1partRead (hs : memWf s.mem = true) (c : HostCmd) : OutWf (execL1partRead c s) := by
  unfold execL1partRead
  grind -ring -order -lia -linarith [outWf_command1, cmdWf_l1part, cmdWf_readCounters, OutWf]

theorem outWf_execIdentity (hs : memWf s.mem = true) (c : HostCmd) : OutWf (execIdentity c s) :=
  outWf_command1 hs fun _ _ ht => by
    simp [ht]

theorem outWf_execAttest (hs : memWf s.mem = true) (c : HostCmd) : OutWf (execAttest c s) :=
  outWf_command1 hs fun _ _ ht => by
    simp [ht]

theorem outWf_execFwstage (hs : memWf s.mem = true) (c : HostCmd) : OutWf (execFwstage c s) := by
  unfold execFwstage
  grind -ring -order -lia -linarith [outWf_command1, cmdWf_cmdResBad, cmdWf_cmdResDone]

theorem outWf_execFwcommit (hs : memWf s.mem = true) (c : HostCmd) : OutWf (execFwcommit c s) := by
  unfold execFwcommit
  grind -ring -order -lia -linarith [outWf_command1, cmdWf_cmdResBad, optWf_measure, cmdWf_cmdResState,
    cmdWf_cmdResDone, OptWf]

theorem outWf_execLogrd (hs : memWf s.mem = true) (c : HostCmd) : OutWf (execLogrd c s) :=
  outWf_command1 hs fun _ _ ht => by
    (repeat' split) <;> simp [ht]

/-! ### Predicate and lane instructions -/

theorem outWf_pred3 (hs : memWf s.mem = true) (o : R3) (g : Bool → Bool → Bool) : OutWf (s.pred3 o g) :=
  outWf_alu hs ..

theorem outWf_execKset (hs : memWf s.mem = true) (o : R2) : OutWf (execKset o s) := by
  unfold execKset
  split <;> simp [outWf_alu, outWf_issue, hs]

theorem outWf_execKbal (hs : memWf s.mem = true) (o : R2) : OutWf (execKbal o s) := by
  unfold execKbal
  grind -ring -order -lia -linarith [outWf_issue, State.startIssue_mem, State.emulate_mem, State.done_mem, OutWf]

theorem outWf_execVote (hs : memWf s.mem = true) (fn : VoteFn) (o : R2) : OutWf (execVote fn o s) :=
  outWf_issue hs fun _ _ _ ht => by
    simp [ht]

theorem outWf_execShfl (hs : memWf s.mem = true) (w64 : Bool) (mode : ShflMode) (o : R4) :
    OutWf (execShfl w64 mode o s) :=
  outWf_issue hs fun _ _ _ ht => by
    simp [ht]

theorem outWf_execGred (hs : memWf s.mem = true) (op : GOp) (ty : ITy) (o : R2) : OutWf (execGred op ty o s) :=
  outWf_issue hs fun _ _ _ ht => by
    simp [ht]

theorem outWf_execGscan (hs : memWf s.mem = true) (op : GOp) (ty : ITy) (o : R2) : OutWf (execGscan op ty o s) :=
  outWf_issue hs fun _ _ _ ht => by
    simp [ht]

theorem outWf_execRdlane (hs : memWf s.mem = true) (o : R3) : OutWf (execRdlane o s) :=
  outWf_issue hs fun _ _ _ ht => by
    simp [ht]

theorem outWf_execWrlane (hs : memWf s.mem = true) (o : R3) : OutWf (execWrlane o s) :=
  outWf_issue hs fun _ _ _ ht => by
    simp [ht]

theorem outWf_execIxw (hs : memWf s.mem = true) (p : Pre) (i : BitVec 2) (a : Opd) (imm : BitVec 24) :
    OutWf (execIxw p i a imm s) :=
  outWf_issue hs fun _ _ _ ht => by
    simp [ht]

/-! ### Special registers -/

theorem outWf_execSrd (hs : memWf s.mem = true) (p : Pre) (ixs : BitVec 2) (d : Opd) (r : SpReg) :
    OutWf (execSrd p ixs d r s) := by
  unfold execSrd
  (repeat' split) <;> simp [outWf_issue, hs]

@[simp] theorem State.swr_mem (v : View) (r : SpReg) (x : Word) : (s.swr v r x).1.mem = s.mem := by
  unfold State.swr
  (repeat' split) <;> rfl

theorem outWf_execSwr (hs : memWf s.mem = true) (p : Pre) (ixs : BitVec 2) (a : Opd) (r : SpReg) :
    OutWf (execSwr p ixs a r s) := by
  unfold execSwr
  grind -ring -order -lia -linarith [outWf_issue, State.haltV_mem, State.retire_mem, State.swr_mem, OutWf]

/-! ### The dispatcher -/

/-- Every instruction of a thread, event and command keeps the canonical form. -/
theorem outWf_exec (hs : memWf s.mem = true) : ∀ i, OutWf (exec i s)
  | .nop p => outWf_execNop hs p
  | .bra stall off => outWf_execBra hs stall off
  | .brcDiv stall bn bk off => outWf_execBrcDiv hs stall bn bk off
  | .brcAny stall bn bk off => outWf_execBrcAny hs stall bn bk off
  | .brcAll stall bn bk off => outWf_execBrcAll hs stall bn bk off
  | .brx stall a off => outWf_execBrx hs stall a off
  | .call stall a off => outWf_execCall hs stall a off
  | .ret stall a => outWf_execRet hs stall a
  | .exit stall => outWf_execExit hs stall
  | .gjoin stall off => outWf_execGjoin hs stall off
  | .yield stall => outWf_execYield hs stall
  | .bkpt p code => outWf_execBkpt hs p code
  | .trapu p code => outWf_execTrapu hs p code
  | .retu stall => outWf_execRetu hs stall
  | .iadd sat ty o => outWf_execIadd hs sat ty o
  | .isub sat ty o => outWf_execIsub hs sat ty o
  | .imul ty o => outWf_execImul hs ty o
  | .imulh ty o => outWf_execImulh hs ty o
  | .imad .. => outWf_alu hs ..
  | .imin ty o => outWf_execImin hs ty o
  | .imax ty o => outWf_execImax hs ty o
  | .iabs .. => outWf_alu hs ..
  | .icmp .. => outWf_alu hs ..
  | .idiv rem ty o => outWf_execIdiv hs rem ty o
  | .lea .. => outWf_alu hs ..
  | .iaddi .. => outWf_alu hs ..
  | .imuli .. => outWf_alu hs ..
  | .icmpi .. => outWf_alu hs ..
  | .movi .. => outWf_alu hs ..
  | .movk .. => outWf_alu hs ..
  | .and w64 o => outWf_execAnd hs w64 o
  | .or w64 o => outWf_execOr hs w64 o
  | .xor w64 o => outWf_execXor hs w64 o
  | .andn w64 o => outWf_execAndn hs w64 o
  | .shl w64 o => outWf_execShl hs w64 o
  | .shr w64 o => outWf_execShr hs w64 o
  | .sra w64 o => outWf_execSra hs w64 o
  | .rot w64 o => outWf_execRot hs w64 o
  | .bfe .. => outWf_alu hs ..
  | .bfi .. => outWf_alu hs ..
  | .popc .. => outWf_alu hs ..
  | .clz .. => outWf_alu hs ..
  | .brev .. => outWf_alu hs ..
  | .sel .. => outWf_alu hs ..
  | .mov .. => outWf_alu hs ..
  | .logi .. => outWf_alu hs ..
  | .fadd f o => outWf_execFadd hs f o
  | .fsub f o => outWf_execFsub hs f o
  | .fmul f o => outWf_execFmul hs f o
  | .ffma .. => outWf_alu hs ..
  | .fmin ftz o => outWf_execFmin hs ftz o
  | .fmax ftz o => outWf_execFmax hs ftz o
  | .fcmp .. => outWf_alu hs ..
  | .fclass .. => outWf_alu hs ..
  | .frcp .. => outWf_approx hs ..
  | .frsq .. => outWf_approx hs ..
  | .fsqrt .. => outWf_alu hs ..
  | .fdiv f o => outWf_execFdiv hs f o
  | .fexp2 .. => outWf_approx hs ..
  | .flog2 .. => outWf_approx hs ..
  | .fsin .. => outWf_approx hs ..
  | .fcos .. => outWf_approx hs ..
  | .hadd2 .. => outWf_alu hs ..
  | .hmul2 .. => outWf_alu hs ..
  | .hfma2 .. => outWf_alu hs ..
  | .hmin2 .. => outWf_alu hs ..
  | .hmax2 .. => outWf_alu hs ..
  | .dot4 .. => outWf_alu hs ..
  | .ftanh .. => outWf_approx hs ..
  | .fldx .. => outWf_alu hs ..
  | .cvt .. => outWf_alu hs ..
  | .cvtp .. => outWf_alu hs ..
  | .frnd .. => outWf_alu hs ..
  | .kand .. => outWf_pred3 hs ..
  | .kor .. => outWf_pred3 hs ..
  | .kxor .. => outWf_pred3 hs ..
  | .knot .. => outWf_alu hs ..
  | .kbal o => outWf_execKbal hs o
  | .kset o => outWf_execKset hs o
  | .shfl w64 mode o => outWf_execShfl hs w64 mode o
  | .vote fn o => outWf_execVote hs fn o
  | .gred op ty o => outWf_execGred hs op ty o
  | .gscan op ty o => outWf_execGscan hs op ty o
  | .rdlane o => outWf_execRdlane hs o
  | .wrlane o => outWf_execWrlane hs o
  | .ixw p ix a imm => outWf_execIxw hs p ix a imm
  | .srd p ixs d r => outWf_execSrd hs p ixs d r
  | .swr p ixs a r => outWf_execSwr hs p ixs a r
  | .ld m => outWf_execLd hs m
  | .st m => outWf_execSt hs m
  | .bpk m => outWf_execBpk hs m
  | .bpx m => outWf_execBpx hs m
  | .pfch m => outWf_execPfch hs m
  | .xlat x xr => outWf_execXlat hs x xr
  | .cwb m => outWf_execCwb hs m
  | .icinv m => outWf_execIcinv hs m
  | .fbar p => outWf_execFbar hs p
  | .fence p ord => outWf_execFence hs p ord
  | .atom op a => outWf_execAtom hs op a
  | .acas a => outWf_execAcas hs a
  | .red op a => outWf_execRed hs op a
  | .mcas n a => outWf_execMcas hs n a
  | .lda a => outWf_execLda hs a
  | .sta a => outWf_execSta hs a
  | .waitu eq a => outWf_execWaitu hs eq a
  | .bcopy x xr slot1 slot2 conv mask => outWf_execBcopy hs x xr slot1 slot2 conv mask
  | .bfill x xr sz => outWf_execBfill hs x xr sz
  | .waitc x path => outWf_execWaitc hs x path
  | .icnt x path => outWf_execIcnt hs x path
  | .slbq x xr => outWf_execSlbq hs x xr
  | .amodeSto .. => outWf_amode hs ..
  | .amodeRck .. => outWf_amode hs ..
  | .macq p q => outWf_execMacq hs p q
  | .mrel p q => outWf_execMrel hs p q
  | .mloop .. => outWf_mloop hs ..
  | .mloopRes .. => outWf_mloop hs ..
  | .mstat x q => outWf_execMstat hs x q
  | .mcal p sel => outWf_execMcal hs p sel
  | .mxscl x xr slot => outWf_execMxscl hs x xr slot
  | .qcvt x xr slot => outWf_execQcvt hs x xr slot
  | .dqcvt x xr slot => outWf_execDqcvt hs x xr slot
  | .barSync .. => outWf_bar hs ..
  | .barArrive .. => outWf_bar hs ..
  | .barinit x b => outWf_execBarinit hs x b
  | .spawn x => outWf_execSpawn hs x
  | .qpush x => outWf_execQpush hs x
  | .qpop x => outWf_execQpop hs x
  | .qfree x => outWf_execQfree hs x
  | .jdec x => outWf_execJdec hs x
  | .commit p => outWf_execCommit hs p
  | .forkg x => outWf_execForkg hs x
  | .grwd x => outWf_execGrwd hs x
  | .gbar x => outWf_execGbar hs x
  | .gcan x => outWf_execGcan hs x
  | .evpost x => outWf_execEvpost hs x
  | .phintMem .. => outWf_phint hs ..
  | .phintCmp .. => outWf_phint hs ..
  | .pgmap x => outWf_execPgmap hs x
  | .pgunmap x => outWf_execPgunmap hs x
  | .tlbinv x => outWf_execTlbinv hs x
  | .pgtake x => outWf_execPgtake hs x
  | .rets p => outWf_execRets hs p
  | .pclr x => outWf_execPclr hs x
  | .orclm x => outWf_execOrclm hs x
  | .haltg x => outWf_execHaltg hs x
  | .headerArrive a => outWf_execHeaderArrive hs a
  | .laneMerge ctx => outWf_execLaneMerge hs ctx
  | .rjtDetach gang => outWf_execRjtDetach hs gang
  | .rendezvousTimeout gang => outWf_execRendezvousTimeout hs gang
  | .earlyReturn ctx => outWf_execEarlyReturn hs ctx
  | .rejoinDeadlock gang => outWf_execRejoinDeadlock hs gang
  | .groupTimeout group => outWf_execGroupTimeout hs group
  | .groupParentPushRetry .. => outWf_retry hs ..
  | .joinPushRetry .. => outWf_retry hs ..
  | .dispatchPlace die => outWf_execDispatchPlace hs die
  | .launchPush .. => memWf_launchNext hs ..
  | .gangEnd gang => outWf_execGangEnd hs gang
  | .forwardProgressSwap core => outWf_execForwardProgressSwap hs core
  | .teamSaved team => outWf_execTeamSaved hs team
  | .priorityRestore gang => outWf_execPriorityRestore hs gang
  | .copyStart core => outWf_execCopyStart hs core
  | .copyBeat core => outWf_execCopyBeat hs core
  | .copyComplete core => outWf_execCopyComplete hs core
  | .copyPageFault core => outWf_execCopyPageFault hs core
  | .seqRunStart core q => outWf_execSeqRunStart hs core q
  | .seqStepStart core q => outWf_execSeqStepStart hs core q
  | .seqRow core q => outWf_execSeqRow hs core q
  | .seqRunEnd core q => outWf_execSeqRunEnd hs core q
  | .pageWalk agent ctx va => outWf_execPageWalk hs agent ctx va
  | .loadDataLand a flight => outWf_execLoadDataLand hs a flight
  | .registrationRequest m => outWf_execRegistrationRequest hs m
  | .registrationGrant m => outWf_execRegistrationGrant hs m
  | .homeFill m => outWf_execHomeFill hs m
  | .forwardedLoad m => outWf_execForwardedLoad hs m
  | .revocation m => outWf_execRevocation hs m
  | .writeBack m => outWf_execWriteBack hs m
  | .farStore m => outWf_execFarStore hs m
  | .farAtomic m => outWf_execFarAtomic hs m
  | .storeAck m => outWf_execStoreAck hs m
  | .mcasLock m => outWf_execMcasLock hs m
  | .waituWake m => outWf_execWaituWake hs m
  | .waituPoll a => outWf_execWaituPoll hs a
  | .waituTimeout a => outWf_execWaituTimeout hs a
  | .ownerLost unit => outWf_execOwnerLost hs unit
  | .ownerLostNotice m => outWf_execOwnerLostNotice hs m
  | .remoteTimeout m => outWf_execRemoteTimeout hs m
  | .lateAnswer m => outWf_execLateAnswer hs m
  | .linkDown port => outWf_execLinkDown hs port
  | .rmaWrite ep key off bytes => outWf_execRmaWrite hs ep key off bytes
  | .rmaRead ep key off len => outWf_execRmaRead hs ep key off len
  | .winopen c => outWf_execWinopen hs c
  | .winclose c => outWf_execWinclose hs c
  | .launch c => outWf_execLaunch hs c
  | .halt c => outWf_execHalt hs c
  | .resume c => outWf_execResume hs c
  | .kill c => outWf_execKill hs c
  | .strd c => outWf_execStrd hs c
  | .stwr c => outWf_execStwr hs c
  | .evdrain c => outWf_execEvdrain hs c
  | .power c => outWf_execPower hs c
  | .dieGating die => outWf_execDieGating hs die
  | .setdst c => outWf_execSetdst hs c
  | .domain c => outWf_execDomain hs c
  | .l1partSet c => outWf_execL1partSet hs c
  | .l1partRead c => outWf_execL1partRead hs c
  | .endpoints c => outWf_execEndpoints hs c
  | .identity c => outWf_execIdentity hs c
  | .attest c => outWf_execAttest hs c
  | .fwstage c => outWf_execFwstage hs c
  | .fwcommit c => outWf_execFwcommit hs c
  | .logrd c => outWf_execLogrd hs c
  | .gridend c => outWf_execGridend hs c
  | .reset => outWf_execReset hs
  | .islandEnterNear island => outWf_execIslandEnterNear hs island
  | .islandLeaveNear island => outWf_execIslandLeaveNear hs island
  | .islandTransitionDone island => outWf_execIslandTransitionDone hs island
  | .droop cluster => outWf_execDroop hs cluster
  | .sag cluster up => outWf_execSag hs cluster up
  | .softError site => outWf_execSoftError hs site
  | .unsupportedFeaturePacket ep tag => outWf_execUnsupportedFeaturePacket hs ep tag
  | .unknownOpc c => outWf_execUnknownOpc hs c
  | .instructionCacheFill a line => outWf_execInstructionCacheFill hs a line
  | .icinvRemovalAck a flight => outWf_execIcinvRemovalAck hs a flight
  | .droopEnd cluster => outWf_execDroopEnd hs cluster

/-! ### Threads, events and the order of what happens -/

theorem outWf_rejectWord (hs : memWf s.mem = true) (w : Word) (cause : Nat) : OutWf (s.rejectWord w cause) := by
  unfold State.rejectWord
  grind -ring -order -lia -linarith [State.startIssue_mem, State.earlyReturn_mem, State.haltV_mem, State.emulate_mem,
    OutWf]

theorem outWf_runWord (hs : memWf s.mem = true) (v : View) (w : Word) : OutWf (s.runWord v w) := by
  unfold State.runWord
  (repeat' split) <;> simp [outWf_rejectWord, outWf_exec, hs]

@[simp] theorem State.dropWord_mem (v : View) : (s.dropWord v).mem = s.mem := by simp [State.dropWord]

theorem outWf_fetchRun (hs : memWf s.mem = true) (v : View) : OutWf (s.fetchRun v) := by
  unfold State.fetchRun
  grind -ring -order -lia -linarith [memWf_fetch, memWf_fetchFault, outWf_runWord, State.haltV_mem, State.setThr_mem,
    State.dropWord_mem, OutWf]

@[simp] theorem State.ownsSeqs_mem (n : Nat) : (s.ownsSeqs n).mem = s.mem := rfl

theorem outWf_threadStep (hs : memWf s.mem = true) (v : View) : OutWf (s.threadStep v) := by
  unfold State.threadStep
  grind -ring -order -lia -linarith [memWf_takeEngFault, memWf_settleGang, outWf_arriveHeader, outWf_loadHeader,
    outWf_fetchRun, State.dropLane_mem, State.endMonitors_mem, State.cancelGang_mem, State.atIssue_mem,
    State.ownsSeqs_mem, OutWf]

theorem memWf_freed (hs : memWf s.mem = true) (before : State) : memWf (s.freed before).mem = true := by
  unfold State.freed
  grind -ring -order -lia -linarith

theorem memWf_wrapUp {before : State} (hb : memWf before.mem = true) (hs : memWf s.mem = true) :
    memWf (s.wrapUp before).mem = true := by
  unfold State.wrapUp
  split
  · simpa using hb
  · extract_lets tried t
    have hk {s t : State} (hs : memWf s.mem = true) (ht : memWf t.mem = true) : memWf (tried s t).mem = true := by
      dsimp only [tried]
      split
      · exact ht
      · simpa using hs
    have ht : memWf t.mem = true := memWf_settleHome (hk hs (memWf_flushAreas (memWf_flushPosts hs)))
    exact memWf_watchIslands (memWf_freed (by simpa using hk ht (memWf_settleWaits ht)) ..) ..

@[simp] theorem State.counted_mem (before : State) (v : View) : (s.counted before v).mem = s.mem := by
  unfold State.counted
  grind -ring -order -lia -linarith [State.countIssue_mem]

theorem outWf_issueThread (hs : memWf s.mem = true) (a : Actor) : OutWf (s.issueThread a) := by
  unfold State.issueThread
  grind -ring -order -lia -linarith [outWf_withStack, outWf_threadStep, memWf_wrapUp, State.counted_mem, OutWf]

theorem outWf_runEvent (hs : memWf s.mem = true) (i : Instr) : OutWf (s.runEvent i) := by
  unfold State.runEvent
  grind -ring -order -lia -linarith [outWf_exec, memWf_wrapUp, OutWf]

theorem outWf_runOp (hs : memWf s.mem = true) (k : Nat) : OutWf (s.runOp k) := by
  unfold State.runOp
  grind -ring -order -lia -linarith [outWf_runEvent, OutWf]

theorem outWf_issueNext (hs : memWf s.mem = true) (a : Actor) : OutWf (s.issueNext a) := by
  unfold State.issueNext
  grind -ring -order -lia -linarith [outWf_issueThread, OutWf]

/-! ### One step -/

theorem memWf_of_firstMove {fs : List (State → Out)} {t : State} (hf : ∀ f ∈ fs, OutWf (f s))
    (h : firstMove s fs = some (.next t)) : memWf t.mem = true := by
  induction fs with
  | nil => simp [firstMove] at h
  | cons f fs ih =>
    have rest := ih fun g hg => hf g (by simp [hg])
    unfold firstMove at h
    split at h
    · rename_i u he
      split at h
      · obtain rfl : u = t := by simpa using h
        exact (hf f (by simp)).of_next he
      · exact rest h
    · exact rest h

theorem memWf_of_auto {t : State} (hs : memWf s.mem = true) (h : s.auto = .next t) : memWf t.mem = true := by
  unfold State.auto at h
  split at h
  · rename_i heq
    subst h
    refine memWf_of_firstMove ?_ heq
    simp only [List.mem_append, List.mem_map]
    rintro _ (⟨i, -, rfl⟩ | ⟨w, -, rfl⟩)
    · exact outWf_runEvent hs i
    · exact outWf_runOp hs w.1
  · split at h
    · rename_i heq
      subst h
      refine memWf_of_firstMove ?_ heq
      simp only [List.mem_map]
      rintro _ ⟨a, -, rfl⟩
      exact outWf_issueNext hs a
    · obtain rfl := Host.Outcome.next.inj h
      exact hs

theorem memWf_of_happen {t : State} (hs : memWf s.mem = true) (h : s.happen = .next t) : memWf t.mem = true := by
  unfold State.happen at h
  split at h
  · exact memWf_of_auto hs h
  · rename_i e rest _
    dsimp only at h
    cases e with
    | event i => exact (outWf_runEvent (s := { s with inputs := rest }) hs i).of_next h
    | issue a => exact (outWf_issueThread (s := { s with inputs := rest }) hs a).of_next h
    | again k => exact (outWf_runOp (s := { s with inputs := rest }) hs k).of_next h
    | elapse n =>
      obtain rfl := Host.Outcome.next.inj h
      exact hs
    | msg b =>
      obtain rfl := Host.Outcome.next.inj h
      simpa using hs

end

/-- Settles O6: each function that answers a state leaves the memory alone or reaches it through writes of single bytes,
which keep the canonical form (`memWf_memSetByte`). The lemmas above say so in the order of the model, up to what happens
next, which is the step. -/
theorem stepKeepsMemoryCanonical : Obligations.StepKeepsMemoryCanonical := fun _ _ => memWf_of_happen

end Sys2Proof.Machine

namespace Sys2Proof.Machine

/-! ## A gang's step through a word that decodes (O4)

One equation for each function between the step and the instruction, the function called before the one that calls it. -/

theorem State.uid_of_viewOf_gang {s : State} {u : Nat} {v : View} (h : s.viewOf (.gang u) = some v) : v.uid = u := by
  obtain ⟨g, -, rfl⟩ := Option.map_eq_some_iff.mp h
  rfl

/-- R70: a word whose OP is not 0xFF (R32), permitted to the thread, runs as what it decodes to. -/
theorem State.runWord_of_decode (s : State) {v : View} {w : Word} {i : Instr} (hop : opByte w ≠ 0xFF#8)
    (hpriv : privileged w = true → v.sup = true) (hdec : decode w = .ok i) : s.runWord v w = exec i s := by
  have permitted : (privileged w && !v.sup) = false := by
    cases hp : privileged w with
    | false => rfl
    | true => simp [hpriv hp]
  simp [State.runWord, hop, permitted, hdec]

/-- R199: a word that is fetched enters the fetch buffer before it runs, and leaves it if the thread has left it. -/
theorem State.fetchRun_of_word {s s2 s3 : State} {v : View} {w : Word} (hf : s.fetch v v.t.pc = (s2, .word w))
    (hrun : (s2.setThr v.a { v.t with fbuf := tput v.t.fbuf v.t.pc.toNat w }).runWord
      { v with t := { v.t with fbuf := tput v.t.fbuf v.t.pc.toNat w } } w = .next s3) :
    s.fetchRun v = .next (s3.dropWord v) := by
  simp only [State.fetchRun, hf, hrun]

/-- R19, R27: a gang that may issue, past its block's header and with nothing else due to it, fetches a word. -/
theorem State.threadStep_of_mayIssue {s : State} {v : View} (hfault : v.g.engFaults = [])
    (hcancel : (s.teamOf v.g).cancelled = false) (hmay : s.mayIssue v = true) (hact : v.act ≠ 0)
    (hpast : v.t.atHdr = false) (hhdr : isHdr v.t.hdr = true) :
    s.threadStep v = ((s.ownsSeqs v.g.team).atIssue v).fetchRun v := by
  have active : v.act ≠ 0#64 := hact
  simp [State.threadStep, hfault, hcancel, hmay, active, hpast, hhdr]

/-- R377, R378: where a gang's spilled entries can be brought back, an action sees the whole stack, and what exceeds the
hardware's sixteen is put back after it. -/
theorem State.withStack_of_next {s s1 s2 : State} {u : Nat} {f : State → Out} (hun : s.unspill u = .ok s1)
    (hf : f s1 = .next s2) : s.withStack u f = .next (State.respill s s2 u) := by
  simp only [State.withStack, hun, hf]

/-- R377, R485: a gang's step between the return of its spilled entries and what follows every step. -/
theorem State.issueThread_of_threadStep {s s0 s1 s2 : State} {u : Nat} {v0 v : View}
    (hs0 : s0 = { s with cur := some (.gang u) }) (hv0 : s0.viewOf (.gang u) = some v0) (hun : s0.unspill u = .ok s1)
    (hv : s1.viewOf (.gang u) = some v) (ht : s1.threadStep v = .next s2) :
    s.issueThread (.gang u) = .next (((State.respill s0 s2 u).counted s0 v0).wrapUp s0) := by
  obtain rfl := State.uid_of_viewOf_gang hv0
  subst hs0
  simp only [State.issueThread, hv0]
  rw [State.withStack_of_next (s2 := s2) hun (by simp only [hv, ht])]

/-- A step takes the issue that the schedule prescribes next. -/
theorem step_of_issue {s : State} {a : Actor} {rest : List Happening} (h : s.inputs = .issue a :: rest) :
    step s = ({ s with inputs := rest } : State).issueThread a := by
  simp only [step, State.happen, h]

/-- Settles O4: the prescribed issue is the gang's step (`step_of_issue`), which goes on to the fetch
(`State.threadStep_of_mayIssue`), and the fetched word runs as what it decodes to (`State.runWord_of_decode`). -/
theorem stepRunsTheDecodedInstruction : Obligations.StepRunsTheDecodedInstruction := by
  intro s s0 s1 s2 s3 rest u v0 v w i hin hs0 hv0 hun hv hfault hcancel hmay hact hpast hhdr hfetch hop hpriv hdec hexec
  have run : ((s1.ownsSeqs v.g.team).atIssue v).fetchRun v = .next (s3.dropWord v) :=
    State.fetchRun_of_word hfetch ((State.runWord_of_decode _ hop hpriv hdec).trans hexec)
  have thread : s1.threadStep v = .next (s3.dropWord v) :=
    (State.threadStep_of_mayIssue hfault hcancel hmay hact hpast hhdr).trans run
  calc step s = ({ s with inputs := rest } : State).issueThread (.gang u) := step_of_issue hin
    _ = _ := State.issueThread_of_threadStep hs0 hv0 hun hv thread

end Sys2Proof.Machine
